-- ==== Sys2Proof/Word.lean ====
section
/-! DEFINITION. The word types of the FL6418 and their plainest arithmetic (00_scope.md section 4; R25, R27, R144). -/

namespace Sys2Proof

/-- A word: a 16-bit quantity in a register, in a table or in the buffer. -/
abbrev Word := BitVec 16

/-- A value of the 48-bit time counter (R144). -/
abbrev Time48 := BitVec 48

/-- The number of a source, 0 … 23 (R19). -/
abbrev SourceId := Fin 24

end Sys2Proof
end

