-- ==== Sys2Proof/Syntax.lean ====
section
/-! DEFINITION. The commands of the FL6418: one constructor per row of spec/opcode_table.json, and the bus accesses they are made of (R157). -/

namespace Sys2Proof

/-- One access of the host to the register window (R157): A[6:1], and for a write the written word. `raised` says of a read that the
host raises its strobes before WAIT# rises, should the read be held (R158); of a write the host learns nothing, so it makes no
difference there. -/
inductive HostAccess where
  | read (a : BitVec 6) (raised : Bool)
  | write (a : BitVec 6) (w : Word)
  deriving DecidableEq, Repr

/-- An access of the host that needs the buffer's port (R165): a write of APPEND_DATA, a read or a write of BUF_DATA. -/
inductive PortAccess where
  | append (w : Word)
  | bufRead (raised : Bool)
  | bufWrite (w : Word)
  deriving DecidableEq, Repr

/-- The three registers that are writable only while the link is STOPPED (R125). -/
inductive ClockReg where
  | clkMode
  | bitDiv
  | lossTimeout
  deriving DecidableEq, Repr

/-- An event that can fall while a cell is composed (R96, R97, R155, R166, R174): any access of the host, a watermark check being
taken (R53), or an event of the time counter or of the commit controller. -/
inductive CellEvent where
  | access (h : HostAccess)
  | watermarkCheck (src : SourceId)
  | tick
  | tsyncEdge
  | validationEnd
  | copyBackEnd
  deriving DecidableEq, Repr

/-- What falls before one consult of a cell and after the consult before it: the events in their order, and at the instant of the
consult itself an access that asks the arbiter for the port together with the composer (R165). -/
structure CellGap where
  events : List CellEvent
  tied : Option PortAccess
  deriving DecidableEq, Repr

/-- The commands. Where a row is a write, its operand is what of the written word the row leaves open: for a RUN_CTRL request the
bits above the request and mode fields, which error capture records (R185); for a source command the source number. -/
inductive Instr where
  /-- HARDWARE_RESET: RESET# is asserted; `powerUp` says whether it is a power-up, after which the buffer is undefined (R171). -/
  | hardwareReset (powerUp : Bool)
  /-- SOFT_RESET: a write of any word to SOFT_RESET (R170). -/
  | softReset (w : Word)
  /-- START: `rest` is bits 15 … 4 of the word written to RUN_CTRL (R133, R185). -/
  | start (rest : BitVec 12)
  /-- START_EDGE: a rising edge on START (R134). -/
  | startEdge
  /-- STOP_END_MINOR: `rest` is bits 15 … 6 of the word written to RUN_CTRL (R135). -/
  | stopEndMinor (rest : BitVec 10)
  /-- STOP_END_MAJOR: as above (R135). -/
  | stopEndMajor (rest : BitVec 10)
  /-- ABORT: as above (R138). -/
  | abort (rest : BitVec 10)
  /-- CLEAR_HALT: `rest` is bits 15 … 4 of the word written to RUN_CTRL (R140). -/
  | clearHalt (rest : BitVec 12)
  /-- STOPPING_END: the falling edge that ends the last bit period of the target row (R137). -/
  | stoppingEnd
  /-- CLOCK_LOSS_EXPIRY: the clock-loss timer runs out (R139). -/
  | clockLossExpiry
  /-- CELL_COMPOSE: the first bit of the lookahead cell leaves and its successor is composed (R9, R10); the k-th of `gaps` falls
  before the k-th consult of the composed cell (R96, R97, R166). `reading` says that the next command finds the last buffer read of the
  composition, if there is one, still in progress (R165). -/
  | cellCompose (gaps : List CellGap) (reading : Bool := false)
  /-- WATERMARK_CHECK: the refill queue takes a check handed over for `src` (R53). -/
  | watermarkCheck (src : SourceId)
  /-- OPEN (R45), with the source number of the write to SRC_CMD. -/
  | openSource (src : BitVec 8)
  /-- CLOSE (R46). -/
  | closeSource (src : BitVec 8)
  /-- KILL (R47). -/
  | kill (src : BitVec 8)
  /-- FLUSH (R48). -/
  | flush (src : BitVec 8)
  /-- APPEND: a write of APPEND_DATA (R31, R32). -/
  | append (w : Word)
  /-- REFILL_POP: a write of any word to REFILL_POP (R57). -/
  | refillPop (w : Word)
  /-- TABLE_DATA_WRITE (R164). -/
  | tableDataWrite (w : Word)
  /-- TABLE_DATA_READ (R163); `raised`: the host raises its strobes before WAIT# rises, should the read be held (R158). -/
  | tableDataRead (raised : Bool := false)
  /-- TBL_SEL_WRITE (R161). -/
  | tblSelWrite (w : Word)
  /-- TBL_INDEX_WRITE (R162). -/
  | tblIndexWrite (w : Word)
  /-- BUF_DATA_READ (R168); `raised` as above. -/
  | bufDataRead (raised : Bool := false)
  /-- BUF_DATA_WRITE (R168). -/
  | bufDataWrite (w : Word)
  /-- COMMIT (R107). -/
  | commit
  /-- COMMIT_CANCEL (R108). -/
  | commitCancel
  /-- VALIDATION_END (R109, R115, R116). -/
  | validationEnd
  /-- COPY_BACK_END (R119). -/
  | copyBackEnd
  /-- TICK (R144, R148). -/
  | tick
  /-- TSYNC_EDGE: a rising edge of TSYNC (R149). -/
  | tsyncEdge
  /-- TICK_DIV_WRITE (R145). -/
  | tickDivWrite (w : Word)
  /-- LOAD_AT_TICK (R147). -/
  | loadAtTick
  /-- LOAD_AT_TSYNC (R147). -/
  | loadAtTsync
  /-- TIME_CANCEL (R147). -/
  | timeCancel
  /-- TIME_READ_H (R152). -/
  | timeReadH
  /-- CLOCK_REGISTER_WRITE (R125). -/
  | clockRegisterWrite (r : ClockReg) (w : Word)
  /-- INT_FLAGS_WRITE (R173). -/
  | intFlagsWrite (w : Word)
  /-- INT_ENABLE_WRITE (R175). -/
  | intEnableWrite (w : Word)
  /-- ERR_KIND_WRITE: a write of any word to ERR_KIND (R179). -/
  | errKindWrite (w : Word)
  /-- REGISTER_WRITE: a write at A[6:1] = `a` to a register that no other row names (R159). -/
  | registerWrite (a : BitVec 6) (w : Word)
  /-- BIT_PERIOD_START: a falling edge that begins a bit period other than a cell's first (R127, R130). -/
  | bitPeriodStart
  /-- BCLKI_RISING_EDGE (R129, R139). -/
  | bclkiRisingEdge
  /-- RESET_RELEASE (R154, R160). -/
  | resetRelease
  /-- RUN_CTRL_UNDEFINED_REQUEST, with the written word (R132). -/
  | runCtrlUndefinedRequest (w : Word)
  /-- COMMIT_CTRL_UNDEFINED_REQUEST, with the written word (R106). -/
  | commitCtrlUndefinedRequest (w : Word)
  /-- SRC_CMD_UNDEFINED_COMMAND, with the command code and the source number (R44). -/
  | srcCmdUndefinedCommand (cmd : BitVec 4) (src : BitVec 8)
  /-- TIME_CTRL_UNDEFINED_REQUEST, with the written word (R147). -/
  | timeCtrlUndefinedRequest (w : Word)
  deriving DecidableEq, Repr

end Sys2Proof
end

