-- ==== Sys2Proof/Config.lean ====
section
/-! DEFINITION. What the data book fixes as bounds, and the one value it leaves open that the model fixes. -/

namespace Sys2Proof.Config

/-- Validation and copy-back each end within this many REFCLK periods of their beginning (R109, R119). -/
def operationBound : Nat := 2100

/-- The unit of the clock-loss time, in REFCLK periods (R139). -/
def lossUnit : Nat := 256

/-- The number of buffer words (09 section 9.3). -/
def bufferWords : Nat := 32768

/-- What a buffer word that nothing has written reads as.
DESIGN CHOICE (log entry 1), unsafe: R171 leaves the buffer undefined after power-up. -/
def powerUpWord : Word := 0x0000

end Sys2Proof.Config
end

