-- ==== Sys2Proof/Machine/State.lean ====
section
/-! DEFINITION. The state of the FL6418 as plain data, block by block, and the state after reset. -/

namespace Sys2Proof.Machine

/-- What stops the machine. The FL6418 has nothing that stops it: a refused request is recorded in error capture and the bus
cycle ends normally (00_scope.md 5.3), so this type has no constructor. -/
inductive Fault
  deriving DecidableEq, Repr

/-- Why a step gives no meaning. -/
inductive Refusal where
  /-- Raised by an arm of Dispatch whose command has no meaning yet; no arm of this model raises it. Safe. -/
  | notModelled (mnemonic : String)
  deriving DecidableEq, Repr

/-- Addressed words as (address, word) pairs, addresses strictly rising, no pair equal to what an unlisted address reads as. -/
abbrev Memory := List (Nat × Word)

/-! ### Source unit (Chapter 2) -/

/-- Source states (R29). -/
inductive SourceState where
  | off | priming | live | starved | draining
  deriving DecidableEq, Repr

/-- Substitute rules of a starved source (R20, R39). -/
inductive Policy where
  | fill | repeatLast | yield
  deriving DecidableEq, Repr

/-- A source record (R20, R23). QUEUED is a view of the refill queue (R49, log entry 19). -/
structure SourceRec where
  base : Word
  length : Word
  watermark : Word
  startLevel : Word
  policy : Policy
  fillWord : Word
  keyEn : Bool
  key : Word
  state : SourceState
  occupancy : Word
  readIndex : Word
  writeIndex : Word
  last : Word
  lastValid : Bool
  episodes : Word
  missed : Word
  overflows : Word
  appended : Word
  consumed : Word
  discarded : Word
  armed : Bool
  deriving DecidableEq, Repr

/-- Reasons of refusals (R184). -/
inductive Reason where
  | badSource | srcOff | ringFull | activeBank | locked | readOnly | sourceNotOff | range | badCommand | badState | geometry
  | linkActive | badRequest
  deriving DecidableEq, Repr

/-- The result field of SRC_CMD_STATUS (R44, R184). -/
inductive CmdResult where
  | none
  | done
  | refused (r : Reason)
  deriving DecidableEq, Repr

/-- The source unit: 24 records, APPEND_SRC and SRC_CMD_STATUS (R19, R30, R44). -/
structure SourceUnit where
  records : Vector SourceRec 24
  appendSrc : BitVec 8
  cmdSource : BitVec 8
  cmdCode : BitVec 4
  cmdResult : CmdResult
  deriving DecidableEq, Repr

/-! ### Refill queue (Chapter 3) -/

/-- Why a source was queued (R50). -/
inductive RefillReason where
  | opened | low | flushed
  deriving DecidableEq, Repr

/-- A refill record (R50). -/
structure RefillRec where
  source : SourceId
  reason : RefillReason
  rowAtEntry : BitVec 8
  occAtEntry : Word
  deriving DecidableEq, Repr

/-- The refill queue, head first (R49), and the watermark checks handed over to it and not yet taken, oldest first (R53). -/
structure RefillQueue where
  records : List RefillRec
  checks : List SourceId
  deriving DecidableEq, Repr

/-! ### Downlink port (Chapter 7) -/

/-- Link states (R123). -/
inductive LinkState where
  | stopped | armed | running | stopping | halted
  deriving DecidableEq, Repr

/-- Stop targets (R132). -/
inductive StopTarget where
  | none | endMinor | endMajor | reached
  deriving DecidableEq, Repr

/-- CLK_SRC (R124). -/
inductive ClockSource where
  | internal | external
  deriving DecidableEq, Repr

/-- START_TRIGGER (R124). -/
inductive StartTrigger where
  | immediate | external
  deriving DecidableEq, Repr

/-- A composed word: its value, the width W of the plan that composed it, and its source-delivered mark (R1, R141). -/
structure Composed where
  value : Word
  width : Nat
  delivered : Bool
  deriving DecidableEq, Repr

/-- The word being shifted and the bit of it that is on DOUT (R130). -/
structure Shifting where
  word : Composed
  bit : Nat
  deriving DecidableEq, Repr

/-- The downlink port (R124, R126, R132). -/
structure Downlink where
  link : LinkState
  target : StopTarget
  lostWords : BitVec 2
  clkSrc : ClockSource
  idleLevel : Bool
  trigger : StartTrigger
  bitDiv : Word
  lossTimeout : BitVec 8
  rowCount : Word
  majorCount : Word
  shifting : Option Shifting
  dout : Bool
  bclko : Bool
  mfs : Bool
  jfs : Bool
  /-- REFCLK periods of the present half period of BCLKO (R128). -/
  halfCount : Nat
  /-- The clock-loss timer (R139). -/
  lossTimer : Nat
  deriving DecidableEq, Repr

/-! ### Composer (Chapter 1) -/

/-- The composer (01 section 1.3, R17, R156). -/
structure Composer where
  row : Nat
  col : Nat
  lookahead : Option Composed
  accumulator : Word
  episodeLatch : Bool
  capturedU : Bool
  /-- The major-frame mark of the C bit (R11). -/
  newPlanFrame : Bool
  deriving DecidableEq, Repr

/-! ### Commit controller (Chapter 6) -/

/-- The five plan tables (R101). -/
inductive PlanTable where
  | format | map | group | row | window
  deriving DecidableEq, Repr

/-- A configuration bank, one plan (R101); a word that is not listed reads as its default (R8, R76, R82). -/
structure Bank where
  format : Memory
  map : Memory
  group : Memory
  row : Memory
  window : Memory
  deriving DecidableEq, Repr

/-- Controller states (06 section 6.2). -/
inductive CommitState where
  | edit | validating | pending | syncing
  deriving DecidableEq, Repr

/-- RESULT (R104); a validation step shares its name with the table it judges (R109). -/
inductive CommitResult where
  | none
  | accepted
  | refused (step : PlanTable)
  deriving DecidableEq, Repr

/-- REQ (R104). -/
inductive CommitReq where
  | none | done | busy | tooLate | badRequest
  deriving DecidableEq, Repr

/-- The commit controller (R101, R105). -/
structure Commit where
  state : CommitState
  result : CommitResult
  req : CommitReq
  fault : Word
  newPlan : Bool
  /-- REFCLK periods of the operation in progress (R109, R119). -/
  elapsed : Nat
  active : Bank
  staging : Bank
  deriving DecidableEq, Repr

/-! ### Time counter (Chapter 8) -/

/-- The pending load (R147). -/
inductive PendingLoad where
  | none | tick | tsync
  deriving DecidableEq, Repr

/-- The time counter (R154). -/
structure TimeCounter where
  counter : Time48
  /-- REFCLK periods since the last tick or restart (R144). -/
  divider : Nat
  tickDiv : Word
  presetH : Word
  presetM : Word
  presetL : Word
  load : PendingLoad
  timeSet : Bool
  snapshot : Time48
  stamp : Time48
  deriving DecidableEq, Repr

/-! ### Register window, table access unit and buffer port (Chapter 9) -/

/-- A bank role, the BANK field of TBL_SEL (R161). -/
inductive Role where
  | staging | active
  deriving DecidableEq, Repr

/-- The TABLE field of TBL_SEL (R161). -/
inductive Table where
  | plan (t : PlanTable)
  | source
  deriving DecidableEq, Repr

/-- A held access (R158), and whether the host has raised its strobes before WAIT# rose. -/
structure HeldAccess where
  access : HostAccess
  abandoned : Bool
  deriving DecidableEq, Repr

/-- Who asks the arbiter for the buffer's port (09 section 9.3). -/
inductive Requester where
  | composer | window
  deriving DecidableEq, Repr

/-- The register window, the table access unit and the buffer port (R171). -/
structure RegWindow where
  bank : Role
  table : Table
  index : Nat
  bufAddr : BitVec 15
  held : Option HeldAccess
  /-- The access begun behind an abandoned one; it is taken when that one has been carried out (R157, R158). -/
  waiting : Option HostAccess
  /-- The word the last answered read drove on D[15:0]; the model's own record (log entry 13). -/
  readData : Option Word
  deriving DecidableEq, Repr

/-! ### Interrupt unit (Chapter 10) -/

/-- KIND of the error record (R177). -/
inductive ErrKind where
  | none | append | tableWrite | sourceCmd | commitReq | runReq | regWrite
  deriving DecidableEq, Repr

/-- Flags, enables and the error record (R172, R175, R177). INT is a view (R176). -/
structure Interrupts where
  flags : BitVec 11
  enables : BitVec 11
  errKind : ErrKind
  detailA : Word
  detailB : Word
  afterCount : BitVec 8
  deriving DecidableEq, Repr

/-! ### The whole part -/

/-- The state of the part, and the queue of the commands that wait. -/
structure State where
  pending : List Instr
  /-- RESET# is asserted (R160). -/
  resetAsserted : Bool
  buffer : Memory
  /-- The requester whose buffer access is in progress; none when the arbiter is free (R165, R171). -/
  port : Option Requester
  sources : SourceUnit
  refill : RefillQueue
  downlink : Downlink
  composer : Composer
  commit : Commit
  time : TimeCounter
  window : RegWindow
  irq : Interrupts
  deriving DecidableEq, Repr

/-- A source record after either reset (R24). -/
def SourceRec.reset : SourceRec where
  base := 0
  length := 0
  watermark := 0
  startLevel := 0
  policy := .fill
  fillWord := 0
  keyEn := false
  key := 0
  state := .off
  occupancy := 0
  readIndex := 0
  writeIndex := 0
  last := 0
  lastValid := false
  episodes := 0
  missed := 0
  overflows := 0
  appended := 0
  consumed := 0
  discarded := 0
  armed := false

/-- The source unit after either reset (R24). -/
def SourceUnit.reset : SourceUnit where
  records := Vector.replicate 24 SourceRec.reset
  appendSrc := 0
  cmdSource := 0
  cmdCode := 0
  cmdResult := .none

/-- The refill queue after either reset (R59). -/
def RefillQueue.reset : RefillQueue where
  records := []
  checks := []

/-- The downlink port after a hardware reset (R126). -/
def Downlink.reset : Downlink where
  link := .stopped
  target := .none
  lostWords := 0
  clkSrc := .internal
  idleLevel := false
  trigger := .immediate
  bitDiv := 0
  lossTimeout := 0
  rowCount := 0
  majorCount := 0
  shifting := none
  dout := false
  bclko := true
  mfs := false
  jfs := false
  halfCount := 0
  lossTimer := 0

/-- The composer after either reset (R17, R156). -/
def Composer.reset : Composer where
  row := 0
  col := 0
  lookahead := none
  accumulator := 0xFFFF
  episodeLatch := false
  capturedU := false
  newPlanFrame := false

/-- The default plan (R8, R76, R82). -/
def Bank.default : Bank where
  format := []
  map := []
  group := []
  row := []
  window := []

/-- The commit controller after either reset (R105). -/
def Commit.reset : Commit where
  state := .edit
  result := .none
  req := .none
  fault := 0
  newPlan := false
  elapsed := 0
  active := Bank.default
  staging := Bank.default

/-- The time counter after a hardware reset (R154). -/
def TimeCounter.reset : TimeCounter where
  counter := 0
  divider := 0
  tickDiv := 0
  presetH := 0
  presetM := 0
  presetL := 0
  load := .none
  timeSet := false
  snapshot := 0
  stamp := 0

/-- The register window after either reset (R171). -/
def RegWindow.reset : RegWindow where
  bank := .staging
  table := .plan .format
  index := 0
  bufAddr := 0
  held := none
  waiting := none
  readData := none

/-- The interrupt unit after either reset (R180). -/
def Interrupts.reset : Interrupts where
  flags := 0
  enables := 0
  errKind := .none
  detailA := 0
  detailB := 0
  afterCount := 0

/-- The part after a hardware reset, RESET# released (log entry 2), with nothing in the queue. -/
def State.reset : State where
  pending := []
  resetAsserted := false
  buffer := []
  port := none
  sources := SourceUnit.reset
  refill := RefillQueue.reset
  downlink := Downlink.reset
  composer := Composer.reset
  commit := Commit.reset
  time := TimeCounter.reset
  window := RegWindow.reset
  irq := Interrupts.reset

end Sys2Proof.Machine
end

