-- ==== Sys2Proof/Machine/Ops.lean ====
section
/-! DEFINITION. The shared operations over memory, source records and the plan tables. -/

namespace Sys2Proof.Machine

/-! ### Addressed words in canonical form -/

/-- The word at address `a`; an unlisted address reads as `d a`. -/
def Memory.read (d : Nat → Word) : Memory → Nat → Word
  | [], a => d a
  | (k, v) :: m, a => if k = a then v else Memory.read d m a

/-- `m` with `w` stored at address `a`, in canonical form: a word equal to what an unlisted address reads as is not listed. -/
def Memory.write (d : Nat → Word) : Memory → Nat → Word → Memory
  | [], a, w => if w = d a then [] else [(a, w)]
  | (k, v) :: m, a, w =>
    if a < k then (if w = d a then (k, v) :: m else (a, w) :: (k, v) :: m)
    else if a = k then (if w = d a then m else (a, w) :: m)
    else (k, v) :: Memory.write d m a w

/-- Every address of `m` is at least `lo` and below `size`, the addresses rise strictly, and no word is the default. -/
def Memory.wfFrom (d : Nat → Word) (size : Nat) : Nat → Memory → Bool
  | _, [] => true
  | lo, (k, v) :: m => decide (lo ≤ k) && decide (k < size) && decide (v ≠ d k) && Memory.wfFrom d size (k + 1) m

/-- The canonical form of a memory of `size` words whose unlisted words read as `d`. -/
def Memory.wf (d : Nat → Word) (size : Nat) (m : Memory) : Bool := Memory.wfFrom d size 0 m

/-! ### The buffer (09 section 9.3) -/

/-- What an unlisted buffer address reads as (log entry 1). -/
def bufferDefault (_ : Nat) : Word := Config.powerUpWord

/-- The buffer word at an address. -/
def State.bufferRead (s : State) (a : BitVec 15) : Word := Memory.read bufferDefault s.buffer a.toNat

/-- The part with a buffer word written. -/
def State.bufferWrite (s : State) (a : BitVec 15) (w : Word) : State :=
  { s with buffer := Memory.write bufferDefault s.buffer a.toNat w }

/-! ### Source records (Chapter 2) -/

/-- The record of source `i`. -/
def State.record (s : State) (i : SourceId) : SourceRec := s.sources.records[i]

/-- The part with the record of source `i` replaced. -/
def State.setRecord (s : State) (i : SourceId) (r : SourceRec) : State :=
  { s with sources := { s.sources with records := s.sources.records.set i r } }

/-- The buffer address of ring position `idx`: BASE + `idx` (R25). OPEN admits only rings that end within the buffer (R45), so
the sum never wraps in a state a run reaches (log entry 16). -/
def SourceRec.ringAddress (r : SourceRec) (idx : Word) : BitVec 15 := BitVec.ofNat 15 (r.base.toNat + idx.toNat)

/-- A ring position advanced by 1, modulo LENGTH (R31, R36). -/
def SourceRec.nextIndex (r : SourceRec) (idx : Word) : Word := BitVec.ofNat 16 ((idx.toNat + 1) % r.length.toNat)

/-- A saturating count advanced by 1 (R27). -/
def satInc (w : Word) : Word := if w = 0xFFFF then w else w + 1

/-- A source with an open ring that is not closed: PRIMING, LIVE or STARVED. -/
def SourceState.feeding : SourceState → Bool
  | .priming | .live | .starved => true
  | .off | .draining => false

/-- QUEUED of source `i` (R49, log entry 19). -/
def State.queued (s : State) (i : SourceId) : Bool := s.refill.records.any (fun r => r.source == i)

/-- Some source is in state `st`. -/
def State.someSource (s : State) (st : SourceState) : Bool := s.sources.records.toList.any (fun r => r.state == st)

/-! ### Plan tables (R7, R61, R64, R78) -/

/-- The words of a table (09 section 9.2). -/
def Table.size : Table → Nat
  | .plan .format => 8
  | .plan .map => 2048
  | .plan .group => 16
  | .plan .row => 2048
  | .plan .window => 32
  | .source => 768

/-- The default words of the plan tables (R8, R76, R82, R186). -/
def planDefault : PlanTable → Nat → Word
  | .format, i =>
    match i with
    | 0 => 0x0010
    | 1 => 0x0008
    | 2 => 0x0001
    | 3 => 0x0001
    | 4 => 0x7A1D
    | _ => 0x0000
  | .group, i => if i % 2 = 1 then 0x0002 else 0x0000
  | .map, _ | .row, _ | .window, _ => 0x0000

/-- The listed words of one table of a bank. -/
def Bank.table (b : Bank) : PlanTable → Memory
  | .format => b.format
  | .map => b.map
  | .group => b.group
  | .row => b.row
  | .window => b.window

/-- A bank with the listed words of one table replaced. -/
def Bank.setTable (b : Bank) (t : PlanTable) (m : Memory) : Bank :=
  match t with
  | .format => { b with format := m }
  | .map => { b with map := m }
  | .group => { b with group := m }
  | .row => { b with row := m }
  | .window => { b with window := m }

/-- Word `i` of a plan table. -/
def Bank.word (b : Bank) (t : PlanTable) (i : Nat) : Word := Memory.read (planDefault t) (b.table t) i

/-- A bank with word `i` of a plan table written. -/
def Bank.setWord (b : Bank) (t : PlanTable) (i : Nat) (w : Word) : Bank :=
  b.setTable t (Memory.write (planDefault t) (b.table t) i w)

/-- Every table of the bank has the canonical form. -/
def Bank.wf (b : Bank) : Bool :=
  Memory.wf (planDefault .format) 8 b.format && Memory.wf (planDefault .map) 2048 b.map
    && Memory.wf (planDefault .group) 16 b.group && Memory.wf (planDefault .row) 2048 b.row
    && Memory.wf (planDefault .window) 32 b.window

/-- A run is in progress: RUNNING or STOPPING (R123). -/
def LinkState.inRun : LinkState → Bool
  | .running | .stopping => true
  | .stopped | .armed | .halted => false

end Sys2Proof.Machine
end

