-- ==== Sys2Proof/Machine/Operands.lean ====
section
/-! DEFINITION. The codes and layouts of Chapter 12 (R183, R184, R185, R190): written words taken apart, and the words that reads
return. -/

namespace Sys2Proof.Machine

/-! ### Codes (R184) -/

def SourceState.code : SourceState → BitVec 3
  | .off => 0 | .priming => 1 | .live => 2 | .starved => 3 | .draining => 4

def LinkState.code : LinkState → BitVec 3
  | .stopped => 0 | .armed => 1 | .running => 2 | .stopping => 3 | .halted => 4

def StopTarget.code : StopTarget → BitVec 2
  | .none => 0 | .endMinor => 1 | .endMajor => 2 | .reached => 3

def CommitState.code : CommitState → BitVec 2
  | .edit => 0 | .validating => 1 | .pending => 2 | .syncing => 3

def CommitResult.code : CommitResult → BitVec 3
  | .none => 0
  | .accepted => 1
  | .refused .format => 2
  | .refused .map => 3
  | .refused .group => 4
  | .refused .row => 5
  | .refused .window => 6

def CommitReq.code : CommitReq → BitVec 3
  | .none => 0 | .done => 1 | .busy => 2 | .tooLate => 3 | .badRequest => 4

def PendingLoad.code : PendingLoad → BitVec 2
  | .none => 0 | .tick => 1 | .tsync => 2

def ErrKind.code : ErrKind → BitVec 3
  | .none => 0 | .append => 1 | .tableWrite => 2 | .sourceCmd => 3 | .commitReq => 4 | .runReq => 5 | .regWrite => 6

def Reason.code : Reason → BitVec 4
  | .badSource => 1
  | .srcOff => 2
  | .ringFull => 3
  | .activeBank => 4
  | .locked => 5
  | .readOnly => 6
  | .sourceNotOff => 7
  | .range => 8
  | .badCommand => 9
  | .badState => 10
  | .geometry => 11
  | .linkActive => 12
  | .badRequest => 13

def CmdResult.code : CmdResult → BitVec 4
  | .none => 0
  | .done => 15
  | .refused r => r.code

/-- REASON in REFILL_HEAD (R190). -/
def RefillReason.code : RefillReason → BitVec 2
  | .opened => 1 | .low => 2 | .flushed => 3

def PlanTable.code : PlanTable → BitVec 3
  | .format => 0 | .map => 1 | .group => 2 | .row => 3 | .window => 4

def Table.code : Table → BitVec 3
  | .plan t => t.code
  | .source => 5

def Role.code : Role → BitVec 1
  | .staging => 0 | .active => 1

def Policy.code : Policy → Word
  | .fill => 0 | .repeatLast => 1 | .yield => 2

def ClockSource.code : ClockSource → BitVec 1
  | .internal => 0 | .external => 1

def StartTrigger.code : StartTrigger → BitVec 1
  | .immediate => 0 | .external => 1

/-! ### Fields placed in a word -/

/-- The value `v` placed with its bit 0 at bit `at_` of a word. -/
def field {n : Nat} (at_ : Nat) (v : BitVec n) : Word := v.setWidth 16 <<< at_

/-- A marker placed at bit `at_` of a word. -/
def bitField (at_ : Nat) (b : Bool) : Word := if b then 1 <<< at_ else 0

/-! ### Written words taken apart (R185, R190) -/

/-- A defined request of RUN_CTRL. -/
inductive RunRequest where
  | start | stopEndMinor | stopEndMajor | abort | clearHalt
  deriving DecidableEq, Repr

/-- The request a word written to RUN_CTRL names; none when it is undefined. -/
def runRequestOf (w : Word) : Option RunRequest :=
  match (w.extractLsb' 0 4).toNat with
  | 1 => some .start
  | 2 =>
    match (w.extractLsb' 4 2).toNat with
    | 0 => some .stopEndMinor
    | 1 => some .stopEndMajor
    | 2 => some .abort
    | _ => none
  | 3 => some .clearHalt
  | _ => none

/-- A defined command of SRC_CMD. -/
inductive SourceCommand where
  | openSource | closeSource | kill | flush
  deriving DecidableEq, Repr

/-- The command code of a source command. -/
def SourceCommand.code : SourceCommand → BitVec 4
  | .openSource => 1 | .closeSource => 2 | .kill => 3 | .flush => 4

/-- The source command a code names; none when it is undefined. -/
def sourceCommandOf (cmd : BitVec 4) : Option SourceCommand :=
  match cmd.toNat with
  | 1 => some .openSource
  | 2 => some .closeSource
  | 3 => some .kill
  | 4 => some .flush
  | _ => none

/-- The word of a source command (R183): source in bits 7 … 0, command in bits 11 … 8. -/
def srcCmdWord (cmd : BitVec 4) (src : BitVec 8) : Word := field 8 cmd ||| field 0 src

/-- The table a TABLE code names; none for the codes 6 and 7. -/
def tableOf (code : BitVec 3) : Option Table :=
  match code.toNat with
  | 0 => some (.plan .format)
  | 1 => some (.plan .map)
  | 2 => some (.plan .group)
  | 3 => some (.plan .row)
  | 4 => some (.plan .window)
  | 5 => some .source
  | _ => none

/-- The role the BANK bit names. -/
def roleOf (b : Bool) : Role := if b then .active else .staging

/-- The policy a POLICY word names; none outside the three codes. -/
def policyOf (w : Word) : Option Policy :=
  match w.toNat with
  | 0 => some .fill
  | 1 => some .repeatLast
  | 2 => some .yield
  | _ => none

/-- CLK_SRC of a written CLK_MODE word. -/
def clockSourceOf (b : Bool) : ClockSource := if b then .external else .internal

/-- START_TRIGGER of a written CLK_MODE word. -/
def startTriggerOf (b : Bool) : StartTrigger := if b then .external else .immediate

/-! ### Words that reads return -/

/-- TBL_SEL as read (R161, R183), and the table and bank of a refused table write in DETAIL_A (R184). -/
def tblSelWord (t : Table) (b : Role) : Word := field 0 t.code ||| field 8 b.code

/-- A word of a source record (R189); `queued` is the source's QUEUED marker. -/
def SourceRec.word (r : SourceRec) (queued : Bool) (k : Nat) : Word :=
  match k with
  | 0 => r.base
  | 1 => r.length
  | 2 => r.watermark
  | 3 => r.startLevel
  | 4 => r.policy.code
  | 5 => r.fillWord
  | 6 => bitField 0 r.keyEn
  | 7 => r.key
  | 8 => field 0 r.state.code ||| bitField 8 r.lastValid ||| bitField 9 r.armed ||| bitField 10 queued
  | 9 => r.occupancy
  | 10 => r.readIndex
  | 11 => r.writeIndex
  | 12 => r.last
  | 13 => r.episodes
  | 14 => r.missed
  | 15 => r.overflows
  | 16 => r.appended
  | 17 => r.consumed
  | 18 => r.discarded
  | _ => 0

/-- OCC_AT_ENTRY as REFILL_HEAD_AUX presents it: 255 or more reads FFh (R190). -/
def presentedOcc (occ : Word) : BitVec 8 := if occ.toNat < 255 then occ.setWidth 8 else 0xFF

/-- RUN_STATUS (R132, R183). -/
def Downlink.runStatus (d : Downlink) : Word := field 0 d.link.code ||| field 4 d.target.code ||| field 8 d.lostWords

/-- CLK_MODE (R124, R183). -/
def Downlink.clkMode (d : Downlink) : Word :=
  field 0 d.clkSrc.code ||| bitField 1 d.idleLevel ||| field 2 d.trigger.code

/-- COMMIT_STATUS (R104, R183). -/
def Commit.status (c : Commit) : Word := field 0 c.state.code ||| field 4 c.result.code ||| field 8 c.req.code

/-- SRC_CMD_STATUS (R44, R183). -/
def SourceUnit.cmdStatus (u : SourceUnit) : Word :=
  field 0 u.cmdSource ||| field 8 u.cmdCode ||| field 12 u.cmdResult.code

/-- REFILL_HEAD (R56): source FFh and REASON 0 when the queue is empty. -/
def RefillQueue.head (q : RefillQueue) : Word :=
  match q.records with
  | [] => 0x00FF
  | r :: _ => BitVec.ofNat 16 r.source.val ||| field 8 r.reason.code

/-- REFILL_HEAD_AUX (R56, R190). -/
def RefillQueue.headAux (q : RefillQueue) : Word :=
  match q.records with
  | [] => 0
  | r :: _ => field 0 r.rowAtEntry ||| field 8 (presentedOcc r.occAtEntry)

/-- REFILL_COUNT (R57). -/
def RefillQueue.count (q : RefillQueue) : Word := BitVec.ofNat 16 q.records.length

/-- TIME_CTRL as read (R147, R183). -/
def TimeCounter.ctrl (t : TimeCounter) : Word := field 0 t.load.code ||| bitField 8 t.timeSet

/-- The preset value: PRESET_H, PRESET_M and PRESET_L as they stand (R146). -/
def TimeCounter.preset (t : TimeCounter) : Time48 := t.presetH ++ t.presetM ++ t.presetL

/-- Part `k` of a 48-bit value: 0 is bits 47 … 32, 1 is bits 31 … 16, 2 is bits 15 … 0 (R69, R152). -/
def timePart (t : Time48) (k : Nat) : Word :=
  match k with
  | 0 => t.extractLsb' 32 16
  | 1 => t.extractLsb' 16 16
  | _ => t.extractLsb' 0 16

/-- INT is asserted: some flag is set with its enable set (R176). -/
def Interrupts.int (q : Interrupts) : Bool := (q.flags &&& q.enables) != 0

/-- WAIT# is driven low: an access is held (R158). -/
def State.waitLow (s : State) : Bool := s.window.held.isSome

/-- What a read of the register at byte offset `off` returns, for every register whose read has no effect; the three ports whose
reads have one, and the offsets that hold no register, give 0000h here (R159, R183). -/
def State.registerView (s : State) (off : Nat) : Word :=
  match off with
  | 0x02 => s.downlink.runStatus
  | 0x04 => s.downlink.rowCount
  | 0x06 => s.downlink.majorCount
  | 0x08 => s.downlink.clkMode
  | 0x0A => s.downlink.bitDiv
  | 0x0C => field 0 s.downlink.lossTimeout
  | 0x10 => s.commit.status
  | 0x12 => s.commit.fault
  | 0x14 => tblSelWord s.window.table s.window.bank
  | 0x16 => BitVec.ofNat 16 s.window.index
  | 0x1A => field 0 s.window.bufAddr
  | 0x1E => field 0 s.sources.appendSrc
  | 0x24 => s.sources.cmdStatus
  | 0x26 => s.refill.head
  | 0x28 => s.refill.headAux
  | 0x2A => s.refill.count
  | 0x2C => s.time.tickDiv
  | 0x2E => s.time.presetH
  | 0x30 => s.time.presetM
  | 0x32 => s.time.presetL
  | 0x34 => s.time.ctrl
  | 0x38 => timePart s.time.snapshot 1
  | 0x3A => timePart s.time.snapshot 2
  | 0x3C => field 0 s.irq.flags
  | 0x3E => field 0 s.irq.enables
  | 0x40 => field 0 s.irq.errKind.code
  | 0x42 => s.irq.detailA
  | 0x44 => s.irq.detailB
  | 0x46 => field 0 s.irq.afterCount
  | _ => 0

end Sys2Proof.Machine
end

