-- ==== Sys2Proof/Machine/Flags.lean ====
section
/-! DEFINITION. The flags of INT_FLAGS and who raises them (R172), error capture (R178), and the fields of the status word (R155). -/

namespace Sys2Proof.Machine

/-- The eleven flags (R172). -/
inductive Flag where
  | minor | major | stopped | halt | commitDone | commitRefused | refill | underrun | drained | timeLoaded | error
  deriving DecidableEq, Repr

/-- The bit of INT_FLAGS and INT_ENABLE that belongs to a flag (R172). -/
def Flag.mask : Flag → BitVec 11
  | .minor => 0x001
  | .major => 0x002
  | .stopped => 0x004
  | .halt => 0x008
  | .commitDone => 0x010
  | .commitRefused => 0x020
  | .refill => 0x040
  | .underrun => 0x080
  | .drained => 0x100
  | .timeLoaded => 0x200
  | .error => 0x400

/-- A raise sets its flag; a flag already set stays set (R172). -/
def State.raise (s : State) (f : Flag) : State := { s with irq := { s.irq with flags := s.irq.flags ||| f.mask } }

/-- A refusal is reported: it fills an empty record and raises ERROR, or counts in AFTER_COUNT (R178). -/
def State.report (s : State) (kind : ErrKind) (a b : Word) : State :=
  match s.irq.errKind with
  | .none => State.raise { s with irq := { s.irq with errKind := kind, detailA := a, detailB := b } } .error
  | _ =>
    { s with irq := { s.irq with
        afterCount := if s.irq.afterCount = 0xFF then s.irq.afterCount else s.irq.afterCount + 1 } }

/-- The status word (R155), its S, T, Q, D and major count fields as they stand. -/
def State.statusWord (s : State) : Word :=
  bitField 0 s.composer.capturedU ||| bitField 1 (s.someSource .starved) ||| bitField 2 s.composer.newPlanFrame
    ||| bitField 3 s.time.timeSet ||| bitField 4 (!s.refill.records.isEmpty) ||| bitField 5 (s.someSource .draining)
    ||| field 8 (s.downlink.majorCount.setWidth 8)

end Sys2Proof.Machine
end

