-- ==== Sys2Proof/Machine/Arbiter.lean ====
section
/-! DEFINITION. The arbiter and what the host does through it (09 sections 9.3 to 9.5): who is granted the buffer's port, appends, and
the buffer port. -/

namespace Sys2Proof

/-! ### Accesses of the host -/

/-- The access as one that needs the port, when it is one (12.1). -/
def HostAccess.portUse : HostAccess → Option PortAccess
  | .read a raised => if a = 0x0E then some (.bufRead raised) else none
  | .write a w => if a = 0x0E then some (.bufWrite w) else if a = 0x10 then some (.append w) else none

/-- The bus access of a port access (12.1). -/
def PortAccess.bus : PortAccess → HostAccess
  | .append w => .write 0x10 w
  | .bufRead raised => .read 0x0E raised
  | .bufWrite w => .write 0x0E w

/-- The host raises the strobes of the access before WAIT# rises, should it be held (R158). -/
def HostAccess.raised : HostAccess → Bool
  | .read _ raised => raised
  | .write _ _ => false

end Sys2Proof

namespace Sys2Proof.Machine

/-! ### The grant (R165) -/

/-- Whom the arbiter grants the port at an instant at which it is free or an access ends. `ended` is the requester whose access ends
there, none when the port was free; `composer` and `window` say who asks. Alone, a requester is granted; of two, the composer at a free
port, and at the end of an access the one that did not have it. -/
def grant (ended : Option Requester) (composer window : Bool) : Option Requester :=
  match composer, window with
  | false, false => none
  | true, false => some .composer
  | false, true => some .window
  | true, true =>
    match ended with
    | none | some .window => some .composer
    | some .composer => some .window

/-- A read is answered with `w` (R157). -/
def State.answer (s : State) (w : Word) : State := { s with window := { s.window with readData := some w } }

/-! ### Append (R30 … R33) -/

/-- The record after an accepted append (R31, steps 2 to 4). -/
def SourceRec.afterAppend (r : SourceRec) : SourceRec :=
  let occ := r.occupancy + 1
  let waits := r.state = .priming ∨ r.state = .starved
  { r with
    writeIndex := r.nextIndex r.writeIndex
    occupancy := occ
    appended := r.appended + 1
    armed := r.armed || decide (r.watermark < occ)
    state := if waits ∧ r.startLevel ≤ occ then .live else r.state }

/-- An append is refused: APPEND with the number in APPEND_SRC and the reason (R32, R184). -/
def State.refuseAppend (s : State) (r : Reason) : State :=
  s.report .append (field 0 s.sources.appendSrc) (field 0 r.code)

/-- An append of `w` to source `i` (R31, R32). -/
def State.appendTo (s : State) (i : SourceId) (w : Word) : State :=
  let r := s.record i
  if r.state.feeding then
    if r.occupancy < r.length then (s.bufferWrite (r.ringAddress r.writeIndex) w).setRecord i r.afterAppend
    else (s.setRecord i { r with overflows := satInc r.overflows }).refuseAppend .ringFull
  else s.refuseAppend .srcOff

/-- A write of `w` to APPEND_DATA, taken at the grant (R30, R169). -/
def State.append (s : State) (w : Word) : State :=
  if h : s.sources.appendSrc.toNat < 24 then s.appendTo ⟨s.sources.appendSrc.toNat, h⟩ w else s.refuseAppend .badSource

/-! ### The buffer port (R168) -/

/-- BUF_ADDR advances, 7FFFh followed by 0 (R168). -/
def State.advanceBufAddr (s : State) : State := { s with window := { s.window with bufAddr := s.window.bufAddr + 1 } }

/-- A read of BUF_DATA, granted (R168). -/
def State.bufDataRead (s : State) : State := (s.answer (s.bufferRead s.window.bufAddr)).advanceBufAddr

/-- A write of `w` to BUF_DATA, granted (R168). -/
def State.bufDataWrite (s : State) (w : Word) : State := (s.bufferWrite s.window.bufAddr w).advanceBufAddr

/-! ### Held accesses (R158, R165) -/

/-- A port access is granted and performed (R168, R169). -/
def State.portAccess (s : State) : PortAccess → State
  | .append w => s.append w
  | .bufRead _ => s.bufDataRead
  | .bufWrite w => s.bufDataWrite w

/-- A read whose data is not delivered, because the host had raised its strobes, leaves the data of the read before it (R158). -/
def State.undelivered (s before : State) : State := { s with window := { s.window with readData := before.window.readData } }

/-- The port access `p` is performed; where it was held and its cycle `abandoned`, no data is delivered (R158). -/
def State.performHeld (s : State) (p : PortAccess) (abandoned : Bool) : State :=
  if abandoned then (s.portAccess p).undelivered s else s.portAccess p

/-- The composer's access in progress ends, and an access of the host that waits for the port is granted and performed (R165). -/
def State.settle (s : State) : State :=
  match s.port with
  | none => s
  | some _ =>
    let t := { s with port := none }
    match s.window.held with
    | none => t
    | some h =>
      match h.access.portUse with
      | some p => State.performHeld { t with window := { t.window with held := none } } p h.abandoned
      | none => t

end Sys2Proof.Machine
end

