-- ==== Sys2Proof/Machine/Bus.lean ====
section
/-! DEFINITION. How the register window takes an access (R157, R158, R160), and the accesses the rows of the table are made of. -/

namespace Sys2Proof.Machine

/-- What a command of this model answers with. -/
abbrev Result := Host.Outcome State Fault Refusal

/-- An event of the part or of a line, which happens only while RESET# is not asserted (R126, R154, R160). A buffer access in progress
has ended by then (log entry 12). -/
def State.outOfReset (s : State) (body : State → State) : State := if s.resetAsserted then s else body s.settle

/-- Access `h` is held as it is taken: it needs the port, a buffer access of the composer is in progress, and no access is held yet
(R158, R165). -/
def State.heldAtPort (s : State) (h : HostAccess) : Bool := h.portUse.isSome && s.port.isSome && s.window.held.isNone

/-- Access `h` is held (R158). -/
def State.hold (s : State) (h : HostAccess) : State :=
  { s with window := { s.window with held := some { access := h, abandoned := h.raised } } }

/-- Access `h` is begun while `x` is held: the host abandoned the held cycle, and `h` waits until it has been carried out. An access
that waited already was never taken: its strobes rose before (R157, R158; log entry 10). -/
def State.waitBehind (s : State) (x : HeldAccess) (h : HostAccess) : State :=
  { s with window := { s.window with held := some { x with abandoned := true }, waiting := some h } }

/-- The register window takes access `h`, whose effect is `body`. While RESET# is asserted it takes none (R160). With the composer's
buffer access in progress an access to the buffer is held; any other finds that access ended (R165, log entry 12). -/
def State.takeAccess (s : State) (h : HostAccess) (body : State → State) : State :=
  if s.resetAsserted then s
  else if s.heldAtPort h then s.hold h
  else
    let t := s.settle
    match t.window.held with
    | some x => t.waitBehind x h
    | none => body t

/-- A[6:1] of the register at byte offset `off` (12.1). -/
def reg (off : Nat) : BitVec 6 := BitVec.ofNat 6 (off / 2)

/-- A write to a register of the window is refused: REG_WRITE with the byte offset and the reason (R184). -/
def State.refuseRegWrite (s : State) (off : Nat) (r : Reason) : State :=
  s.report .regWrite (BitVec.ofNat 16 off) (field 0 r.code)

end Sys2Proof.Machine
end

