-- ==== Sys2Proof/Machine/Interrupt.lean ====
section
/-! DEFINITION. The host's writes to the interrupt unit (Chapter 10). -/

namespace Sys2Proof.Machine

/-- A write of `w` to INT_FLAGS clears each flag whose bit is 1 (R173). -/
def State.intFlagsWrite (s : State) (w : Word) : State :=
  { s with irq := { s.irq with flags := s.irq.flags &&& ~~~(w.setWidth 11) } }

/-- A write of `w` to INT_ENABLE (R175). -/
def State.intEnableWrite (s : State) (w : Word) : State := { s with irq := { s.irq with enables := w.setWidth 11 } }

/-- A write to ERR_KIND empties the error record (R179). -/
def State.errKindWrite (s : State) : State :=
  { s with irq := { s.irq with errKind := .none, detailA := 0, detailB := 0, afterCount := 0 } }

/-- INT_FLAGS_WRITE (R173). -/
def execIntFlagsWrite (w : Word) (s : State) : Result :=
  .next (s.takeAccess (.write (reg 0x3C) w) (fun s => s.intFlagsWrite w))

/-- INT_ENABLE_WRITE (R175). -/
def execIntEnableWrite (w : Word) (s : State) : Result :=
  .next (s.takeAccess (.write (reg 0x3E) w) (fun s => s.intEnableWrite w))

/-- ERR_KIND_WRITE (R179). -/
def execErrKindWrite (w : Word) (s : State) : Result := .next (s.takeAccess (.write (reg 0x40) w) State.errKindWrite)

end Sys2Proof.Machine
end

