-- ==== Sys2Proof/Machine/Plan.lean ====
section
/-! DEFINITION. How a bank's words are read as a plan (R7, R61, R64, R78, R186 … R188), and its validation (R109 … R114). -/

namespace Sys2Proof.Machine

/-! ### Format record (R7, R186) -/

/-- W: word width in bits. -/
def Bank.w (b : Bank) : Nat := (b.word .format 0).toNat

/-- N: minor frame length in words. -/
def Bank.n (b : Bank) : Nat := (b.word .format 1).toNat

/-- M: major frame depth in minor frames. -/
def Bank.m (b : Bank) : Nat := (b.word .format 2).toNat

/-- S: sync length in words, bits 3 … 0 of word 3. -/
def Bank.s (b : Bank) : Nat := ((b.word .format 3).extractLsb' 0 4).toNat

/-- ID_MAJOR: bit 14 of word 3. -/
def Bank.idMajor (b : Bank) : Bool := (b.word .format 3).getLsbD 14

/-- CHECK_EN: bit 15 of word 3. -/
def Bank.checkEn (b : Bank) : Bool := (b.word .format 3).getLsbD 15

/-- C: 1 when CHECK_EN is set, else 0 (R2). -/
def Bank.c (b : Bank) : Nat := if b.checkEn then 1 else 0

/-- SYNCc (R3). -/
def Bank.sync (b : Bank) (c : Nat) : Word := b.word .format (4 + c)

/-- IDLE (R71). -/
def Bank.idle (b : Bank) : Word := b.word .format 7

/-- The first data column, S+1 (R2). -/
def Bank.firstData (b : Bank) : Nat := b.s + 1

/-- The last data column, N−1−C (R2). -/
def Bank.lastData (b : Bank) : Nat := b.n - 1 - b.c

/-! ### Entries (R61, R187, R190) -/

/-- An entry of the map or the row pool: its kind and argument. A kind word that R190 does not define is kept as written. -/
inductive Entry where
  | spare
  | direct (src : Word)
  | subcom (g : Word)
  | const (v : Word)
  | time (k : Word)
  | status
  | undefined (kind : Word)
  deriving DecidableEq, Repr

/-- The entry that a kind word and an argument word make (R190). -/
def entryOf (kind arg : Word) : Entry :=
  match kind.toNat with
  | 0 => .spare
  | 1 => .direct arg
  | 2 => .subcom arg
  | 3 => .const arg
  | 4 => .time arg
  | 5 => .status
  | _ => .undefined kind

/-- Map entry `c` (R187). -/
def Bank.mapEntry (b : Bank) (c : Nat) : Entry := entryOf (b.word .map (2 * c)) (b.word .map (2 * c + 1))

/-- Row pool entry `i` (R187). -/
def Bank.poolEntry (b : Bank) (i : Nat) : Entry := entryOf (b.word .row (2 * i)) (b.word .row (2 * i + 1))

/-- FIRST of group `g` (R187). -/
def Bank.groupFirst (b : Bank) (g : Nat) : Nat := (b.word .group (2 * g)).toNat

/-- DEPTH of group `g` (R187). -/
def Bank.groupDepth (b : Bank) (g : Nat) : Nat := (b.word .group (2 * g + 1)).toNat

/-! ### Windows (R78, R81, R188) -/

/-- EN of window `k`. -/
def Bank.winEnabled (b : Bank) (k : Nat) : Bool := (b.word .window (8 * k)).getLsbD 0

/-- MODE of window `k`: OPAQUE when set. -/
def Bank.winOpaque (b : Bank) (k : Nat) : Bool := (b.word .window (8 * k + 1)).getLsbD 0

def Bank.winTop (b : Bank) (k : Nat) : Nat := (b.word .window (8 * k + 2)).toNat
def Bank.winBottom (b : Bank) (k : Nat) : Nat := (b.word .window (8 * k + 3)).toNat
def Bank.winLeft (b : Bank) (k : Nat) : Nat := (b.word .window (8 * k + 4)).toNat
def Bank.winRight (b : Bank) (k : Nat) : Nat := (b.word .window (8 * k + 5)).toNat
def Bank.winSource (b : Bank) (k : Nat) : Nat := (b.word .window (8 * k + 6)).toNat
def Bank.winBlank (b : Bank) (k : Nat) : Word := b.word .window (8 * k + 7)

/-- Window `k` covers cell (m,c) (R78). -/
def Bank.winCovers (b : Bank) (k m c : Nat) : Bool :=
  decide (b.winTop k ≤ m ∧ m ≤ b.winBottom k ∧ b.winLeft k ≤ c ∧ c ≤ b.winRight k)

/-- The window layers of cell (m,c), top first: the enabled windows that cover it, in descending number (R84). -/
def Bank.windowLayers (b : Bank) (m c : Nat) : List Nat :=
  [3, 2, 1, 0].filter (fun k => b.winEnabled k && b.winCovers k m c)

/-- The number of a source that an Active plan names. Validation admits only 0 … 23 (R63, R79), so the reduction acts on no plan
that becomes Active (log entry 16). -/
def sourceId (n : Nat) : SourceId := Fin.ofNat 24 n

/-! ### Validation (R109 … R114) -/

/-- The first of `len` indexes from `lo` on that fails (R109). -/
def firstFailing (bad : Nat → Bool) (lo len : Nat) : Option Nat := (List.range' lo len).find? bad

/-- The FORMAT step (R110). -/
def Bank.formatFault (b : Bank) : Option Nat :=
  if ¬ (b.w = 8 ∨ b.w = 10 ∨ b.w = 12 ∨ b.w = 14 ∨ b.w = 16) then some 0
  else if ¬ (8 ≤ b.n ∧ b.n ≤ 1024) then some 1
  else if ¬ (1 ≤ b.m ∧ b.m ≤ 256) then some 2
  else if ¬ (1 ≤ b.s ∧ b.s ≤ 3) then some 3
  else if ¬ (b.n * b.w ≤ 16384) then some 4
  else none

/-- A map entry fails the MAP step (R63, R111). -/
def Entry.mapBad : Entry → Bool
  | .direct s => decide (23 < s.toNat)
  | .subcom g => decide (7 < g.toNat)
  | .time k => decide (2 < k.toNat)
  | .spare | .const _ | .status => false
  | .undefined _ => true

/-- A pool entry fails the ROW step (R63, R113). -/
def Entry.rowBad : Entry → Bool
  | .direct s => decide (23 < s.toNat)
  | .time k => decide (2 < k.toNat)
  | .spare | .const _ | .status => false
  | .subcom _ | .undefined _ => true

/-- The MAP step: the data columns in ascending order (R111). -/
def Bank.mapFault (b : Bank) : Option Nat :=
  firstFailing (fun c => (b.mapEntry c).mapBad) b.firstData (b.lastData + 1 - b.firstData)

/-- Some data column names group `g` (R62, R111). -/
def Bank.groupUsed (b : Bank) (g : Nat) : Bool :=
  (List.range' b.firstData (b.lastData + 1 - b.firstData)).any
    (fun c => b.mapEntry c == .subcom (BitVec.ofNat 16 g))

/-- The used groups in ascending number (R111). -/
def Bank.usedGroups (b : Bank) : List Nat := (List.range 8).filter b.groupUsed

/-- Group `g` fails the GROUP step (R64, R112). -/
def Bank.groupBad (b : Bank) (g : Nat) : Bool :=
  !decide (2 ≤ b.groupDepth g ∧ b.groupDepth g ≤ 256 ∧ b.m % b.groupDepth g = 0
    ∧ b.groupFirst g + b.groupDepth g ≤ 1024)

/-- The GROUP step: the used groups in ascending number (R112). -/
def Bank.groupFault (b : Bank) : Option Nat := b.usedGroups.find? b.groupBad

/-- Pool entry `i` lies within the rows of a used group (R62, R113). -/
def Bank.poolUsed (b : Bank) (i : Nat) : Bool :=
  b.usedGroups.any (fun g => decide (b.groupFirst g ≤ i ∧ i < b.groupFirst g + b.groupDepth g))

/-- The ROW step: the used pool entries in ascending index (R113). -/
def Bank.rowFault (b : Bank) : Option Nat :=
  firstFailing (fun i => b.poolUsed i && (b.poolEntry i).rowBad) 0 1024

/-- Window `k` fails the WINDOW step (R79, R114). -/
def Bank.winBad (b : Bank) (k : Nat) : Bool :=
  b.winEnabled k
    && !decide (b.winTop k ≤ b.winBottom k ∧ b.winBottom k < b.m ∧ b.firstData ≤ b.winLeft k
      ∧ b.winLeft k ≤ b.winRight k ∧ b.winRight k ≤ b.lastData ∧ b.winSource k ≤ 23)

/-- The WINDOW step: the enabled windows in ascending number (R114). -/
def Bank.windowFault (b : Bank) : Option Nat := firstFailing b.winBad 0 4

/-- Validation of a plan: the first failing step with its fault index, or none when all five steps pass (R109). -/
def Bank.validate (b : Bank) : Option (PlanTable × Nat) :=
  match b.formatFault with
  | some i => some (.format, i)
  | none =>
    match b.mapFault with
    | some i => some (.map, i)
    | none =>
      match b.groupFault with
      | some i => some (.group, i)
      | none =>
        match b.rowFault with
        | some i => some (.row, i)
        | none =>
          match b.windowFault with
          | some i => some (.window, i)
          | none => none

end Sys2Proof.Machine
end

