-- ==== Sys2Proof/Machine/Commit.lean ====
section
/-! DEFINITION. The commit controller (Chapter 6): requests, the end of validation, the swap, and the end of the copy-back. -/

namespace Sys2Proof.Machine

/-! ### The swap (R117, R118) -/

/-- A swap: the roles are exchanged, the new-plan marker is set, and the copy-back begins (R118). -/
def State.swap (s : State) : State :=
  { s with commit := { s.commit with
      active := s.commit.staging
      staging := s.commit.active
      newPlan := true
      state := .syncing
      elapsed := 0 } }

/-- A pending swap is taken: at a major frame end point, or as the link leaves RUNNING or STOPPING (R117). -/
def State.swapIfPending (s : State) : State := if s.commit.state = .pending then s.swap else s

/-! ### Requests (R106 … R108) -/

/-- A request to COMMIT_CTRL, the written word `w`, is refused: REQ takes `req`, and the refusal is COMMIT_REQ with the word and the
controller state (R106). -/
def State.refuseCommit (s : State) (w : Word) (req : CommitReq) : State :=
  State.report { s with commit := { s.commit with req := req } } .commitReq w (field 0 s.commit.state.code)

/-- COMMIT (R107). -/
def State.commitRequest (s : State) : State :=
  match s.commit.state with
  | .edit => { s with commit := { s.commit with state := .validating, result := .none, fault := 0, req := .done, elapsed := 0 } }
  | .validating | .pending | .syncing => s.refuseCommit 0x0001 .busy

/-- CANCEL (R108). -/
def State.cancelRequest (s : State) : State :=
  match s.commit.state with
  | .edit => s
  | .validating | .pending => { s with commit := { s.commit with state := .edit, result := .none, fault := 0, req := .done } }
  | .syncing => s.refuseCommit 0x0002 .tooLate

/-- A write of `w` to COMMIT_CTRL (R106, R185). -/
def State.commitCtrlWrite (s : State) (w : Word) : State :=
  if w = 0x0001 then s.commitRequest
  else if w = 0x0002 then s.cancelRequest
  else s.refuseCommit w .badRequest

/-! ### The ends of the two operations (R115, R116, R119) -/

/-- Validation ends (R115, R116). Where no validation is running nothing happens (log entry 6). -/
def State.validationEnd (s : State) : State :=
  match s.commit.state with
  | .validating =>
    match s.commit.staging.validate with
    | some (step, i) =>
      State.raise { s with commit := { s.commit with state := .edit, result := .refused step, fault := BitVec.ofNat 16 i } }
        .commitRefused
    | none =>
      if s.downlink.link.inRun then { s with commit := { s.commit with state := .pending } } else s.swap
  | .edit | .pending | .syncing => s

/-- The copy-back ends, apart from the accesses it releases (R119, steps 1 to 3). -/
def State.copyBack (s : State) : State :=
  State.raise { s with commit := { s.commit with state := .edit, result := .accepted, staging := s.commit.active } } .commitDone

/-- COMMIT (R107). -/
def execCommit (s : State) : Result := .next (s.takeAccess (.write (reg 0x0E) 0x0001) State.commitRequest)

/-- COMMIT_CANCEL (R108). -/
def execCommitCancel (s : State) : Result := .next (s.takeAccess (.write (reg 0x0E) 0x0002) State.cancelRequest)

/-- COMMIT_CTRL_UNDEFINED_REQUEST (R106). -/
def execCommitCtrlUndefinedRequest (w : Word) (s : State) : Result :=
  .next (s.takeAccess (.write (reg 0x0E) w) (fun s => s.commitCtrlWrite w))

/-- VALIDATION_END (R109, R115, R116). -/
def execValidationEnd (s : State) : Result := .next (s.outOfReset State.validationEnd)

end Sys2Proof.Machine
end

