-- ==== Sys2Proof/Machine/Refill.lean ====
section
/-! DEFINITION. The refill queue (Chapter 3): insertion, removal, pop and watermark check. -/

namespace Sys2Proof.Machine

/-- An insertion for source `i` (R50, R51). -/
def State.insertRecord (s : State) (i : SourceId) (reason : RefillReason) : State :=
  let entry : RefillRec :=
    { source := i
      reason := reason
      rowAtEntry := if s.downlink.link.inRun then s.downlink.rowCount.setWidth 8 else 0
      occAtEntry := (s.record i).occupancy }
  State.raise { s with refill := { s.refill with records := s.refill.records ++ [entry] } } .refill

/-- The record of source `i` is taken out wherever it stands (R55). -/
def State.removeRecord (s : State) (i : SourceId) : State :=
  { s with refill := { s.refill with records := s.refill.records.filter (fun r => r.source != i) } }

/-- A watermark check of source `i` is handed to the queue (R53). -/
def State.handCheck (s : State) (i : SourceId) : State :=
  { s with refill := { s.refill with checks := s.refill.checks ++ [i] } }

/-- A watermark check of source `i` as it is carried out (R53). -/
def State.watermarkCheck (s : State) (i : SourceId) : State :=
  let r := s.record i
  if r.state.feeding = true ∧ r.armed = true ∧ s.queued i = false ∧ r.occupancy ≤ r.watermark then
    (s.insertRecord i .low).setRecord i { r with armed := false }
  else s

/-- The queue takes a check handed over for source `i`; where none is outstanding nothing happens (R53, log entries 6 and 8). -/
def State.takeCheck (s : State) (i : SourceId) : State :=
  if s.refill.checks.contains i then
    State.watermarkCheck { s with refill := { s.refill with checks := s.refill.checks.erase i } } i
  else s

/-- A pop (R57). -/
def State.pop (s : State) : State := { s with refill := { s.refill with records := s.refill.records.tail } }

/-- WATERMARK_CHECK (R53). -/
def execWatermarkCheck (src : SourceId) (s : State) : Result := .next (s.outOfReset (fun s => s.takeCheck src))

/-- REFILL_POP (R57). -/
def execRefillPop (w : Word) (s : State) : Result := .next (s.takeAccess (.write (reg 0x2A) w) State.pop)

end Sys2Proof.Machine
end

