-- ==== Sys2Proof/Machine/Sources.lean ====
section
/-! DEFINITION. The source unit (Chapter 2): appends, consults and source commands. -/

namespace Sys2Proof.Machine

/-! ### Appends (R30, R169) -/

/-- A write to APPEND_SRC (R30). -/
def State.appendSrcWrite (s : State) (w : Word) : State :=
  { s with sources := { s.sources with appendSrc := w.setWidth 8 } }

/-- APPEND (R31, R32, R169). -/
def execAppend (w : Word) (s : State) : Result := .next (s.takeAccess (.write (reg 0x20) w) (fun s => s.append w))

/-! ### Consult (R34 … R42) -/

/-- Why a consult yields nothing (R34). -/
inductive NoneReason where
  | off | priming | keyed | starved
  deriving DecidableEq, Repr

/-- The outcome of a consult (R34). -/
inductive ConsultOutcome where
  | deliver (w : Word)
  | nothing (r : NoneReason)
  deriving DecidableEq, Repr

/-- A consult: the state it leaves and its outcome. -/
structure Consulted where
  state : State
  outcome : ConsultOutcome
  deriving DecidableEq, Repr

/-- The policy's answer to a starved consult (R39). -/
def SourceRec.policyAnswer (r : SourceRec) : ConsultOutcome :=
  match r.policy with
  | .fill => .deliver r.fillWord
  | .repeatLast => .deliver (if r.lastValid then r.last else r.fillWord)
  | .yield => .nothing .starved

/-- The removed word `w` is keyed (R36, step 3). -/
def SourceRec.isKeyed (r : SourceRec) (w : Word) : Bool := r.keyEn && (w == r.key)

/-- The record after the oldest word, `w`, is removed (R36, steps 2 to 4). -/
def SourceRec.afterRemoval (r : SourceRec) (w : Word) : SourceRec :=
  { r with
    readIndex := r.nextIndex r.readIndex
    occupancy := r.occupancy - 1
    consumed := r.consumed + 1
    last := if r.isKeyed w then r.last else w
    lastValid := r.lastValid || !r.isKeyed w }

/-- The outcome of removing `w` (R36). -/
def SourceRec.removalOutcome (r : SourceRec) (w : Word) : ConsultOutcome :=
  if r.isKeyed w then .nothing .keyed else .deliver w

/-- The record after an underrun (R37, steps 1 and 2). -/
def SourceRec.afterUnderrun (r : SourceRec) : SourceRec :=
  { r with state := .starved, episodes := satInc r.episodes, missed := satInc r.missed }

/-- The episode latch is raised (R37, R156). -/
def State.latchEpisode (s : State) : State := { s with composer := { s.composer with episodeLatch := true } }

/-- The oldest word of source `i`, read through the arbiter (R36, R41). -/
def State.oldestWord (s : State) (i : SourceId) : Word :=
  s.bufferRead ((s.record i).ringAddress (s.record i).readIndex)

/-- A consult of source `i` that is in LIVE or enters it (R36, R37, R41). -/
def State.consultLive (s : State) (i : SourceId) : Consulted :=
  let r : SourceRec := { s.record i with state := .live }
  if r.occupancy = 0 then
    { state := ((s.setRecord i r.afterUnderrun).latchEpisode).raise .underrun, outcome := r.policyAnswer }
  else
    { state := (s.setRecord i (r.afterRemoval (s.oldestWord i))).handCheck i
      outcome := r.removalOutcome (s.oldestWord i) }

/-- A consult of source `i` in DRAINING (R40). -/
def State.consultDraining (s : State) (i : SourceId) : Consulted :=
  let r := s.record i
  let r' := r.afterRemoval (s.oldestWord i)
  { state := if r'.occupancy = 0 then (s.setRecord i { r' with state := .off }).raise .drained else s.setRecord i r'
    outcome := r.removalOutcome (s.oldestWord i) }

/-- A consult of source `i` (R34, R35, R38). -/
def State.consult (s : State) (i : SourceId) : Consulted :=
  let r := s.record i
  match r.state with
  | .off => { state := s, outcome := .nothing .off }
  | .priming => if r.startLevel ≤ r.occupancy then s.consultLive i else { state := s, outcome := .nothing .priming }
  | .live => s.consultLive i
  | .starved =>
    if r.startLevel ≤ r.occupancy then s.consultLive i
    else { state := s.setRecord i { r with missed := satInc r.missed }, outcome := r.policyAnswer }
  | .draining => s.consultDraining i

/-! ### Source commands (R44 … R48) -/

/-- A source command ends with a result, which SRC_CMD_STATUS then shows (R44). -/
def State.commandResult (s : State) (cmd : BitVec 4) (src : BitVec 8) (res : CmdResult) : State :=
  { s with sources := { s.sources with cmdSource := src, cmdCode := cmd, cmdResult := res } }

/-- A source command is refused (R44): SOURCE_CMD with the source number, and the command code and reason (R184). -/
def State.refuseCommand (s : State) (cmd : BitVec 4) (src : BitVec 8) (r : Reason) : State :=
  (s.commandResult cmd src (.refused r)).report .sourceCmd (field 0 src) (field 8 cmd ||| field 0 r.code)

/-- A command with a defined code: the source number is checked, then `body` carries it out or gives the reason of its refusal
(R44). -/
def State.sourceCommand (s : State) (cmd : SourceCommand) (src : BitVec 8) (body : SourceId → State → Except Reason State) :
    State :=
  if h : src.toNat < 24 then
    match body ⟨src.toNat, h⟩ s with
    | .ok t => t.commandResult cmd.code src .done
    | .error r => s.refuseCommand cmd.code src r
  else s.refuseCommand cmd.code src .badSource

/-- The checks OPEN makes of a record (R45). -/
def SourceRec.geometryOk (r : SourceRec) : Bool :=
  decide (2 ≤ r.length.toNat ∧ r.length.toNat ≤ 8192 ∧ r.base.toNat + r.length.toNat ≤ 0x8000
    ∧ 1 ≤ r.startLevel.toNat ∧ r.startLevel.toNat ≤ r.length.toNat ∧ r.watermark.toNat < r.length.toNat)

/-- The record after OPEN (R45, steps 1 to 4). -/
def SourceRec.opened (r : SourceRec) : SourceRec :=
  { r with
    state := .priming
    readIndex := 0
    writeIndex := 0
    occupancy := 0
    appended := 0
    consumed := 0
    discarded := 0
    episodes := 0
    missed := 0
    overflows := 0
    lastValid := false
    armed := false }

/-- The record after its ring is discarded (R47 and R48, steps 1 to 3), left in state `st`. -/
def SourceRec.emptied (r : SourceRec) (st : SourceState) : SourceRec :=
  { r with
    state := st
    discarded := r.discarded + r.occupancy
    occupancy := 0
    readIndex := r.writeIndex
    armed := false }

/-- OPEN of source `i` (R45, R52). -/
def doOpen (i : SourceId) (s : State) : Except Reason State :=
  let r := s.record i
  if r.state ≠ .off then .error .badState
  else if r.geometryOk then .ok ((s.setRecord i r.opened).insertRecord i .opened)
  else .error .geometry

/-- CLOSE of source `i` (R46, R55). -/
def doClose (i : SourceId) (s : State) : Except Reason State :=
  let r := s.record i
  if r.state.feeding then
    .ok ((s.setRecord i { r with armed := false, state := if r.occupancy = 0 then .off else .draining }).removeRecord i)
  else .error .badState

/-- KILL of source `i` (R47, R55). -/
def doKill (i : SourceId) (s : State) : Except Reason State :=
  let r := s.record i
  if r.state = .off then .ok s else .ok ((s.setRecord i (r.emptied .off)).removeRecord i)

/-- FLUSH of source `i` (R48, R52). -/
def doFlush (i : SourceId) (s : State) : Except Reason State :=
  let r := s.record i
  if r.state.feeding then
    let t := s.setRecord i (r.emptied .priming)
    .ok (if s.queued i then t else t.insertRecord i .flushed)
  else .error .badState

/-- What a defined command does to its source. -/
def SourceCommand.body : SourceCommand → SourceId → State → Except Reason State
  | .openSource => doOpen
  | .closeSource => doClose
  | .kill => doKill
  | .flush => doFlush

/-- A write to SRC_CMD with a command code and a source number (R44). -/
def State.srcCmd (s : State) (cmd : BitVec 4) (src : BitVec 8) : State :=
  match sourceCommandOf cmd with
  | some c => s.sourceCommand c src c.body
  | none => s.refuseCommand cmd src .badCommand

/-- A write of `w` to SRC_CMD (R44, R183). -/
def State.srcCmdWrite (s : State) (w : Word) : State := s.srcCmd (w.extractLsb' 8 4) (w.setWidth 8)

/-- OPEN (R45). -/
def execOpenSource (src : BitVec 8) (s : State) : Result :=
  .next (s.takeAccess (.write (reg 0x22) (srcCmdWord 1 src)) (fun s => s.sourceCommand .openSource src doOpen))

/-- CLOSE (R46). -/
def execCloseSource (src : BitVec 8) (s : State) : Result :=
  .next (s.takeAccess (.write (reg 0x22) (srcCmdWord 2 src)) (fun s => s.sourceCommand .closeSource src doClose))

/-- KILL (R47). -/
def execKill (src : BitVec 8) (s : State) : Result :=
  .next (s.takeAccess (.write (reg 0x22) (srcCmdWord 3 src)) (fun s => s.sourceCommand .kill src doKill))

/-- FLUSH (R48). -/
def execFlush (src : BitVec 8) (s : State) : Result :=
  .next (s.takeAccess (.write (reg 0x22) (srcCmdWord 4 src)) (fun s => s.sourceCommand .flush src doFlush))

/-- SRC_CMD_UNDEFINED_COMMAND (R44). -/
def execSrcCmdUndefinedCommand (cmd : BitVec 4) (src : BitVec 8) (s : State) : Result :=
  .next (s.takeAccess (.write (reg 0x22) (srcCmdWord cmd src)) (fun s => s.srcCmd cmd src))

end Sys2Proof.Machine
end

