-- ==== Sys2Proof/Machine/Compose.lean ====
section
/-! DEFINITION. The composer (Chapters 1 and 4): column classes, the words it forms without a consult, the check accumulator, and how a
composed word becomes the lookahead word. -/

namespace Sys2Proof.Machine

/-! ### Columns, ID word and check accumulator -/

/-- Column classes (R2). -/
inductive ColumnClass where
  | sync | ident | data | check
  deriving DecidableEq, Repr

/-- The class of column `c` (R2). -/
def Bank.columnClass (b : Bank) (c : Nat) : ColumnClass :=
  if c < b.s then .sync
  else if c = b.s then .ident
  else if b.checkEn = true ∧ c + 1 = b.n then .check
  else .data

/-- The identification word of row `m` (R4). -/
def Bank.idWord (b : Bank) (m : Nat) (majorCount : Word) : Word :=
  if b.idMajor = true ∧ 8 < b.w then BitVec.ofNat 16 (m % 256 + 256 * (majorCount.toNat % 2 ^ (b.w - 8)))
  else BitVec.ofNat 16 (m % 256)

/-- One bit fed into the check accumulator (R6, steps 1 to 3). -/
def crcBit (acc : Word) (bit : Bool) : Word :=
  if acc.getLsbD 15 = bit then acc <<< 1 else (acc <<< 1) ^^^ 0x1021

/-- The low `k` bits of `v` fed from bit k−1 down to bit 0 (R6). -/
def crcFeed : Nat → Word → Word → Word
  | 0, _, acc => acc
  | k + 1, v, acc => crcFeed k v (crcBit acc (v.getLsbD k))

/-! ### The base layer (R66 … R71) -/

/-- The base entry of cell (m,c): the map entry, or the pool entry its group selects for the row (R66, R72). -/
def Bank.baseEntry (b : Bank) (m c : Nat) : Entry :=
  match b.mapEntry c with
  | .subcom g => b.poolEntry (b.groupFirst g.toNat + m % b.groupDepth g.toNat)
  | e => e

/-! ### Composing a cell -/

/-- Cell (m,c) becomes the last cell composed. In column 0 a new minor frame opens: the accumulator is FFFFh, the episode latch is
captured and cleared, and at cell (0,0) the new-plan marker becomes the mark of the major frame (R6, R11, R118, R156). -/
def State.openCell (s : State) (m c : Nat) : State :=
  let s := { s with composer := { s.composer with row := m, col := c } }
  if c = 0 then
    let s := { s with composer := { s.composer with
      accumulator := 0xFFFF, capturedU := s.composer.episodeLatch, episodeLatch := false } }
    if m = 0 then
      { s with
        composer := { s.composer with newPlanFrame := s.commit.newPlan }
        commit := { s.commit with newPlan := false } }
    else s
  else s

/-- The composed word becomes the lookahead word; `fed` says whether its W bits enter the accumulator (R5, R6, R9). -/
def State.setLookahead (s : State) (value : Word) (delivered fed : Bool) : State :=
  let w := s.commit.active.w
  { s with composer := { s.composer with
      lookahead := some { value := value, width := w, delivered := delivered }
      accumulator := if fed then crcFeed w value s.composer.accumulator else s.composer.accumulator } }

/-- The identification word, sync word or check word of a column that is no data column; `none` for a data column (R3 … R6). The Bool
says whether the word is fed into the accumulator. -/
def State.fixedWord (s : State) (m c : Nat) : Option (Word × Bool) :=
  let b := s.commit.active
  match b.columnClass c with
  | .sync => some (b.sync c, false)
  | .ident => some (b.idWord m s.downlink.majorCount, true)
  | .check => some (s.composer.accumulator, false)
  | .data => none

/-- Cell (0,0) of a run is composed (R9). It is a sync cell, since a plan that passes has S of at least 1 (R7, log entry 16). -/
def State.composeFirst (s : State) : State :=
  let t := s.openCell 0 0
  t.setLookahead (t.commit.active.sync 0) false false

end Sys2Proof.Machine
end

