-- ==== Sys2Proof/Machine/Link.lean ====
section
/-! DEFINITION. The downlink port (Chapter 7): run requests, the start and the ends of a run, and the clock registers. -/

namespace Sys2Proof.Machine

/-! ### The start of a run (R133, R134) -/

/-- The run starts: the counters become 0, cell (0,0) is composed, and the bit clock generator or the clock-loss timer starts
(R133, steps 1 to 3; R128). -/
def State.startRun (s : State) : State :=
  State.composeFirst { s with downlink := { s.downlink with
      link := .running, target := .none, rowCount := 0, majorCount := 0, shifting := none, bclko := true,
      halfCount := 0, lossTimer := 0 } }

/-- A request to RUN_CTRL, the written word `w`, is refused: RUN_REQ with the word and the link state (R132, R133). -/
def State.refuseRun (s : State) (w : Word) : State := s.report .runReq w (field 0 s.downlink.link.code)

/-- START, the written word `w` (R133). -/
def State.startRequest (s : State) (w : Word) : State :=
  match s.downlink.link with
  | .stopped =>
    let t := { s with downlink := { s.downlink with lostWords := 0 } }
    match s.downlink.trigger with
    | .immediate => t.startRun
    | .external => { t with downlink := { t.downlink with link := .armed } }
  | .armed | .running | .stopping | .halted => s.refuseRun w

/-- A rising edge on START (R134). -/
def State.startEdge (s : State) : State :=
  match s.downlink.link with
  | .armed => s.startRun
  | .stopped | .running | .stopping | .halted => s

/-! ### The ends of a run (R137 … R139, R141) -/

/-- A composed word counts in LOST_WORDS when a source delivered it (R141). -/
def lostCount : Option Composed → Nat
  | some w => if w.delivered then 1 else 0
  | none => 0

/-- The source-delivered words among the word being shifted and the lookahead word (R141). -/
def State.lostWords (s : State) : BitVec 2 :=
  BitVec.ofNat 2 (lostCount (s.downlink.shifting.map Shifting.word) + lostCount s.composer.lookahead)

/-- The run ends in link state `l`: both words are gone, the lines go to their idle levels and both clocks stop (R123, R130, R131),
and the commit controller takes a pending swap (R117). -/
def State.leaveRun (s : State) (l : LinkState) : State :=
  State.swapIfPending { s with
    downlink := { s.downlink with
      link := l, target := .none, shifting := none, dout := s.downlink.idleLevel, bclko := true, mfs := false, jfs := false,
      halfCount := 0, lossTimer := 0 }
    composer := { s.composer with lookahead := none } }

/-- The run is cut, in link state `l`: LOST_WORDS takes the count of the two words, and the run ends (R138, R139). -/
def State.cutRun (s : State) (l : LinkState) : State :=
  State.leaveRun { s with downlink := { s.downlink with lostWords := s.lostWords } } l

/-- The end point of the row in progress has passed: its last word is leaving and the successor, in column 0, is composed (R135). -/
def State.endPassed (s : State) : Bool :=
  s.downlink.shifting.isSome && s.composer.lookahead.isSome && s.composer.col == 0

/-- The major frame end point has passed and the last word of the major frame is leaving (R135). -/
def State.majorEndPassed (s : State) : Bool := s.endPassed && s.composer.row == 0

/-- A stop in ARMED (R136). -/
def State.disarm (s : State) : State := State.raise { s with downlink := { s.downlink with link := .stopped } } .stopped

/-- The link is STOPPING with a stop target (R135). -/
def State.stopAt (s : State) (t : StopTarget) : State :=
  { s with downlink := { s.downlink with link := .stopping, target := t } }

/-- STOP with mode END_MINOR (R135, R136). -/
def State.stopEndMinor (s : State) : State :=
  let target : StopTarget := if s.endPassed then .reached else .endMinor
  match s.downlink.link with
  | .running => s.stopAt target
  | .stopping =>
    match s.downlink.target with
    | .endMajor => s.stopAt target
    | .none | .endMinor | .reached => s
  | .armed => s.disarm
  | .stopped | .halted => s

/-- STOP with mode END_MAJOR (R135, R136). -/
def State.stopEndMajor (s : State) : State :=
  match s.downlink.link with
  | .running => s.stopAt (if s.majorEndPassed then .reached else .endMajor)
  | .armed => s.disarm
  | .stopping | .stopped | .halted => s

/-- STOP with mode ABORT (R136, R138). -/
def State.abort (s : State) : State :=
  match s.downlink.link with
  | .running | .stopping => (s.cutRun .stopped).raise .stopped
  | .armed => s.disarm
  | .stopped | .halted => s

/-- CLEAR_HALT (R140). -/
def State.clearHalt (s : State) : State :=
  match s.downlink.link with
  | .halted => { s with downlink := { s.downlink with link := .stopped } }
  | .stopped | .armed | .running | .stopping => s

/-- A write of `w` to RUN_CTRL (R132, R185). -/
def State.runCtrlWrite (s : State) (w : Word) : State :=
  match runRequestOf w with
  | some .start => s.startRequest w
  | some .stopEndMinor => s.stopEndMinor
  | some .stopEndMajor => s.stopEndMajor
  | some .abort => s.abort
  | some .clearHalt => s.clearHalt
  | none => s.refuseRun w

/-! ### Clock loss (R139) -/

/-- The clock-loss timer runs: CLK_SRC EXTERNAL, and a run in progress (R139). -/
def State.lossTimerRuns (s : State) : Bool := s.downlink.clkSrc == .external && s.downlink.link.inRun

/-- The clock-loss timer expires (R139). Where it does not run nothing happens (log entry 6). -/
def State.clockLossExpiry (s : State) : State :=
  if s.lossTimerRuns then (s.cutRun .halted).raise .halt else s

/-- A rising edge of BCLKI (R129, R139). -/
def State.bclkiRisingEdge (s : State) : State :=
  if s.lossTimerRuns then { s with downlink := { s.downlink with lossTimer := 0 } } else s

/-! ### Clock registers (R124, R125) -/

/-- The byte offset of a clock register (12.1). -/
def clockRegOffset : ClockReg → Nat
  | .clkMode => 0x08
  | .bitDiv => 0x0A
  | .lossTimeout => 0x0C

/-- A clock register takes the word `w`; an IDLE_LEVEL moves DOUT at the write (R124, R125). -/
def Downlink.setClockReg (d : Downlink) (r : ClockReg) (w : Word) : Downlink :=
  match r with
  | .clkMode =>
    { d with
      clkSrc := clockSourceOf (w.getLsbD 0), idleLevel := w.getLsbD 1, trigger := startTriggerOf (w.getLsbD 2),
      dout := w.getLsbD 1 }
  | .bitDiv => { d with bitDiv := w }
  | .lossTimeout => { d with lossTimeout := w.setWidth 8 }

/-- A write of `w` to a clock register (R125). -/
def State.clockRegWrite (s : State) (r : ClockReg) (w : Word) : State :=
  if s.downlink.link = .stopped then { s with downlink := s.downlink.setClockReg r w }
  else s.refuseRegWrite (clockRegOffset r) .linkActive

/-! ### The commands -/

/-- The word of a START or CLEAR_HALT (R185): the request in bits 3 … 0, `rest` above it. -/
def runWord (rest : BitVec 12) (request : BitVec 4) : Word := rest ++ request

/-- The word of a STOP (R185): the request in bits 3 … 0, the mode in bits 5 … 4, `rest` above them. -/
def stopWord (rest : BitVec 10) (mode : BitVec 2) : Word := rest ++ mode ++ (2 : BitVec 4)

/-- START (R133). -/
def execStart (rest : BitVec 12) (s : State) : Result :=
  .next (s.takeAccess (.write (reg 0x00) (runWord rest 1)) (fun s => s.startRequest (runWord rest 1)))

/-- START_EDGE (R134). -/
def execStartEdge (s : State) : Result := .next (s.outOfReset State.startEdge)

/-- STOP_END_MINOR (R135, R136). -/
def execStopEndMinor (rest : BitVec 10) (s : State) : Result :=
  .next (s.takeAccess (.write (reg 0x00) (stopWord rest 0)) State.stopEndMinor)

/-- STOP_END_MAJOR (R135, R136). -/
def execStopEndMajor (rest : BitVec 10) (s : State) : Result :=
  .next (s.takeAccess (.write (reg 0x00) (stopWord rest 1)) State.stopEndMajor)

/-- ABORT (R136, R138). -/
def execAbort (rest : BitVec 10) (s : State) : Result :=
  .next (s.takeAccess (.write (reg 0x00) (stopWord rest 2)) State.abort)

/-- CLEAR_HALT (R140). -/
def execClearHalt (rest : BitVec 12) (s : State) : Result :=
  .next (s.takeAccess (.write (reg 0x00) (runWord rest 3)) State.clearHalt)

/-- RUN_CTRL_UNDEFINED_REQUEST (R132). -/
def execRunCtrlUndefinedRequest (w : Word) (s : State) : Result :=
  .next (s.takeAccess (.write (reg 0x00) w) (fun s => s.runCtrlWrite w))

/-- CLOCK_LOSS_EXPIRY (R139). -/
def execClockLossExpiry (s : State) : Result := .next (s.outOfReset State.clockLossExpiry)

/-- BCLKI_RISING_EDGE (R129, R139). -/
def execBclkiRisingEdge (s : State) : Result := .next (s.outOfReset State.bclkiRisingEdge)

/-- CLOCK_REGISTER_WRITE (R125). -/
def execClockRegisterWrite (r : ClockReg) (w : Word) (s : State) : Result :=
  .next (s.takeAccess (.write (reg (clockRegOffset r)) w) (fun s => s.clockRegWrite r w))

end Sys2Proof.Machine
end

