-- ==== Sys2Proof/Machine/Resets.lean ====
section
/-! DEFINITION. The two resets and the release of RESET# (R24, R59, R105, R126, R142, R154, R160, R170, R171, R180). -/

namespace Sys2Proof.Machine

/-- A hardware reset: every block takes its hardware-reset values, RESET# stays asserted, and a held access and the one that
waits are cut (R160). The buffer keeps its words while the part stays powered; a power-up leaves them undefined (R171, log entry 1). The queue
of commands to come is not part of the hardware. -/
def State.hardwareReset (s : State) (powerUp : Bool) : State :=
  { State.reset with
    pending := s.pending
    resetAsserted := true
    buffer := if powerUp then [] else s.buffer }

/-- RESET# is released: the tick divider starts from zero and the register window takes accesses again (R154, R160). -/
def State.resetRelease (s : State) : State :=
  if s.resetAsserted then { s with resetAsserted := false, time := { s.time with divider := 0 } } else s

/-- The downlink port after a soft reset: CLK_MODE, BIT_DIV and LOSS_TIMEOUT are kept, and DOUT goes to the kept IDLE_LEVEL
(R126, R142). -/
def Downlink.softReset (d : Downlink) : Downlink :=
  { Downlink.reset with
    clkSrc := d.clkSrc, idleLevel := d.idleLevel, trigger := d.trigger, bitDiv := d.bitDiv, lossTimeout := d.lossTimeout
    dout := d.idleLevel }

/-- A soft reset: every block takes its soft-reset values; the clock registers, TICK_DIV and the buffer keep theirs (R170). -/
def State.softReset (s : State) : State :=
  { State.reset with
    pending := s.pending
    buffer := s.buffer
    downlink := s.downlink.softReset
    time := { TimeCounter.reset with tickDiv := s.time.tickDiv }
    window := { RegWindow.reset with readData := s.window.readData } }

/-- HARDWARE_RESET (R160). -/
def execHardwareReset (powerUp : Bool) (s : State) : Result := .next (s.hardwareReset powerUp)

/-- RESET_RELEASE (R154, R160). -/
def execResetRelease (s : State) : Result := .next s.resetRelease

/-- SOFT_RESET (R170). -/
def execSoftReset (w : Word) (s : State) : Result := .next (s.takeAccess (.write (reg 0x48) w) State.softReset)

end Sys2Proof.Machine
end

