-- ==== Sys2Proof/Machine/Tables.lean ====
section
/-! DEFINITION. The table access unit and the buffer port (Chapter 9), and host writes to source records (R20 … R23). -/

namespace Sys2Proof.Machine

/-! ### Source record writes (R20 … R23, R164) -/

/-- A write of WATERMARK to source `i` that has passed its checks (R22). -/
def State.setWatermark (s : State) (i : SourceId) (w : Word) : State :=
  let r := s.record i
  if r.state.feeding then
    (s.setRecord i { r with watermark := w, armed := r.armed || decide (w < r.occupancy) }).handCheck i
  else s.setRecord i { r with watermark := w }

/-- A write of `w` to word `k` of the record of source `i`: the part it leaves, or the reason it is refused for (R20, R21, R164). -/
def writeSourceWord (i : SourceId) (k : Nat) (w : Word) (s : State) : Except Reason State :=
  let r := s.record i
  match k with
  | 0 =>
    if r.state ≠ .off then .error .sourceNotOff
    else if 0x7FFF < w.toNat then .error .range
    else .ok (s.setRecord i { r with base := w })
  | 1 =>
    if r.state ≠ .off then .error .sourceNotOff
    else if 0x3FFF < w.toNat then .error .range
    else .ok (s.setRecord i { r with length := w })
  | 2 =>
    if 0x3FFF < w.toNat ∨ (r.state ≠ .off ∧ r.length ≤ w) then .error .range
    else .ok (s.setWatermark i w)
  | 3 =>
    if 0x3FFF < w.toNat ∨ (r.state ≠ .off ∧ (w = 0 ∨ r.length < w)) then .error .range
    else .ok (s.setRecord i { r with startLevel := w })
  | 4 =>
    match policyOf w with
    | some p => .ok (s.setRecord i { r with policy := p })
    | none => .error .range
  | 5 => .ok (s.setRecord i { r with fillWord := w })
  | 6 => if 1 < w.toNat then .error .range else .ok (s.setRecord i { r with keyEn := w.getLsbD 0 })
  | 7 => .ok (s.setRecord i { r with key := w })
  | _ => .error .readOnly

/-! ### TBL_SEL, TBL_INDEX and TBL_DATA (R161 … R164) -/

/-- A write of `w` to TBL_SEL (R161). -/
def State.tblSelWrite (s : State) (w : Word) : State :=
  match tableOf (w.extractLsb' 0 3) with
  | some t => { s with window := { s.window with table := t, bank := roleOf (w.getLsbD 8), index := 0 } }
  | none => s.refuseRegWrite 0x14 .range

/-- A write of `w` to TBL_INDEX (R162). -/
def State.tblIndexWrite (s : State) (w : Word) : State :=
  { s with window := { s.window with index := w.toNat % s.window.table.size } }

/-- TBL_INDEX advances, from the table's last word to 0 (R162). -/
def State.advanceIndex (s : State) : State :=
  { s with window := { s.window with index := (s.window.index + 1) % s.window.table.size } }

/-- The bank that holds a role (R101). -/
def Commit.bank (c : Commit) : Role → Bank
  | .staging => c.staging
  | .active => c.active

/-- A write to a plan table (R102, R164). -/
def writePlanWord (t : PlanTable) (w : Word) (s : State) : Except Reason State :=
  match s.window.bank with
  | .active => .error .activeBank
  | .staging =>
    if s.commit.state = .edit then
      .ok { s with commit := { s.commit with staging := s.commit.staging.setWord t s.window.index w } }
    else .error .locked

/-- The source whose record the word at TBL_INDEX belongs to (R163, R164). -/
def State.indexedSource (s : State) : SourceId := sourceId (s.window.index / 32)

/-- A write of `w` to the word at TBL_INDEX of the selected table (R164). -/
def writeTableWord (w : Word) (s : State) : Except Reason State :=
  match s.window.table with
  | .plan t => writePlanWord t w s
  | .source => writeSourceWord s.indexedSource (s.window.index % 32) w s

/-- A write of `w` to TBL_DATA: it is carried out or refused, and TBL_INDEX advances either way (R162, R164). -/
def State.tableDataWrite (s : State) (w : Word) : State :=
  match writeTableWord w s with
  | .ok t => t.advanceIndex
  | .error r =>
    State.advanceIndex
      (s.report .tableWrite (tblSelWord s.window.table s.window.bank) (field 0 (BitVec.ofNat 12 s.window.index) ||| field 12 r.code))

/-- The word at TBL_INDEX of the selected table (R163). -/
def State.tableWord (s : State) : Word :=
  match s.window.table with
  | .plan t => (s.commit.bank s.window.bank).word t s.window.index
  | .source => (s.record s.indexedSource).word (s.queued s.indexedSource) (s.window.index % 32)

/-- A read of TBL_DATA is held: a plan table named with STAGING while the controller is in SYNCING (R103, R158). -/
def State.readHeld (s : State) : Bool :=
  s.window.table != .source && s.window.bank == .staging && s.commit.state == .syncing

/-- A read of TBL_DATA is answered (R163). -/
def State.answerTableRead (s : State) : State := (s.answer s.tableWord).advanceIndex

/-- A read of TBL_DATA: answered at once, or held (R103, R158, R163). -/
def State.tableDataRead (s : State) (raised : Bool) : State :=
  if s.readHeld then s.hold (.read (reg 0x18) raised) else s.answerTableRead

/-! ### The buffer port (R167) -/

/-- A write of `w` to BUF_ADDR (R167). -/
def State.bufAddrWrite (s : State) (w : Word) : State := { s with window := { s.window with bufAddr := w.setWidth 15 } }

/-! ### The commands -/

/-- TABLE_DATA_WRITE (R164). -/
def execTableDataWrite (w : Word) (s : State) : Result :=
  .next (s.takeAccess (.write (reg 0x18) w) (fun s => s.tableDataWrite w))

/-- TABLE_DATA_READ (R163). -/
def execTableDataRead (s : State) (raised : Bool := false) : Result :=
  .next (s.takeAccess (.read (reg 0x18) raised) (fun s => s.tableDataRead raised))

/-- TBL_SEL_WRITE (R161). -/
def execTblSelWrite (w : Word) (s : State) : Result :=
  .next (s.takeAccess (.write (reg 0x14) w) (fun s => s.tblSelWrite w))

/-- TBL_INDEX_WRITE (R162). -/
def execTblIndexWrite (w : Word) (s : State) : Result :=
  .next (s.takeAccess (.write (reg 0x16) w) (fun s => s.tblIndexWrite w))

/-- BUF_DATA_READ (R168). -/
def execBufDataRead (s : State) (raised : Bool := false) : Result :=
  .next (s.takeAccess (.read (reg 0x1C) raised) State.bufDataRead)

/-- BUF_DATA_WRITE (R168). -/
def execBufDataWrite (w : Word) (s : State) : Result :=
  .next (s.takeAccess (.write (reg 0x1C) w) (fun s => s.bufDataWrite w))

end Sys2Proof.Machine
end

