-- ==== Sys2Proof/Machine/Time.lean ====
section
/-! DEFINITION. The time counter (Chapter 8): ticks, loads, requests and the snapshot. -/

namespace Sys2Proof.Machine

/-- A load: the counter takes the preset as it stands, the pending load becomes NONE, TIME_SET is set and TIME_LOADED is raised
(R148, R149). -/
def State.loadTime (s : State) : State :=
  State.raise { s with time := { s.time with counter := s.time.preset, load := .none, timeSet := true } } .timeLoaded

/-- The tick divider starts again from zero (R144, R145, R149). -/
def State.restartDivider (s : State) : State := { s with time := { s.time with divider := 0 } }

/-- A tick: the counter advances, or a TICK load takes the tick (R144, R148). -/
def State.tick (s : State) : State :=
  let t := s.restartDivider
  match s.time.load with
  | .tick => t.loadTime
  | .none | .tsync => { t with time := { t.time with counter := t.time.counter + 1 } }

/-- A rising edge of TSYNC (R149). -/
def State.tsyncEdge (s : State) : State :=
  match s.time.load with
  | .tsync => s.loadTime.restartDivider
  | .none | .tick => s

/-- A write to TICK_DIV (R145). -/
def State.tickDivWrite (s : State) (w : Word) : State := { s with time := { s.time with tickDiv := w, divider := 0 } }

/-- The pending load becomes `l` (R147). -/
def State.setLoad (s : State) (l : PendingLoad) : State := { s with time := { s.time with load := l } }

/-- A write of `w` to TIME_CTRL (R147, R185). -/
def State.timeCtrlWrite (s : State) (w : Word) : State :=
  if w = 0x0001 then s.setLoad .tick
  else if w = 0x0002 then s.setLoad .tsync
  else if w = 0x0003 then s.setLoad .none
  else s.refuseRegWrite 0x34 .badRequest

/-- A read of TIME_READ_H: the counter is copied into the snapshot, whose bits 47 … 32 are returned (R152). -/
def State.timeReadH (s : State) : State :=
  State.answer { s with time := { s.time with snapshot := s.time.counter } } (timePart s.time.counter 0)

/-- TICK (R144, R148). -/
def execTick (s : State) : Result := .next (s.outOfReset State.tick)

/-- TSYNC_EDGE (R149). -/
def execTsyncEdge (s : State) : Result := .next (s.outOfReset State.tsyncEdge)

/-- TICK_DIV_WRITE (R145). -/
def execTickDivWrite (w : Word) (s : State) : Result :=
  .next (s.takeAccess (.write (reg 0x2C) w) (fun s => s.tickDivWrite w))

/-- LOAD_AT_TICK (R147). -/
def execLoadAtTick (s : State) : Result := .next (s.takeAccess (.write (reg 0x34) 0x0001) (fun s => s.setLoad .tick))

/-- LOAD_AT_TSYNC (R147). -/
def execLoadAtTsync (s : State) : Result := .next (s.takeAccess (.write (reg 0x34) 0x0002) (fun s => s.setLoad .tsync))

/-- TIME_CANCEL (R147). -/
def execTimeCancel (s : State) : Result := .next (s.takeAccess (.write (reg 0x34) 0x0003) (fun s => s.setLoad .none))

/-- TIME_CTRL_UNDEFINED_REQUEST (R147). -/
def execTimeCtrlUndefinedRequest (w : Word) (s : State) : Result :=
  .next (s.takeAccess (.write (reg 0x34) w) (fun s => s.timeCtrlWrite w))

/-- TIME_READ_H (R152). -/
def execTimeReadH (s : State) : Result := .next (s.takeAccess (.read (reg 0x36) false) State.timeReadH)

end Sys2Proof.Machine
end

