-- ==== Sys2Proof/Machine/Access.lean ====
section
/-! DEFINITION. The register window (R157, R159): each access handed to the block that owns the register, the access that waits
behind a held one, and the end of the copy-back, which releases it. -/

namespace Sys2Proof.Machine

/-- A write of `w` at byte offset `off`, handed to its owner (R157). A write to a register that is only read out, and to an offset
that holds no register, has no effect (R159). -/
def State.writeRegister (s : State) (off : Nat) (w : Word) : State :=
  match off with
  | 0x00 => s.runCtrlWrite w
  | 0x08 => s.clockRegWrite .clkMode w
  | 0x0A => s.clockRegWrite .bitDiv w
  | 0x0C => s.clockRegWrite .lossTimeout w
  | 0x0E => s.commitCtrlWrite w
  | 0x14 => s.tblSelWrite w
  | 0x16 => s.tblIndexWrite w
  | 0x18 => s.tableDataWrite w
  | 0x1A => s.bufAddrWrite w
  | 0x1C => s.bufDataWrite w
  | 0x1E => s.appendSrcWrite w
  | 0x20 => s.append w
  | 0x22 => s.srcCmdWrite w
  | 0x2A => s.pop
  | 0x2C => s.tickDivWrite w
  | 0x2E => { s with time := { s.time with presetH := w } }
  | 0x30 => { s with time := { s.time with presetM := w } }
  | 0x32 => { s with time := { s.time with presetL := w } }
  | 0x34 => s.timeCtrlWrite w
  | 0x3C => s.intFlagsWrite w
  | 0x3E => s.intEnableWrite w
  | 0x40 => s.errKindWrite
  | 0x48 => s.softReset
  | _ => s

/-- A read at byte offset `off`, handed to its owner (R157). -/
def State.readRegister (s : State) (off : Nat) (raised : Bool) : State :=
  match off with
  | 0x18 => s.tableDataRead raised
  | 0x1C => s.bufDataRead
  | 0x36 => s.timeReadH
  | _ => s.answer (s.registerView off)

/-- An access is carried out by the owner of the register it addresses (R157). -/
def State.carryOut (s : State) : HostAccess → State
  | .read a raised => s.readRegister (2 * a.toNat) raised
  | .write a w => s.writeRegister (2 * a.toNat) w

/-- An access of the host, as the register window takes it (R157, R158, R160). -/
def State.access (s : State) (h : HostAccess) : State := s.takeAccess h (fun t => t.carryOut h)

/-- REGISTER_WRITE (R159). -/
def execRegisterWrite (a : BitVec 6) (w : Word) (s : State) : Result :=
  .next (s.takeAccess (.write a w) (fun s => s.writeRegister (2 * a.toNat) w))

/-- The held read of TBL_DATA is answered with the copied word; where its cycle was abandoned, no data is delivered (R103, R158,
R162). -/
def State.releaseRead (s : State) : State :=
  match s.window.held with
  | none => s
  | some h =>
    let t := State.answerTableRead { s with window := { s.window with held := none } }
    if h.abandoned then t.undelivered s else t

/-- The access that waited is taken (R157, R158; log entry 10). -/
def State.releaseWaiting (s : State) : State :=
  match s.window.waiting with
  | some h => State.access { s with window := { s.window with waiting := none } } h
  | none => s

/-- The copy-back ends (R119). Where no copy-back is running nothing happens (log entry 6). -/
def State.copyBackEnd (s : State) : State :=
  match s.commit.state with
  | .syncing => s.copyBack.releaseRead.releaseWaiting
  | .edit | .validating | .pending => s

/-- COPY_BACK_END (R119). -/
def execCopyBackEnd (s : State) : Result := .next (s.outOfReset State.copyBackEnd)

end Sys2Proof.Machine
end

