-- ==== Sys2Proof/Machine/Resolve.lean ====
section
/-! DEFINITION. A cell is composed (Chapters 4 and 5): its layers are resolved from the top, one consult after another, while the arbiter
shares the port between those consults and the host (R165, R166), and other events fall in between (R96, R97, R155, R174). -/

namespace Sys2Proof.Machine

/-! ### A composition under way -/

/-- A composition under way. -/
structure CellFlow where
  state : State
  /-- What falls before the consults still to come. -/
  gaps : List CellGap
  /-- The host's accesses that wait until the composer's next read has ended, in the host's order (R157, R165). -/
  deferred : List HostAccess
  /-- The requester whose buffer access ends at this instant; none when the port is free (R165). -/
  ended : Option Requester
  /-- Composition goes on: the composer may ask for the port, until the cell is composed or the run is over (R138, R142). -/
  composing : Bool
  deriving DecidableEq, Repr

/-- A composition begins with the port free. -/
def CellFlow.start (s : State) (gaps : List CellGap) : CellFlow :=
  { state := s, gaps := gaps, deferred := [], ended := none, composing := true }

/-- An event leaves the part in state `t`. With the end of the run composition stops (R138, R139, R142). -/
def CellFlow.after (f : CellFlow) (t : State) : CellFlow :=
  { f with
    state := t
    ended := if t.downlink.link.inRun then f.ended else none
    composing := f.composing && t.downlink.link.inRun }

/-! ### The host and the arbiter (R157, R165, R166) -/

/-- Port access `p` asks the arbiter, and `composer` says whether the composer asks too: it is performed when it is granted, and else
waits for the composer's next read to end. An access that waited for the composer was held (R158). -/
def CellFlow.ask (f : CellFlow) (p : PortAccess) (composer : Bool) : CellFlow :=
  match grant f.ended composer true with
  | some .window =>
    { f with
      state := f.state.performHeld p (f.ended == some .composer && p.bus.raised)
      ended := some .window }
  | some .composer | none => { f with deferred := [p.bus] }

/-- The host makes access `h` before the composer makes its next consult. Behind an access that waits it waits too (R157). An access
that needs no port, or that waits behind a held read, is taken as the register window takes it. After an access of either requester in
this composition the composer asks for its next read at once, at a free port it has not asked yet (R165). -/
def CellFlow.host (f : CellFlow) (h : HostAccess) : CellFlow :=
  if f.deferred ≠ [] then { f with deferred := f.deferred ++ [h] }
  else
    match h.portUse, f.state.window.held with
    | some p, none => f.ask p (f.composing && f.ended.isSome)
    | _, _ => f.after (f.state.access h)

/-- The host makes port access `p` at the very instant of the composer's next consult, which asks for the port when `reads`; after an
access of either requester in this composition the composer has asked already (R165). -/
def CellFlow.tie (f : CellFlow) (reads : Bool) (p : PortAccess) : CellFlow :=
  if f.deferred ≠ [] then { f with deferred := f.deferred ++ [p.bus] }
  else
    match f.state.window.held with
    | none => f.ask p (f.composing && (reads || f.ended.isSome))
    | some _ => f.after (f.state.access p.bus)

/-- The copy-back has left the part in state `t`; the access that waited is taken by the arbiter's rules (R119, R158). -/
def CellFlow.release (f : CellFlow) (t : State) : CellFlow :=
  match t.window.waiting with
  | some h => (f.after { t with window := { t.window with waiting := none } }).host h
  | none => f.after t

/-- One event while a cell is composed. -/
def CellFlow.event (f : CellFlow) (e : CellEvent) : CellFlow :=
  match e with
  | .access h => f.host h
  | .watermarkCheck src => f.after (f.state.takeCheck src)
  | .tick => f.after f.state.tick
  | .tsyncEdge => f.after f.state.tsyncEdge
  | .validationEnd => f.after f.state.validationEnd
  | .copyBackEnd =>
    match f.state.commit.state with
    | .syncing => f.release f.state.copyBack.releaseRead
    | .edit | .validating | .pending => f

/-- The events of a list, in their order. -/
def CellFlow.events (f : CellFlow) (es : List CellEvent) : CellFlow := es.foldl CellFlow.event f

/-- Up to the next consult: the accesses that wait ask again, the events of the next gap fall, and at the instant of the consult, which
removes a word in a state that `reads`, the access tied to it asks (R165). -/
def CellFlow.toConsult (f : CellFlow) (reads : State → Bool) : CellFlow :=
  let gap := f.gaps.headD { events := [], tied := none }
  let g := CellFlow.events { f with gaps := f.gaps.tail, deferred := [] } (f.deferred.map CellEvent.access ++ gap.events)
  match gap.tied with
  | some p => g.tie (reads g.state) p
  | none => g

/-- The cell is composed, or composition has stopped: what still waits or falls takes place in its order, and the composer asks for the
port no more. -/
def CellFlow.finish (f : CellFlow) : CellFlow :=
  CellFlow.events { f with gaps := [], deferred := [], composing := false }
    (f.deferred.map CellEvent.access
      ++ f.gaps.flatMap (fun gap => gap.events ++ (gap.tied.map PortAccess.bus).toList.map CellEvent.access))

/-- The composition is over. `reading`: its last buffer read is still in progress, unless an access of the host has followed it
(R165). -/
def CellFlow.close (f : CellFlow) (reading : Bool) : State :=
  let g := f.finish
  { g.state with port := if reading ∧ g.ended = some .composer then some .composer else none }

/-! ### Consults of a composition -/

/-- A consult of source `i` removes a word, and so asks for a buffer read (R36, R40, R165). -/
def State.consultReads (s : State) (i : SourceId) : Bool :=
  let r := s.record i
  match r.state with
  | .off => false
  | .priming | .starved => decide (r.startLevel ≤ r.occupancy ∧ r.occupancy ≠ 0)
  | .live => decide (r.occupancy ≠ 0)
  | .draining => true

/-- The consult of source `i` is made: its read, if it makes one, then ends; if it makes none, the composer goes on to its next layer with
the port as it was (R41, R165). -/
def CellFlow.consult (f : CellFlow) (i : SourceId) : CellFlow :=
  { f with
    state := (f.state.consult i).state
    ended := if f.state.consultReads i then some .composer else f.ended }

/-- What a data cell's resolution leaves: the composition, and the word that is placed with its source-delivered mark (R141); none when
composition stopped. -/
structure Resolved where
  flow : CellFlow
  placed : Option (Word × Bool)
  deriving DecidableEq, Repr

/-! ### The base layer (R66 … R71) -/

/-- The refill queue takes the checks handed over by the consults of this cell, `handed`, before a status word is formed: a record
they insert is already seen in Q (R155; log entry 8). -/
def State.takeChecks (s : State) (handed : List SourceId) : State := handed.foldl State.takeCheck s

/-- The base entry `e` decides the cell, on a composition that has come to it (R66). An entry that no validated plan holds in use places
IDLE (log entry 16). -/
def CellFlow.base (f : CellFlow) (e : Entry) (handed : List SourceId) : Resolved :=
  let idle := f.state.commit.active.idle
  match e with
  | .direct src =>
    { flow := f.consult (sourceId src.toNat)
      placed := some (match (f.state.consult (sourceId src.toNat)).outcome with
        | .deliver w => (w, true)
        | .nothing _ => (idle, false)) }
  | .const v => { flow := f, placed := some (v, false) }
  | .time k => { flow := f, placed := some (timePart f.state.time.stamp k.toNat, false) }
  | .status =>
    let t := f.state.takeChecks handed
    { flow := { f with state := t }, placed := some (t.statusWord, false) }
  | .spare | .subcom _ | .undefined _ => { flow := f, placed := some (idle, false) }

/-- A base entry consults its source with a read of the buffer (R67). -/
def Entry.reads (e : Entry) (s : State) : Bool :=
  match e with
  | .direct src => s.consultReads (sourceId src.toNat)
  | .spare | .subcom _ | .const _ | .time _ | .status | .undefined _ => false

/-- The base layer of cell (m,c) is reached (R66, R155). -/
def resolveBase (m c : Nat) (handed : List SourceId) (f : CellFlow) : Resolved :=
  let e := f.state.commit.active.baseEntry m c
  let g := f.toConsult e.reads
  if g.composing then g.base e handed else { flow := g, placed := none }

/-! ### Resolution through the layers (R84 … R89) -/

/-- Resolution of cell (m,c) from the window layers `ks` down. A layer that yields a word decides the cell (R84, R85); an OPAQUE
window that gets none places BLANK (R86); a TRANSPARENT one passes down (R87). What falls before a consult is met by it (R96, R97, R166),
and with the end of the run resolution stops. `handed` lists the sources whose consults in this cell handed over a watermark check. -/
def resolveLayers (m c : Nat) : List Nat → List SourceId → CellFlow → Resolved
  | [], handed, f => resolveBase m c handed f
  | k :: ks, handed, f =>
    let b := f.state.commit.active
    let src := sourceId (b.winSource k)
    let g := f.toConsult (fun s => s.consultReads src)
    if g.composing then
      match (g.state.consult src).outcome with
      | .deliver w => { flow := g.consult src, placed := some (w, true) }
      | .nothing _ =>
        if b.winOpaque k then { flow := g.consult src, placed := some (b.winBlank k, false) }
        else
          let handed' := if (g.state.consult src).state.refill.checks = g.state.refill.checks then handed else handed ++ [src]
          resolveLayers m c ks handed' (g.consult src)
    else { flow := g, placed := none }

/-! ### Composing a cell (R9) -/

/-- Cell (m,c) is composed from the Active bank (R3 … R6, R9). What falls among no consult of the cell takes place once it is
composed. -/
def State.composeCell (s : State) (gaps : List CellGap) (reading : Bool) (m c : Nat) : State :=
  let t := s.openCell m c
  match t.fixedWord m c with
  | some (w, fed) => (CellFlow.start (t.setLookahead w false fed) gaps).close reading
  | none =>
    let r := resolveLayers m c (t.commit.active.windowLayers m c) [] (CellFlow.start t gaps)
    match r.placed with
    | some (w, delivered) => CellFlow.close { r.flow with state := r.flow.state.setLookahead w delivered true } reading
    | none => r.flow.close reading

end Sys2Proof.Machine
end

