-- ==== Sys2Proof/Machine/Stream.lean ====
section
/-! DEFINITION. The bit stream (Chapters 1 and 7): the falling edges of the bit clock in use. A falling edge in a run begins a bit
period within the word being shifted (BIT_PERIOD_START), begins the first bit of the lookahead cell (CELL_COMPOSE), or ends the
last bit period of the target row (STOPPING_END). -/

namespace Sys2Proof.Machine

/-! ### What the next falling edge is -/

/-- The word being shifted, if any, is at its last bit (R1, R127). -/
def Downlink.wordDone (d : Downlink) : Bool :=
  match d.shifting with
  | none => true
  | some sh => sh.bit == 0

/-- The next falling edge begins a bit period within the word being shifted. -/
def State.bitDue (s : State) : Bool := s.downlink.link.inRun && !s.downlink.wordDone

/-- The next falling edge ends the last bit period of the target row (R137). -/
def State.stopDue (s : State) : Bool :=
  s.downlink.link == .stopping && s.downlink.target == .reached && s.downlink.wordDone

/-- The next falling edge begins the first bit of the lookahead cell (R9, R127). -/
def State.cellDue (s : State) : Bool :=
  s.downlink.link.inRun && s.downlink.target != .reached && s.downlink.wordDone && s.composer.lookahead.isSome

/-! ### A bit period begins (R127 … R131) -/

/-- Bit `bit` of `word` is put on DOUT at a falling edge; MFS and JFS take `mfs` and `jfs`. With CLK_SRC INTERNAL BCLKO falls and the
generator counts a new half period (R128); with EXTERNAL BCLKO stays high and the clock-loss timer restarts (R129, R139). -/
def Downlink.beginBit (d : Downlink) (word : Composed) (bit : Nat) (mfs jfs : Bool) : Downlink :=
  { d with
    shifting := some { word := word, bit := bit }
    dout := word.value.getLsbD bit
    mfs := mfs
    jfs := jfs
    bclko := d.clkSrc == .external
    halfCount := 0
    lossTimer := 0 }

/-- A bit period other than a cell's first begins (R1, R130, R131). -/
def State.bitPeriodStart (s : State) : State :=
  match s.downlink.shifting with
  | some sh => if s.bitDue then { s with downlink := s.downlink.beginBit sh.word (sh.bit - 1) false false } else s
  | none => s

/-- The last bit period of the target row ends (R137). -/
def State.stoppingEnd (s : State) : State := if s.stopDue then (s.leaveRun .stopped).raise .stopped else s

/-! ### The first bit of a cell leaves (R9 … R14) -/

/-- The minor frame start event of row `m` (R12, R15, R153). Row 0 raises MINOR and MAJOR with nothing between them, so a read or a W1C
write of INT_FLAGS that falls together with the event meets both raises or neither: log entry 21, the model's choice, since R172 makes
each raise an event and R174 leaves each one's order to the access open. -/
def State.startEvent (s : State) (m : Nat) : State :=
  let t := State.raise { s with
    downlink := { s.downlink with rowCount := BitVec.ofNat 16 m }
    time := { s.time with stamp := s.time.counter } } .minor
  if m = 0 then t.raise .major else t

/-- A minor frame end point of a row meets the stop target; `isLast` says that the row is the last of its major frame (R137). -/
def Downlink.targetMet (d : Downlink) (isLast : Bool) : Bool :=
  d.link == .stopping && (d.target == .endMinor || (d.target == .endMajor && isLast))

/-- The major frame end point: MAJOR_COUNT advances, and a pending swap is taken (R13, R16, R117). -/
def State.majorEndPoint (s : State) : State :=
  State.swapIfPending { s with downlink := { s.downlink with majorCount := s.downlink.majorCount + 1 } }

/-- Cell (m,c)'s first bit has left: its successor is composed, unless the cell ends the target row (R10, R13, R14, R137). -/
def State.composeSuccessor (s : State) (gaps : List CellGap) (reading : Bool) (m c : Nat) : State :=
  let b := s.commit.active
  if c + 1 < b.n then s.composeCell gaps reading m (c + 1)
  else
    let isLast := decide (b.m ≤ m + 1)
    let t := if isLast then s.majorEndPoint else s
    if s.downlink.targetMet isLast then
      (CellFlow.start { t with downlink := { t.downlink with target := .reached } } gaps).close reading
    else t.composeCell gaps reading (if isLast then 0 else m + 1) 0

/-- The first bit of the lookahead cell leaves DOUT (R9, R12). Where that is not what the next falling edge does, nothing happens
(log entry 6). -/
def State.firstBit (s : State) (gaps : List CellGap) (reading : Bool) : State :=
  match s.composer.lookahead with
  | some w =>
    if s.cellDue then
      let m := s.composer.row
      let c := s.composer.col
      let t := { s with
        downlink := s.downlink.beginBit w (w.width - 1) (c == 0) (c == 0 && m == 0)
        composer := { s.composer with lookahead := none } }
      let t := if c = 0 then t.startEvent m else t
      t.composeSuccessor gaps reading m c
    else s
  | none => s

/-! ### The commands -/

/-- CELL_COMPOSE (R9, R10). -/
def execCellCompose (gaps : List CellGap) (s : State) (reading : Bool := false) : Result :=
  .next (s.outOfReset (fun s => s.firstBit gaps reading))

/-- BIT_PERIOD_START (R127, R130). -/
def execBitPeriodStart (s : State) : Result := .next (s.outOfReset State.bitPeriodStart)

/-- STOPPING_END (R137). -/
def execStoppingEnd (s : State) : Result := .next (s.outOfReset State.stoppingEnd)

end Sys2Proof.Machine
end

