-- ==== Sys2Proof/Machine/Refclk.lean ====
section
/-! DEFINITION. One REFCLK period with no command in the queue (log entries 3, 4 and 5): the tick divider, the bound of validation
and copy-back, the clock-loss timer and the internal bit clock generator each count it, and the events they reach are carried
out. -/

namespace Sys2Proof.Machine

/-- The refill queue takes the checks handed over to it, oldest first (R53, log entry 4). -/
def State.drainChecks (s : State) : State := s.refill.checks.foldl State.takeCheck s

/-- The tick divider counts a period; the one that completes TICK_DIV + 1 is a tick (R144). -/
def State.dividerPeriod (s : State) : State :=
  if s.time.tickDiv.toNat ≤ s.time.divider then s.tick
  else { s with time := { s.time with divider := s.time.divider + 1 } }

/-- Validation or copy-back counts a period; the one that reaches the bound ends it (R109, R119, log entry 5). -/
def State.operationPeriod (s : State) : State :=
  let counted := { s with commit := { s.commit with elapsed := s.commit.elapsed + 1 } }
  match s.commit.state with
  | .validating => if Config.operationBound ≤ s.commit.elapsed + 1 then s.validationEnd else counted
  | .syncing => if Config.operationBound ≤ s.commit.elapsed + 1 then s.copyBackEnd else counted
  | .edit | .pending => s

/-- The clock-loss timer counts a period; the one that reaches 256 × (LOSS_TIMEOUT + 1) expires it (R139). -/
def State.lossPeriod (s : State) : State :=
  if s.lossTimerRuns then
    if Config.lossUnit * (s.downlink.lossTimeout.toNat + 1) ≤ s.downlink.lossTimer + 1 then s.clockLossExpiry
    else { s with downlink := { s.downlink with lossTimer := s.downlink.lossTimer + 1 } }
  else s

/-- A falling edge of the bit clock in use, whichever of the three events it is. -/
def State.fallingEdge (s : State) : State :=
  if s.stopDue then s.stoppingEnd else if s.bitDue then s.bitPeriodStart else s.firstBit [] false

/-- The internal generator counts a period; after BIT_DIV + 1 of them BCLKO changes, and a fall begins a bit period (R128). -/
def State.generatorPeriod (s : State) : State :=
  if s.downlink.clkSrc = .internal ∧ s.downlink.link.inRun = true then
    if s.downlink.bitDiv.toNat ≤ s.downlink.halfCount then
      if s.downlink.bclko then s.fallingEdge
      else { s with downlink := { s.downlink with bclko := true, halfCount := 0 } }
    else { s with downlink := { s.downlink with halfCount := s.downlink.halfCount + 1 } }
  else s

/-- One REFCLK period passes; while RESET# is asserted nothing counts (R154). -/
def State.refclk (s : State) : State :=
  s.outOfReset (fun s => s.drainChecks.dividerPeriod.operationPeriod.lossPeriod.generatorPeriod)

end Sys2Proof.Machine
end

