-- ==== Sys2Proof/Machine/Dispatch.lean ====
section
/-! DEFINITION. One arm per command: the meaning of each row of spec/opcode_table.json. -/

namespace Sys2Proof.Machine

def exec (i : Instr) (s : State) : Host.Outcome State Fault Refusal :=
  match i with
  | .hardwareReset powerUp => Sys2Proof.Machine.execHardwareReset powerUp s
  | .softReset w => Sys2Proof.Machine.execSoftReset w s
  | .start rest => Sys2Proof.Machine.execStart rest s
  | .startEdge => Sys2Proof.Machine.execStartEdge s
  | .stopEndMinor rest => Sys2Proof.Machine.execStopEndMinor rest s
  | .stopEndMajor rest => Sys2Proof.Machine.execStopEndMajor rest s
  | .abort rest => Sys2Proof.Machine.execAbort rest s
  | .clearHalt rest => Sys2Proof.Machine.execClearHalt rest s
  | .stoppingEnd => Sys2Proof.Machine.execStoppingEnd s
  | .clockLossExpiry => Sys2Proof.Machine.execClockLossExpiry s
  | .cellCompose gaps reading => Sys2Proof.Machine.execCellCompose gaps s reading
  | .watermarkCheck src => Sys2Proof.Machine.execWatermarkCheck src s
  | .openSource src => Sys2Proof.Machine.execOpenSource src s
  | .closeSource src => Sys2Proof.Machine.execCloseSource src s
  | .kill src => Sys2Proof.Machine.execKill src s
  | .flush src => Sys2Proof.Machine.execFlush src s
  | .append w => Sys2Proof.Machine.execAppend w s
  | .refillPop w => Sys2Proof.Machine.execRefillPop w s
  | .tableDataWrite w => Sys2Proof.Machine.execTableDataWrite w s
  | .tableDataRead raised => Sys2Proof.Machine.execTableDataRead s raised
  | .tblSelWrite w => Sys2Proof.Machine.execTblSelWrite w s
  | .tblIndexWrite w => Sys2Proof.Machine.execTblIndexWrite w s
  | .bufDataRead raised => Sys2Proof.Machine.execBufDataRead s raised
  | .bufDataWrite w => Sys2Proof.Machine.execBufDataWrite w s
  | .commit => Sys2Proof.Machine.execCommit s
  | .commitCancel => Sys2Proof.Machine.execCommitCancel s
  | .validationEnd => Sys2Proof.Machine.execValidationEnd s
  | .copyBackEnd => Sys2Proof.Machine.execCopyBackEnd s
  | .tick => Sys2Proof.Machine.execTick s
  | .tsyncEdge => Sys2Proof.Machine.execTsyncEdge s
  | .tickDivWrite w => Sys2Proof.Machine.execTickDivWrite w s
  | .loadAtTick => Sys2Proof.Machine.execLoadAtTick s
  | .loadAtTsync => Sys2Proof.Machine.execLoadAtTsync s
  | .timeCancel => Sys2Proof.Machine.execTimeCancel s
  | .timeReadH => Sys2Proof.Machine.execTimeReadH s
  | .clockRegisterWrite r w => Sys2Proof.Machine.execClockRegisterWrite r w s
  | .intFlagsWrite w => Sys2Proof.Machine.execIntFlagsWrite w s
  | .intEnableWrite w => Sys2Proof.Machine.execIntEnableWrite w s
  | .errKindWrite w => Sys2Proof.Machine.execErrKindWrite w s
  | .registerWrite a w => Sys2Proof.Machine.execRegisterWrite a w s
  | .bitPeriodStart => Sys2Proof.Machine.execBitPeriodStart s
  | .bclkiRisingEdge => Sys2Proof.Machine.execBclkiRisingEdge s
  | .resetRelease => Sys2Proof.Machine.execResetRelease s
  | .runCtrlUndefinedRequest w => Sys2Proof.Machine.execRunCtrlUndefinedRequest w s
  | .commitCtrlUndefinedRequest w => Sys2Proof.Machine.execCommitCtrlUndefinedRequest w s
  | .srcCmdUndefinedCommand cmd src => Sys2Proof.Machine.execSrcCmdUndefinedCommand cmd src s
  | .timeCtrlUndefinedRequest w => Sys2Proof.Machine.execTimeCtrlUndefinedRequest w s

end Sys2Proof.Machine
end

