-- ==== Sys2Proof/Machine/Step.lean ====
section
/-! DEFINITION. One step: the command at the front of the queue, or one REFCLK period when the queue is empty (log entry 3). -/

namespace Sys2Proof.Machine

/-- The command at the front of the queue is taken and carried out on the part with the queue's rest; on an empty queue one REFCLK
period passes. -/
def step (s : State) : Host.Outcome State Fault Refusal :=
  match s.pending with
  | c :: rest => exec c { s with pending := rest }
  | [] => .next s.refclk

/-- The command that a word spells by the table's bits, put at the front of the queue; no row gives bits, so no word spells one. -/
def State.withFetchWord (s : State) (nbits w : Nat) : State :=
  match decodeTableWord nbits w with
  | some c => { s with pending := c :: s.pending }
  | none => s

end Sys2Proof.Machine
end

