-- ==== Sys2Proof/Safety.lean ====
section
/-! DEFINITION. What the FL6418 keeps true of its own state, and the terms statements about commands use: when the register window
takes an access at once, and which access of the register window a command is. -/

namespace Sys2Proof.Machine

/-! ### Accesses -/

/-- Events take place, and each finds the buffer's port free: RESET# is not asserted (R160) and no buffer access is in progress
(R165). -/
def State.settled (s : State) : Prop := s.resetAsserted = false ∧ s.port = none

/-- The register window takes an access at once and carries it out: RESET# is not asserted (R160), no buffer access is in progress
(R165), and no access is held (R157, R158). -/
def State.ready (s : State) : Prop := s.settled ∧ s.window.held = none

/-- The access of the register window that a command is (12.1, R183, R185); none for an event of the part or of a line. -/
def accessOf : Instr → Option HostAccess
  | .softReset w => some (.write 0x24 w)
  | .start rest => some (.write 0x00 (rest ++ (1 : BitVec 4)))
  | .stopEndMinor rest => some (.write 0x00 (rest ++ (0x02 : BitVec 6)))
  | .stopEndMajor rest => some (.write 0x00 (rest ++ (0x12 : BitVec 6)))
  | .abort rest => some (.write 0x00 (rest ++ (0x22 : BitVec 6)))
  | .clearHalt rest => some (.write 0x00 (rest ++ (3 : BitVec 4)))
  | .runCtrlUndefinedRequest w => some (.write 0x00 w)
  | .clockRegisterWrite .clkMode w => some (.write 0x04 w)
  | .clockRegisterWrite .bitDiv w => some (.write 0x05 w)
  | .clockRegisterWrite .lossTimeout w => some (.write 0x06 w)
  | .commit => some (.write 0x07 0x0001)
  | .commitCancel => some (.write 0x07 0x0002)
  | .commitCtrlUndefinedRequest w => some (.write 0x07 w)
  | .tblSelWrite w => some (.write 0x0A w)
  | .tblIndexWrite w => some (.write 0x0B w)
  | .tableDataWrite w => some (.write 0x0C w)
  | .tableDataRead raised => some (.read 0x0C raised)
  | .bufDataWrite w => some (.write 0x0E w)
  | .bufDataRead raised => some (.read 0x0E raised)
  | .append w => some (.write 0x10 w)
  | .openSource src => some (.write 0x11 ((0x01 : BitVec 8) ++ src))
  | .closeSource src => some (.write 0x11 ((0x02 : BitVec 8) ++ src))
  | .kill src => some (.write 0x11 ((0x03 : BitVec 8) ++ src))
  | .flush src => some (.write 0x11 ((0x04 : BitVec 8) ++ src))
  | .srcCmdUndefinedCommand cmd src => some (.write 0x11 ((0 : BitVec 4) ++ cmd ++ src))
  | .refillPop w => some (.write 0x15 w)
  | .tickDivWrite w => some (.write 0x16 w)
  | .loadAtTick => some (.write 0x1A 0x0001)
  | .loadAtTsync => some (.write 0x1A 0x0002)
  | .timeCancel => some (.write 0x1A 0x0003)
  | .timeCtrlUndefinedRequest w => some (.write 0x1A w)
  | .timeReadH => some (.read 0x1B false)
  | .intFlagsWrite w => some (.write 0x1E w)
  | .intEnableWrite w => some (.write 0x1F w)
  | .errKindWrite w => some (.write 0x20 w)
  | .registerWrite a w => some (.write a w)
  | .hardwareReset _ | .resetRelease | .startEdge | .stoppingEnd | .clockLossExpiry | .cellCompose _ _ | .watermarkCheck _
  | .validationEnd | .copyBackEnd | .tick | .tsyncEdge | .bitPeriodStart | .bclkiRisingEdge => none

/-! ### Laws of the source unit and the refill queue -/

/-- What R21, R23, R25, R26 and R29 say of a source record at every instant. -/
structure SourceRec.Lawful (r : SourceRec) : Prop where
  /-- APPENDED − CONSUMED − DISCARDED ≡ OCCUPANCY (mod 65536), R26. -/
  balance : r.appended - r.consumed - r.discarded = r.occupancy
  /-- 0 ≤ OCCUPANCY ≤ LENGTH, R26. -/
  fits : r.occupancy ≤ r.length
  /-- OCCUPANCY is 0 whenever the state is OFF, R26. -/
  off : r.state = .off → r.occupancy = 0
  /-- A source in DRAINING always holds at least one word, R29. -/
  draining : r.state = .draining → r.occupancy ≠ 0
  /-- LENGTH lies in 2 … 8192 while the source is not OFF, R21. -/
  lengthRange : r.state ≠ .off → 2 ≤ r.length.toNat ∧ r.length.toNat ≤ 8192
  /-- Every address a ring uses lies within the buffer, R25. -/
  inBuffer : r.state ≠ .off → r.base.toNat + r.length.toNat ≤ 0x8000
  /-- START_LEVEL lies in 1 … LENGTH, R21. -/
  startRange : r.state ≠ .off → r.startLevel ≠ 0 ∧ r.startLevel ≤ r.length
  /-- WATERMARK lies in 0 … LENGTH−1, R21. -/
  markRange : r.state ≠ .off → r.watermark < r.length
  /-- READ_INDEX lies in 0 … LENGTH−1 once opened, R23. -/
  readRange : r.state ≠ .off → r.readIndex < r.length
  /-- WRITE_INDEX equals (READ_INDEX + OCCUPANCY) mod LENGTH, R25. -/
  tail : r.state ≠ .off → r.writeIndex.toNat = (r.readIndex.toNat + r.occupancy.toNat) % r.length.toNat

/-- Every source record is lawful. -/
def State.SourcesLawful (s : State) : Prop := ∀ i : SourceId, (s.record i).Lawful

/-- R49: never two records for the same source, and no record for a source that is OFF or DRAINING. -/
structure State.RefillLawful (s : State) : Prop where
  distinct : (s.refill.records.map RefillRec.source).Nodup
  feeding : ∀ r ∈ s.refill.records, (s.record r.source).state.feeding = true

/-! ### Plans that pass validation -/

/-- A map entry that a bank may hold in a data column (R63): a kind word and an argument word. -/
def mapEntryAllowed (kind arg : Word) : Prop :=
  kind = 0 ∨ (kind = 1 ∧ arg.toNat ≤ 23) ∨ (kind = 2 ∧ arg.toNat ≤ 7) ∨ kind = 3 ∨ (kind = 4 ∧ arg.toNat ≤ 2) ∨ kind = 5

/-- A pool entry that a bank may hold within a used group (R63, R65). -/
def poolEntryAllowed (kind arg : Word) : Prop :=
  kind = 0 ∨ (kind = 1 ∧ arg.toNat ≤ 23) ∨ kind = 3 ∨ (kind = 4 ∧ arg.toNat ≤ 2) ∨ kind = 5

/-- Column `c` is a data column: S+1 … N−1−C (R2). -/
def Bank.isDataColumn (b : Bank) (c : Nat) : Prop := b.s + 1 ≤ c ∧ c ≤ b.n - 1 - b.c

/-- A data column names group `g` by a SUBCOM entry (R62, R111). -/
def Bank.namesGroup (b : Bank) (g : Nat) : Prop :=
  ∃ c, b.isDataColumn c ∧ b.word .map (2 * c) = 2 ∧ (b.word .map (2 * c + 1)).toNat = g

/-- What a bank must hold to become Active: the ranges of R7, R63, R64, R65 and R79. -/
structure Bank.Valid (b : Bank) : Prop where
  width : b.w = 8 ∨ b.w = 10 ∨ b.w = 12 ∨ b.w = 14 ∨ b.w = 16
  frame : 8 ≤ b.n ∧ b.n ≤ 1024
  depth : 1 ≤ b.m ∧ b.m ≤ 256
  sync : 1 ≤ b.s ∧ b.s ≤ 3
  bits : b.n * b.w ≤ 16384
  map : ∀ c, b.isDataColumn c → mapEntryAllowed (b.word .map (2 * c)) (b.word .map (2 * c + 1))
  groups : ∀ g, b.namesGroup g →
    2 ≤ b.groupDepth g ∧ b.groupDepth g ≤ 256 ∧ b.groupDepth g ∣ b.m ∧ b.groupFirst g + b.groupDepth g ≤ 1024
  pool : ∀ g i, b.namesGroup g → b.groupFirst g ≤ i → i < b.groupFirst g + b.groupDepth g →
    poolEntryAllowed (b.word .row (2 * i)) (b.word .row (2 * i + 1))
  windows : ∀ k, k < 4 → b.winEnabled k = true →
    b.winTop k ≤ b.winBottom k ∧ b.winBottom k < b.m ∧ b.s + 1 ≤ b.winLeft k ∧ b.winLeft k ≤ b.winRight k
      ∧ b.winRight k ≤ b.n - 1 - b.c ∧ b.winSource k ≤ 23

/-! ### Laws of the commit controller -/

/-- R101: the Active bank always holds a configuration that passes validation. R116: PENDING only while the link is RUNNING or
STOPPING, with a Staging bank that has passed. -/
structure State.CommitLawful (s : State) : Prop where
  activePasses : s.commit.active.validate = none
  pendingPasses : s.commit.state = .pending → s.commit.staging.validate = none
  pendingInRun : s.commit.state = .pending → s.downlink.link.inRun = true

/-- R104: COMMIT_FAULT is 0 unless RESULT is one of the five step names; R107, R116: RESULT stays NONE while a commit is in
progress. -/
structure State.ResultLawful (s : State) : Prop where
  faultZero : (∀ step, s.commit.result ≠ .refused step) → s.commit.fault = 0
  noneInProgress : s.commit.state ≠ .edit → s.commit.result = .none

/-! ### Laws of memory and of the register window -/

/-- Every memory has its canonical form (INVENTORY, Memory and ordering), and TBL_INDEX lies within the selected table (R162). -/
structure State.MemoryLawful (s : State) : Prop where
  buffer : Memory.wf bufferDefault Config.bufferWords s.buffer = true
  active : s.commit.active.wf = true
  staging : s.commit.staging.wf = true
  index : s.window.index < s.window.table.size

/-- What R103, R158 and R165 say of held accesses and the arbiter between two commands. -/
structure State.WindowLawful (s : State) : Prop where
  /-- What is held is a read of TBL_DATA in SYNCING, or an access to the buffer while a buffer access is in progress. -/
  heldFor : ∀ x, s.window.held = some x →
    ((∃ raised, x.access = .read 0x0C raised) ∧ s.commit.state = .syncing)
      ∨ (((∃ raised, x.access = .read 0x0E raised) ∨ (∃ w, x.access = .write 0x0E w) ∨ ∃ w, x.access = .write 0x10 w)
        ∧ s.port = some .composer)
  /-- An access waits only behind a held read of TBL_DATA. -/
  waitingHeld : s.window.waiting ≠ none → ∃ x raised, s.window.held = some x ∧ x.access = .read 0x0C raised
  /-- A buffer access of the host is whole; what is in progress is the composer's. -/
  port : s.port ≠ some .window

/-! ### Laws of the downlink port -/

/-- What R123, R129 and R132 say of the link and the lines at every instant. -/
structure State.LinkLawful (s : State) : Prop where
  /-- Outside a run no word is being shifted or waits, and the lines stand at their idle levels (R123). -/
  idle : s.downlink.link.inRun = false →
    s.downlink.shifting = none ∧ s.composer.lookahead = none ∧ s.downlink.dout = s.downlink.idleLevel
      ∧ s.downlink.bclko = true ∧ s.downlink.mfs = false ∧ s.downlink.jfs = false
  /-- TARGET is NONE in every state but STOPPING, and not NONE there (R132, R135). -/
  target : s.downlink.target ≠ .none ↔ s.downlink.link = .stopping
  /-- DOUT carries the bit of the present bit period; before the first of a run it stays at IDLE_LEVEL (R130). -/
  line : s.downlink.dout =
    match s.downlink.shifting with
    | some sh => sh.word.value.getLsbD sh.bit
    | none => s.downlink.idleLevel
  /-- JFS is high only together with MFS, and MFS only during a bit period (R131). -/
  strobes : (s.downlink.jfs = true → s.downlink.mfs = true) ∧ (s.downlink.mfs = true → s.downlink.shifting.isSome = true)
  /-- With CLK_SRC EXTERNAL BCLKO is held high (R129). -/
  external : s.downlink.clkSrc = .external → s.downlink.bclko = true
  /-- In a run whose target row has not reached its end point a composed word waits (R9). -/
  ahead : s.downlink.link.inRun = true → s.downlink.target ≠ .reached → s.composer.lookahead.isSome = true

/-! ### Laws of error capture -/

/-- R177, R178: an empty record has details 0, and AFTER_COUNT is nonzero only while the record is full. -/
def State.ErrorLawful (s : State) : Prop :=
  s.irq.errKind = .none → s.irq.detailA = 0 ∧ s.irq.detailB = 0 ∧ s.irq.afterCount = 0

/-! ### Terms of the statements about the stream -/

/-- The next falling edge begins the first bit of the lookahead cell, whose word is `w` (R9, R127): a run is in progress, its target
row has not reached its end point, and the word being shifted, if there is one, is at its last bit. -/
structure State.CellLeaves (s : State) (w : Composed) : Prop where
  inRun : s.downlink.link = .running ∨ s.downlink.link = .stopping
  target : s.downlink.target ≠ .reached
  lastBit : ∀ sh, s.downlink.shifting = some sh → sh.bit = 0
  ahead : s.composer.lookahead = some w

/-- An event that neither ends a run nor moves the time counter: an access to another register than RUN_CTRL and SOFT_RESET, or a
watermark check. -/
def quietEvent : CellEvent → Prop
  | .access (.read _ _) | .watermarkCheck _ => True
  | .access (.write a _) => a ≠ 0x00 ∧ a ≠ 0x24
  | .tick | .tsyncEdge | .validationEnd | .copyBackEnd => False

/-- The part as the first bit of the lookahead cell, `w`, leaves and before its successor is composed: the bit is on DOUT (R1, R130),
the strobes mark column 0 (R131), and in column 0 the row's start event sets ROW_COUNT, latches the stamp and raises MINOR, and for
row 0 MAJOR (R12), the two with no access between them (log entry 21, the model's choice). -/
def State.cellOut (s : State) (w : Composed) : State :=
  { s with
    downlink := { s.downlink with
      shifting := some { word := w, bit := w.width - 1 }
      dout := w.value.getLsbD (w.width - 1)
      mfs := decide (s.composer.col = 0)
      jfs := decide (s.composer.col = 0 ∧ s.composer.row = 0)
      bclko := decide (s.downlink.clkSrc = .external)
      halfCount := 0
      lossTimer := 0
      rowCount := if s.composer.col = 0 then BitVec.ofNat 16 s.composer.row else s.downlink.rowCount }
    composer := { s.composer with lookahead := none }
    time := { s.time with stamp := if s.composer.col = 0 then s.time.counter else s.time.stamp }
    irq := { s.irq with
      flags := s.irq.flags ||| (if s.composer.col = 0 then (if s.composer.row = 0 then 0x003 else 0x001) else 0x000) } }

/-- The commit controller when a swap is offered to it: a PENDING swap is taken (R117, R118), and nothing happens in another state. -/
def Commit.swapped (c : Commit) : Commit :=
  if c.state = .pending then
    { c with active := c.staging, staging := c.active, newPlan := true, state := .syncing, elapsed := 0 }
  else c

/-- The part when a run is over, in link state `l` with `lost` in LOST_WORDS: both words are gone, the lines stand at their idle
levels, both clocks stand still, and a PENDING swap is taken (R117, R123, R137, R138). -/
def State.runOver (s : State) (l : LinkState) (lost : BitVec 2) : State :=
  { s with
    downlink := { s.downlink with
      link := l, target := .none, lostWords := lost, shifting := none, dout := s.downlink.idleLevel, bclko := true, mfs := false
      jfs := false, halfCount := 0, lossTimer := 0 }
    composer := { s.composer with lookahead := none }
    commit := s.commit.swapped }

/-- The source-delivered words among the word being shifted and the lookahead word (R141). -/
def State.markedWords (s : State) : Nat :=
  (match s.downlink.shifting with
    | some sh => if sh.word.delivered then 1 else 0
    | none => 0)
  + (match s.composer.lookahead with
    | some w => if w.delivered then 1 else 0
    | none => 0)

end Sys2Proof.Machine
end

