-- ==== Sys2Proof/WellFormed.lean ====
section
/-! DEFINITION. Which commands are well formed: the operands a row of the table admits. -/

namespace Sys2Proof

/-- Whether a word written to RUN_CTRL names no defined request: request code 0 or 4 … 15, or STOP with mode 3 (R132, R185). -/
def runCtrlUndefined (w : Word) : Bool :=
  let request := w.extractLsb' 0 4
  let mode := w.extractLsb' 4 2
  !(request == 1 || request == 3 || (request == 2 && mode != 3))

/-- Whether a word written to COMMIT_CTRL is neither COMMIT nor CANCEL (R106, R185). -/
def commitCtrlUndefined (w : Word) : Bool := w != 0x0001 && w != 0x0002

/-- Whether a command code of SRC_CMD is undefined: 0 and 5 … 15 (R44, R185). -/
def srcCmdUndefined (cmd : BitVec 4) : Bool := cmd == 0 || decide (5 ≤ cmd.toNat)

/-- Whether a word written to TIME_CTRL is none of its three requests (R147, R185). -/
def timeCtrlUndefined (w : Word) : Bool := w != 0x0001 && w != 0x0002 && w != 0x0003

/-- The byte offsets, below 4Ah, of the registers that no row of the table but REGISTER_WRITE names: those a write only stores
into, and those a write has no effect on (R159). -/
def plainOffsets : List Nat :=
  [0x02, 0x04, 0x06, 0x10, 0x12, 0x1A, 0x1E, 0x24, 0x26, 0x28, 0x2E, 0x30, 0x32, 0x36, 0x38, 0x3A, 0x42, 0x44, 0x46]

/-- Whether A[6:1] = `a` is one of those registers or an offset that holds no register (R159). -/
def isPlainRegister (a : BitVec 6) : Bool :=
  plainOffsets.contains (2 * a.toNat) || decide (0x4A ≤ 2 * a.toNat)

/-- A cell makes at most five consults (R165), so at most six gaps have something to stand beside. -/
def maxGaps : Nat := 6

/-- A command is well formed when its operands are ones its row of the table admits. -/
def Instr.wellFormed : Instr → Bool
  | .registerWrite a _ => isPlainRegister a
  | .cellCompose gaps _ => decide (gaps.length ≤ maxGaps)
  | .runCtrlUndefinedRequest w => runCtrlUndefined w
  | .commitCtrlUndefinedRequest w => commitCtrlUndefined w
  | .srcCmdUndefinedCommand cmd _ => srcCmdUndefined cmd
  | .timeCtrlUndefinedRequest w => timeCtrlUndefined w
  | .hardwareReset _ | .softReset _ | .start _ | .startEdge | .stopEndMinor _ | .stopEndMajor _ | .abort _ | .clearHalt _
  | .stoppingEnd | .clockLossExpiry | .watermarkCheck _ | .openSource _ | .closeSource _ | .kill _ | .flush _
  | .append _ | .refillPop _ | .tableDataWrite _ | .tableDataRead _ | .tblSelWrite _ | .tblIndexWrite _ | .bufDataRead _
  | .bufDataWrite _ | .commit | .commitCancel | .validationEnd | .copyBackEnd | .tick | .tsyncEdge | .tickDivWrite _
  | .loadAtTick | .loadAtTsync | .timeCancel | .timeReadH | .clockRegisterWrite _ _ | .intFlagsWrite _ | .intEnableWrite _
  | .errKindWrite _ | .bitPeriodStart | .bclkiRisingEdge | .resetRelease => true

end Sys2Proof
end

