-- ==== Sys2Proof/Certificates/Slice0/Obligations.lean ====
section
/-! DEFINITION. The statements about the FL6418 for the provers. -/

open Sys2Proof Sys2Proof.Machine

/-! ### The machine -/

/-- A step takes the command at the front of the queue and is that command's effect on the part with the queue's rest. -/
def Obligations.StepTakesFrontCommand : Prop :=
  ∀ (c : Instr) (rest : List Instr) (s : State), step { s with pending := c :: rest } = exec c { s with pending := rest }

/-- Every command ends in a next state, whatever its operands and the state, and leaves the queue as it is. -/
def Obligations.EveryCommandCompletesAndKeepsQueue : Prop :=
  ∀ (c : Instr) (s : State), ∃ t, exec c s = .next t ∧ t.pending = s.pending

/-- On an empty queue (log entries 3 and 4: the model's choice), a part with the link STOPPED, no commit in progress, no watermark
check outstanding and no load pending, whose divider stands at zero, ticks exactly once in TICK_DIV + 1 steps (R144). -/
def Obligations.IdleStepsTickOncePerDivision : Prop :=
  ∀ s : State, s.settled → s.pending = [] → s.downlink.link = .stopped → s.commit.state = .edit →
    s.refill.checks = [] → s.time.load = .none → s.time.divider = 0 →
    (∀ k : Nat, k ≤ s.time.tickDiv.toNat → Sys2Proof.core.run k s = .next { s with time := { s.time with divider := k } })
      ∧ Sys2Proof.core.run (s.time.tickDiv.toNat + 1) s = .next { s with time := { s.time with counter := s.time.counter + 1 } }

/-! ### Accesses that are not taken at once -/

/-- While RESET# is asserted no access is taken and no event of the part or of a line has an effect, but for another hardware reset
and the release of RESET#, at which the tick divider starts from zero. With RESET# not asserted there is no release, and nothing
changes (log entry 6, the model's choice). -/
def Obligations.ResetAssertedAndReleased : Prop :=
  ∀ (c : Instr) (s : State),
    (s.resetAsserted = true → (∀ b, c ≠ .hardwareReset b) → c ≠ .resetRelease → exec c s = .next s)
    ∧ (s.resetAsserted = true →
      exec .resetRelease s = .next { s with resetAsserted := false, time := { s.time with divider := 0 } })
    ∧ (s.resetAsserted = false → exec .resetRelease s = .next s)

/-- Accesses that are held and that wait. An access to the buffer made while a buffer access of the composer is in progress is held; any
other command finds that access ended, and an access of the host that was held for the port performed, its data not delivered when its
cycle was abandoned (log entry 12, the model's reading of R165). An access begun behind a held read of TBL_DATA shows that its cycle was
abandoned, and is not taken before it has been carried out; one that waited already was never taken (log entry 10). WAIT# is low exactly
while an access is held. -/
def Obligations.AccessesHeldAndWaiting : Prop :=
  ∀ (c : Instr) (s : State), s.resetAsserted = false →
    let toBuffer : HostAccess → Prop := fun h =>
      (∃ raised, h = .read 0x0E raised) ∨ (∃ w, h = .write 0x0E w) ∨ ∃ w, h = .write 0x10 w
    let raised : HostAccess → Bool := fun h =>
      match h with
      | .read _ raised => raised
      | .write _ _ => false
    let freed : State := { s with port := none }
    let elsewhere : Prop := (∀ b, c ≠ .hardwareReset b) ∧ c ≠ .resetRelease
    (∀ (r : Requester) (h : HostAccess), s.port = some r → s.window.held = none → accessOf c = some h → toBuffer h →
      exec c s = .next { s with window := { s.window with held := some { access := h, abandoned := raised h } } })
    ∧ (∀ r : Requester, s.port = some r → s.window.held = none → elsewhere → (∀ h, accessOf c = some h → ¬ toBuffer h) →
      exec c s = exec c freed)
    ∧ (∀ (r : Requester) (x : HeldAccess) (d : Instr) (done : State), s.port = some r → s.window.held = some x → toBuffer x.access →
      accessOf d = some x.access → exec d { freed with window := { s.window with held := none } } = .next done →
      let ended : State :=
        { done with window := { done.window with readData := if x.abandoned then s.window.readData else done.window.readData } }
      (elsewhere → exec c s = exec c ended) ∧ (s.pending = [] → step s = step ended))
    ∧ (∀ (x : HeldAccess) (h : HostAccess), s.port = none → s.window.held = some x → accessOf c = some h →
      exec c s = .next { s with window := { s.window with held := some { x with abandoned := true }, waiting := some h } })
    ∧ (s.waitLow = true ↔ s.window.held ≠ none)

/-! ### Resets -/

/-- HARDWARE_RESET: every block at its hardware-reset values, a held access cut and the arbiter free, RESET# asserted (R160); the
composer's values are those of R17 and R156. The buffer keeps its words unless the reset is a power-up, after which the model lists none
(log entry 1, the model's choice). The model's own: the queue of commands is kept (log entry 3), RESET# stays asserted until its release
(log entry 17), no read data is recorded (log entry 13), and the C mark, which the book gives no reset value, is clear (log entry
2). -/
def Obligations.HardwareResetResult : Prop :=
  ∀ (powerUp : Bool) (s : State), exec (.hardwareReset powerUp) s = .next
    { pending := s.pending
      resetAsserted := true
      buffer := if powerUp then [] else s.buffer
      port := none
      sources :=
        { records := Vector.replicate 24
            { base := 0, length := 0, watermark := 0, startLevel := 0, policy := .fill, fillWord := 0, keyEn := false, key := 0,
              state := .off, occupancy := 0, readIndex := 0, writeIndex := 0, last := 0, lastValid := false, episodes := 0,
              missed := 0, overflows := 0, appended := 0, consumed := 0, discarded := 0, armed := false }
          appendSrc := 0, cmdSource := 0, cmdCode := 0, cmdResult := .none }
      refill := { records := [], checks := [] }
      downlink :=
        { link := .stopped, target := .none, lostWords := 0, clkSrc := .internal, idleLevel := false, trigger := .immediate,
          bitDiv := 0, lossTimeout := 0, rowCount := 0, majorCount := 0, shifting := none, dout := false, bclko := true,
          mfs := false, jfs := false, halfCount := 0, lossTimer := 0 }
      composer :=
        { row := 0, col := 0, lookahead := none, accumulator := 0xFFFF, episodeLatch := false, capturedU := false,
          newPlanFrame := false }
      commit :=
        { state := .edit, result := .none, req := .none, fault := 0, newPlan := false, elapsed := 0
          active := { format := [], map := [], group := [], row := [], window := [] }
          staging := { format := [], map := [], group := [], row := [], window := [] } }
      time :=
        { counter := 0, divider := 0, tickDiv := 0, presetH := 0, presetM := 0, presetL := 0, load := .none, timeSet := false,
          snapshot := 0, stamp := 0 }
      window :=
        { bank := .staging, table := .plan .format, index := 0, bufAddr := 0, held := none, waiting := none, readData := none }
      irq := { flags := 0, enables := 0, errKind := .none, detailA := 0, detailB := 0, afterCount := 0 } }

/-- SOFT_RESET: every block at its soft-reset values, the composer at those of R17 and R156; CLK_MODE, BIT_DIV, LOSS_TIMEOUT, TICK_DIV
and the buffer keep theirs, and DOUT goes to the kept IDLE_LEVEL. The model's own: the queue of commands and the recorded read data are
kept (log entries 3 and 13), and the C mark, which the book gives no reset value, is clear (log entry 2). -/
def Obligations.SoftResetResult : Prop :=
  ∀ (w : Word) (s : State), s.ready → exec (.softReset w) s = .next
    { pending := s.pending
      resetAsserted := false
      buffer := s.buffer
      port := none
      sources :=
        { records := Vector.replicate 24
            { base := 0, length := 0, watermark := 0, startLevel := 0, policy := .fill, fillWord := 0, keyEn := false, key := 0,
              state := .off, occupancy := 0, readIndex := 0, writeIndex := 0, last := 0, lastValid := false, episodes := 0,
              missed := 0, overflows := 0, appended := 0, consumed := 0, discarded := 0, armed := false }
          appendSrc := 0, cmdSource := 0, cmdCode := 0, cmdResult := .none }
      refill := { records := [], checks := [] }
      downlink :=
        { link := .stopped, target := .none, lostWords := 0, clkSrc := s.downlink.clkSrc, idleLevel := s.downlink.idleLevel,
          trigger := s.downlink.trigger, bitDiv := s.downlink.bitDiv, lossTimeout := s.downlink.lossTimeout, rowCount := 0,
          majorCount := 0, shifting := none, dout := s.downlink.idleLevel, bclko := true, mfs := false, jfs := false,
          halfCount := 0, lossTimer := 0 }
      composer :=
        { row := 0, col := 0, lookahead := none, accumulator := 0xFFFF, episodeLatch := false, capturedU := false,
          newPlanFrame := false }
      commit :=
        { state := .edit, result := .none, req := .none, fault := 0, newPlan := false, elapsed := 0
          active := { format := [], map := [], group := [], row := [], window := [] }
          staging := { format := [], map := [], group := [], row := [], window := [] } }
      time :=
        { counter := 0, divider := 0, tickDiv := s.time.tickDiv, presetH := 0, presetM := 0, presetL := 0, load := .none,
          timeSet := false, snapshot := 0, stamp := 0 }
      window :=
        { bank := .staging, table := .plan .format, index := 0, bufAddr := 0, held := none, waiting := none
          readData := s.window.readData }
      irq := { flags := 0, enables := 0, errKind := .none, detailA := 0, detailB := 0, afterCount := 0 } }

/-- After either reset the refill queue is empty: REFILL_COUNT reads 0, REFILL_HEAD reads source FFh with REASON 0, REFILL_HEAD_AUX
reads 0, and the QUEUED and ARMED markers of every source are clear. The interrupt unit holds no flag, no enable and an empty error
record, and INT is low. The commit controller is in EDIT with RESULT NONE, REQ NONE, COMMIT_FAULT 0, the new-plan marker clear and the
default plan in both banks. -/
def Obligations.BlocksAfterEitherReset : Prop :=
  ∀ (c : Instr) (s : State), ((∃ b, c = .hardwareReset b) ∨ (s.ready ∧ ∃ w, c = .softReset w)) →
    ∃ t, exec c s = .next t
      ∧ (t.registerView 0x2A = 0 ∧ t.registerView 0x26 = 0x00FF ∧ t.registerView 0x28 = 0
        ∧ ∀ i : SourceId, t.queued i = false ∧ (t.record i).armed = false)
      ∧ (t.irq.flags = 0 ∧ t.irq.enables = 0 ∧ t.irq.int = false ∧ t.irq.errKind = .none ∧ t.irq.detailA = 0 ∧ t.irq.detailB = 0
        ∧ t.irq.afterCount = 0)
      ∧ t.commit.state = .edit ∧ t.commit.result = .none ∧ t.commit.req = .none ∧ t.commit.fault = 0 ∧ t.commit.newPlan = false
      ∧ ∀ b ∈ [t.commit.active, t.commit.staging],
        (b.w = 16 ∧ b.n = 8 ∧ b.m = 1 ∧ b.s = 1 ∧ b.sync 0 = 0x7A1D ∧ b.sync 1 = 0 ∧ b.sync 2 = 0 ∧ b.idMajor = false
          ∧ b.checkEn = false ∧ b.idle = 0)
        ∧ (∀ e, b.word .map e = 0 ∧ b.word .row e = 0 ∧ b.word .window e = 0)
        ∧ ∀ g, b.groupFirst g = 0 ∧ b.groupDepth g = 2

/-! ### Time counter -/

/-- TICK and TSYNC_EDGE: a tick advances the counter, or with a TICK load pending takes the preset; a rising edge of TSYNC loads only
with a TSYNC load pending and restarts the divider. Either load clears the pending load, sets TIME_SET and raises TIME_LOADED. -/
def Obligations.TicksAndLoads : Prop :=
  ∀ s : State, s.settled →
    (s.time.load ≠ .tick →
      exec .tick s = .next { s with time := { s.time with counter := s.time.counter + 1, divider := 0 } })
    ∧ (s.time.load = .tick → exec .tick s = .next
        { s with
          time := { s.time with
            counter := s.time.presetH ++ s.time.presetM ++ s.time.presetL, divider := 0, load := .none, timeSet := true }
          irq := { s.irq with flags := s.irq.flags ||| 0x200 } })
    ∧ (s.time.load = .tsync → exec .tsyncEdge s = .next
        { s with
          time := { s.time with
            counter := s.time.presetH ++ s.time.presetM ++ s.time.presetL, divider := 0, load := .none, timeSet := true }
          irq := { s.irq with flags := s.irq.flags ||| 0x200 } })
    ∧ (s.time.load ≠ .tsync → exec .tsyncEdge s = .next s)

/-- Accesses to the time counter. Writes to TICK_DIV and TIME_CTRL: the new divisor and a divider restarted from zero; the pending load
replaced; any other code refused as REG_WRITE with 34h and BAD_REQUEST (13). TIME_READ_H copies the counter into the snapshot and returns
its bits 47 … 32; TIME_READ_M and TIME_READ_L return the rest of the snapshot and change nothing of the time counter. -/
def Obligations.TimeRegisterAccesses : Prop :=
  ∀ (w : Word) (raised : Bool) (s : State), s.ready →
    exec (.tickDivWrite w) s = .next { s with time := { s.time with tickDiv := w, divider := 0 } }
    ∧ exec .loadAtTick s = .next { s with time := { s.time with load := .tick } }
    ∧ exec .loadAtTsync s = .next { s with time := { s.time with load := .tsync } }
    ∧ exec .timeCancel s = .next { s with time := { s.time with load := .none } }
    ∧ (w ≠ 1 → w ≠ 2 → w ≠ 3 → exec (.timeCtrlUndefinedRequest w) s = .next (s.report .regWrite 0x34 13))
    ∧ exec .timeReadH s = .next
      { s with
        time := { s.time with snapshot := s.time.counter }
        window := { s.window with readData := some (s.time.counter.extractLsb' 32 16) } }
    ∧ s.access (.read 0x1C raised) = { s with window := { s.window with readData := some (s.time.snapshot.extractLsb' 16 16) } }
    ∧ s.access (.read 0x1D raised) = { s with window := { s.window with readData := some (s.time.snapshot.extractLsb' 0 16) } }

/-! ### Interrupt unit -/

/-- INT_FLAGS is write-one-to-clear: each of bits 10 … 0 of the written word that is 1 clears its flag and each that is 0 leaves it.
INT_ENABLE takes bits 10 … 0 of the written word. A write to ERR_KIND empties the error record and leaves the ERROR flag. Nothing else
changes. INT is asserted exactly when some flag is set with its enable set. -/
def Obligations.InterruptUnitWritesAndInt : Prop :=
  ∀ (w : Word) (s : State),
    (s.ready → ∃ f : BitVec 11, exec (.intFlagsWrite w) s = .next { s with irq := { s.irq with flags := f } }
      ∧ ∀ k : Nat, k < 11 → f.getLsbD k = (s.irq.flags.getLsbD k && !w.getLsbD k))
    ∧ (s.ready → ∃ e : BitVec 11, exec (.intEnableWrite w) s = .next { s with irq := { s.irq with enables := e } }
      ∧ ∀ k : Nat, k < 11 → e.getLsbD k = w.getLsbD k)
    ∧ (s.ready → exec (.errKindWrite w) s = .next
      { s with irq := { s.irq with errKind := .none, detailA := 0, detailB := 0, afterCount := 0 } })
    ∧ (s.irq.int = true ↔ ∃ k : Nat, k < 11 ∧ s.irq.flags.getLsbD k = true ∧ s.irq.enables.getLsbD k = true)

/-- Error capture: a refusal fills an empty record and raises ERROR; on a full record only AFTER_COUNT moves, up to FFh. -/
def Obligations.RefusalIsCaptured : Prop :=
  ∀ (kind : ErrKind) (a b : Word) (s : State),
    (s.irq.errKind = .none → s.report kind a b =
      { s with irq := { s.irq with errKind := kind, detailA := a, detailB := b, flags := s.irq.flags ||| 0x400 } })
    ∧ (s.irq.errKind ≠ .none → s.irq.afterCount ≠ 0xFF → s.report kind a b =
      { s with irq := { s.irq with afterCount := s.irq.afterCount + 1 } })
    ∧ (s.irq.errKind ≠ .none → s.irq.afterCount = 0xFF → s.report kind a b = s)

/-! ### Register window -/

/-- REGISTER_WRITE: the presets take the whole word, BUF_ADDR its low 15 bits and APPEND_SRC its low 8 bits; a write to a register
that is only read out, or to an offset that holds none, has no effect. -/
def Obligations.RegisterWriteResults : Prop :=
  ∀ (a : BitVec 6) (w : Word) (s : State), s.ready → (Instr.registerWrite a w).wellFormed = true →
    exec (.registerWrite a w) s = .next
      (if 2 * a.toNat = 0x2E then { s with time := { s.time with presetH := w } }
        else if 2 * a.toNat = 0x30 then { s with time := { s.time with presetM := w } }
        else if 2 * a.toNat = 0x32 then { s with time := { s.time with presetL := w } }
        else if 2 * a.toNat = 0x1A then { s with window := { s.window with bufAddr := w.setWidth 15 } }
        else if 2 * a.toNat = 0x1E then { s with sources := { s.sources with appendSrc := w.setWidth 8 } }
        else s)

/-- A read of any register but TBL_DATA, BUF_DATA and TIME_READ_H is answered with that register's word and changes nothing else (no such
read is a command: log entry 14; the answered word is recorded in readData: log entry 13); the registers that act only on a write and the
offsets that hold no register read 0000h. In the state after reset each of them reads 0000h but REFILL_HEAD, which reads 00FFh, and a read
of TIME_READ_H returns 0000h; 12.1 gives TBL_DATA and BUF_DATA no value there. -/
def Obligations.ReadsAndResetValues : Prop :=
  (∀ (a : BitVec 6) (raised : Bool) (s : State), s.ready → 2 * a.toNat ≠ 0x18 → 2 * a.toNat ≠ 0x1C → 2 * a.toNat ≠ 0x36 →
    s.access (.read a raised) = { s with window := { s.window with readData := some (s.registerView (2 * a.toNat)) } })
  ∧ (∀ s : State, ∀ off ∈ [0x00, 0x0E, 0x20, 0x22, 0x48], s.registerView off = 0)
  ∧ (∀ (s : State) (off : Nat), 0x4A ≤ off → s.registerView off = 0)
  ∧ (∀ a : BitVec 6, 2 * a.toNat ≠ 0x18 → 2 * a.toNat ≠ 0x1C → 2 * a.toNat ≠ 0x36 →
    State.reset.registerView (2 * a.toNat) = if a = 0x13 then 0x00FF else 0)
  ∧ exec .timeReadH State.reset = .next { State.reset with window := { State.reset.window with readData := some 0 } }

/-- The registers with several fields as 12.1.1 lays them out, REFILL_HEAD and REFILL_HEAD_AUX with a queue that holds records, where an
OCC_AT_ENTRY of 255 or more reads FFh, and with an empty one; the interrupt registers; and the bits of the status word. -/
def Obligations.RegisterLayouts : Prop :=
  ∀ s : State,
    s.registerView 0x02 = (0 : BitVec 6) ++ s.downlink.lostWords ++ (0 : BitVec 2) ++ s.downlink.target.code ++ (0 : BitVec 1)
        ++ s.downlink.link.code
    ∧ s.registerView 0x08 = (0 : BitVec 13) ++ s.downlink.trigger.code ++ BitVec.ofBool s.downlink.idleLevel ++ s.downlink.clkSrc.code
    ∧ s.registerView 0x10 = (0 : BitVec 5) ++ s.commit.req.code ++ (0 : BitVec 1) ++ s.commit.result.code ++ (0 : BitVec 2)
        ++ s.commit.state.code
    ∧ s.registerView 0x14 = (0 : BitVec 7) ++ s.window.bank.code ++ (0 : BitVec 5) ++ s.window.table.code
    ∧ s.registerView 0x24 = s.sources.cmdResult.code ++ s.sources.cmdCode ++ s.sources.cmdSource
    ∧ (∀ q rest, s.refill.records = q :: rest →
      s.registerView 0x26 = (0 : BitVec 6) ++ q.reason.code ++ BitVec.ofNat 8 q.source.val
      ∧ s.registerView 0x28 = (if q.occAtEntry.toNat ≤ 254 then q.occAtEntry.setWidth 8 else (0xFF : BitVec 8)) ++ q.rowAtEntry)
    ∧ (s.refill.records = [] → s.registerView 0x26 = 0x00FF ∧ s.registerView 0x28 = 0)
    ∧ s.registerView 0x34 = (0 : BitVec 7) ++ BitVec.ofBool s.time.timeSet ++ (0 : BitVec 6) ++ s.time.load.code
    ∧ s.registerView 0x3C = (0 : BitVec 5) ++ s.irq.flags
    ∧ s.registerView 0x3E = (0 : BitVec 5) ++ s.irq.enables
    ∧ s.registerView 0x40 = (0 : BitVec 13) ++ s.irq.errKind.code
    ∧ s.registerView 0x42 = s.irq.detailA ∧ s.registerView 0x44 = s.irq.detailB
    ∧ s.registerView 0x46 = (0 : BitVec 8) ++ s.irq.afterCount
    ∧ ∀ k, s.statusWord.getLsbD k =
        if k = 0 then s.composer.capturedU
        else if k = 1 then decide (∃ i : SourceId, (s.record i).state = .starved)
        else if k = 2 then s.composer.newPlanFrame
        else if k = 3 then s.time.timeSet
        else if k = 4 then decide (s.refill.records ≠ [])
        else if k = 5 then decide (∃ i : SourceId, (s.record i).state = .draining)
        else decide (8 ≤ k ∧ k < 16) && s.downlink.majorCount.getLsbD (k - 8)

/-- The codes of the fields the part reports and holds: the states, targets, results, kinds and reasons of 12.2, and those of TBL_SEL,
CLK_MODE, REFILL_HEAD and POLICY. -/
def Obligations.FieldCodes : Prop :=
  [SourceState.off, .priming, .live, .starved, .draining].map SourceState.code = [0, 1, 2, 3, 4]
  ∧ [LinkState.stopped, .armed, .running, .stopping, .halted].map LinkState.code = [0, 1, 2, 3, 4]
  ∧ [StopTarget.none, .endMinor, .endMajor, .reached].map StopTarget.code = [0, 1, 2, 3]
  ∧ [CommitState.edit, .validating, .pending, .syncing].map CommitState.code = [0, 1, 2, 3]
  ∧ [CommitResult.none, .accepted, .refused .format, .refused .map, .refused .group, .refused .row, .refused .window].map
      CommitResult.code = [0, 1, 2, 3, 4, 5, 6]
  ∧ [CommitReq.none, .done, .busy, .tooLate, .badRequest].map CommitReq.code = [0, 1, 2, 3, 4]
  ∧ [PendingLoad.none, .tick, .tsync].map PendingLoad.code = [0, 1, 2]
  ∧ [ErrKind.none, .append, .tableWrite, .sourceCmd, .commitReq, .runReq, .regWrite].map ErrKind.code = [0, 1, 2, 3, 4, 5, 6]
  ∧ [Reason.badSource, .srcOff, .ringFull, .activeBank, .locked, .readOnly, .sourceNotOff, .range, .badCommand, .badState, .geometry,
      .linkActive, .badRequest].map Reason.code = [1, 2, 3, 4, 5, 6, 7, 8, 9, 10, 11, 12, 13]
  ∧ CmdResult.none.code = 0 ∧ CmdResult.done.code = 15 ∧ (∀ r : Reason, (CmdResult.refused r).code = r.code)
  ∧ [Table.plan .format, .plan .map, .plan .group, .plan .row, .plan .window, .source].map Table.code = [0, 1, 2, 3, 4, 5]
  ∧ [Role.staging, .active].map Role.code = [0, 1]
  ∧ [ClockSource.internal, .external].map ClockSource.code = [0, 1]
  ∧ [StartTrigger.immediate, .external].map StartTrigger.code = [0, 1]
  ∧ [RefillReason.opened, .low, .flushed].map RefillReason.code = [1, 2, 3]
  ∧ [Policy.fill, .repeatLast, .yield].map Policy.code = [0, 1, 2]

/-! ### Appends and source commands -/

/-- APPEND accepted: the word is written at BASE + WRITE_INDEX and nowhere else, the record moves as R31 states, and nothing else
changes. -/
def Obligations.AppendAccepted : Prop :=
  ∀ (w : Word) (i : SourceId) (s : State), s.ready → s.SourcesLawful → s.MemoryLawful → s.sources.appendSrc.toNat = i.val →
    let r := s.record i
    (r.state = .priming ∨ r.state = .live ∨ r.state = .starved) → r.occupancy < r.length →
    ∃ m : Memory,
      exec (.append w) s = .next
        { s with
          buffer := m
          sources := { s.sources with
          records := s.sources.records.set i
            { r with
              writeIndex := if r.writeIndex.toNat + 1 = r.length.toNat then 0 else r.writeIndex + 1
              occupancy := r.occupancy + 1
              appended := r.appended + 1
              armed := r.armed || decide (r.watermark < r.occupancy + 1)
              state := if r.state = .live ∨ r.startLevel ≤ r.occupancy + 1 then .live else r.state } } }
      ∧ ∀ a : Nat, Memory.read bufferDefault m a =
          if a = r.base.toNat + r.writeIndex.toNat then w else Memory.read bufferDefault s.buffer a

/-- APPEND refused: BAD_SOURCE (1), SRC_OFF (2) and RING_FULL (3), reported as APPEND with the number in APPEND_SRC; RING_FULL counts in
OVERFLOWS, saturating. Nothing else changes. -/
def Obligations.AppendRefused : Prop :=
  ∀ (w : Word) (s : State), s.ready →
    let src : Word := s.sources.appendSrc.setWidth 16
    (23 < s.sources.appendSrc.toNat → exec (.append w) s = .next (s.report .append src 1))
    ∧ ∀ i : SourceId, s.sources.appendSrc.toNat = i.val →
      let r := s.record i
      (r.state = .off ∨ r.state = .draining → exec (.append w) s = .next (s.report .append src 2))
      ∧ ((r.state = .priming ∨ r.state = .live ∨ r.state = .starved) → r.occupancy = r.length →
        exec (.append w) s = .next
          (State.report
            { s with sources := { s.sources with
            records := s.sources.records.set i
              { r with overflows := if r.overflows = 0xFFFF then 0xFFFF else r.overflows + 1 } } }
            .append src 3))

/-- OPEN of a source in OFF whose record passes the checks: PRIMING, an empty ring, counters 0, LAST_VALID and ARMED clear, and a
refill record with reason OPENED at the tail, with REFILL raised. -/
def Obligations.OpenResult : Prop :=
  ∀ (src : BitVec 8) (i : SourceId) (s : State), s.ready → src.toNat = i.val →
    let r := s.record i
    r.state = .off → (2 ≤ r.length.toNat ∧ r.length.toNat ≤ 8192) → r.base.toNat + r.length.toNat ≤ 0x8000 →
    (1 ≤ r.startLevel.toNat ∧ r.startLevel ≤ r.length) → r.watermark < r.length →
    exec (.openSource src) s = .next
      { s with
        sources := { s.sources with
          records := s.sources.records.set i
            { r with
              state := .priming, readIndex := 0, writeIndex := 0, occupancy := 0, appended := 0, consumed := 0, discarded := 0,
              episodes := 0, missed := 0, overflows := 0, lastValid := false, armed := false }
          cmdSource := src, cmdCode := 1, cmdResult := .done }
        refill := { s.refill with records := s.refill.records ++
          [{ source := i, reason := .opened, occAtEntry := 0
             rowAtEntry := if s.downlink.link = .running ∨ s.downlink.link = .stopping then s.downlink.rowCount.setWidth 8 else 0 }] }
        irq := { s.irq with flags := s.irq.flags ||| 0x040 } }

/-- CLOSE of a source in PRIMING, LIVE or STARVED: OFF when it is empty, else DRAINING. KILL of a source not OFF: its words are
discarded and it is OFF. Either clears ARMED and takes the source's refill record out, wherever it stands; no flag is raised. KILL of
a source in OFF is DONE with no effect. -/
def Obligations.CloseAndKillResults : Prop :=
  ∀ (src : BitVec 8) (i : SourceId) (s : State), s.ready → src.toNat = i.val →
    let r := s.record i
    ((r.state = .priming ∨ r.state = .live ∨ r.state = .starved) → exec (.closeSource src) s = .next
      { s with
        sources := { s.sources with
          records := s.sources.records.set i
            { r with state := if r.occupancy = 0 then .off else .draining, armed := false }
          cmdSource := src, cmdCode := 2, cmdResult := .done }
        refill := { s.refill with records := s.refill.records.filter (fun q => q.source != i) } })
    ∧ (r.state ≠ .off → exec (.kill src) s = .next
      { s with
        sources := { s.sources with
          records := s.sources.records.set i
            { r with
              state := .off, discarded := r.discarded + r.occupancy, occupancy := 0, readIndex := r.writeIndex, armed := false }
          cmdSource := src, cmdCode := 3, cmdResult := .done }
        refill := { s.refill with records := s.refill.records.filter (fun q => q.source != i) } })
    ∧ (r.state = .off → exec (.kill src) s = .next
      { s with sources := { s.sources with cmdSource := src, cmdCode := 3, cmdResult := .done } })

/-- FLUSH of a source in PRIMING, LIVE or STARVED: its words are discarded, it is PRIMING with ARMED clear; when it is not QUEUED a
refill record with reason FLUSHED is placed at the tail and REFILL is raised, and when it is QUEUED its record stays. -/
def Obligations.FlushResult : Prop :=
  ∀ (src : BitVec 8) (i : SourceId) (s : State), s.ready → src.toNat = i.val →
    let r := s.record i
    (r.state = .priming ∨ r.state = .live ∨ r.state = .starved) →
    let sources := { s.sources with
      records := s.sources.records.set i
        { r with
          state := .priming, discarded := r.discarded + r.occupancy, occupancy := 0, readIndex := r.writeIndex, armed := false }
      cmdSource := src, cmdCode := 4, cmdResult := .done }
    ((∃ q ∈ s.refill.records, q.source = i) → exec (.flush src) s = .next { s with sources := sources })
    ∧ ((∀ q ∈ s.refill.records, q.source ≠ i) → exec (.flush src) s = .next
      { s with
        sources := sources
        refill := { s.refill with records := s.refill.records ++
          [{ source := i, reason := .flushed, occAtEntry := 0
             rowAtEntry := if s.downlink.link = .running ∨ s.downlink.link = .stopping then s.downlink.rowCount.setWidth 8 else 0 }] }
        irq := { s.irq with flags := s.irq.flags ||| 0x040 } })

/-- A refused source command changes SRC_CMD_STATUS and error capture alone: BAD_COMMAND (9) for an undefined code, then BAD_SOURCE (1)
above 23, then BAD_STATE (10), then GEOMETRY (11) for OPEN. -/
def Obligations.CommandRefusals : Prop :=
  ∀ (cmd : BitVec 4) (src : BitVec 8) (s : State), s.ready →
    let refused : BitVec 4 → Reason → BitVec 8 → Result := fun cmd reason code => .next
      (State.report { s with sources := { s.sources with cmdSource := src, cmdCode := cmd, cmdResult := .refused reason } }
        .sourceCmd (src.setWidth 16) ((0 : BitVec 4) ++ cmd ++ code))
    (cmd = 0 ∨ 5 ≤ cmd.toNat → exec (.srcCmdUndefinedCommand cmd src) s = refused cmd .badCommand 9)
    ∧ (23 < src.toNat →
      exec (.openSource src) s = refused 1 .badSource 1 ∧ exec (.closeSource src) s = refused 2 .badSource 1
        ∧ exec (.kill src) s = refused 3 .badSource 1 ∧ exec (.flush src) s = refused 4 .badSource 1)
    ∧ ∀ i : SourceId, src.toNat = i.val →
      let r := s.record i
      (r.state ≠ .off → exec (.openSource src) s = refused 1 .badState 10)
      ∧ (r.state = .off ∨ r.state = .draining →
        exec (.closeSource src) s = refused 2 .badState 10 ∧ exec (.flush src) s = refused 4 .badState 10)
      ∧ (r.state = .off →
        (r.length.toNat < 2 ∨ 8192 < r.length.toNat ∨ 0x8000 < r.base.toNat + r.length.toNat ∨ r.startLevel = 0
          ∨ r.length < r.startLevel ∨ r.length ≤ r.watermark) →
        exec (.openSource src) s = refused 1 .geometry 11)

/-! ### Consults -/

/-- A consult that removes no word. OFF: none(off). PRIMING below START_LEVEL: none(priming). Neither changes anything. STARVED below
START_LEVEL: MISSED_WORDS counts. An underrun (LIVE, empty): the source is STARVED, both counts go on, the episode latch and UNDERRUN are
raised. Both of these are answered by POLICY. -/
def Obligations.ConsultWithoutRemoval : Prop :=
  ∀ (i : SourceId) (s : State),
    let r := s.record i
    let inc : Word → Word := fun n => if n = 0xFFFF then 0xFFFF else n + 1
    let answer : ConsultOutcome := match r.policy with
      | .fill => .deliver r.fillWord
      | .repeatLast => if r.lastValid = true then .deliver r.last else .deliver r.fillWord
      | .yield => .nothing .starved
    (r.state = .off → s.consult i = { state := s, outcome := .nothing .off })
    ∧ (r.state = .priming → r.occupancy < r.startLevel → s.consult i = { state := s, outcome := .nothing .priming })
    ∧ (r.state = .starved → r.occupancy < r.startLevel → s.consult i =
      { state := { s with sources := { s.sources with records := s.sources.records.set i { r with missed := inc r.missed } } }
        outcome := answer })
    ∧ (r.state = .live → r.occupancy = 0 → s.consult i =
      { state :=
          { s with
            sources := { s.sources with
            records := s.sources.records.set i
              { r with state := .starved, episodes := inc r.episodes, missed := inc r.missed } }
            composer := { s.composer with episodeLatch := true }
            irq := { s.irq with flags := s.irq.flags ||| 0x080 } }
        outcome := answer })

/-- A consult that removes the oldest word: of a source in LIVE with a word, or one in PRIMING or STARVED at START_LEVEL, which is then
LIVE and hands over a watermark check; or of one in DRAINING, which goes OFF and raises DRAINED with its last word. A keyed word is not
delivered and leaves LAST. -/
def Obligations.ConsultRemovesOldestWord : Prop :=
  ∀ (i : SourceId) (s : State), s.SourcesLawful →
    let r := s.record i
    let word := Memory.read bufferDefault s.buffer (r.base.toNat + r.readIndex.toNat)
    let next : SourceState → SourceRec := fun st =>
      { r with
        state := st
        readIndex := if r.readIndex.toNat + 1 = r.length.toNat then 0 else r.readIndex + 1
        occupancy := r.occupancy - 1
        consumed := r.consumed + 1
        last := if r.keyEn = true ∧ word = r.key then r.last else word
        lastValid := if r.keyEn = true ∧ word = r.key then r.lastValid else true }
    let after : SourceState → State := fun st =>
      { s with sources := { s.sources with records := s.sources.records.set i (next st) } }
    let outcome : ConsultOutcome := if r.keyEn = true ∧ word = r.key then .nothing .keyed else .deliver word
    ((r.state = .live ∧ r.occupancy ≠ 0) ∨ ((r.state = .priming ∨ r.state = .starved) ∧ r.startLevel ≤ r.occupancy) →
      s.consult i =
        { state := { after .live with refill := { s.refill with checks := s.refill.checks ++ [i] } }, outcome := outcome })
    ∧ (r.state = .draining → r.occupancy ≠ 1 → s.consult i = { state := after .draining, outcome := outcome })
    ∧ (r.state = .draining → r.occupancy = 1 → s.consult i =
      { state := { after .off with irq := { s.irq with flags := s.irq.flags ||| 0x100 } }, outcome := outcome })

/-! ### Refill queue -/

/-- WATERMARK_CHECK: an outstanding check of a source in PRIMING, LIVE or STARVED that is ARMED, not QUEUED and at or below WATERMARK
inserts a LOW record at the tail, clears ARMED and raises REFILL; any other outstanding check is taken without a change. Where no check
is outstanding nothing happens (log entries 6 and 8, the model's choice). -/
def Obligations.WatermarkCheckResult : Prop :=
  ∀ (i : SourceId) (s : State), s.settled →
    let r := s.record i
    let low : Prop := (r.state = .priming ∨ r.state = .live ∨ r.state = .starved) ∧ r.armed = true
      ∧ (∀ q ∈ s.refill.records, q.source ≠ i) ∧ r.occupancy ≤ r.watermark
    (i ∈ s.refill.checks → low → exec (.watermarkCheck i) s = .next
      { s with
        sources := { s.sources with records := s.sources.records.set i { r with armed := false } }
        refill :=
          { records := s.refill.records ++
              [{ source := i, reason := .low, occAtEntry := r.occupancy
                 rowAtEntry :=
                  if s.downlink.link = .running ∨ s.downlink.link = .stopping then s.downlink.rowCount.setWidth 8 else 0 }]
            checks := s.refill.checks.erase i }
        irq := { s.irq with flags := s.irq.flags ||| 0x040 } })
    ∧ (i ∈ s.refill.checks → ¬ low → exec (.watermarkCheck i) s = .next
      { s with refill := { s.refill with checks := s.refill.checks.erase i } })
    ∧ (i ∉ s.refill.checks → exec (.watermarkCheck i) s = .next s)

/-- REFILL_POP removes the head record, if there is one, and nothing else: the head's source is then not QUEUED, and the next record is
the head. Offset 2Ah reads the number of records. -/
def Obligations.PopRemovesHead : Prop :=
  ∀ (w : Word) (s : State), s.ready → s.RefillLawful →
    s.registerView 0x2A = BitVec.ofNat 16 s.refill.records.length
    ∧ (s.refill.records = [] → exec (.refillPop w) s = .next s)
    ∧ ∀ q rest, s.refill.records = q :: rest →
      ∃ t, exec (.refillPop w) s = .next t ∧ t = { s with refill := { s.refill with records := rest } } ∧ t.queued q.source = false

/-! ### Table access unit and buffer port -/

/-- TBL_SEL_WRITE selects a table and a bank and sets TBL_INDEX to 0, or with TABLE 6 or 7 is refused as REG_WRITE with 14h and RANGE
(8). TBL_INDEX_WRITE sets the index to the written value modulo the size of the selected table. -/
def Obligations.TableSelectionWrites : Prop :=
  ∀ (w : Word) (s : State), s.ready →
    (∀ t : Table, [Table.plan .format, .plan .map, .plan .group, .plan .row, .plan .window, .source][(w.extractLsb' 0 3).toNat]? = some t →
      exec (.tblSelWrite w) s = .next
        { s with window := { s.window with table := t, bank := if w.getLsbD 8 then .active else .staging, index := 0 } })
    ∧ (5 < (w.extractLsb' 0 3).toNat → exec (.tblSelWrite w) s = .next (s.report .regWrite 0x14 8))
    ∧ ∀ p ∈ [(Table.plan .format, 8), (.plan .map, 2048), (.plan .group, 16), (.plan .row, 2048), (.plan .window, 32), (.source, 768)],
      s.window.table = p.1 →
        exec (.tblIndexWrite w) s = .next { s with window := { s.window with index := w.toNat % p.2 } }

/-- TABLE_DATA_WRITE to a plan table: accepted with STAGING in EDIT, when that word of the Staging bank and no other takes the written
word; refused ACTIVE_BANK (4) with ACTIVE and LOCKED (5) with STAGING outside EDIT. TBL_INDEX advances in every case. -/
def Obligations.PlanTableWrites : Prop :=
  ∀ (t : PlanTable) (w : Word) (s : State), s.ready → s.MemoryLawful → s.window.table = .plan t →
    let next := (s.window.index + 1) % (Table.plan t).size
    let refused : Word → BitVec 4 → State := fun bank reason =>
      s.report .tableWrite (t.code.setWidth 16 ||| bank) (reason ++ BitVec.ofNat 12 s.window.index)
    (s.window.bank = .staging → s.commit.state = .edit → ∃ b : Bank,
      exec (.tableDataWrite w) s = .next
        { s with commit := { s.commit with staging := b }, window := { s.window with index := next } }
      ∧ ∀ (u : PlanTable) (j : Nat), b.word u j = if u = t ∧ j = s.window.index then w else s.commit.staging.word u j)
    ∧ (s.window.bank = .active → exec (.tableDataWrite w) s = .next
      { refused 0x100 4 with window := { s.window with index := next } })
    ∧ (s.window.bank = .staging → s.commit.state ≠ .edit → exec (.tableDataWrite w) s = .next
      { refused 0 5 with window := { s.window with index := next } })

/-- TABLE_DATA_WRITE to BASE, LENGTH, WATERMARK or START_LEVEL of source `i`: the state check SOURCE_NOT_OFF (7) for the first two, then
RANGE (8); an accepted WATERMARK of a source in PRIMING, LIVE or STARVED sets ARMED when it lies below OCCUPANCY and hands over a
watermark check. -/
def Obligations.SourceGeometryWrites : Prop :=
  ∀ (i : SourceId) (w : Word) (s : State), s.ready → s.window.table = .source →
    let r := s.record i
    let write : Nat → SourceRec → List SourceId → Prop := fun k r' checks =>
      s.window.index = 32 * i.val + k → exec (.tableDataWrite w) s = .next
        { s with
          sources := { s.sources with records := s.sources.records.set i r' }
          refill := { s.refill with checks := s.refill.checks ++ checks }
          window := { s.window with index := (s.window.index + 1) % 768 } }
    let refused : Nat → BitVec 4 → Prop := fun k reason =>
      s.window.index = 32 * i.val + k → exec (.tableDataWrite w) s = .next
        { s.report .tableWrite (if s.window.bank = .active then 0x105 else 0x005) (reason ++ BitVec.ofNat 12 s.window.index) with
          window := { s.window with index := (s.window.index + 1) % 768 } }
    (r.state ≠ .off → refused 0 7 ∧ refused 1 7)
    ∧ (r.state = .off → w.toNat ≤ 0x7FFF → write 0 { r with base := w } [])
    ∧ (r.state = .off → 0x7FFF < w.toNat → refused 0 8)
    ∧ (r.state = .off → w.toNat ≤ 0x3FFF → write 1 { r with length := w } [])
    ∧ (r.state = .off → 0x3FFF < w.toNat → refused 1 8)
    ∧ (w.toNat ≤ 0x3FFF → r.state = .off ∨ (r.state = .draining ∧ w < r.length) → write 2 { r with watermark := w } [])
    ∧ (w.toNat ≤ 0x3FFF → (r.state = .priming ∨ r.state = .live ∨ r.state = .starved) → w < r.length →
      write 2 { r with watermark := w, armed := r.armed || decide (w < r.occupancy) } [i])
    ∧ (0x3FFF < w.toNat ∨ (r.state ≠ .off ∧ r.length ≤ w) → refused 2 8)
    ∧ (w.toNat ≤ 0x3FFF → r.state = .off ∨ (1 ≤ w.toNat ∧ w ≤ r.length) → write 3 { r with startLevel := w } [])
    ∧ (0x3FFF < w.toNat ∨ (r.state ≠ .off ∧ (w = 0 ∨ r.length < w)) → refused 3 8)

/-- TABLE_DATA_WRITE to the other words of the record of source `i`: the policy fields take their word in every state of the source, a
POLICY above 2 or a KEY_EN above 1 is refused RANGE (8), and a word with status fields or with no field is refused READ_ONLY (6). -/
def Obligations.SourcePolicyWrites : Prop :=
  ∀ (i : SourceId) (w : Word) (s : State), s.ready → s.window.table = .source →
    let r := s.record i
    let write : Nat → SourceRec → Prop := fun k r' =>
      s.window.index = 32 * i.val + k → exec (.tableDataWrite w) s = .next
        { s with
          sources := { s.sources with records := s.sources.records.set i r' }
          window := { s.window with index := (s.window.index + 1) % 768 } }
    let refused : Nat → BitVec 4 → Prop := fun k reason =>
      s.window.index = 32 * i.val + k → exec (.tableDataWrite w) s = .next
        { s.report .tableWrite (if s.window.bank = .active then 0x105 else 0x005) (reason ++ BitVec.ofNat 12 s.window.index) with
          window := { s.window with index := (s.window.index + 1) % 768 } }
    (w = 0 → write 4 { r with policy := .fill })
    ∧ (w = 1 → write 4 { r with policy := .repeatLast })
    ∧ (w = 2 → write 4 { r with policy := .yield })
    ∧ (2 < w.toNat → refused 4 8)
    ∧ write 5 { r with fillWord := w }
    ∧ (w = 0 → write 6 { r with keyEn := false })
    ∧ (w = 1 → write 6 { r with keyEn := true })
    ∧ (1 < w.toNat → refused 6 8)
    ∧ write 7 { r with key := w }
    ∧ ∀ k, 8 ≤ k → k < 32 → refused k 6

/-- TABLE_DATA_READ: a read of a Staging word of a plan table in SYNCING is held, its cycle abandoned when the host raises its strobes
before WAIT# rises; every other read is answered with the word at TBL_INDEX and advances TBL_INDEX. The words of a source record are those
of R189. -/
def Obligations.TableReads : Prop :=
  ∀ (raised : Bool) (s : State), s.ready →
    let answered : Word → State := fun w =>
      { s with window := { s.window with readData := some w, index := (s.window.index + 1) % s.window.table.size } }
    (∀ t : PlanTable, s.window.table = .plan t →
      (s.window.bank = .active → exec (.tableDataRead raised) s = .next (answered (s.commit.active.word t s.window.index)))
      ∧ (s.window.bank = .staging → s.commit.state ≠ .syncing →
        exec (.tableDataRead raised) s = .next (answered (s.commit.staging.word t s.window.index)))
      ∧ (s.window.bank = .staging → s.commit.state = .syncing →
        exec (.tableDataRead raised) s = .next { s with window := { s.window with held := some { access := .read 0x0C raised, abandoned := raised } } }))
    ∧ (s.window.table = .source → ∀ (i : SourceId) (k : Nat), k < 32 → s.window.index = 32 * i.val + k →
      let r := s.record i
      exec (.tableDataRead raised) s = .next (answered
        (([r.base, r.length, r.watermark, r.startLevel,
            match r.policy with
            | .fill => 0
            | .repeatLast => 1
            | .yield => 2,
            r.fillWord, if r.keyEn then 1 else 0, r.key,
            (match r.state with
              | .off => 0
              | .priming => 1
              | .live => 2
              | .starved => 3
              | .draining => 4)
              + (if r.lastValid then 0x100 else 0) + (if r.armed then 0x200 else 0)
              + (if ∃ q ∈ s.refill.records, q.source = i then 0x400 else 0),
            r.occupancy, r.readIndex, r.writeIndex, r.last, r.episodes, r.missed, r.overflows, r.appended, r.consumed,
            r.discarded] : List Word).getD k 0)))

/-- BUF_DATA_READ and BUF_DATA_WRITE reach the buffer word at BUF_ADDR and advance BUF_ADDR by 1, 7FFFh followed by 0; a write changes
no other word. -/
def Obligations.BufferPortAccesses : Prop :=
  ∀ (w : Word) (raised : Bool) (s : State), s.ready → s.MemoryLawful →
    let next : BitVec 15 := if s.window.bufAddr = 0x7FFF then 0 else s.window.bufAddr + 1
    exec (.bufDataRead raised) s = .next
      { s with window := { s.window with
        readData := some (Memory.read bufferDefault s.buffer s.window.bufAddr.toNat), bufAddr := next } }
    ∧ ∃ m : Memory,
      exec (.bufDataWrite w) s = .next { s with buffer := m, window := { s.window with bufAddr := next } }
      ∧ ∀ a : Nat, Memory.read bufferDefault m a =
          if a = s.window.bufAddr.toNat then w else Memory.read bufferDefault s.buffer a

/-! ### Commit controller -/

/-- COMMIT in EDIT starts a commit; in VALIDATING, PENDING or SYNCING it is refused BUSY, reported as COMMIT_REQ with the word written
and the state. CANCEL has no effect in EDIT, ends a commit in VALIDATING or PENDING, and is refused TOO_LATE in SYNCING; any word that is
no request is refused BAD_REQUEST. -/
def Obligations.CommitRequestResults : Prop :=
  ∀ (w : Word) (s : State), s.ready →
    (s.commit.state = .edit → exec .commit s = .next
      { s with commit := { s.commit with state := .validating, result := .none, fault := 0, req := .done, elapsed := 0 } })
    ∧ (s.commit.state ≠ .edit → exec .commit s = .next
      (State.report { s with commit := { s.commit with req := .busy } } .commitReq 0x0001 (s.commit.state.code.setWidth 16)))
    ∧ (s.commit.state = .edit → exec .commitCancel s = .next s)
    ∧ (s.commit.state = .validating ∨ s.commit.state = .pending → exec .commitCancel s = .next
      { s with commit := { s.commit with state := .edit, result := .none, fault := 0, req := .done } })
    ∧ (s.commit.state = .syncing → exec .commitCancel s = .next
      (State.report { s with commit := { s.commit with req := .tooLate } } .commitReq 0x0002 3))
    ∧ (w ≠ 0x0001 → w ≠ 0x0002 → exec (.commitCtrlUndefinedRequest w) s = .next
      (State.report { s with commit := { s.commit with req := .badRequest } } .commitReq w (s.commit.state.code.setWidth 16)))

/-- VALIDATION_END in VALIDATING: a plan that fails is refused with its step and fault index, and COMMIT_REFUSED is raised; a plan that
passes waits in PENDING during a run, and is swapped in at once otherwise. In another state nothing happens (log entry 6, the model's
choice). -/
def Obligations.ValidationEnds : Prop :=
  ∀ s : State, s.settled →
    (s.commit.state ≠ .validating → exec .validationEnd s = .next s)
    ∧ (s.commit.state = .validating →
      (∀ step i, s.commit.staging.validate = some (step, i) → exec .validationEnd s = .next
        { s with
          commit := { s.commit with state := .edit, result := .refused step, fault := BitVec.ofNat 16 i }
          irq := { s.irq with flags := s.irq.flags ||| 0x020 } })
      ∧ (s.commit.staging.validate = none →
        (s.downlink.link = .running ∨ s.downlink.link = .stopping → exec .validationEnd s = .next
          { s with commit := { s.commit with state := .pending } })
        ∧ (s.downlink.link ≠ .running → s.downlink.link ≠ .stopping → exec .validationEnd s = .next
          { s with commit := { s.commit with
            state := .syncing, elapsed := 0, newPlan := true, active := s.commit.staging, staging := s.commit.active } })))

/-- A plan passes validation exactly when it holds the ranges of R7, R63, R64, R65 and R79. -/
def Obligations.ValidationAcceptsExactlyLawfulPlans : Prop := ∀ b : Bank, b.validate = none ↔ b.Valid

/-- A plan that fails is refused at its first failing check, every step before the failing one having passed: the FORMAT checks in their
order; then the first failing data column; then the lowest failing used group; then the lowest failing used pool entry; then the lowest
failing enabled window. -/
def Obligations.ValidationNamesFirstFault : Prop :=
  ∀ (b : Bank) (i : Nat),
    let widthOk : Prop := b.w = 8 ∨ b.w = 10 ∨ b.w = 12 ∨ b.w = 14 ∨ b.w = 16
    let frameOk : Prop := 8 ≤ b.n ∧ b.n ≤ 1024
    let depthOk : Prop := 1 ≤ b.m ∧ b.m ≤ 256
    let syncOk : Prop := 1 ≤ b.s ∧ b.s ≤ 3
    let entryOk : Nat → Prop := fun c => mapEntryAllowed (b.word .map (2 * c)) (b.word .map (2 * c + 1))
    let groupOk : Nat → Prop := fun g =>
      2 ≤ b.groupDepth g ∧ b.groupDepth g ≤ 256 ∧ b.groupDepth g ∣ b.m ∧ b.groupFirst g + b.groupDepth g ≤ 1024
    let used : Nat → Prop := fun j => ∃ g, b.namesGroup g ∧ b.groupFirst g ≤ j ∧ j < b.groupFirst g + b.groupDepth g
    let poolOk : Nat → Prop := fun j => poolEntryAllowed (b.word .row (2 * j)) (b.word .row (2 * j + 1))
    let windowOk : Nat → Prop := fun k => b.winEnabled k = true →
      b.winTop k ≤ b.winBottom k ∧ b.winBottom k < b.m ∧ b.s + 1 ≤ b.winLeft k ∧ b.winLeft k ≤ b.winRight k
        ∧ b.winRight k ≤ b.n - 1 - b.c ∧ b.winSource k ≤ 23
    let formatPasses : Prop := widthOk ∧ frameOk ∧ depthOk ∧ syncOk ∧ b.n * b.w ≤ 16384
    let mapPasses : Prop := ∀ c, b.isDataColumn c → entryOk c
    let groupPasses : Prop := ∀ g, b.namesGroup g → groupOk g
    let rowPasses : Prop := ∀ j, used j → poolOk j
    (b.validate = some (.format, i) →
      (i = 0 ∧ ¬ widthOk) ∨ (i = 1 ∧ widthOk ∧ ¬ frameOk) ∨ (i = 2 ∧ widthOk ∧ frameOk ∧ ¬ depthOk)
        ∨ (i = 3 ∧ widthOk ∧ frameOk ∧ depthOk ∧ ¬ syncOk))
    ∧ (b.validate = some (.map, i) →
      formatPasses ∧ b.isDataColumn i ∧ ¬ entryOk i ∧ ∀ c, c < i → b.isDataColumn c → entryOk c)
    ∧ (b.validate = some (.group, i) →
      formatPasses ∧ mapPasses ∧ b.namesGroup i ∧ ¬ groupOk i ∧ ∀ g, g < i → b.namesGroup g → groupOk g)
    ∧ (b.validate = some (.row, i) →
      formatPasses ∧ mapPasses ∧ groupPasses ∧ used i ∧ ¬ poolOk i ∧ ∀ j, j < i → used j → poolOk j)
    ∧ (b.validate = some (.window, i) →
      formatPasses ∧ mapPasses ∧ groupPasses ∧ rowPasses ∧ i < 4 ∧ ¬ windowOk i ∧ ∀ k, k < i → windowOk k)

/-- COPY_BACK_END in SYNCING: EDIT, ACCEPTED, the Staging bank a copy of the Active bank, COMMIT_DONE raised. A held read of TBL_DATA
advances TBL_INDEX and is answered with the copied word, which is not delivered when the host had raised its strobes; the access that
waits behind it is then taken, as it is at any other time (log entry 10: at most one waits). In another state nothing happens (log entry
6, the model's choice). -/
def Obligations.CopyBackEnds : Prop :=
  ∀ s : State, s.settled →
    let t : State :=
      { s with
        commit := { s.commit with state := .edit, result := .accepted, staging := s.commit.active }
        irq := { s.irq with flags := s.irq.flags ||| 0x010 } }
    let next := (s.window.index + 1) % s.window.table.size
    (s.commit.state ≠ .syncing → exec .copyBackEnd s = .next s)
    ∧ (s.commit.state = .syncing → s.window.held = none → s.window.waiting = none → exec .copyBackEnd s = .next t)
    ∧ ∀ (raised abandoned : Bool) (p : PlanTable), s.commit.state = .syncing → s.window.table = .plan p → s.window.bank = .staging →
      s.window.held = some { access := .read 0x0C raised, abandoned := abandoned } →
      let released : State :=
        { t with window := { s.window with
          held := none, waiting := none, index := next
          readData := if abandoned then s.window.readData else some (s.commit.active.word p s.window.index) } }
      (s.window.waiting = none → exec .copyBackEnd s = .next released)
      ∧ ∀ h : HostAccess, s.window.waiting = some h → exec .copyBackEnd s = .next (released.access h)
        ∧ ∀ c : Instr, accessOf c = some h → exec .copyBackEnd s = exec c released

/-! ### Downlink port -/

/-- START in STOPPED clears LOST_WORDS and starts the run at once, or with START_TRIGGER EXTERNAL enters ARMED, where a rising edge on
START starts the run; cell (0,0), the first sync word, is then composed. START in another state, and an undefined request, are refused as
RUN_REQ with the word written and the link state; a rising edge in another state has no effect. -/
def Obligations.StartResults : Prop :=
  ∀ (rest : BitVec 12) (w : Word) (s : State), s.CommitLawful →
    let started : BitVec 2 → State := fun lost =>
      { s with
        downlink := { s.downlink with
          link := .running, target := .none, lostWords := lost, rowCount := 0, majorCount := 0, shifting := none, bclko := true,
          halfCount := 0, lossTimer := 0 }
        composer :=
          { row := 0, col := 0, accumulator := 0xFFFF, episodeLatch := false, capturedU := s.composer.episodeLatch,
            newPlanFrame := s.commit.newPlan,
            lookahead := some { value := s.commit.active.sync 0, width := s.commit.active.w, delivered := false } }
        commit := { s.commit with newPlan := false } }
    (s.ready → s.downlink.link = .stopped → s.downlink.trigger = .immediate → exec (.start rest) s = .next (started 0))
    ∧ (s.ready → s.downlink.link = .stopped → s.downlink.trigger = .external → exec (.start rest) s = .next
      { s with downlink := { s.downlink with link := .armed, lostWords := 0 } })
    ∧ (s.ready → s.downlink.link ≠ .stopped → exec (.start rest) s = .next
      (s.report .runReq (rest ++ (1 : BitVec 4)) (s.downlink.link.code.setWidth 16)))
    ∧ (s.settled → s.downlink.link = .armed → exec .startEdge s = .next (started s.downlink.lostWords))
    ∧ (s.settled → s.downlink.link ≠ .armed → exec .startEdge s = .next s)
    ∧ (s.ready → (Instr.runCtrlUndefinedRequest w).wellFormed = true → exec (.runCtrlUndefinedRequest w) s = .next
      (s.report .runReq w (s.downlink.link.code.setWidth 16)))

/-- STOP END_MINOR and END_MAJOR in every link state, ABORT outside a run, and CLEAR_HALT. The end point of the row in progress has passed
when its last word is being shifted and the composed cell stands in column 0; it was the major frame end point when that cell is cell
(0,0) (log entry 20, the model's reading of R135). -/
def Obligations.StopsAndClearHalt : Prop :=
  ∀ (rest : BitVec 10) (high : BitVec 12) (s : State), s.ready →
    let rowPassed : Prop := s.downlink.shifting ≠ none ∧ s.composer.lookahead ≠ none ∧ s.composer.col = 0
    let majorPassed : Prop := rowPassed ∧ s.composer.row = 0
    let stopping : StopTarget → State := fun target =>
      { s with downlink := { s.downlink with link := .stopping, target := target } }
    let disarmed : State :=
      { s with downlink := { s.downlink with link := .stopped }, irq := { s.irq with flags := s.irq.flags ||| 0x004 } }
    (s.downlink.link = .running →
      (rowPassed → exec (.stopEndMinor rest) s = .next (stopping .reached))
      ∧ (¬ rowPassed → exec (.stopEndMinor rest) s = .next (stopping .endMinor))
      ∧ (majorPassed → exec (.stopEndMajor rest) s = .next (stopping .reached))
      ∧ (¬ majorPassed → exec (.stopEndMajor rest) s = .next (stopping .endMajor)))
    ∧ (s.downlink.link = .stopping → s.downlink.target = .endMajor →
      (rowPassed → exec (.stopEndMinor rest) s = .next (stopping .reached))
      ∧ (¬ rowPassed → exec (.stopEndMinor rest) s = .next (stopping .endMinor)))
    ∧ (s.downlink.link = .stopping → s.downlink.target ≠ .endMajor → exec (.stopEndMinor rest) s = .next s)
    ∧ (s.downlink.link = .stopping → exec (.stopEndMajor rest) s = .next s)
    ∧ (s.downlink.link = .armed →
      exec (.stopEndMinor rest) s = .next disarmed ∧ exec (.stopEndMajor rest) s = .next disarmed
        ∧ exec (.abort rest) s = .next disarmed)
    ∧ (s.downlink.link = .stopped ∨ s.downlink.link = .halted →
      exec (.stopEndMinor rest) s = .next s ∧ exec (.stopEndMajor rest) s = .next s ∧ exec (.abort rest) s = .next s)
    ∧ (s.downlink.link = .halted → exec (.clearHalt high) s = .next { s with downlink := { s.downlink with link := .stopped } })
    ∧ (s.downlink.link ≠ .halted → exec (.clearHalt high) s = .next s)

/-- ABORT and CLOCK_LOSS_EXPIRY cut a run: LOST_WORDS takes the number of source-delivered words discarded, the run is over in STOPPED or
HALTED, a PENDING swap is taken, and STOPPED or HALT is raised. The timer expires only with CLK_SRC EXTERNAL in a run; elsewhere nothing
happens (log entry 6, the model's choice). -/
def Obligations.CutsEndTheRun : Prop :=
  ∀ (rest : BitVec 10) (s : State),
    let lost : BitVec 2 := BitVec.ofNat 2 s.markedWords
    let inRun : Prop := s.downlink.link = .running ∨ s.downlink.link = .stopping
    s.markedWords ≤ 2
    ∧ (s.ready → inRun → exec (.abort rest) s = .next
      { s.runOver .stopped lost with irq := { s.irq with flags := s.irq.flags ||| 0x004 } })
    ∧ (s.settled → inRun → s.downlink.clkSrc = .external → exec .clockLossExpiry s = .next
      { s.runOver .halted lost with irq := { s.irq with flags := s.irq.flags ||| 0x008 } })
    ∧ (s.settled → (¬ inRun ∨ s.downlink.clkSrc = .internal) → exec .clockLossExpiry s = .next s)

/-- The events of the bit clock within a cell: BIT_PERIOD_START puts the next lower bit on DOUT with both strobes low; STOPPING_END ends
the run after the last bit of the target row, with LOST_WORDS unchanged and STOPPED raised; BCLKI_RISING_EDGE restarts the clock-loss
timer. Where such an event is not due nothing happens (log entry 6, the model's choice). -/
def Obligations.BitClockEvents : Prop :=
  ∀ s : State, s.settled →
    let inRun : Prop := s.downlink.link = .running ∨ s.downlink.link = .stopping
    let rowSent : Prop := s.downlink.link = .stopping ∧ s.downlink.target = .reached
      ∧ ∀ sh, s.downlink.shifting = some sh → sh.bit = 0
    (∀ sh, inRun → s.downlink.shifting = some sh → sh.bit ≠ 0 → exec .bitPeriodStart s = .next
      { s with downlink := { s.downlink with
        shifting := some { word := sh.word, bit := sh.bit - 1 }
        dout := sh.word.value.getLsbD (sh.bit - 1)
        mfs := false, jfs := false, bclko := decide (s.downlink.clkSrc = .external), halfCount := 0, lossTimer := 0 } })
    ∧ ((¬ inRun ∨ ∀ sh, s.downlink.shifting = some sh → sh.bit = 0) → exec .bitPeriodStart s = .next s)
    ∧ (rowSent → exec .stoppingEnd s = .next
      { s.runOver .stopped s.downlink.lostWords with irq := { s.irq with flags := s.irq.flags ||| 0x004 } })
    ∧ (¬ rowSent → exec .stoppingEnd s = .next s)
    ∧ (inRun → s.downlink.clkSrc = .external → exec .bclkiRisingEdge s = .next
      { s with downlink := { s.downlink with lossTimer := 0 } })
    ∧ (¬ inRun ∨ s.downlink.clkSrc = .internal → exec .bclkiRisingEdge s = .next s)

/-- CLOCK_REGISTER_WRITE in STOPPED: the register takes its fields, and an IDLE_LEVEL moves DOUT. In another state the write is refused as
REG_WRITE with the register's offset and LINK_ACTIVE (12). -/
def Obligations.ClockRegisterWrites : Prop :=
  ∀ (w : Word) (s : State), s.ready →
    (s.downlink.link = .stopped →
      exec (.clockRegisterWrite .clkMode w) s = .next
        { s with downlink := { s.downlink with
          clkSrc := if w.getLsbD 0 then .external else .internal
          idleLevel := w.getLsbD 1
          trigger := if w.getLsbD 2 then .external else .immediate
          dout := w.getLsbD 1 } }
      ∧ exec (.clockRegisterWrite .bitDiv w) s = .next { s with downlink := { s.downlink with bitDiv := w } }
      ∧ exec (.clockRegisterWrite .lossTimeout w) s = .next { s with downlink := { s.downlink with lossTimeout := w.setWidth 8 } })
    ∧ (s.downlink.link ≠ .stopped →
      exec (.clockRegisterWrite .clkMode w) s = .next (s.report .regWrite 0x08 12)
      ∧ exec (.clockRegisterWrite .bitDiv w) s = .next (s.report .regWrite 0x0A 12)
      ∧ exec (.clockRegisterWrite .lossTimeout w) s = .next (s.report .regWrite 0x0C 12))

/-! ### REFCLK periods -/

/-- One step on an empty queue is one REFCLK period (log entries 3, 4 and 5, the model's choice), and its parts are the commands they come
to. The watermark checks outstanding are taken, oldest first; the tick divider counts, and the period that completes TICK_DIV + 1 is a tick
(R144); validation or copy-back counts, and ends with its 2,100th period (R109, R119); with CLK_SRC EXTERNAL in a run the clock-loss timer
counts, and expires with period 256 × (LOSS_TIMEOUT + 1) (R139); with CLK_SRC INTERNAL in a run the generator counts, and after BIT_DIV + 1
periods BCLKO rises, or falls and begins the bit period that is due (R128). -/
def Obligations.RefclkPeriod : Prop :=
  ∀ s : State, s.settled → s.pending = [] →
    ∃ s1 s2 s3 s4 t : State, step s = .next t
      ∧ s1 = s.refill.checks.foldl State.takeCheck s
      ∧ (if s1.time.tickDiv.toNat ≤ s1.time.divider then exec .tick s1 = .next s2
        else s2 = { s1 with time := { s1.time with divider := s1.time.divider + 1 } })
      ∧ (let counted : State := { s2 with commit := { s2.commit with elapsed := s2.commit.elapsed + 1 } }
        (s2.commit.state = .validating →
          if 2100 ≤ s2.commit.elapsed + 1 then exec .validationEnd s2 = .next s3 else s3 = counted)
        ∧ (s2.commit.state = .syncing →
          if 2100 ≤ s2.commit.elapsed + 1 then exec .copyBackEnd s2 = .next s3 else s3 = counted)
        ∧ (s2.commit.state = .edit ∨ s2.commit.state = .pending → s3 = s2))
      ∧ (let inRun : Prop := s3.downlink.link = .running ∨ s3.downlink.link = .stopping
        (inRun → s3.downlink.clkSrc = .external →
          if 256 * (s3.downlink.lossTimeout.toNat + 1) ≤ s3.downlink.lossTimer + 1 then exec .clockLossExpiry s3 = .next s4
          else s4 = { s3 with downlink := { s3.downlink with lossTimer := s3.downlink.lossTimer + 1 } })
        ∧ (¬ inRun ∨ s3.downlink.clkSrc = .internal → s4 = s3))
      ∧ (let inRun : Prop := s4.downlink.link = .running ∨ s4.downlink.link = .stopping
        let lastBit : Prop := ∀ sh, s4.downlink.shifting = some sh → sh.bit = 0
        (inRun → s4.downlink.clkSrc = .internal →
          (s4.downlink.halfCount < s4.downlink.bitDiv.toNat →
            t = { s4 with downlink := { s4.downlink with halfCount := s4.downlink.halfCount + 1 } })
          ∧ (s4.downlink.bitDiv.toNat ≤ s4.downlink.halfCount → s4.downlink.bclko = false →
            t = { s4 with downlink := { s4.downlink with bclko := true, halfCount := 0 } })
          ∧ (s4.downlink.bitDiv.toNat ≤ s4.downlink.halfCount → s4.downlink.bclko = true →
            (¬ lastBit → exec .bitPeriodStart s4 = .next t)
            ∧ (lastBit → s4.downlink.link = .stopping → s4.downlink.target = .reached → exec .stoppingEnd s4 = .next t)
            ∧ (lastBit → s4.downlink.link = .running ∨ s4.downlink.target ≠ .reached → exec (.cellCompose []) s4 = .next t)))
        ∧ (¬ inRun ∨ s4.downlink.clkSrc = .external → t = s4))

/-- How long the counted times last on an empty queue (log entries 3 to 5, the model's choice). From the beginning of a bit period of the
internal generator, BCLKO is low for BIT_DIV + 1 REFCLK periods and then high for as many; within a word, period 2 × (BIT_DIV + 1) puts
the next bit on DOUT, with BCLKO low again and both strobes low, and begins its bit period (R128, R130, R131). A run on BCLKI that brings
no edge is halted by period 256 × (LOSS_TIMEOUT + 1) (R139). Validation and copy-back outside a run last 2,100 periods: the bound of R109
and R119. -/
def Obligations.RefclkCounts : Prop :=
  ∀ s : State, s.settled → s.pending = [] → s.refill.checks = [] →
    let inRun : Prop := s.downlink.link = .running ∨ s.downlink.link = .stopping
    let half := s.downlink.bitDiv.toNat + 1
    let lossTime := 256 * (s.downlink.lossTimeout.toNat + 1)
    (inRun → s.commit.state = .edit → s.downlink.clkSrc = .internal → s.downlink.bclko = false → s.downlink.halfCount = 0 →
      (∀ k : Nat, k < 2 * half → ∃ t, Sys2Proof.core.run k s = .next t ∧ t.downlink =
        { s.downlink with bclko := decide (half ≤ k), halfCount := if half ≤ k then k - half else k })
      ∧ ∀ sh, s.downlink.shifting = some sh → 0 < sh.bit → ∃ t, Sys2Proof.core.run (2 * half) s = .next t ∧ t.downlink =
        { s.downlink with
          shifting := some { sh with bit := sh.bit - 1 }
          dout := sh.word.value.getLsbD (sh.bit - 1)
          mfs := false
          jfs := false
          bclko := false
          halfCount := 0
          lossTimer := 0 })
    ∧ (inRun → s.commit.state = .edit → s.downlink.clkSrc = .external → s.downlink.lossTimer = 0 →
      (∀ k : Nat, k < lossTime → ∃ t, Sys2Proof.core.run k s = .next t ∧ t.downlink = { s.downlink with lossTimer := k })
      ∧ ∃ t, Sys2Proof.core.run lossTime s = .next t ∧ t.downlink.link = .halted ∧ t.irq.flags.getLsbD 3 = true)
    ∧ (¬ inRun → s.commit.state = .validating ∨ s.commit.state = .syncing → s.commit.elapsed = 0 → s.window.held = none →
      s.window.waiting = none →
      (∀ k : Nat, k < 2100 → ∃ t, Sys2Proof.core.run k s = .next t ∧ t.commit = { s.commit with elapsed := k })
      ∧ ∃ t, Sys2Proof.core.run 2100 s = .next t ∧ t.commit.state ≠ s.commit.state)

/-! ### Composition -/

/-- CELL_COMPOSE within a row: as the first bit of cell (m,c) leaves, cell (m,c+1) is composed from the Active bank and becomes the
lookahead word. A sync cell carries SYNCc and is not fed, the ID cell carries the row index and on request the major count, a check cell
carries the accumulator, and a data cell carries the word its layers resolve to; ID and data words are fed. What is left of the gaps then
falls, and nothing is composed where a data cell's resolution was stopped (log entry 7). Where nothing falls among the consults, the part is
left as it stands but for the port, which the composer's last read still has when the next command finds it in progress (log entry
12). -/
def Obligations.ComposedWithinRow : Prop :=
  (∀ (s : State) (x : Composed) (gaps : List CellGap) (reading : Bool), s.settled → s.CellLeaves x →
    let b := s.commit.active
    let c := s.composer.col
    let u : State := { s.cellOut x with composer := { s.composer with lookahead := none, col := c + 1 } }
    let composed : State → Word → Bool → Word → State := fun v value delivered acc =>
      { v with composer := { v.composer with
        lookahead := some { value := value, width := v.commit.active.w, delivered := delivered }, accumulator := acc } }
    let start : State → CellFlow := fun v => { state := v, gaps := gaps, deferred := [], ended := none, composing := true }
    let acc := s.composer.accumulator
    let idWord : Word := BitVec.ofNat 16 (s.composer.row % 256
      + if b.idMajor = true ∧ 8 < b.w then 256 * (s.downlink.majorCount.toNat % 2 ^ (b.w - 8)) else 0)
    c + 1 < b.n →
    (c + 1 < b.s → exec (.cellCompose gaps reading) s = .next ((start (composed u (b.sync (c + 1)) false acc)).close reading))
    ∧ (c + 1 = b.s → exec (.cellCompose gaps reading) s = .next
      ((start (composed u idWord false (crcFeed b.w idWord acc))).close reading))
    ∧ (b.s < c + 1 → b.checkEn = true → c + 2 = b.n → exec (.cellCompose gaps reading) s = .next
      ((start (composed u acc false acc)).close reading))
    ∧ (b.isDataColumn (c + 1) →
      let r := resolveLayers s.composer.row (c + 1) (b.windowLayers s.composer.row (c + 1)) [] (start u)
      let t := r.flow.state
      (∀ value delivered, r.placed = some (value, delivered) → exec (.cellCompose gaps reading) s = .next
        (CellFlow.close { r.flow with state := composed t value delivered (crcFeed t.commit.active.w value t.composer.accumulator) }
          reading))
      ∧ (r.placed = none → exec (.cellCompose gaps reading) s = .next (r.flow.close reading))
      ∧ (gaps = [] → r.flow.gaps = [] ∧ r.flow.deferred = [] ∧ r.placed ≠ none ∧ t.composer.accumulator = acc ∧ t.commit.active = b)))
  ∧ ∀ (f : CellFlow) (reading : Bool), f.gaps = [] → f.deferred = [] →
    f.close reading = { f.state with port := if reading = true ∧ f.ended = some .composer then some .composer else none }

/-- CELL_COMPOSE at a row's end point: as the first bit of cell (m,N−1) leaves, the first cell of the next row is composed and opens it;
at the major frame end point MAJOR_COUNT advances, a PENDING swap is taken first, and cell (0,0) comes from the bank it leaves. At the
end point of the stop target the target becomes REACHED and no cell is composed. No cell composed here makes a consult, and the gaps fall
after it (log entry 7). -/
def Obligations.ComposedAtRowEnd : Prop :=
  ∀ (s : State) (x : Composed) (gaps : List CellGap) (reading : Bool), s.settled → s.CellLeaves x → s.CommitLawful →
    let m := s.composer.row
    let last : Prop := s.commit.active.m ≤ m + 1
    let u := s.cellOut x
    let v : State :=
      { u with
        downlink := { u.downlink with majorCount := s.downlink.majorCount + 1 }
        commit := s.commit.swapped }
    let opened : State → Nat → State := fun t row =>
      { t with
        composer := { t.composer with
          row := row, col := 0, accumulator := 0xFFFF, capturedU := s.composer.episodeLatch, episodeLatch := false
          newPlanFrame := if row = 0 then t.commit.newPlan else s.composer.newPlanFrame
          lookahead := some { value := t.commit.active.sync 0, width := t.commit.active.w, delivered := false } }
        commit := { t.commit with newPlan := if row = 0 then false else t.commit.newPlan } }
    let reached : State → State := fun t => { t with downlink := { t.downlink with target := .reached } }
    let closed : State → State := fun t =>
      CellFlow.close { state := t, gaps := gaps, deferred := [], ended := none, composing := true } reading
    s.commit.active.n ≤ s.composer.col + 1 →
    (¬ last → ¬ (s.downlink.link = .stopping ∧ s.downlink.target = .endMinor) →
      exec (.cellCompose gaps reading) s = .next (closed (opened u (m + 1))))
    ∧ (¬ last → s.downlink.link = .stopping → s.downlink.target = .endMinor →
      exec (.cellCompose gaps reading) s = .next (closed (reached u)))
    ∧ (last → (s.downlink.link = .running ∨ s.downlink.target = .none) →
      exec (.cellCompose gaps reading) s = .next (closed (opened v 0)))
    ∧ (last → s.downlink.link = .stopping → s.downlink.target = .endMinor ∨ s.downlink.target = .endMajor →
      exec (.cellCompose gaps reading) s = .next (closed (reached v)))

/-- CELL_COMPOSE with accesses of the host and watermark checks among its consults, none of them a request to RUN_CTRL or a soft reset: the
first bit leaves on DOUT with its strobes and start event, the ROW_COUNT and frame stamp stand, and a cell other than the target row's last
has a successor that waits. Where no first bit is due nothing happens, whatever the gaps hold (log entry 6, the model's choice). -/
def Obligations.FirstBitLeaves : Prop :=
  ∀ (s : State) (gaps : List CellGap) (reading : Bool), s.settled →
    (∀ x, s.CellLeaves x → (∀ gap ∈ gaps, ∀ e ∈ gap.events, quietEvent e) → ∃ t, exec (.cellCompose gaps reading) s = .next t
      ∧ t.downlink.shifting = some { word := x, bit := x.width - 1 } ∧ t.downlink.dout = x.value.getLsbD (x.width - 1)
      ∧ (t.downlink.mfs = true ↔ s.composer.col = 0) ∧ (t.downlink.jfs = true ↔ s.composer.col = 0 ∧ s.composer.row = 0)
      ∧ t.downlink.link = s.downlink.link
      ∧ t.downlink.rowCount = (if s.composer.col = 0 then BitVec.ofNat 16 s.composer.row else s.downlink.rowCount)
      ∧ t.time.stamp = (if s.composer.col = 0 then s.time.counter else s.time.stamp)
      ∧ t.time.counter = s.time.counter
      ∧ (t.composer.lookahead = none ↔ t.downlink.target = .reached))
    ∧ ((∀ x, ¬ s.CellLeaves x) → exec (.cellCompose gaps reading) s = .next s)

/-- The arbiter's grant in each of its cases (R165), and the host's accesses that need the port while a cell is composed (log entry 12,
the model's reading): at a free port, and at the end of a composer's read, the first of them is performed and the rest wait in their order;
behind an access of the host in this composition, the composer has asked, and all of them wait for its next read. At a free port an access
made at the instant of a consult that reads finds the composer granted first; of one that does not, it is performed. A port access of the
host is the effect of its command. -/
def Obligations.ArbiterGrantsPort : Prop :=
  (∀ ended, grant ended false false = none ∧ grant ended true false = some .composer ∧ grant ended false true = some .window)
  ∧ grant none true true = some .composer ∧ grant (some .window) true true = some .composer
  ∧ grant (some .composer) true true = some .window
  ∧ (∀ (w : Word) (raised : Bool) (s : State), s.ready →
    exec (.append w) s = .next (s.portAccess (.append w)) ∧ exec (.bufDataWrite w) s = .next (s.portAccess (.bufWrite w))
    ∧ exec (.bufDataRead raised) s = .next (s.portAccess (.bufRead raised)))
  ∧ ∀ (f : CellFlow) (p : PortAccess) (ps : List PortAccess), f.deferred = [] → f.state.window.held = none → f.composing = true →
    let accesses := (p :: ps).map (fun q => CellEvent.access q.bus)
    let done := f.state.portAccess p
    let undelivered : State := { done with window := { done.window with readData := f.state.window.readData } }
    let performed : State → CellFlow := fun t => { f with state := t, ended := some .window }
    let waiting : List HostAccess := ps.map PortAccess.bus
    (f.ended = none → f.events accesses = { performed done with deferred := waiting }
      ∧ f.tie true p = { f with deferred := [p.bus] } ∧ f.tie false p = performed done)
    ∧ (f.ended = some .composer → ∀ t, t = (if p = .bufRead true then undelivered else done) →
      f.events accesses = { performed t with deferred := waiting } ∧ f.tie true p = performed t ∧ f.tie false p = performed t)
    ∧ (f.ended = some .window → f.events accesses = { f with deferred := p.bus :: waiting }
      ∧ ∀ reads, f.tie reads p = { f with deferred := [p.bus] })

/-- What falls among the consults of a cell is the command it would be elsewhere (R96, R97, R155, R166, R174; log entry 7): any access of
the host to another register than the buffer's, a write of INT_FLAGS among them, a watermark check, and the events of the time counter and of
the commit controller. Composition goes on unless the event ends the run. An access behind one that waits for the port waits too. At the end of
the composition everything left takes place in its order. -/
def Obligations.EventsAmongConsults : Prop :=
  ∀ (f : CellFlow), f.state.settled →
    let after : State → CellFlow := fun t =>
      { f with
        state := t
        ended := if t.downlink.link = .running ∨ t.downlink.link = .stopping then f.ended else none
        composing := f.composing && decide (t.downlink.link = .running ∨ t.downlink.link = .stopping) }
    (∀ (c : Instr) (h : HostAccess) (t : State), accessOf c = some h → f.deferred = [] → h.portUse = none ∨ f.state.window.held ≠ none →
      exec c f.state = .next t → f.event (.access h) = after t)
    ∧ (∀ h, f.deferred ≠ [] → f.event (.access h) = { f with deferred := f.deferred ++ [h] })
    ∧ (∀ i t, exec (.watermarkCheck i) f.state = .next t → f.event (.watermarkCheck i) = after t)
    ∧ (∀ t, exec .tick f.state = .next t → f.event .tick = after t)
    ∧ (∀ t, exec .tsyncEdge f.state = .next t → f.event .tsyncEdge = after t)
    ∧ (∀ t, exec .validationEnd f.state = .next t → f.event .validationEnd = after t)
    ∧ (f.state.commit.state ≠ .syncing → f.event .copyBackEnd = f)
    ∧ (∀ t, f.state.commit.state = .syncing → f.state.window.waiting = none → exec .copyBackEnd f.state = .next t →
      f.event .copyBackEnd = after t)
    ∧ (∀ h t, f.state.commit.state = .syncing → f.state.window.waiting = some h →
      exec .copyBackEnd { f.state with window := { f.state.window with waiting := none } } = .next t →
      f.event .copyBackEnd = (after t).event (.access h))
    ∧ (∀ e es, f.events [] = f ∧ f.events (e :: es) = (f.event e).events es)
    ∧ ∀ reading : Bool,
      let left := f.deferred.map CellEvent.access
        ++ f.gaps.flatMap (fun gap => gap.events ++ (gap.tied.map (fun p => CellEvent.access p.bus)).toList)
      let g := CellFlow.events { f with gaps := [], deferred := [], composing := false } left
      f.close reading = { g.state with port := if reading = true ∧ g.ended = some .composer then some .composer else none }

/-- The window layers of a cell are the enabled windows that cover it, in descending number. A layer is reached when what falls before its
consult has fallen: the accesses that wait, the events of the next gap in their order, and at the instant of the consult the access tied to
it; with no gap and nothing waiting, at once (log entry 7). It then makes one consult: a delivered word decides the cell; with none, an
OPAQUE window places BLANK, and a TRANSPARENT one passes resolution on. A consult asks for a buffer read exactly when it removes a word. The
sources whose consults handed over a check are listed (log entry 8). -/
def Obligations.WindowLayersResolve : Prop :=
  (∀ (b : Bank) (m c : Nat),
    (b.windowLayers m c).Pairwise (fun k j => j < k)
    ∧ ∀ k, k ∈ b.windowLayers m c ↔ k < 4 ∧ b.winEnabled k = true ∧ b.winTop k ≤ m ∧ m ≤ b.winBottom k ∧ b.winLeft k ≤ c
      ∧ c ≤ b.winRight k)
  ∧ (∀ (f : CellFlow) (reads : State → Bool),
    (f.gaps = [] → f.toConsult reads = CellFlow.events { f with deferred := [] } (f.deferred.map CellEvent.access))
    ∧ (f.gaps = [] → f.deferred = [] → f.toConsult reads = f)
    ∧ ∀ gap rest, f.gaps = gap :: rest →
      let g := CellFlow.events { f with gaps := rest, deferred := [] } (f.deferred.map CellEvent.access ++ gap.events)
      (gap.tied = none → f.toConsult reads = g) ∧ ∀ p, gap.tied = some p → f.toConsult reads = g.tie (reads g.state) p)
  ∧ (∀ (s : State) (i : SourceId), s.consultReads i = true ↔
    ((s.record i).state = .live ∧ (s.record i).occupancy ≠ 0)
      ∨ (((s.record i).state = .priming ∨ (s.record i).state = .starved) ∧ (s.record i).startLevel ≤ (s.record i).occupancy
        ∧ (s.record i).occupancy ≠ 0)
      ∨ (s.record i).state = .draining)
  ∧ ∀ (m c k : Nat) (below : List Nat) (handed : List SourceId) (i : SourceId) (f : CellFlow),
    f.state.commit.active.winSource k = i.val →
    let b := f.state.commit.active
    let g := f.toConsult (fun s => s.consultReads i)
    let r := g.state.consult i
    let h : CellFlow := { g with state := r.state, ended := if g.state.consultReads i then some .composer else g.ended }
    let resolved := resolveLayers m c (k :: below) handed f
    (g.composing = false → resolved = { flow := g, placed := none })
    ∧ (∀ w, g.composing = true → r.outcome = .deliver w → resolved = { flow := h, placed := some (w, true) })
    ∧ (∀ reason, g.composing = true → r.outcome = .nothing reason → b.winOpaque k = true →
      resolved = { flow := h, placed := some (b.winBlank k, false) })
    ∧ (∀ reason, g.composing = true → r.outcome = .nothing reason → b.winOpaque k = false →
      (r.state.refill.checks = g.state.refill.checks → resolved = resolveLayers m c below handed h)
      ∧ (r.state.refill.checks = g.state.refill.checks ++ [i] → resolved = resolveLayers m c below (handed ++ [i]) h))

/-- The base layer decides a cell by its base entry, which a SUBCOM column takes from the row pool at FIRST + (m mod DEPTH): DIRECT makes
one consult and places the delivered word or IDLE; CONST, TIME, STATUS and SPARE consult nothing. What falls before it has fallen (log entry
7), and where the run is then over nothing is placed. Watermark checks that this cell's consults handed over are taken before a status word
is formed (log entry 8, the model's reading of R155). -/
def Obligations.BaseLayerResolves : Prop :=
  ∀ (m c : Nat) (handed : List SourceId) (f : CellFlow),
    let b := f.state.commit.active
    let at_ := b.groupFirst (b.word .map (2 * c + 1)).toNat + m % b.groupDepth (b.word .map (2 * c + 1)).toNat
    let kind : Word := if b.word .map (2 * c) = 2 then b.word .row (2 * at_) else b.word .map (2 * c)
    let arg : Word := if b.word .map (2 * c) = 2 then b.word .row (2 * at_ + 1) else b.word .map (2 * c + 1)
    let g := f.toConsult (fun _ => false)
    let resolved := resolveLayers m c [] handed f
    (∀ i : SourceId, kind = 1 → arg.toNat = i.val →
      let g := f.toConsult (fun s => s.consultReads i)
      let r := g.state.consult i
      let h : CellFlow := { g with state := r.state, ended := if g.state.consultReads i then some .composer else g.ended }
      (g.composing = false → resolved = { flow := g, placed := none })
      ∧ (∀ w, g.composing = true → r.outcome = .deliver w → resolved = { flow := h, placed := some (w, true) })
      ∧ (∀ reason, g.composing = true → r.outcome = .nothing reason →
        resolved = { flow := h, placed := some (g.state.commit.active.idle, false) }))
    ∧ (kind ≠ 1 → g.composing = false → resolved = { flow := g, placed := none })
    ∧ (g.composing = true →
      (kind = 0 → resolved = { flow := g, placed := some (g.state.commit.active.idle, false) })
      ∧ (kind = 3 → resolved = { flow := g, placed := some (arg, false) })
      ∧ (kind = 4 → arg = 0 → resolved = { flow := g, placed := some (g.state.time.stamp.extractLsb' 32 16, false) })
      ∧ (kind = 4 → arg = 1 → resolved = { flow := g, placed := some (g.state.time.stamp.extractLsb' 16 16, false) })
      ∧ (kind = 4 → arg = 2 → resolved = { flow := g, placed := some (g.state.time.stamp.extractLsb' 0 16, false) })
      ∧ (kind = 5 →
        let t := handed.foldl State.takeCheck g.state
        resolved = { flow := { g with state := t }, placed := some (t.statusWord, false) }))

/-- The check accumulator is fed bit by bit from bit W−1 down, as R6 states, and 16 bits of the accumulator fed into itself leave 0: a
receiver that feeds a 16-bit check word after the words it covers ends at 0. -/
def Obligations.CheckAccumulator : Prop :=
  (∀ (v acc : Word), crcFeed 0 v acc = acc)
  ∧ (∀ (k : Nat) (v acc : Word), crcFeed (k + 1) v acc =
      crcFeed k v (if v.getLsbD k ≠ acc.getLsbD 15 then (acc <<< 1) ^^^ 0x1021 else acc <<< 1))
  ∧ ∀ acc : Word, crcFeed 16 acc acc = 0

/-! ### What every step keeps -/

/-- Every law of Safety.lean holds in the state after reset. -/
def Obligations.ResetIsLawful : Prop :=
  State.reset.SourcesLawful ∧ State.reset.RefillLawful ∧ State.reset.CommitLawful ∧ State.reset.ResultLawful
    ∧ State.reset.MemoryLawful ∧ State.reset.WindowLawful ∧ State.reset.LinkLawful ∧ State.reset.ErrorLawful

/-- Every step keeps every source record lawful: the balance of the three wrapping counters, the occupancy within the ring, and the ring
within the buffer (R21, R23, R25, R26, R29). -/
def Obligations.StepKeepsSources : Prop := ∀ s t : State, s.SourcesLawful → step s = .next t → t.SourcesLawful

/-- Every step keeps the law of the refill queue: at most 24 records, never two of one source, and none of a source that is OFF or
DRAINING (R49). -/
def Obligations.StepKeepsRefillQueue : Prop :=
  ∀ s t : State, s.RefillLawful → step s = .next t → t.RefillLawful ∧ t.refill.records.length ≤ 24

/-- Every step keeps an Active bank that passes validation, PENDING only in a run, COMMIT_FAULT 0 unless validation refused a plan, and
RESULT NONE while a commit is in progress (R101, R104, R116). -/
def Obligations.StepKeepsCommitController : Prop :=
  ∀ s t : State, s.CommitLawful ∧ s.ResultLawful → step s = .next t → t.CommitLawful ∧ t.ResultLawful

/-- Every step keeps the canonical form of the buffer and of both banks, and TBL_INDEX within the selected table (R162). -/
def Obligations.StepKeepsMemory : Prop := ∀ s t : State, s.MemoryLawful → step s = .next t → t.MemoryLawful

/-- Every step keeps the register window lawful: a read of TBL_DATA is held only in SYNCING, and an access to the buffer only while a
buffer access of the composer is in progress (log entry 12); an access waits only behind a held read of TBL_DATA (log entry 10). -/
def Obligations.StepKeepsRegisterWindow : Prop := ∀ s t : State, s.WindowLawful → step s = .next t → t.WindowLawful

/-- Every step keeps the downlink port lawful: idle lines outside a run, a target exactly in STOPPING, DOUT the present bit, the strobes in
step, and a composed word ahead (R9, R123, R129 … R132). -/
def Obligations.StepKeepsLink : Prop := ∀ s t : State, s.LinkLawful → step s = .next t → t.LinkLawful

/-- After every step KIND is NONE only with both details and AFTER_COUNT 0, given the same before it (R177, R178). -/
def Obligations.StepKeepsErrorRecord : Prop := ∀ s t : State, s.ErrorLawful → step s = .next t → t.ErrorLawful
end

