-- ==== Sys2Proof/Laws/Records.lean ====
section
/-! SUPPORT. What each event does to one source record keeps the record lawful (R21, R23, R25, R26, R29). -/

namespace Sys2Proof.Machine

theorem SourceRec.Lawful.reset : SourceRec.reset.Lawful := by
  constructor <;> simp [SourceRec.reset]

/-- A record whose state is OFF, with its ring and counters as they stand, is lawful whatever its other fields hold. -/
theorem SourceRec.Lawful.ofOff {r : SourceRec} (hb : r.appended - r.consumed - r.discarded = r.occupancy) (ho : r.occupancy = 0)
    (hs : r.state = .off) : r.Lawful := by
  constructor <;> simp_all [BitVec.le_def]

theorem SourceState.feeding_ne_off {st : SourceState} (h : st.feeding = true) : st ≠ .off := by
  rintro rfl; exact Bool.noConfusion h

theorem SourceState.feeding_ne_draining {st : SourceState} (h : st.feeding = true) : st ≠ .draining := by
  rintro rfl; exact Bool.noConfusion h

theorem SourceState.feeding_iff {st : SourceState} : st.feeding = true ↔ st = .priming ∨ st = .live ∨ st = .starved := by
  cases st <;> simp [SourceState.feeding]

/-- A ring position advanced by 1 stays within the ring. -/
theorem SourceRec.nextIndex_toNat {r : SourceRec} (hl : 2 ≤ r.length.toNat) (idx : Word) :
    (r.nextIndex idx).toNat = (idx.toNat + 1) % r.length.toNat := by
  have h : (idx.toNat + 1) % r.length.toNat < r.length.toNat := Nat.mod_lt _ (by omega)
  have := r.length.isLt
  simp only [SourceRec.nextIndex, BitVec.toNat_ofNat]
  exact Nat.mod_eq_of_lt (by omega)

theorem SourceRec.Lawful.afterAppend {r : SourceRec} (h : r.Lawful) (hf : r.state.feeding = true) (hr : r.occupancy < r.length) :
    r.afterAppend.Lawful := by
  have hoff := SourceState.feeding_ne_off hf
  have hl := h.lengthRange hoff
  have ht := h.tail hoff
  have hb := h.balance
  have hwi := SourceRec.nextIndex_toNat (r := r) hl.1 r.writeIndex
  have hst : r.afterAppend.state ≠ .off ∧ r.afterAppend.state ≠ .draining := by
    have := SourceState.feeding_ne_draining hf
    simp only [SourceRec.afterAppend]
    split <;> simp_all
  refine ⟨?_, ?_, fun e => absurd e hst.1, fun e => absurd e hst.2, fun _ => hl, fun _ => h.inBuffer hoff,
    fun _ => h.startRange hoff, fun _ => h.markRange hoff, fun _ => h.readRange hoff, fun _ => ?_⟩
  · simp only [SourceRec.afterAppend]; bv_omega
  · simp only [SourceRec.afterAppend]; bv_omega
  · have ho : (r.occupancy + 1).toNat = r.occupancy.toNat + 1 := by bv_omega
    simp only [SourceRec.afterAppend, hwi, ht, ho]
    rw [Nat.mod_add_mod, Nat.add_assoc]

/-- The record after a removal, in a state `st` that agrees with what is left of the ring. -/
theorem SourceRec.Lawful.afterRemoval {r : SourceRec} (h : r.Lawful) (hs : r.state ≠ .off) (ho : r.occupancy ≠ 0) (w : Word)
    {st : SourceState} (hoff : st = .off → r.occupancy - 1 = 0) (hd : st = .draining → r.occupancy - 1 ≠ 0) :
    SourceRec.Lawful { r.afterRemoval w with state := st } := by
  have hl := h.lengthRange hs
  have ht := h.tail hs
  have hb := h.balance
  have hfit := h.fits
  have hri := SourceRec.nextIndex_toNat (r := r) hl.1 r.readIndex
  refine ⟨?_, ?_, hoff, hd, fun _ => hl, fun _ => h.inBuffer hs, fun _ => h.startRange hs, fun _ => h.markRange hs,
    fun _ => ?_, fun _ => ?_⟩
  · simp only [SourceRec.afterRemoval]; bv_omega
  · simp only [SourceRec.afterRemoval]; bv_omega
  · simp only [SourceRec.afterRemoval, BitVec.lt_def, hri]
    exact Nat.mod_lt _ (by omega)
  · have ho' : (r.occupancy - 1).toNat = r.occupancy.toNat - 1 := by bv_omega
    have ho'' : 0 < r.occupancy.toNat := by bv_omega
    simp only [SourceRec.afterRemoval, hri, ht, ho']
    rw [Nat.mod_add_mod]
    congr 1
    omega

/-- A record that moves among the states that are neither OFF nor DRAINING stays lawful. -/
theorem SourceRec.Lawful.withState {r : SourceRec} (h : r.Lawful) (hs : r.state ≠ .off) {st : SourceState} (h1 : st ≠ .off)
    (h2 : st ≠ .draining) : SourceRec.Lawful { r with state := st } :=
  ⟨h.balance, h.fits, fun e => absurd e h1, fun e => absurd e h2, fun _ => h.lengthRange hs, fun _ => h.inBuffer hs,
    fun _ => h.startRange hs, fun _ => h.markRange hs, fun _ => h.readRange hs, fun _ => h.tail hs⟩

/-- Two records that agree in every field the law reads are lawful together. -/
theorem SourceRec.Lawful.congr {r q : SourceRec} (h : r.Lawful) (e1 : q.base = r.base) (e2 : q.length = r.length)
    (e3 : q.watermark = r.watermark) (e4 : q.startLevel = r.startLevel) (e5 : q.state = r.state)
    (e6 : q.occupancy = r.occupancy) (e7 : q.readIndex = r.readIndex) (e8 : q.writeIndex = r.writeIndex)
    (e9 : q.appended = r.appended) (e10 : q.consumed = r.consumed) (e11 : q.discarded = r.discarded) : q.Lawful := by
  obtain ⟨a, b, c, d, e, f, g, i, j, k⟩ := h
  constructor <;> simp only [e1, e2, e3, e4, e5, e6, e7, e8, e9, e10, e11] <;> assumption

theorem SourceRec.Lawful.opened {r : SourceRec} (hg : r.geometryOk = true) : r.opened.Lawful := by
  simp only [SourceRec.geometryOk, decide_eq_true_eq] at hg
  obtain ⟨h1, h2, h3, h4, h5, h6⟩ := hg
  refine ⟨?_, ?_, ?_, ?_, ?_, ?_, ?_, ?_, ?_, ?_⟩
  · simp [SourceRec.opened]
  · simp [SourceRec.opened, BitVec.le_def]
  · simp [SourceRec.opened]
  · simp [SourceRec.opened]
  · intro _; exact ⟨h1, h2⟩
  · intro _; exact h3
  · intro _
    refine ⟨?_, ?_⟩
    · simp only [SourceRec.opened]; rintro e; simp [e] at h4
    · simpa [SourceRec.opened, BitVec.le_def] using h5
  · intro _; simpa [SourceRec.opened, BitVec.lt_def] using h6
  · intro _; simp only [SourceRec.opened, BitVec.lt_def]; show 0 < r.length.toNat; omega
  · intro _; simp [SourceRec.opened]

theorem SourceRec.Lawful.emptied {r : SourceRec} (h : r.Lawful) (hs : r.state ≠ .off) {st : SourceState} (hd : st ≠ .draining) :
    (r.emptied st).Lawful := by
  have hb := h.balance
  have hl := h.lengthRange hs
  have ht := h.tail hs
  have hlt : r.writeIndex.toNat < r.length.toNat := by rw [ht]; exact Nat.mod_lt _ (by omega)
  refine ⟨?_, ?_, fun _ => rfl, fun e => absurd e hd, fun _ => hl, fun _ => h.inBuffer hs, fun _ => h.startRange hs,
    fun _ => h.markRange hs, fun _ => hlt, fun _ => ?_⟩
  · simp only [SourceRec.emptied]; bv_omega
  · simp [SourceRec.emptied, BitVec.le_def]
  · simp only [SourceRec.emptied]; rw [Nat.mod_eq_of_lt]
    · simp
    · simpa using hlt

/-- CLOSE: the record goes to OFF with an empty ring, else to DRAINING. -/
theorem SourceRec.Lawful.closed {r : SourceRec} (h : r.Lawful) (hs : r.state ≠ .off) :
    SourceRec.Lawful { r with armed := false, state := if r.occupancy = 0 then .off else .draining } := by
  refine ⟨h.balance, h.fits, ?_, ?_, fun _ => h.lengthRange hs, fun _ => h.inBuffer hs, fun _ => h.startRange hs,
    fun _ => h.markRange hs, fun _ => h.readRange hs, fun _ => h.tail hs⟩
  · intro e; dsimp only at e ⊢; split at e
    · assumption
    · cases e
  · intro e; dsimp only at e ⊢; split at e
    · cases e
    · assumption

end Sys2Proof.Machine
end

