-- ==== Sys2Proof/Laws/State.lean ====
section
/-! SUPPORT. Which fields of State each shared operation leaves as they are: one lemma per operation and field. -/

namespace Sys2Proof.Machine

variable (s : State)

@[simp] theorem State.raise_pending (f : Flag) : (s.raise f).pending = s.pending := rfl
@[simp] theorem State.raise_resetAsserted (f : Flag) : (s.raise f).resetAsserted = s.resetAsserted := rfl
@[simp] theorem State.raise_buffer (f : Flag) : (s.raise f).buffer = s.buffer := rfl
@[simp] theorem State.raise_port (f : Flag) : (s.raise f).port = s.port := rfl
@[simp] theorem State.raise_sources (f : Flag) : (s.raise f).sources = s.sources := rfl
@[simp] theorem State.raise_refill (f : Flag) : (s.raise f).refill = s.refill := rfl
@[simp] theorem State.raise_downlink (f : Flag) : (s.raise f).downlink = s.downlink := rfl
@[simp] theorem State.raise_composer (f : Flag) : (s.raise f).composer = s.composer := rfl
@[simp] theorem State.raise_commit (f : Flag) : (s.raise f).commit = s.commit := rfl
@[simp] theorem State.raise_time (f : Flag) : (s.raise f).time = s.time := rfl
@[simp] theorem State.raise_window (f : Flag) : (s.raise f).window = s.window := rfl

@[simp] theorem State.report_pending (k : ErrKind) (a b : Word) : (s.report k a b).pending = s.pending := by unfold State.report; split <;> rfl
@[simp] theorem State.report_resetAsserted (k : ErrKind) (a b : Word) : (s.report k a b).resetAsserted = s.resetAsserted := by unfold State.report; split <;> rfl
@[simp] theorem State.report_buffer (k : ErrKind) (a b : Word) : (s.report k a b).buffer = s.buffer := by unfold State.report; split <;> rfl
@[simp] theorem State.report_port (k : ErrKind) (a b : Word) : (s.report k a b).port = s.port := by unfold State.report; split <;> rfl
@[simp] theorem State.report_sources (k : ErrKind) (a b : Word) : (s.report k a b).sources = s.sources := by unfold State.report; split <;> rfl
@[simp] theorem State.report_refill (k : ErrKind) (a b : Word) : (s.report k a b).refill = s.refill := by unfold State.report; split <;> rfl
@[simp] theorem State.report_downlink (k : ErrKind) (a b : Word) : (s.report k a b).downlink = s.downlink := by unfold State.report; split <;> rfl
@[simp] theorem State.report_composer (k : ErrKind) (a b : Word) : (s.report k a b).composer = s.composer := by unfold State.report; split <;> rfl
@[simp] theorem State.report_commit (k : ErrKind) (a b : Word) : (s.report k a b).commit = s.commit := by unfold State.report; split <;> rfl
@[simp] theorem State.report_time (k : ErrKind) (a b : Word) : (s.report k a b).time = s.time := by unfold State.report; split <;> rfl
@[simp] theorem State.report_window (k : ErrKind) (a b : Word) : (s.report k a b).window = s.window := by unfold State.report; split <;> rfl

@[simp] theorem State.bufferWrite_pending (a : BitVec 15) (w : Word) : (s.bufferWrite a w).pending = s.pending := rfl
@[simp] theorem State.bufferWrite_resetAsserted (a : BitVec 15) (w : Word) : (s.bufferWrite a w).resetAsserted = s.resetAsserted := rfl
@[simp] theorem State.bufferWrite_port (a : BitVec 15) (w : Word) : (s.bufferWrite a w).port = s.port := rfl
@[simp] theorem State.bufferWrite_sources (a : BitVec 15) (w : Word) : (s.bufferWrite a w).sources = s.sources := rfl
@[simp] theorem State.bufferWrite_refill (a : BitVec 15) (w : Word) : (s.bufferWrite a w).refill = s.refill := rfl
@[simp] theorem State.bufferWrite_downlink (a : BitVec 15) (w : Word) : (s.bufferWrite a w).downlink = s.downlink := rfl
@[simp] theorem State.bufferWrite_composer (a : BitVec 15) (w : Word) : (s.bufferWrite a w).composer = s.composer := rfl
@[simp] theorem State.bufferWrite_commit (a : BitVec 15) (w : Word) : (s.bufferWrite a w).commit = s.commit := rfl
@[simp] theorem State.bufferWrite_time (a : BitVec 15) (w : Word) : (s.bufferWrite a w).time = s.time := rfl
@[simp] theorem State.bufferWrite_window (a : BitVec 15) (w : Word) : (s.bufferWrite a w).window = s.window := rfl
@[simp] theorem State.bufferWrite_irq (a : BitVec 15) (w : Word) : (s.bufferWrite a w).irq = s.irq := rfl

@[simp] theorem State.setRecord_pending (i : SourceId) (r : SourceRec) : (s.setRecord i r).pending = s.pending := rfl
@[simp] theorem State.setRecord_resetAsserted (i : SourceId) (r : SourceRec) : (s.setRecord i r).resetAsserted = s.resetAsserted := rfl
@[simp] theorem State.setRecord_buffer (i : SourceId) (r : SourceRec) : (s.setRecord i r).buffer = s.buffer := rfl
@[simp] theorem State.setRecord_port (i : SourceId) (r : SourceRec) : (s.setRecord i r).port = s.port := rfl
@[simp] theorem State.setRecord_refill (i : SourceId) (r : SourceRec) : (s.setRecord i r).refill = s.refill := rfl
@[simp] theorem State.setRecord_downlink (i : SourceId) (r : SourceRec) : (s.setRecord i r).downlink = s.downlink := rfl
@[simp] theorem State.setRecord_composer (i : SourceId) (r : SourceRec) : (s.setRecord i r).composer = s.composer := rfl
@[simp] theorem State.setRecord_commit (i : SourceId) (r : SourceRec) : (s.setRecord i r).commit = s.commit := rfl
@[simp] theorem State.setRecord_time (i : SourceId) (r : SourceRec) : (s.setRecord i r).time = s.time := rfl
@[simp] theorem State.setRecord_window (i : SourceId) (r : SourceRec) : (s.setRecord i r).window = s.window := rfl
@[simp] theorem State.setRecord_irq (i : SourceId) (r : SourceRec) : (s.setRecord i r).irq = s.irq := rfl

@[simp] theorem State.insertRecord_pending (i : SourceId) (r : RefillReason) : (s.insertRecord i r).pending = s.pending := rfl
@[simp] theorem State.insertRecord_resetAsserted (i : SourceId) (r : RefillReason) : (s.insertRecord i r).resetAsserted = s.resetAsserted := rfl
@[simp] theorem State.insertRecord_buffer (i : SourceId) (r : RefillReason) : (s.insertRecord i r).buffer = s.buffer := rfl
@[simp] theorem State.insertRecord_port (i : SourceId) (r : RefillReason) : (s.insertRecord i r).port = s.port := rfl
@[simp] theorem State.insertRecord_sources (i : SourceId) (r : RefillReason) : (s.insertRecord i r).sources = s.sources := rfl
@[simp] theorem State.insertRecord_downlink (i : SourceId) (r : RefillReason) : (s.insertRecord i r).downlink = s.downlink := rfl
@[simp] theorem State.insertRecord_composer (i : SourceId) (r : RefillReason) : (s.insertRecord i r).composer = s.composer := rfl
@[simp] theorem State.insertRecord_commit (i : SourceId) (r : RefillReason) : (s.insertRecord i r).commit = s.commit := rfl
@[simp] theorem State.insertRecord_time (i : SourceId) (r : RefillReason) : (s.insertRecord i r).time = s.time := rfl
@[simp] theorem State.insertRecord_window (i : SourceId) (r : RefillReason) : (s.insertRecord i r).window = s.window := rfl

@[simp] theorem State.removeRecord_pending (i : SourceId) : (s.removeRecord i).pending = s.pending := rfl
@[simp] theorem State.removeRecord_resetAsserted (i : SourceId) : (s.removeRecord i).resetAsserted = s.resetAsserted := rfl
@[simp] theorem State.removeRecord_buffer (i : SourceId) : (s.removeRecord i).buffer = s.buffer := rfl
@[simp] theorem State.removeRecord_port (i : SourceId) : (s.removeRecord i).port = s.port := rfl
@[simp] theorem State.removeRecord_sources (i : SourceId) : (s.removeRecord i).sources = s.sources := rfl
@[simp] theorem State.removeRecord_downlink (i : SourceId) : (s.removeRecord i).downlink = s.downlink := rfl
@[simp] theorem State.removeRecord_composer (i : SourceId) : (s.removeRecord i).composer = s.composer := rfl
@[simp] theorem State.removeRecord_commit (i : SourceId) : (s.removeRecord i).commit = s.commit := rfl
@[simp] theorem State.removeRecord_time (i : SourceId) : (s.removeRecord i).time = s.time := rfl
@[simp] theorem State.removeRecord_window (i : SourceId) : (s.removeRecord i).window = s.window := rfl
@[simp] theorem State.removeRecord_irq (i : SourceId) : (s.removeRecord i).irq = s.irq := rfl

@[simp] theorem State.handCheck_pending (i : SourceId) : (s.handCheck i).pending = s.pending := rfl
@[simp] theorem State.handCheck_resetAsserted (i : SourceId) : (s.handCheck i).resetAsserted = s.resetAsserted := rfl
@[simp] theorem State.handCheck_buffer (i : SourceId) : (s.handCheck i).buffer = s.buffer := rfl
@[simp] theorem State.handCheck_port (i : SourceId) : (s.handCheck i).port = s.port := rfl
@[simp] theorem State.handCheck_sources (i : SourceId) : (s.handCheck i).sources = s.sources := rfl
@[simp] theorem State.handCheck_downlink (i : SourceId) : (s.handCheck i).downlink = s.downlink := rfl
@[simp] theorem State.handCheck_composer (i : SourceId) : (s.handCheck i).composer = s.composer := rfl
@[simp] theorem State.handCheck_commit (i : SourceId) : (s.handCheck i).commit = s.commit := rfl
@[simp] theorem State.handCheck_time (i : SourceId) : (s.handCheck i).time = s.time := rfl
@[simp] theorem State.handCheck_window (i : SourceId) : (s.handCheck i).window = s.window := rfl
@[simp] theorem State.handCheck_irq (i : SourceId) : (s.handCheck i).irq = s.irq := rfl

@[simp] theorem State.pop_pending : (s.pop).pending = s.pending := rfl
@[simp] theorem State.pop_resetAsserted : (s.pop).resetAsserted = s.resetAsserted := rfl
@[simp] theorem State.pop_buffer : (s.pop).buffer = s.buffer := rfl
@[simp] theorem State.pop_port : (s.pop).port = s.port := rfl
@[simp] theorem State.pop_sources : (s.pop).sources = s.sources := rfl
@[simp] theorem State.pop_downlink : (s.pop).downlink = s.downlink := rfl
@[simp] theorem State.pop_composer : (s.pop).composer = s.composer := rfl
@[simp] theorem State.pop_commit : (s.pop).commit = s.commit := rfl
@[simp] theorem State.pop_time : (s.pop).time = s.time := rfl
@[simp] theorem State.pop_window : (s.pop).window = s.window := rfl
@[simp] theorem State.pop_irq : (s.pop).irq = s.irq := rfl

@[simp] theorem State.watermarkCheck_pending (i : SourceId) : (s.watermarkCheck i).pending = s.pending := by unfold State.watermarkCheck; dsimp only; split <;> rfl
@[simp] theorem State.watermarkCheck_resetAsserted (i : SourceId) : (s.watermarkCheck i).resetAsserted = s.resetAsserted := by unfold State.watermarkCheck; dsimp only; split <;> rfl
@[simp] theorem State.watermarkCheck_buffer (i : SourceId) : (s.watermarkCheck i).buffer = s.buffer := by unfold State.watermarkCheck; dsimp only; split <;> rfl
@[simp] theorem State.watermarkCheck_port (i : SourceId) : (s.watermarkCheck i).port = s.port := by unfold State.watermarkCheck; dsimp only; split <;> rfl
@[simp] theorem State.watermarkCheck_downlink (i : SourceId) : (s.watermarkCheck i).downlink = s.downlink := by unfold State.watermarkCheck; dsimp only; split <;> rfl
@[simp] theorem State.watermarkCheck_composer (i : SourceId) : (s.watermarkCheck i).composer = s.composer := by unfold State.watermarkCheck; dsimp only; split <;> rfl
@[simp] theorem State.watermarkCheck_commit (i : SourceId) : (s.watermarkCheck i).commit = s.commit := by unfold State.watermarkCheck; dsimp only; split <;> rfl
@[simp] theorem State.watermarkCheck_time (i : SourceId) : (s.watermarkCheck i).time = s.time := by unfold State.watermarkCheck; dsimp only; split <;> rfl
@[simp] theorem State.watermarkCheck_window (i : SourceId) : (s.watermarkCheck i).window = s.window := by unfold State.watermarkCheck; dsimp only; split <;> rfl

@[simp] theorem State.takeCheck_pending (i : SourceId) : (s.takeCheck i).pending = s.pending := by unfold State.takeCheck; split <;> simp
@[simp] theorem State.takeCheck_resetAsserted (i : SourceId) : (s.takeCheck i).resetAsserted = s.resetAsserted := by unfold State.takeCheck; split <;> simp
@[simp] theorem State.takeCheck_buffer (i : SourceId) : (s.takeCheck i).buffer = s.buffer := by unfold State.takeCheck; split <;> simp
@[simp] theorem State.takeCheck_port (i : SourceId) : (s.takeCheck i).port = s.port := by unfold State.takeCheck; split <;> simp
@[simp] theorem State.takeCheck_downlink (i : SourceId) : (s.takeCheck i).downlink = s.downlink := by unfold State.takeCheck; split <;> simp
@[simp] theorem State.takeCheck_composer (i : SourceId) : (s.takeCheck i).composer = s.composer := by unfold State.takeCheck; split <;> simp
@[simp] theorem State.takeCheck_commit (i : SourceId) : (s.takeCheck i).commit = s.commit := by unfold State.takeCheck; split <;> simp
@[simp] theorem State.takeCheck_time (i : SourceId) : (s.takeCheck i).time = s.time := by unfold State.takeCheck; split <;> simp
@[simp] theorem State.takeCheck_window (i : SourceId) : (s.takeCheck i).window = s.window := by unfold State.takeCheck; split <;> simp

@[simp] theorem State.answer_pending (w : Word) : (s.answer w).pending = s.pending := rfl
@[simp] theorem State.answer_resetAsserted (w : Word) : (s.answer w).resetAsserted = s.resetAsserted := rfl
@[simp] theorem State.answer_buffer (w : Word) : (s.answer w).buffer = s.buffer := rfl
@[simp] theorem State.answer_port (w : Word) : (s.answer w).port = s.port := rfl
@[simp] theorem State.answer_sources (w : Word) : (s.answer w).sources = s.sources := rfl
@[simp] theorem State.answer_refill (w : Word) : (s.answer w).refill = s.refill := rfl
@[simp] theorem State.answer_downlink (w : Word) : (s.answer w).downlink = s.downlink := rfl
@[simp] theorem State.answer_composer (w : Word) : (s.answer w).composer = s.composer := rfl
@[simp] theorem State.answer_commit (w : Word) : (s.answer w).commit = s.commit := rfl
@[simp] theorem State.answer_time (w : Word) : (s.answer w).time = s.time := rfl
@[simp] theorem State.answer_irq (w : Word) : (s.answer w).irq = s.irq := rfl

@[simp] theorem State.refuseRegWrite_pending (off : Nat) (r : Reason) : (s.refuseRegWrite off r).pending = s.pending := by simp [State.refuseRegWrite]
@[simp] theorem State.refuseRegWrite_resetAsserted (off : Nat) (r : Reason) : (s.refuseRegWrite off r).resetAsserted = s.resetAsserted := by simp [State.refuseRegWrite]
@[simp] theorem State.refuseRegWrite_buffer (off : Nat) (r : Reason) : (s.refuseRegWrite off r).buffer = s.buffer := by simp [State.refuseRegWrite]
@[simp] theorem State.refuseRegWrite_port (off : Nat) (r : Reason) : (s.refuseRegWrite off r).port = s.port := by simp [State.refuseRegWrite]
@[simp] theorem State.refuseRegWrite_sources (off : Nat) (r : Reason) : (s.refuseRegWrite off r).sources = s.sources := by simp [State.refuseRegWrite]
@[simp] theorem State.refuseRegWrite_refill (off : Nat) (r : Reason) : (s.refuseRegWrite off r).refill = s.refill := by simp [State.refuseRegWrite]
@[simp] theorem State.refuseRegWrite_downlink (off : Nat) (r : Reason) : (s.refuseRegWrite off r).downlink = s.downlink := by simp [State.refuseRegWrite]
@[simp] theorem State.refuseRegWrite_composer (off : Nat) (r : Reason) : (s.refuseRegWrite off r).composer = s.composer := by simp [State.refuseRegWrite]
@[simp] theorem State.refuseRegWrite_commit (off : Nat) (r : Reason) : (s.refuseRegWrite off r).commit = s.commit := by simp [State.refuseRegWrite]
@[simp] theorem State.refuseRegWrite_time (off : Nat) (r : Reason) : (s.refuseRegWrite off r).time = s.time := by simp [State.refuseRegWrite]
@[simp] theorem State.refuseRegWrite_window (off : Nat) (r : Reason) : (s.refuseRegWrite off r).window = s.window := by simp [State.refuseRegWrite]

@[simp] theorem State.latchEpisode_pending : (s.latchEpisode).pending = s.pending := rfl
@[simp] theorem State.latchEpisode_resetAsserted : (s.latchEpisode).resetAsserted = s.resetAsserted := rfl
@[simp] theorem State.latchEpisode_buffer : (s.latchEpisode).buffer = s.buffer := rfl
@[simp] theorem State.latchEpisode_port : (s.latchEpisode).port = s.port := rfl
@[simp] theorem State.latchEpisode_sources : (s.latchEpisode).sources = s.sources := rfl
@[simp] theorem State.latchEpisode_refill : (s.latchEpisode).refill = s.refill := rfl
@[simp] theorem State.latchEpisode_downlink : (s.latchEpisode).downlink = s.downlink := rfl
@[simp] theorem State.latchEpisode_commit : (s.latchEpisode).commit = s.commit := rfl
@[simp] theorem State.latchEpisode_time : (s.latchEpisode).time = s.time := rfl
@[simp] theorem State.latchEpisode_window : (s.latchEpisode).window = s.window := rfl
@[simp] theorem State.latchEpisode_irq : (s.latchEpisode).irq = s.irq := rfl

@[simp] theorem State.refuseAppend_pending (r : Reason) : (s.refuseAppend r).pending = s.pending := by simp [State.refuseAppend]
@[simp] theorem State.refuseAppend_resetAsserted (r : Reason) : (s.refuseAppend r).resetAsserted = s.resetAsserted := by simp [State.refuseAppend]
@[simp] theorem State.refuseAppend_buffer (r : Reason) : (s.refuseAppend r).buffer = s.buffer := by simp [State.refuseAppend]
@[simp] theorem State.refuseAppend_port (r : Reason) : (s.refuseAppend r).port = s.port := by simp [State.refuseAppend]
@[simp] theorem State.refuseAppend_sources (r : Reason) : (s.refuseAppend r).sources = s.sources := by simp [State.refuseAppend]
@[simp] theorem State.refuseAppend_refill (r : Reason) : (s.refuseAppend r).refill = s.refill := by simp [State.refuseAppend]
@[simp] theorem State.refuseAppend_downlink (r : Reason) : (s.refuseAppend r).downlink = s.downlink := by simp [State.refuseAppend]
@[simp] theorem State.refuseAppend_composer (r : Reason) : (s.refuseAppend r).composer = s.composer := by simp [State.refuseAppend]
@[simp] theorem State.refuseAppend_commit (r : Reason) : (s.refuseAppend r).commit = s.commit := by simp [State.refuseAppend]
@[simp] theorem State.refuseAppend_time (r : Reason) : (s.refuseAppend r).time = s.time := by simp [State.refuseAppend]
@[simp] theorem State.refuseAppend_window (r : Reason) : (s.refuseAppend r).window = s.window := by simp [State.refuseAppend]

@[simp] theorem State.appendTo_pending (i : SourceId) (w : Word) : (s.appendTo i w).pending = s.pending := by unfold State.appendTo; dsimp only; split <;> (try split) <;> simp
@[simp] theorem State.appendTo_resetAsserted (i : SourceId) (w : Word) : (s.appendTo i w).resetAsserted = s.resetAsserted := by unfold State.appendTo; dsimp only; split <;> (try split) <;> simp
@[simp] theorem State.appendTo_port (i : SourceId) (w : Word) : (s.appendTo i w).port = s.port := by unfold State.appendTo; dsimp only; split <;> (try split) <;> simp
@[simp] theorem State.appendTo_refill (i : SourceId) (w : Word) : (s.appendTo i w).refill = s.refill := by unfold State.appendTo; dsimp only; split <;> (try split) <;> simp
@[simp] theorem State.appendTo_downlink (i : SourceId) (w : Word) : (s.appendTo i w).downlink = s.downlink := by unfold State.appendTo; dsimp only; split <;> (try split) <;> simp
@[simp] theorem State.appendTo_composer (i : SourceId) (w : Word) : (s.appendTo i w).composer = s.composer := by unfold State.appendTo; dsimp only; split <;> (try split) <;> simp
@[simp] theorem State.appendTo_commit (i : SourceId) (w : Word) : (s.appendTo i w).commit = s.commit := by unfold State.appendTo; dsimp only; split <;> (try split) <;> simp
@[simp] theorem State.appendTo_time (i : SourceId) (w : Word) : (s.appendTo i w).time = s.time := by unfold State.appendTo; dsimp only; split <;> (try split) <;> simp
@[simp] theorem State.appendTo_window (i : SourceId) (w : Word) : (s.appendTo i w).window = s.window := by unfold State.appendTo; dsimp only; split <;> (try split) <;> simp

@[simp] theorem State.append_pending (w : Word) : (s.append w).pending = s.pending := by unfold State.append; split <;> simp
@[simp] theorem State.append_resetAsserted (w : Word) : (s.append w).resetAsserted = s.resetAsserted := by unfold State.append; split <;> simp
@[simp] theorem State.append_port (w : Word) : (s.append w).port = s.port := by unfold State.append; split <;> simp
@[simp] theorem State.append_refill (w : Word) : (s.append w).refill = s.refill := by unfold State.append; split <;> simp
@[simp] theorem State.append_downlink (w : Word) : (s.append w).downlink = s.downlink := by unfold State.append; split <;> simp
@[simp] theorem State.append_composer (w : Word) : (s.append w).composer = s.composer := by unfold State.append; split <;> simp
@[simp] theorem State.append_commit (w : Word) : (s.append w).commit = s.commit := by unfold State.append; split <;> simp
@[simp] theorem State.append_time (w : Word) : (s.append w).time = s.time := by unfold State.append; split <;> simp
@[simp] theorem State.append_window (w : Word) : (s.append w).window = s.window := by unfold State.append; split <;> simp

@[simp] theorem State.appendSrcWrite_pending (w : Word) : (s.appendSrcWrite w).pending = s.pending := rfl
@[simp] theorem State.appendSrcWrite_resetAsserted (w : Word) : (s.appendSrcWrite w).resetAsserted = s.resetAsserted := rfl
@[simp] theorem State.appendSrcWrite_buffer (w : Word) : (s.appendSrcWrite w).buffer = s.buffer := rfl
@[simp] theorem State.appendSrcWrite_port (w : Word) : (s.appendSrcWrite w).port = s.port := rfl
@[simp] theorem State.appendSrcWrite_refill (w : Word) : (s.appendSrcWrite w).refill = s.refill := rfl
@[simp] theorem State.appendSrcWrite_downlink (w : Word) : (s.appendSrcWrite w).downlink = s.downlink := rfl
@[simp] theorem State.appendSrcWrite_composer (w : Word) : (s.appendSrcWrite w).composer = s.composer := rfl
@[simp] theorem State.appendSrcWrite_commit (w : Word) : (s.appendSrcWrite w).commit = s.commit := rfl
@[simp] theorem State.appendSrcWrite_time (w : Word) : (s.appendSrcWrite w).time = s.time := rfl
@[simp] theorem State.appendSrcWrite_window (w : Word) : (s.appendSrcWrite w).window = s.window := rfl
@[simp] theorem State.appendSrcWrite_irq (w : Word) : (s.appendSrcWrite w).irq = s.irq := rfl

@[simp] theorem State.commandResult_pending (c : BitVec 4) (n : BitVec 8) (r : CmdResult) : (s.commandResult c n r).pending = s.pending := rfl
@[simp] theorem State.commandResult_resetAsserted (c : BitVec 4) (n : BitVec 8) (r : CmdResult) : (s.commandResult c n r).resetAsserted = s.resetAsserted := rfl
@[simp] theorem State.commandResult_buffer (c : BitVec 4) (n : BitVec 8) (r : CmdResult) : (s.commandResult c n r).buffer = s.buffer := rfl
@[simp] theorem State.commandResult_port (c : BitVec 4) (n : BitVec 8) (r : CmdResult) : (s.commandResult c n r).port = s.port := rfl
@[simp] theorem State.commandResult_refill (c : BitVec 4) (n : BitVec 8) (r : CmdResult) : (s.commandResult c n r).refill = s.refill := rfl
@[simp] theorem State.commandResult_downlink (c : BitVec 4) (n : BitVec 8) (r : CmdResult) : (s.commandResult c n r).downlink = s.downlink := rfl
@[simp] theorem State.commandResult_composer (c : BitVec 4) (n : BitVec 8) (r : CmdResult) : (s.commandResult c n r).composer = s.composer := rfl
@[simp] theorem State.commandResult_commit (c : BitVec 4) (n : BitVec 8) (r : CmdResult) : (s.commandResult c n r).commit = s.commit := rfl
@[simp] theorem State.commandResult_time (c : BitVec 4) (n : BitVec 8) (r : CmdResult) : (s.commandResult c n r).time = s.time := rfl
@[simp] theorem State.commandResult_window (c : BitVec 4) (n : BitVec 8) (r : CmdResult) : (s.commandResult c n r).window = s.window := rfl
@[simp] theorem State.commandResult_irq (c : BitVec 4) (n : BitVec 8) (r : CmdResult) : (s.commandResult c n r).irq = s.irq := rfl

@[simp] theorem State.refuseCommand_pending (c : BitVec 4) (n : BitVec 8) (r : Reason) : (s.refuseCommand c n r).pending = s.pending := by simp [State.refuseCommand]
@[simp] theorem State.refuseCommand_resetAsserted (c : BitVec 4) (n : BitVec 8) (r : Reason) : (s.refuseCommand c n r).resetAsserted = s.resetAsserted := by simp [State.refuseCommand]
@[simp] theorem State.refuseCommand_buffer (c : BitVec 4) (n : BitVec 8) (r : Reason) : (s.refuseCommand c n r).buffer = s.buffer := by simp [State.refuseCommand]
@[simp] theorem State.refuseCommand_port (c : BitVec 4) (n : BitVec 8) (r : Reason) : (s.refuseCommand c n r).port = s.port := by simp [State.refuseCommand]
@[simp] theorem State.refuseCommand_refill (c : BitVec 4) (n : BitVec 8) (r : Reason) : (s.refuseCommand c n r).refill = s.refill := by simp [State.refuseCommand]
@[simp] theorem State.refuseCommand_downlink (c : BitVec 4) (n : BitVec 8) (r : Reason) : (s.refuseCommand c n r).downlink = s.downlink := by simp [State.refuseCommand]
@[simp] theorem State.refuseCommand_composer (c : BitVec 4) (n : BitVec 8) (r : Reason) : (s.refuseCommand c n r).composer = s.composer := by simp [State.refuseCommand]
@[simp] theorem State.refuseCommand_commit (c : BitVec 4) (n : BitVec 8) (r : Reason) : (s.refuseCommand c n r).commit = s.commit := by simp [State.refuseCommand]
@[simp] theorem State.refuseCommand_time (c : BitVec 4) (n : BitVec 8) (r : Reason) : (s.refuseCommand c n r).time = s.time := by simp [State.refuseCommand]
@[simp] theorem State.refuseCommand_window (c : BitVec 4) (n : BitVec 8) (r : Reason) : (s.refuseCommand c n r).window = s.window := by simp [State.refuseCommand]

@[simp] theorem State.swap_pending : (s.swap).pending = s.pending := rfl
@[simp] theorem State.swap_resetAsserted : (s.swap).resetAsserted = s.resetAsserted := rfl
@[simp] theorem State.swap_buffer : (s.swap).buffer = s.buffer := rfl
@[simp] theorem State.swap_port : (s.swap).port = s.port := rfl
@[simp] theorem State.swap_sources : (s.swap).sources = s.sources := rfl
@[simp] theorem State.swap_refill : (s.swap).refill = s.refill := rfl
@[simp] theorem State.swap_downlink : (s.swap).downlink = s.downlink := rfl
@[simp] theorem State.swap_composer : (s.swap).composer = s.composer := rfl
@[simp] theorem State.swap_time : (s.swap).time = s.time := rfl
@[simp] theorem State.swap_window : (s.swap).window = s.window := rfl
@[simp] theorem State.swap_irq : (s.swap).irq = s.irq := rfl

@[simp] theorem State.swapIfPending_pending : (s.swapIfPending).pending = s.pending := by unfold State.swapIfPending; split <;> rfl
@[simp] theorem State.swapIfPending_resetAsserted : (s.swapIfPending).resetAsserted = s.resetAsserted := by unfold State.swapIfPending; split <;> rfl
@[simp] theorem State.swapIfPending_buffer : (s.swapIfPending).buffer = s.buffer := by unfold State.swapIfPending; split <;> rfl
@[simp] theorem State.swapIfPending_port : (s.swapIfPending).port = s.port := by unfold State.swapIfPending; split <;> rfl
@[simp] theorem State.swapIfPending_sources : (s.swapIfPending).sources = s.sources := by unfold State.swapIfPending; split <;> rfl
@[simp] theorem State.swapIfPending_refill : (s.swapIfPending).refill = s.refill := by unfold State.swapIfPending; split <;> rfl
@[simp] theorem State.swapIfPending_downlink : (s.swapIfPending).downlink = s.downlink := by unfold State.swapIfPending; split <;> rfl
@[simp] theorem State.swapIfPending_composer : (s.swapIfPending).composer = s.composer := by unfold State.swapIfPending; split <;> rfl
@[simp] theorem State.swapIfPending_time : (s.swapIfPending).time = s.time := by unfold State.swapIfPending; split <;> rfl
@[simp] theorem State.swapIfPending_window : (s.swapIfPending).window = s.window := by unfold State.swapIfPending; split <;> rfl
@[simp] theorem State.swapIfPending_irq : (s.swapIfPending).irq = s.irq := by unfold State.swapIfPending; split <;> rfl

@[simp] theorem State.refuseCommit_pending (w : Word) (q : CommitReq) : (s.refuseCommit w q).pending = s.pending := by simp [State.refuseCommit]
@[simp] theorem State.refuseCommit_resetAsserted (w : Word) (q : CommitReq) : (s.refuseCommit w q).resetAsserted = s.resetAsserted := by simp [State.refuseCommit]
@[simp] theorem State.refuseCommit_buffer (w : Word) (q : CommitReq) : (s.refuseCommit w q).buffer = s.buffer := by simp [State.refuseCommit]
@[simp] theorem State.refuseCommit_port (w : Word) (q : CommitReq) : (s.refuseCommit w q).port = s.port := by simp [State.refuseCommit]
@[simp] theorem State.refuseCommit_sources (w : Word) (q : CommitReq) : (s.refuseCommit w q).sources = s.sources := by simp [State.refuseCommit]
@[simp] theorem State.refuseCommit_refill (w : Word) (q : CommitReq) : (s.refuseCommit w q).refill = s.refill := by simp [State.refuseCommit]
@[simp] theorem State.refuseCommit_downlink (w : Word) (q : CommitReq) : (s.refuseCommit w q).downlink = s.downlink := by simp [State.refuseCommit]
@[simp] theorem State.refuseCommit_composer (w : Word) (q : CommitReq) : (s.refuseCommit w q).composer = s.composer := by simp [State.refuseCommit]
@[simp] theorem State.refuseCommit_time (w : Word) (q : CommitReq) : (s.refuseCommit w q).time = s.time := by simp [State.refuseCommit]
@[simp] theorem State.refuseCommit_window (w : Word) (q : CommitReq) : (s.refuseCommit w q).window = s.window := by simp [State.refuseCommit]

@[simp] theorem State.commitRequest_pending : (s.commitRequest).pending = s.pending := by unfold State.commitRequest; split <;> simp
@[simp] theorem State.commitRequest_resetAsserted : (s.commitRequest).resetAsserted = s.resetAsserted := by unfold State.commitRequest; split <;> simp
@[simp] theorem State.commitRequest_buffer : (s.commitRequest).buffer = s.buffer := by unfold State.commitRequest; split <;> simp
@[simp] theorem State.commitRequest_port : (s.commitRequest).port = s.port := by unfold State.commitRequest; split <;> simp
@[simp] theorem State.commitRequest_sources : (s.commitRequest).sources = s.sources := by unfold State.commitRequest; split <;> simp
@[simp] theorem State.commitRequest_refill : (s.commitRequest).refill = s.refill := by unfold State.commitRequest; split <;> simp
@[simp] theorem State.commitRequest_downlink : (s.commitRequest).downlink = s.downlink := by unfold State.commitRequest; split <;> simp
@[simp] theorem State.commitRequest_composer : (s.commitRequest).composer = s.composer := by unfold State.commitRequest; split <;> simp
@[simp] theorem State.commitRequest_time : (s.commitRequest).time = s.time := by unfold State.commitRequest; split <;> simp
@[simp] theorem State.commitRequest_window : (s.commitRequest).window = s.window := by unfold State.commitRequest; split <;> simp

@[simp] theorem State.cancelRequest_pending : (s.cancelRequest).pending = s.pending := by unfold State.cancelRequest; split <;> simp
@[simp] theorem State.cancelRequest_resetAsserted : (s.cancelRequest).resetAsserted = s.resetAsserted := by unfold State.cancelRequest; split <;> simp
@[simp] theorem State.cancelRequest_buffer : (s.cancelRequest).buffer = s.buffer := by unfold State.cancelRequest; split <;> simp
@[simp] theorem State.cancelRequest_port : (s.cancelRequest).port = s.port := by unfold State.cancelRequest; split <;> simp
@[simp] theorem State.cancelRequest_sources : (s.cancelRequest).sources = s.sources := by unfold State.cancelRequest; split <;> simp
@[simp] theorem State.cancelRequest_refill : (s.cancelRequest).refill = s.refill := by unfold State.cancelRequest; split <;> simp
@[simp] theorem State.cancelRequest_downlink : (s.cancelRequest).downlink = s.downlink := by unfold State.cancelRequest; split <;> simp
@[simp] theorem State.cancelRequest_composer : (s.cancelRequest).composer = s.composer := by unfold State.cancelRequest; split <;> simp
@[simp] theorem State.cancelRequest_time : (s.cancelRequest).time = s.time := by unfold State.cancelRequest; split <;> simp
@[simp] theorem State.cancelRequest_window : (s.cancelRequest).window = s.window := by unfold State.cancelRequest; split <;> simp

@[simp] theorem State.commitCtrlWrite_pending (w : Word) : (s.commitCtrlWrite w).pending = s.pending := by unfold State.commitCtrlWrite; split <;> (try split) <;> simp
@[simp] theorem State.commitCtrlWrite_resetAsserted (w : Word) : (s.commitCtrlWrite w).resetAsserted = s.resetAsserted := by unfold State.commitCtrlWrite; split <;> (try split) <;> simp
@[simp] theorem State.commitCtrlWrite_buffer (w : Word) : (s.commitCtrlWrite w).buffer = s.buffer := by unfold State.commitCtrlWrite; split <;> (try split) <;> simp
@[simp] theorem State.commitCtrlWrite_port (w : Word) : (s.commitCtrlWrite w).port = s.port := by unfold State.commitCtrlWrite; split <;> (try split) <;> simp
@[simp] theorem State.commitCtrlWrite_sources (w : Word) : (s.commitCtrlWrite w).sources = s.sources := by unfold State.commitCtrlWrite; split <;> (try split) <;> simp
@[simp] theorem State.commitCtrlWrite_refill (w : Word) : (s.commitCtrlWrite w).refill = s.refill := by unfold State.commitCtrlWrite; split <;> (try split) <;> simp
@[simp] theorem State.commitCtrlWrite_downlink (w : Word) : (s.commitCtrlWrite w).downlink = s.downlink := by unfold State.commitCtrlWrite; split <;> (try split) <;> simp
@[simp] theorem State.commitCtrlWrite_composer (w : Word) : (s.commitCtrlWrite w).composer = s.composer := by unfold State.commitCtrlWrite; split <;> (try split) <;> simp
@[simp] theorem State.commitCtrlWrite_time (w : Word) : (s.commitCtrlWrite w).time = s.time := by unfold State.commitCtrlWrite; split <;> (try split) <;> simp
@[simp] theorem State.commitCtrlWrite_window (w : Word) : (s.commitCtrlWrite w).window = s.window := by unfold State.commitCtrlWrite; split <;> (try split) <;> simp

@[simp] theorem State.validationEnd_pending : (s.validationEnd).pending = s.pending := by unfold State.validationEnd; split <;> (try split) <;> (try split) <;> simp
@[simp] theorem State.validationEnd_resetAsserted : (s.validationEnd).resetAsserted = s.resetAsserted := by unfold State.validationEnd; split <;> (try split) <;> (try split) <;> simp
@[simp] theorem State.validationEnd_buffer : (s.validationEnd).buffer = s.buffer := by unfold State.validationEnd; split <;> (try split) <;> (try split) <;> simp
@[simp] theorem State.validationEnd_port : (s.validationEnd).port = s.port := by unfold State.validationEnd; split <;> (try split) <;> (try split) <;> simp
@[simp] theorem State.validationEnd_sources : (s.validationEnd).sources = s.sources := by unfold State.validationEnd; split <;> (try split) <;> (try split) <;> simp
@[simp] theorem State.validationEnd_refill : (s.validationEnd).refill = s.refill := by unfold State.validationEnd; split <;> (try split) <;> (try split) <;> simp
@[simp] theorem State.validationEnd_downlink : (s.validationEnd).downlink = s.downlink := by unfold State.validationEnd; split <;> (try split) <;> (try split) <;> simp
@[simp] theorem State.validationEnd_composer : (s.validationEnd).composer = s.composer := by unfold State.validationEnd; split <;> (try split) <;> (try split) <;> simp
@[simp] theorem State.validationEnd_time : (s.validationEnd).time = s.time := by unfold State.validationEnd; split <;> (try split) <;> (try split) <;> simp
@[simp] theorem State.validationEnd_window : (s.validationEnd).window = s.window := by unfold State.validationEnd; split <;> (try split) <;> (try split) <;> simp

@[simp] theorem State.copyBack_pending : (s.copyBack).pending = s.pending := rfl
@[simp] theorem State.copyBack_resetAsserted : (s.copyBack).resetAsserted = s.resetAsserted := rfl
@[simp] theorem State.copyBack_buffer : (s.copyBack).buffer = s.buffer := rfl
@[simp] theorem State.copyBack_port : (s.copyBack).port = s.port := rfl
@[simp] theorem State.copyBack_sources : (s.copyBack).sources = s.sources := rfl
@[simp] theorem State.copyBack_refill : (s.copyBack).refill = s.refill := rfl
@[simp] theorem State.copyBack_downlink : (s.copyBack).downlink = s.downlink := rfl
@[simp] theorem State.copyBack_composer : (s.copyBack).composer = s.composer := rfl
@[simp] theorem State.copyBack_time : (s.copyBack).time = s.time := rfl
@[simp] theorem State.copyBack_window : (s.copyBack).window = s.window := rfl

@[simp] theorem State.setLookahead_pending (v : Word) (d f : Bool) : (s.setLookahead v d f).pending = s.pending := rfl
@[simp] theorem State.setLookahead_resetAsserted (v : Word) (d f : Bool) : (s.setLookahead v d f).resetAsserted = s.resetAsserted := rfl
@[simp] theorem State.setLookahead_buffer (v : Word) (d f : Bool) : (s.setLookahead v d f).buffer = s.buffer := rfl
@[simp] theorem State.setLookahead_port (v : Word) (d f : Bool) : (s.setLookahead v d f).port = s.port := rfl
@[simp] theorem State.setLookahead_sources (v : Word) (d f : Bool) : (s.setLookahead v d f).sources = s.sources := rfl
@[simp] theorem State.setLookahead_refill (v : Word) (d f : Bool) : (s.setLookahead v d f).refill = s.refill := rfl
@[simp] theorem State.setLookahead_downlink (v : Word) (d f : Bool) : (s.setLookahead v d f).downlink = s.downlink := rfl
@[simp] theorem State.setLookahead_commit (v : Word) (d f : Bool) : (s.setLookahead v d f).commit = s.commit := rfl
@[simp] theorem State.setLookahead_time (v : Word) (d f : Bool) : (s.setLookahead v d f).time = s.time := rfl
@[simp] theorem State.setLookahead_window (v : Word) (d f : Bool) : (s.setLookahead v d f).window = s.window := rfl
@[simp] theorem State.setLookahead_irq (v : Word) (d f : Bool) : (s.setLookahead v d f).irq = s.irq := rfl

@[simp] theorem State.openCell_pending (m c : Nat) : (s.openCell m c).pending = s.pending := by unfold State.openCell; dsimp only; split <;> (try split) <;> rfl
@[simp] theorem State.openCell_resetAsserted (m c : Nat) : (s.openCell m c).resetAsserted = s.resetAsserted := by unfold State.openCell; dsimp only; split <;> (try split) <;> rfl
@[simp] theorem State.openCell_buffer (m c : Nat) : (s.openCell m c).buffer = s.buffer := by unfold State.openCell; dsimp only; split <;> (try split) <;> rfl
@[simp] theorem State.openCell_port (m c : Nat) : (s.openCell m c).port = s.port := by unfold State.openCell; dsimp only; split <;> (try split) <;> rfl
@[simp] theorem State.openCell_sources (m c : Nat) : (s.openCell m c).sources = s.sources := by unfold State.openCell; dsimp only; split <;> (try split) <;> rfl
@[simp] theorem State.openCell_refill (m c : Nat) : (s.openCell m c).refill = s.refill := by unfold State.openCell; dsimp only; split <;> (try split) <;> rfl
@[simp] theorem State.openCell_downlink (m c : Nat) : (s.openCell m c).downlink = s.downlink := by unfold State.openCell; dsimp only; split <;> (try split) <;> rfl
@[simp] theorem State.openCell_time (m c : Nat) : (s.openCell m c).time = s.time := by unfold State.openCell; dsimp only; split <;> (try split) <;> rfl
@[simp] theorem State.openCell_window (m c : Nat) : (s.openCell m c).window = s.window := by unfold State.openCell; dsimp only; split <;> (try split) <;> rfl
@[simp] theorem State.openCell_irq (m c : Nat) : (s.openCell m c).irq = s.irq := by unfold State.openCell; dsimp only; split <;> (try split) <;> rfl

@[simp] theorem State.refuseRun_pending (w : Word) : (s.refuseRun w).pending = s.pending := by simp [State.refuseRun]
@[simp] theorem State.refuseRun_resetAsserted (w : Word) : (s.refuseRun w).resetAsserted = s.resetAsserted := by simp [State.refuseRun]
@[simp] theorem State.refuseRun_buffer (w : Word) : (s.refuseRun w).buffer = s.buffer := by simp [State.refuseRun]
@[simp] theorem State.refuseRun_port (w : Word) : (s.refuseRun w).port = s.port := by simp [State.refuseRun]
@[simp] theorem State.refuseRun_sources (w : Word) : (s.refuseRun w).sources = s.sources := by simp [State.refuseRun]
@[simp] theorem State.refuseRun_refill (w : Word) : (s.refuseRun w).refill = s.refill := by simp [State.refuseRun]
@[simp] theorem State.refuseRun_downlink (w : Word) : (s.refuseRun w).downlink = s.downlink := by simp [State.refuseRun]
@[simp] theorem State.refuseRun_composer (w : Word) : (s.refuseRun w).composer = s.composer := by simp [State.refuseRun]
@[simp] theorem State.refuseRun_commit (w : Word) : (s.refuseRun w).commit = s.commit := by simp [State.refuseRun]
@[simp] theorem State.refuseRun_time (w : Word) : (s.refuseRun w).time = s.time := by simp [State.refuseRun]
@[simp] theorem State.refuseRun_window (w : Word) : (s.refuseRun w).window = s.window := by simp [State.refuseRun]

@[simp] theorem State.leaveRun_pending (l : LinkState) : (s.leaveRun l).pending = s.pending := by simp [State.leaveRun]
@[simp] theorem State.leaveRun_resetAsserted (l : LinkState) : (s.leaveRun l).resetAsserted = s.resetAsserted := by simp [State.leaveRun]
@[simp] theorem State.leaveRun_buffer (l : LinkState) : (s.leaveRun l).buffer = s.buffer := by simp [State.leaveRun]
@[simp] theorem State.leaveRun_port (l : LinkState) : (s.leaveRun l).port = s.port := by simp [State.leaveRun]
@[simp] theorem State.leaveRun_sources (l : LinkState) : (s.leaveRun l).sources = s.sources := by simp [State.leaveRun]
@[simp] theorem State.leaveRun_refill (l : LinkState) : (s.leaveRun l).refill = s.refill := by simp [State.leaveRun]
@[simp] theorem State.leaveRun_time (l : LinkState) : (s.leaveRun l).time = s.time := by simp [State.leaveRun]
@[simp] theorem State.leaveRun_window (l : LinkState) : (s.leaveRun l).window = s.window := by simp [State.leaveRun]
@[simp] theorem State.leaveRun_irq (l : LinkState) : (s.leaveRun l).irq = s.irq := by simp [State.leaveRun]

@[simp] theorem State.cutRun_pending (l : LinkState) : (s.cutRun l).pending = s.pending := by simp [State.cutRun]
@[simp] theorem State.cutRun_resetAsserted (l : LinkState) : (s.cutRun l).resetAsserted = s.resetAsserted := by simp [State.cutRun]
@[simp] theorem State.cutRun_buffer (l : LinkState) : (s.cutRun l).buffer = s.buffer := by simp [State.cutRun]
@[simp] theorem State.cutRun_port (l : LinkState) : (s.cutRun l).port = s.port := by simp [State.cutRun]
@[simp] theorem State.cutRun_sources (l : LinkState) : (s.cutRun l).sources = s.sources := by simp [State.cutRun]
@[simp] theorem State.cutRun_refill (l : LinkState) : (s.cutRun l).refill = s.refill := by simp [State.cutRun]
@[simp] theorem State.cutRun_time (l : LinkState) : (s.cutRun l).time = s.time := by simp [State.cutRun]
@[simp] theorem State.cutRun_window (l : LinkState) : (s.cutRun l).window = s.window := by simp [State.cutRun]
@[simp] theorem State.cutRun_irq (l : LinkState) : (s.cutRun l).irq = s.irq := by simp [State.cutRun]

@[simp] theorem State.disarm_pending : (s.disarm).pending = s.pending := rfl
@[simp] theorem State.disarm_resetAsserted : (s.disarm).resetAsserted = s.resetAsserted := rfl
@[simp] theorem State.disarm_buffer : (s.disarm).buffer = s.buffer := rfl
@[simp] theorem State.disarm_port : (s.disarm).port = s.port := rfl
@[simp] theorem State.disarm_sources : (s.disarm).sources = s.sources := rfl
@[simp] theorem State.disarm_refill : (s.disarm).refill = s.refill := rfl
@[simp] theorem State.disarm_composer : (s.disarm).composer = s.composer := rfl
@[simp] theorem State.disarm_commit : (s.disarm).commit = s.commit := rfl
@[simp] theorem State.disarm_time : (s.disarm).time = s.time := rfl
@[simp] theorem State.disarm_window : (s.disarm).window = s.window := rfl

@[simp] theorem State.stopAt_pending (t : StopTarget) : (s.stopAt t).pending = s.pending := rfl
@[simp] theorem State.stopAt_resetAsserted (t : StopTarget) : (s.stopAt t).resetAsserted = s.resetAsserted := rfl
@[simp] theorem State.stopAt_buffer (t : StopTarget) : (s.stopAt t).buffer = s.buffer := rfl
@[simp] theorem State.stopAt_port (t : StopTarget) : (s.stopAt t).port = s.port := rfl
@[simp] theorem State.stopAt_sources (t : StopTarget) : (s.stopAt t).sources = s.sources := rfl
@[simp] theorem State.stopAt_refill (t : StopTarget) : (s.stopAt t).refill = s.refill := rfl
@[simp] theorem State.stopAt_composer (t : StopTarget) : (s.stopAt t).composer = s.composer := rfl
@[simp] theorem State.stopAt_commit (t : StopTarget) : (s.stopAt t).commit = s.commit := rfl
@[simp] theorem State.stopAt_time (t : StopTarget) : (s.stopAt t).time = s.time := rfl
@[simp] theorem State.stopAt_window (t : StopTarget) : (s.stopAt t).window = s.window := rfl
@[simp] theorem State.stopAt_irq (t : StopTarget) : (s.stopAt t).irq = s.irq := rfl

@[simp] theorem State.stopEndMinor_pending : (s.stopEndMinor).pending = s.pending := by unfold State.stopEndMinor; dsimp only; split <;> (try split) <;> simp
@[simp] theorem State.stopEndMinor_resetAsserted : (s.stopEndMinor).resetAsserted = s.resetAsserted := by unfold State.stopEndMinor; dsimp only; split <;> (try split) <;> simp
@[simp] theorem State.stopEndMinor_buffer : (s.stopEndMinor).buffer = s.buffer := by unfold State.stopEndMinor; dsimp only; split <;> (try split) <;> simp
@[simp] theorem State.stopEndMinor_port : (s.stopEndMinor).port = s.port := by unfold State.stopEndMinor; dsimp only; split <;> (try split) <;> simp
@[simp] theorem State.stopEndMinor_sources : (s.stopEndMinor).sources = s.sources := by unfold State.stopEndMinor; dsimp only; split <;> (try split) <;> simp
@[simp] theorem State.stopEndMinor_refill : (s.stopEndMinor).refill = s.refill := by unfold State.stopEndMinor; dsimp only; split <;> (try split) <;> simp
@[simp] theorem State.stopEndMinor_composer : (s.stopEndMinor).composer = s.composer := by unfold State.stopEndMinor; dsimp only; split <;> (try split) <;> simp
@[simp] theorem State.stopEndMinor_commit : (s.stopEndMinor).commit = s.commit := by unfold State.stopEndMinor; dsimp only; split <;> (try split) <;> simp
@[simp] theorem State.stopEndMinor_time : (s.stopEndMinor).time = s.time := by unfold State.stopEndMinor; dsimp only; split <;> (try split) <;> simp
@[simp] theorem State.stopEndMinor_window : (s.stopEndMinor).window = s.window := by unfold State.stopEndMinor; dsimp only; split <;> (try split) <;> simp

@[simp] theorem State.stopEndMajor_pending : (s.stopEndMajor).pending = s.pending := by unfold State.stopEndMajor; split <;> simp
@[simp] theorem State.stopEndMajor_resetAsserted : (s.stopEndMajor).resetAsserted = s.resetAsserted := by unfold State.stopEndMajor; split <;> simp
@[simp] theorem State.stopEndMajor_buffer : (s.stopEndMajor).buffer = s.buffer := by unfold State.stopEndMajor; split <;> simp
@[simp] theorem State.stopEndMajor_port : (s.stopEndMajor).port = s.port := by unfold State.stopEndMajor; split <;> simp
@[simp] theorem State.stopEndMajor_sources : (s.stopEndMajor).sources = s.sources := by unfold State.stopEndMajor; split <;> simp
@[simp] theorem State.stopEndMajor_refill : (s.stopEndMajor).refill = s.refill := by unfold State.stopEndMajor; split <;> simp
@[simp] theorem State.stopEndMajor_composer : (s.stopEndMajor).composer = s.composer := by unfold State.stopEndMajor; split <;> simp
@[simp] theorem State.stopEndMajor_commit : (s.stopEndMajor).commit = s.commit := by unfold State.stopEndMajor; split <;> simp
@[simp] theorem State.stopEndMajor_time : (s.stopEndMajor).time = s.time := by unfold State.stopEndMajor; split <;> simp
@[simp] theorem State.stopEndMajor_window : (s.stopEndMajor).window = s.window := by unfold State.stopEndMajor; split <;> simp

@[simp] theorem State.abort_pending : (s.abort).pending = s.pending := by unfold State.abort; split <;> simp
@[simp] theorem State.abort_resetAsserted : (s.abort).resetAsserted = s.resetAsserted := by unfold State.abort; split <;> simp
@[simp] theorem State.abort_buffer : (s.abort).buffer = s.buffer := by unfold State.abort; split <;> simp
@[simp] theorem State.abort_port : (s.abort).port = s.port := by unfold State.abort; split <;> simp
@[simp] theorem State.abort_sources : (s.abort).sources = s.sources := by unfold State.abort; split <;> simp
@[simp] theorem State.abort_refill : (s.abort).refill = s.refill := by unfold State.abort; split <;> simp
@[simp] theorem State.abort_time : (s.abort).time = s.time := by unfold State.abort; split <;> simp
@[simp] theorem State.abort_window : (s.abort).window = s.window := by unfold State.abort; split <;> simp

@[simp] theorem State.clearHalt_pending : (s.clearHalt).pending = s.pending := by unfold State.clearHalt; split <;> rfl
@[simp] theorem State.clearHalt_resetAsserted : (s.clearHalt).resetAsserted = s.resetAsserted := by unfold State.clearHalt; split <;> rfl
@[simp] theorem State.clearHalt_buffer : (s.clearHalt).buffer = s.buffer := by unfold State.clearHalt; split <;> rfl
@[simp] theorem State.clearHalt_port : (s.clearHalt).port = s.port := by unfold State.clearHalt; split <;> rfl
@[simp] theorem State.clearHalt_sources : (s.clearHalt).sources = s.sources := by unfold State.clearHalt; split <;> rfl
@[simp] theorem State.clearHalt_refill : (s.clearHalt).refill = s.refill := by unfold State.clearHalt; split <;> rfl
@[simp] theorem State.clearHalt_composer : (s.clearHalt).composer = s.composer := by unfold State.clearHalt; split <;> rfl
@[simp] theorem State.clearHalt_commit : (s.clearHalt).commit = s.commit := by unfold State.clearHalt; split <;> rfl
@[simp] theorem State.clearHalt_time : (s.clearHalt).time = s.time := by unfold State.clearHalt; split <;> rfl
@[simp] theorem State.clearHalt_window : (s.clearHalt).window = s.window := by unfold State.clearHalt; split <;> rfl
@[simp] theorem State.clearHalt_irq : (s.clearHalt).irq = s.irq := by unfold State.clearHalt; split <;> rfl

@[simp] theorem State.clockLossExpiry_pending : (s.clockLossExpiry).pending = s.pending := by unfold State.clockLossExpiry; split <;> simp
@[simp] theorem State.clockLossExpiry_resetAsserted : (s.clockLossExpiry).resetAsserted = s.resetAsserted := by unfold State.clockLossExpiry; split <;> simp
@[simp] theorem State.clockLossExpiry_buffer : (s.clockLossExpiry).buffer = s.buffer := by unfold State.clockLossExpiry; split <;> simp
@[simp] theorem State.clockLossExpiry_port : (s.clockLossExpiry).port = s.port := by unfold State.clockLossExpiry; split <;> simp
@[simp] theorem State.clockLossExpiry_sources : (s.clockLossExpiry).sources = s.sources := by unfold State.clockLossExpiry; split <;> simp
@[simp] theorem State.clockLossExpiry_refill : (s.clockLossExpiry).refill = s.refill := by unfold State.clockLossExpiry; split <;> simp
@[simp] theorem State.clockLossExpiry_time : (s.clockLossExpiry).time = s.time := by unfold State.clockLossExpiry; split <;> simp
@[simp] theorem State.clockLossExpiry_window : (s.clockLossExpiry).window = s.window := by unfold State.clockLossExpiry; split <;> simp

@[simp] theorem State.bclkiRisingEdge_pending : (s.bclkiRisingEdge).pending = s.pending := by unfold State.bclkiRisingEdge; split <;> rfl
@[simp] theorem State.bclkiRisingEdge_resetAsserted : (s.bclkiRisingEdge).resetAsserted = s.resetAsserted := by unfold State.bclkiRisingEdge; split <;> rfl
@[simp] theorem State.bclkiRisingEdge_buffer : (s.bclkiRisingEdge).buffer = s.buffer := by unfold State.bclkiRisingEdge; split <;> rfl
@[simp] theorem State.bclkiRisingEdge_port : (s.bclkiRisingEdge).port = s.port := by unfold State.bclkiRisingEdge; split <;> rfl
@[simp] theorem State.bclkiRisingEdge_sources : (s.bclkiRisingEdge).sources = s.sources := by unfold State.bclkiRisingEdge; split <;> rfl
@[simp] theorem State.bclkiRisingEdge_refill : (s.bclkiRisingEdge).refill = s.refill := by unfold State.bclkiRisingEdge; split <;> rfl
@[simp] theorem State.bclkiRisingEdge_composer : (s.bclkiRisingEdge).composer = s.composer := by unfold State.bclkiRisingEdge; split <;> rfl
@[simp] theorem State.bclkiRisingEdge_commit : (s.bclkiRisingEdge).commit = s.commit := by unfold State.bclkiRisingEdge; split <;> rfl
@[simp] theorem State.bclkiRisingEdge_time : (s.bclkiRisingEdge).time = s.time := by unfold State.bclkiRisingEdge; split <;> rfl
@[simp] theorem State.bclkiRisingEdge_window : (s.bclkiRisingEdge).window = s.window := by unfold State.bclkiRisingEdge; split <;> rfl
@[simp] theorem State.bclkiRisingEdge_irq : (s.bclkiRisingEdge).irq = s.irq := by unfold State.bclkiRisingEdge; split <;> rfl

@[simp] theorem State.clockRegWrite_pending (r : ClockReg) (w : Word) : (s.clockRegWrite r w).pending = s.pending := by unfold State.clockRegWrite; split <;> simp
@[simp] theorem State.clockRegWrite_resetAsserted (r : ClockReg) (w : Word) : (s.clockRegWrite r w).resetAsserted = s.resetAsserted := by unfold State.clockRegWrite; split <;> simp
@[simp] theorem State.clockRegWrite_buffer (r : ClockReg) (w : Word) : (s.clockRegWrite r w).buffer = s.buffer := by unfold State.clockRegWrite; split <;> simp
@[simp] theorem State.clockRegWrite_port (r : ClockReg) (w : Word) : (s.clockRegWrite r w).port = s.port := by unfold State.clockRegWrite; split <;> simp
@[simp] theorem State.clockRegWrite_sources (r : ClockReg) (w : Word) : (s.clockRegWrite r w).sources = s.sources := by unfold State.clockRegWrite; split <;> simp
@[simp] theorem State.clockRegWrite_refill (r : ClockReg) (w : Word) : (s.clockRegWrite r w).refill = s.refill := by unfold State.clockRegWrite; split <;> simp
@[simp] theorem State.clockRegWrite_composer (r : ClockReg) (w : Word) : (s.clockRegWrite r w).composer = s.composer := by unfold State.clockRegWrite; split <;> simp
@[simp] theorem State.clockRegWrite_commit (r : ClockReg) (w : Word) : (s.clockRegWrite r w).commit = s.commit := by unfold State.clockRegWrite; split <;> simp
@[simp] theorem State.clockRegWrite_time (r : ClockReg) (w : Word) : (s.clockRegWrite r w).time = s.time := by unfold State.clockRegWrite; split <;> simp
@[simp] theorem State.clockRegWrite_window (r : ClockReg) (w : Word) : (s.clockRegWrite r w).window = s.window := by unfold State.clockRegWrite; split <;> simp

@[simp] theorem State.loadTime_pending : (s.loadTime).pending = s.pending := rfl
@[simp] theorem State.loadTime_resetAsserted : (s.loadTime).resetAsserted = s.resetAsserted := rfl
@[simp] theorem State.loadTime_buffer : (s.loadTime).buffer = s.buffer := rfl
@[simp] theorem State.loadTime_port : (s.loadTime).port = s.port := rfl
@[simp] theorem State.loadTime_sources : (s.loadTime).sources = s.sources := rfl
@[simp] theorem State.loadTime_refill : (s.loadTime).refill = s.refill := rfl
@[simp] theorem State.loadTime_downlink : (s.loadTime).downlink = s.downlink := rfl
@[simp] theorem State.loadTime_composer : (s.loadTime).composer = s.composer := rfl
@[simp] theorem State.loadTime_commit : (s.loadTime).commit = s.commit := rfl
@[simp] theorem State.loadTime_window : (s.loadTime).window = s.window := rfl

@[simp] theorem State.restartDivider_pending : (s.restartDivider).pending = s.pending := rfl
@[simp] theorem State.restartDivider_resetAsserted : (s.restartDivider).resetAsserted = s.resetAsserted := rfl
@[simp] theorem State.restartDivider_buffer : (s.restartDivider).buffer = s.buffer := rfl
@[simp] theorem State.restartDivider_port : (s.restartDivider).port = s.port := rfl
@[simp] theorem State.restartDivider_sources : (s.restartDivider).sources = s.sources := rfl
@[simp] theorem State.restartDivider_refill : (s.restartDivider).refill = s.refill := rfl
@[simp] theorem State.restartDivider_downlink : (s.restartDivider).downlink = s.downlink := rfl
@[simp] theorem State.restartDivider_composer : (s.restartDivider).composer = s.composer := rfl
@[simp] theorem State.restartDivider_commit : (s.restartDivider).commit = s.commit := rfl
@[simp] theorem State.restartDivider_window : (s.restartDivider).window = s.window := rfl
@[simp] theorem State.restartDivider_irq : (s.restartDivider).irq = s.irq := rfl

@[simp] theorem State.tick_pending : (s.tick).pending = s.pending := by unfold State.tick; dsimp only; split <;> simp
@[simp] theorem State.tick_resetAsserted : (s.tick).resetAsserted = s.resetAsserted := by unfold State.tick; dsimp only; split <;> simp
@[simp] theorem State.tick_buffer : (s.tick).buffer = s.buffer := by unfold State.tick; dsimp only; split <;> simp
@[simp] theorem State.tick_port : (s.tick).port = s.port := by unfold State.tick; dsimp only; split <;> simp
@[simp] theorem State.tick_sources : (s.tick).sources = s.sources := by unfold State.tick; dsimp only; split <;> simp
@[simp] theorem State.tick_refill : (s.tick).refill = s.refill := by unfold State.tick; dsimp only; split <;> simp
@[simp] theorem State.tick_downlink : (s.tick).downlink = s.downlink := by unfold State.tick; dsimp only; split <;> simp
@[simp] theorem State.tick_composer : (s.tick).composer = s.composer := by unfold State.tick; dsimp only; split <;> simp
@[simp] theorem State.tick_commit : (s.tick).commit = s.commit := by unfold State.tick; dsimp only; split <;> simp
@[simp] theorem State.tick_window : (s.tick).window = s.window := by unfold State.tick; dsimp only; split <;> simp

@[simp] theorem State.tsyncEdge_pending : (s.tsyncEdge).pending = s.pending := by unfold State.tsyncEdge; split <;> simp
@[simp] theorem State.tsyncEdge_resetAsserted : (s.tsyncEdge).resetAsserted = s.resetAsserted := by unfold State.tsyncEdge; split <;> simp
@[simp] theorem State.tsyncEdge_buffer : (s.tsyncEdge).buffer = s.buffer := by unfold State.tsyncEdge; split <;> simp
@[simp] theorem State.tsyncEdge_port : (s.tsyncEdge).port = s.port := by unfold State.tsyncEdge; split <;> simp
@[simp] theorem State.tsyncEdge_sources : (s.tsyncEdge).sources = s.sources := by unfold State.tsyncEdge; split <;> simp
@[simp] theorem State.tsyncEdge_refill : (s.tsyncEdge).refill = s.refill := by unfold State.tsyncEdge; split <;> simp
@[simp] theorem State.tsyncEdge_downlink : (s.tsyncEdge).downlink = s.downlink := by unfold State.tsyncEdge; split <;> simp
@[simp] theorem State.tsyncEdge_composer : (s.tsyncEdge).composer = s.composer := by unfold State.tsyncEdge; split <;> simp
@[simp] theorem State.tsyncEdge_commit : (s.tsyncEdge).commit = s.commit := by unfold State.tsyncEdge; split <;> simp
@[simp] theorem State.tsyncEdge_window : (s.tsyncEdge).window = s.window := by unfold State.tsyncEdge; split <;> simp

@[simp] theorem State.tickDivWrite_pending (w : Word) : (s.tickDivWrite w).pending = s.pending := rfl
@[simp] theorem State.tickDivWrite_resetAsserted (w : Word) : (s.tickDivWrite w).resetAsserted = s.resetAsserted := rfl
@[simp] theorem State.tickDivWrite_buffer (w : Word) : (s.tickDivWrite w).buffer = s.buffer := rfl
@[simp] theorem State.tickDivWrite_port (w : Word) : (s.tickDivWrite w).port = s.port := rfl
@[simp] theorem State.tickDivWrite_sources (w : Word) : (s.tickDivWrite w).sources = s.sources := rfl
@[simp] theorem State.tickDivWrite_refill (w : Word) : (s.tickDivWrite w).refill = s.refill := rfl
@[simp] theorem State.tickDivWrite_downlink (w : Word) : (s.tickDivWrite w).downlink = s.downlink := rfl
@[simp] theorem State.tickDivWrite_composer (w : Word) : (s.tickDivWrite w).composer = s.composer := rfl
@[simp] theorem State.tickDivWrite_commit (w : Word) : (s.tickDivWrite w).commit = s.commit := rfl
@[simp] theorem State.tickDivWrite_window (w : Word) : (s.tickDivWrite w).window = s.window := rfl
@[simp] theorem State.tickDivWrite_irq (w : Word) : (s.tickDivWrite w).irq = s.irq := rfl

@[simp] theorem State.setLoad_pending (l : PendingLoad) : (s.setLoad l).pending = s.pending := rfl
@[simp] theorem State.setLoad_resetAsserted (l : PendingLoad) : (s.setLoad l).resetAsserted = s.resetAsserted := rfl
@[simp] theorem State.setLoad_buffer (l : PendingLoad) : (s.setLoad l).buffer = s.buffer := rfl
@[simp] theorem State.setLoad_port (l : PendingLoad) : (s.setLoad l).port = s.port := rfl
@[simp] theorem State.setLoad_sources (l : PendingLoad) : (s.setLoad l).sources = s.sources := rfl
@[simp] theorem State.setLoad_refill (l : PendingLoad) : (s.setLoad l).refill = s.refill := rfl
@[simp] theorem State.setLoad_downlink (l : PendingLoad) : (s.setLoad l).downlink = s.downlink := rfl
@[simp] theorem State.setLoad_composer (l : PendingLoad) : (s.setLoad l).composer = s.composer := rfl
@[simp] theorem State.setLoad_commit (l : PendingLoad) : (s.setLoad l).commit = s.commit := rfl
@[simp] theorem State.setLoad_window (l : PendingLoad) : (s.setLoad l).window = s.window := rfl
@[simp] theorem State.setLoad_irq (l : PendingLoad) : (s.setLoad l).irq = s.irq := rfl

@[simp] theorem State.timeCtrlWrite_pending (w : Word) : (s.timeCtrlWrite w).pending = s.pending := by unfold State.timeCtrlWrite; (repeat' split) <;> simp
@[simp] theorem State.timeCtrlWrite_resetAsserted (w : Word) : (s.timeCtrlWrite w).resetAsserted = s.resetAsserted := by unfold State.timeCtrlWrite; (repeat' split) <;> simp
@[simp] theorem State.timeCtrlWrite_buffer (w : Word) : (s.timeCtrlWrite w).buffer = s.buffer := by unfold State.timeCtrlWrite; (repeat' split) <;> simp
@[simp] theorem State.timeCtrlWrite_port (w : Word) : (s.timeCtrlWrite w).port = s.port := by unfold State.timeCtrlWrite; (repeat' split) <;> simp
@[simp] theorem State.timeCtrlWrite_sources (w : Word) : (s.timeCtrlWrite w).sources = s.sources := by unfold State.timeCtrlWrite; (repeat' split) <;> simp
@[simp] theorem State.timeCtrlWrite_refill (w : Word) : (s.timeCtrlWrite w).refill = s.refill := by unfold State.timeCtrlWrite; (repeat' split) <;> simp
@[simp] theorem State.timeCtrlWrite_downlink (w : Word) : (s.timeCtrlWrite w).downlink = s.downlink := by unfold State.timeCtrlWrite; (repeat' split) <;> simp
@[simp] theorem State.timeCtrlWrite_composer (w : Word) : (s.timeCtrlWrite w).composer = s.composer := by unfold State.timeCtrlWrite; (repeat' split) <;> simp
@[simp] theorem State.timeCtrlWrite_commit (w : Word) : (s.timeCtrlWrite w).commit = s.commit := by unfold State.timeCtrlWrite; (repeat' split) <;> simp
@[simp] theorem State.timeCtrlWrite_window (w : Word) : (s.timeCtrlWrite w).window = s.window := by unfold State.timeCtrlWrite; (repeat' split) <;> simp

@[simp] theorem State.timeReadH_pending : (s.timeReadH).pending = s.pending := rfl
@[simp] theorem State.timeReadH_resetAsserted : (s.timeReadH).resetAsserted = s.resetAsserted := rfl
@[simp] theorem State.timeReadH_buffer : (s.timeReadH).buffer = s.buffer := rfl
@[simp] theorem State.timeReadH_port : (s.timeReadH).port = s.port := rfl
@[simp] theorem State.timeReadH_sources : (s.timeReadH).sources = s.sources := rfl
@[simp] theorem State.timeReadH_refill : (s.timeReadH).refill = s.refill := rfl
@[simp] theorem State.timeReadH_downlink : (s.timeReadH).downlink = s.downlink := rfl
@[simp] theorem State.timeReadH_composer : (s.timeReadH).composer = s.composer := rfl
@[simp] theorem State.timeReadH_commit : (s.timeReadH).commit = s.commit := rfl
@[simp] theorem State.timeReadH_irq : (s.timeReadH).irq = s.irq := rfl

@[simp] theorem State.intFlagsWrite_pending (w : Word) : (s.intFlagsWrite w).pending = s.pending := rfl
@[simp] theorem State.intFlagsWrite_resetAsserted (w : Word) : (s.intFlagsWrite w).resetAsserted = s.resetAsserted := rfl
@[simp] theorem State.intFlagsWrite_buffer (w : Word) : (s.intFlagsWrite w).buffer = s.buffer := rfl
@[simp] theorem State.intFlagsWrite_port (w : Word) : (s.intFlagsWrite w).port = s.port := rfl
@[simp] theorem State.intFlagsWrite_sources (w : Word) : (s.intFlagsWrite w).sources = s.sources := rfl
@[simp] theorem State.intFlagsWrite_refill (w : Word) : (s.intFlagsWrite w).refill = s.refill := rfl
@[simp] theorem State.intFlagsWrite_downlink (w : Word) : (s.intFlagsWrite w).downlink = s.downlink := rfl
@[simp] theorem State.intFlagsWrite_composer (w : Word) : (s.intFlagsWrite w).composer = s.composer := rfl
@[simp] theorem State.intFlagsWrite_commit (w : Word) : (s.intFlagsWrite w).commit = s.commit := rfl
@[simp] theorem State.intFlagsWrite_time (w : Word) : (s.intFlagsWrite w).time = s.time := rfl
@[simp] theorem State.intFlagsWrite_window (w : Word) : (s.intFlagsWrite w).window = s.window := rfl

@[simp] theorem State.intEnableWrite_pending (w : Word) : (s.intEnableWrite w).pending = s.pending := rfl
@[simp] theorem State.intEnableWrite_resetAsserted (w : Word) : (s.intEnableWrite w).resetAsserted = s.resetAsserted := rfl
@[simp] theorem State.intEnableWrite_buffer (w : Word) : (s.intEnableWrite w).buffer = s.buffer := rfl
@[simp] theorem State.intEnableWrite_port (w : Word) : (s.intEnableWrite w).port = s.port := rfl
@[simp] theorem State.intEnableWrite_sources (w : Word) : (s.intEnableWrite w).sources = s.sources := rfl
@[simp] theorem State.intEnableWrite_refill (w : Word) : (s.intEnableWrite w).refill = s.refill := rfl
@[simp] theorem State.intEnableWrite_downlink (w : Word) : (s.intEnableWrite w).downlink = s.downlink := rfl
@[simp] theorem State.intEnableWrite_composer (w : Word) : (s.intEnableWrite w).composer = s.composer := rfl
@[simp] theorem State.intEnableWrite_commit (w : Word) : (s.intEnableWrite w).commit = s.commit := rfl
@[simp] theorem State.intEnableWrite_time (w : Word) : (s.intEnableWrite w).time = s.time := rfl
@[simp] theorem State.intEnableWrite_window (w : Word) : (s.intEnableWrite w).window = s.window := rfl

@[simp] theorem State.errKindWrite_pending : (s.errKindWrite).pending = s.pending := rfl
@[simp] theorem State.errKindWrite_resetAsserted : (s.errKindWrite).resetAsserted = s.resetAsserted := rfl
@[simp] theorem State.errKindWrite_buffer : (s.errKindWrite).buffer = s.buffer := rfl
@[simp] theorem State.errKindWrite_port : (s.errKindWrite).port = s.port := rfl
@[simp] theorem State.errKindWrite_sources : (s.errKindWrite).sources = s.sources := rfl
@[simp] theorem State.errKindWrite_refill : (s.errKindWrite).refill = s.refill := rfl
@[simp] theorem State.errKindWrite_downlink : (s.errKindWrite).downlink = s.downlink := rfl
@[simp] theorem State.errKindWrite_composer : (s.errKindWrite).composer = s.composer := rfl
@[simp] theorem State.errKindWrite_commit : (s.errKindWrite).commit = s.commit := rfl
@[simp] theorem State.errKindWrite_time : (s.errKindWrite).time = s.time := rfl
@[simp] theorem State.errKindWrite_window : (s.errKindWrite).window = s.window := rfl

@[simp] theorem State.setWatermark_pending (i : SourceId) (w : Word) : (s.setWatermark i w).pending = s.pending := by unfold State.setWatermark; dsimp only; split <;> rfl
@[simp] theorem State.setWatermark_resetAsserted (i : SourceId) (w : Word) : (s.setWatermark i w).resetAsserted = s.resetAsserted := by unfold State.setWatermark; dsimp only; split <;> rfl
@[simp] theorem State.setWatermark_buffer (i : SourceId) (w : Word) : (s.setWatermark i w).buffer = s.buffer := by unfold State.setWatermark; dsimp only; split <;> rfl
@[simp] theorem State.setWatermark_port (i : SourceId) (w : Word) : (s.setWatermark i w).port = s.port := by unfold State.setWatermark; dsimp only; split <;> rfl
@[simp] theorem State.setWatermark_downlink (i : SourceId) (w : Word) : (s.setWatermark i w).downlink = s.downlink := by unfold State.setWatermark; dsimp only; split <;> rfl
@[simp] theorem State.setWatermark_composer (i : SourceId) (w : Word) : (s.setWatermark i w).composer = s.composer := by unfold State.setWatermark; dsimp only; split <;> rfl
@[simp] theorem State.setWatermark_commit (i : SourceId) (w : Word) : (s.setWatermark i w).commit = s.commit := by unfold State.setWatermark; dsimp only; split <;> rfl
@[simp] theorem State.setWatermark_time (i : SourceId) (w : Word) : (s.setWatermark i w).time = s.time := by unfold State.setWatermark; dsimp only; split <;> rfl
@[simp] theorem State.setWatermark_window (i : SourceId) (w : Word) : (s.setWatermark i w).window = s.window := by unfold State.setWatermark; dsimp only; split <;> rfl
@[simp] theorem State.setWatermark_irq (i : SourceId) (w : Word) : (s.setWatermark i w).irq = s.irq := by unfold State.setWatermark; dsimp only; split <;> rfl

@[simp] theorem State.tblSelWrite_pending (w : Word) : (s.tblSelWrite w).pending = s.pending := by unfold State.tblSelWrite; split <;> simp
@[simp] theorem State.tblSelWrite_resetAsserted (w : Word) : (s.tblSelWrite w).resetAsserted = s.resetAsserted := by unfold State.tblSelWrite; split <;> simp
@[simp] theorem State.tblSelWrite_buffer (w : Word) : (s.tblSelWrite w).buffer = s.buffer := by unfold State.tblSelWrite; split <;> simp
@[simp] theorem State.tblSelWrite_port (w : Word) : (s.tblSelWrite w).port = s.port := by unfold State.tblSelWrite; split <;> simp
@[simp] theorem State.tblSelWrite_sources (w : Word) : (s.tblSelWrite w).sources = s.sources := by unfold State.tblSelWrite; split <;> simp
@[simp] theorem State.tblSelWrite_refill (w : Word) : (s.tblSelWrite w).refill = s.refill := by unfold State.tblSelWrite; split <;> simp
@[simp] theorem State.tblSelWrite_downlink (w : Word) : (s.tblSelWrite w).downlink = s.downlink := by unfold State.tblSelWrite; split <;> simp
@[simp] theorem State.tblSelWrite_composer (w : Word) : (s.tblSelWrite w).composer = s.composer := by unfold State.tblSelWrite; split <;> simp
@[simp] theorem State.tblSelWrite_commit (w : Word) : (s.tblSelWrite w).commit = s.commit := by unfold State.tblSelWrite; split <;> simp
@[simp] theorem State.tblSelWrite_time (w : Word) : (s.tblSelWrite w).time = s.time := by unfold State.tblSelWrite; split <;> simp

@[simp] theorem State.tblIndexWrite_pending (w : Word) : (s.tblIndexWrite w).pending = s.pending := rfl
@[simp] theorem State.tblIndexWrite_resetAsserted (w : Word) : (s.tblIndexWrite w).resetAsserted = s.resetAsserted := rfl
@[simp] theorem State.tblIndexWrite_buffer (w : Word) : (s.tblIndexWrite w).buffer = s.buffer := rfl
@[simp] theorem State.tblIndexWrite_port (w : Word) : (s.tblIndexWrite w).port = s.port := rfl
@[simp] theorem State.tblIndexWrite_sources (w : Word) : (s.tblIndexWrite w).sources = s.sources := rfl
@[simp] theorem State.tblIndexWrite_refill (w : Word) : (s.tblIndexWrite w).refill = s.refill := rfl
@[simp] theorem State.tblIndexWrite_downlink (w : Word) : (s.tblIndexWrite w).downlink = s.downlink := rfl
@[simp] theorem State.tblIndexWrite_composer (w : Word) : (s.tblIndexWrite w).composer = s.composer := rfl
@[simp] theorem State.tblIndexWrite_commit (w : Word) : (s.tblIndexWrite w).commit = s.commit := rfl
@[simp] theorem State.tblIndexWrite_time (w : Word) : (s.tblIndexWrite w).time = s.time := rfl
@[simp] theorem State.tblIndexWrite_irq (w : Word) : (s.tblIndexWrite w).irq = s.irq := rfl

@[simp] theorem State.advanceIndex_pending : (s.advanceIndex).pending = s.pending := rfl
@[simp] theorem State.advanceIndex_resetAsserted : (s.advanceIndex).resetAsserted = s.resetAsserted := rfl
@[simp] theorem State.advanceIndex_buffer : (s.advanceIndex).buffer = s.buffer := rfl
@[simp] theorem State.advanceIndex_port : (s.advanceIndex).port = s.port := rfl
@[simp] theorem State.advanceIndex_sources : (s.advanceIndex).sources = s.sources := rfl
@[simp] theorem State.advanceIndex_refill : (s.advanceIndex).refill = s.refill := rfl
@[simp] theorem State.advanceIndex_downlink : (s.advanceIndex).downlink = s.downlink := rfl
@[simp] theorem State.advanceIndex_composer : (s.advanceIndex).composer = s.composer := rfl
@[simp] theorem State.advanceIndex_commit : (s.advanceIndex).commit = s.commit := rfl
@[simp] theorem State.advanceIndex_time : (s.advanceIndex).time = s.time := rfl
@[simp] theorem State.advanceIndex_irq : (s.advanceIndex).irq = s.irq := rfl

@[simp] theorem State.answerTableRead_pending : (s.answerTableRead).pending = s.pending := rfl
@[simp] theorem State.answerTableRead_resetAsserted : (s.answerTableRead).resetAsserted = s.resetAsserted := rfl
@[simp] theorem State.answerTableRead_buffer : (s.answerTableRead).buffer = s.buffer := rfl
@[simp] theorem State.answerTableRead_port : (s.answerTableRead).port = s.port := rfl
@[simp] theorem State.answerTableRead_sources : (s.answerTableRead).sources = s.sources := rfl
@[simp] theorem State.answerTableRead_refill : (s.answerTableRead).refill = s.refill := rfl
@[simp] theorem State.answerTableRead_downlink : (s.answerTableRead).downlink = s.downlink := rfl
@[simp] theorem State.answerTableRead_composer : (s.answerTableRead).composer = s.composer := rfl
@[simp] theorem State.answerTableRead_commit : (s.answerTableRead).commit = s.commit := rfl
@[simp] theorem State.answerTableRead_time : (s.answerTableRead).time = s.time := rfl
@[simp] theorem State.answerTableRead_irq : (s.answerTableRead).irq = s.irq := rfl

@[simp] theorem State.undelivered_pending (t : State) : (s.undelivered t).pending = s.pending := rfl
@[simp] theorem State.undelivered_resetAsserted (t : State) : (s.undelivered t).resetAsserted = s.resetAsserted := rfl
@[simp] theorem State.undelivered_buffer (t : State) : (s.undelivered t).buffer = s.buffer := rfl
@[simp] theorem State.undelivered_port (t : State) : (s.undelivered t).port = s.port := rfl
@[simp] theorem State.undelivered_sources (t : State) : (s.undelivered t).sources = s.sources := rfl
@[simp] theorem State.undelivered_refill (t : State) : (s.undelivered t).refill = s.refill := rfl
@[simp] theorem State.undelivered_downlink (t : State) : (s.undelivered t).downlink = s.downlink := rfl
@[simp] theorem State.undelivered_composer (t : State) : (s.undelivered t).composer = s.composer := rfl
@[simp] theorem State.undelivered_commit (t : State) : (s.undelivered t).commit = s.commit := rfl
@[simp] theorem State.undelivered_time (t : State) : (s.undelivered t).time = s.time := rfl
@[simp] theorem State.undelivered_irq (t : State) : (s.undelivered t).irq = s.irq := rfl

@[simp] theorem State.hold_pending (h : HostAccess) : (s.hold h).pending = s.pending := rfl
@[simp] theorem State.hold_resetAsserted (h : HostAccess) : (s.hold h).resetAsserted = s.resetAsserted := rfl
@[simp] theorem State.hold_buffer (h : HostAccess) : (s.hold h).buffer = s.buffer := rfl
@[simp] theorem State.hold_port (h : HostAccess) : (s.hold h).port = s.port := rfl
@[simp] theorem State.hold_sources (h : HostAccess) : (s.hold h).sources = s.sources := rfl
@[simp] theorem State.hold_refill (h : HostAccess) : (s.hold h).refill = s.refill := rfl
@[simp] theorem State.hold_downlink (h : HostAccess) : (s.hold h).downlink = s.downlink := rfl
@[simp] theorem State.hold_composer (h : HostAccess) : (s.hold h).composer = s.composer := rfl
@[simp] theorem State.hold_commit (h : HostAccess) : (s.hold h).commit = s.commit := rfl
@[simp] theorem State.hold_time (h : HostAccess) : (s.hold h).time = s.time := rfl
@[simp] theorem State.hold_irq (h : HostAccess) : (s.hold h).irq = s.irq := rfl

@[simp] theorem State.waitBehind_pending (x : HeldAccess) (h : HostAccess) : (s.waitBehind x h).pending = s.pending := rfl
@[simp] theorem State.waitBehind_resetAsserted (x : HeldAccess) (h : HostAccess) : (s.waitBehind x h).resetAsserted = s.resetAsserted := rfl
@[simp] theorem State.waitBehind_buffer (x : HeldAccess) (h : HostAccess) : (s.waitBehind x h).buffer = s.buffer := rfl
@[simp] theorem State.waitBehind_port (x : HeldAccess) (h : HostAccess) : (s.waitBehind x h).port = s.port := rfl
@[simp] theorem State.waitBehind_sources (x : HeldAccess) (h : HostAccess) : (s.waitBehind x h).sources = s.sources := rfl
@[simp] theorem State.waitBehind_refill (x : HeldAccess) (h : HostAccess) : (s.waitBehind x h).refill = s.refill := rfl
@[simp] theorem State.waitBehind_downlink (x : HeldAccess) (h : HostAccess) : (s.waitBehind x h).downlink = s.downlink := rfl
@[simp] theorem State.waitBehind_composer (x : HeldAccess) (h : HostAccess) : (s.waitBehind x h).composer = s.composer := rfl
@[simp] theorem State.waitBehind_commit (x : HeldAccess) (h : HostAccess) : (s.waitBehind x h).commit = s.commit := rfl
@[simp] theorem State.waitBehind_time (x : HeldAccess) (h : HostAccess) : (s.waitBehind x h).time = s.time := rfl
@[simp] theorem State.waitBehind_irq (x : HeldAccess) (h : HostAccess) : (s.waitBehind x h).irq = s.irq := rfl

@[simp] theorem State.tableDataRead_pending (b : Bool) : (s.tableDataRead b).pending = s.pending := by unfold State.tableDataRead; split <;> simp
@[simp] theorem State.tableDataRead_resetAsserted (b : Bool) : (s.tableDataRead b).resetAsserted = s.resetAsserted := by unfold State.tableDataRead; split <;> simp
@[simp] theorem State.tableDataRead_buffer (b : Bool) : (s.tableDataRead b).buffer = s.buffer := by unfold State.tableDataRead; split <;> simp
@[simp] theorem State.tableDataRead_port (b : Bool) : (s.tableDataRead b).port = s.port := by unfold State.tableDataRead; split <;> simp
@[simp] theorem State.tableDataRead_sources (b : Bool) : (s.tableDataRead b).sources = s.sources := by unfold State.tableDataRead; split <;> simp
@[simp] theorem State.tableDataRead_refill (b : Bool) : (s.tableDataRead b).refill = s.refill := by unfold State.tableDataRead; split <;> simp
@[simp] theorem State.tableDataRead_downlink (b : Bool) : (s.tableDataRead b).downlink = s.downlink := by unfold State.tableDataRead; split <;> simp
@[simp] theorem State.tableDataRead_composer (b : Bool) : (s.tableDataRead b).composer = s.composer := by unfold State.tableDataRead; split <;> simp
@[simp] theorem State.tableDataRead_commit (b : Bool) : (s.tableDataRead b).commit = s.commit := by unfold State.tableDataRead; split <;> simp
@[simp] theorem State.tableDataRead_time (b : Bool) : (s.tableDataRead b).time = s.time := by unfold State.tableDataRead; split <;> simp
@[simp] theorem State.tableDataRead_irq (b : Bool) : (s.tableDataRead b).irq = s.irq := by unfold State.tableDataRead; split <;> simp

@[simp] theorem State.bufAddrWrite_pending (w : Word) : (s.bufAddrWrite w).pending = s.pending := rfl
@[simp] theorem State.bufAddrWrite_resetAsserted (w : Word) : (s.bufAddrWrite w).resetAsserted = s.resetAsserted := rfl
@[simp] theorem State.bufAddrWrite_buffer (w : Word) : (s.bufAddrWrite w).buffer = s.buffer := rfl
@[simp] theorem State.bufAddrWrite_port (w : Word) : (s.bufAddrWrite w).port = s.port := rfl
@[simp] theorem State.bufAddrWrite_sources (w : Word) : (s.bufAddrWrite w).sources = s.sources := rfl
@[simp] theorem State.bufAddrWrite_refill (w : Word) : (s.bufAddrWrite w).refill = s.refill := rfl
@[simp] theorem State.bufAddrWrite_downlink (w : Word) : (s.bufAddrWrite w).downlink = s.downlink := rfl
@[simp] theorem State.bufAddrWrite_composer (w : Word) : (s.bufAddrWrite w).composer = s.composer := rfl
@[simp] theorem State.bufAddrWrite_commit (w : Word) : (s.bufAddrWrite w).commit = s.commit := rfl
@[simp] theorem State.bufAddrWrite_time (w : Word) : (s.bufAddrWrite w).time = s.time := rfl
@[simp] theorem State.bufAddrWrite_irq (w : Word) : (s.bufAddrWrite w).irq = s.irq := rfl

@[simp] theorem State.advanceBufAddr_pending : (s.advanceBufAddr).pending = s.pending := rfl
@[simp] theorem State.advanceBufAddr_resetAsserted : (s.advanceBufAddr).resetAsserted = s.resetAsserted := rfl
@[simp] theorem State.advanceBufAddr_buffer : (s.advanceBufAddr).buffer = s.buffer := rfl
@[simp] theorem State.advanceBufAddr_port : (s.advanceBufAddr).port = s.port := rfl
@[simp] theorem State.advanceBufAddr_sources : (s.advanceBufAddr).sources = s.sources := rfl
@[simp] theorem State.advanceBufAddr_refill : (s.advanceBufAddr).refill = s.refill := rfl
@[simp] theorem State.advanceBufAddr_downlink : (s.advanceBufAddr).downlink = s.downlink := rfl
@[simp] theorem State.advanceBufAddr_composer : (s.advanceBufAddr).composer = s.composer := rfl
@[simp] theorem State.advanceBufAddr_commit : (s.advanceBufAddr).commit = s.commit := rfl
@[simp] theorem State.advanceBufAddr_time : (s.advanceBufAddr).time = s.time := rfl
@[simp] theorem State.advanceBufAddr_irq : (s.advanceBufAddr).irq = s.irq := rfl

@[simp] theorem State.bufDataRead_pending : (s.bufDataRead).pending = s.pending := rfl
@[simp] theorem State.bufDataRead_resetAsserted : (s.bufDataRead).resetAsserted = s.resetAsserted := rfl
@[simp] theorem State.bufDataRead_buffer : (s.bufDataRead).buffer = s.buffer := rfl
@[simp] theorem State.bufDataRead_port : (s.bufDataRead).port = s.port := rfl
@[simp] theorem State.bufDataRead_sources : (s.bufDataRead).sources = s.sources := rfl
@[simp] theorem State.bufDataRead_refill : (s.bufDataRead).refill = s.refill := rfl
@[simp] theorem State.bufDataRead_downlink : (s.bufDataRead).downlink = s.downlink := rfl
@[simp] theorem State.bufDataRead_composer : (s.bufDataRead).composer = s.composer := rfl
@[simp] theorem State.bufDataRead_commit : (s.bufDataRead).commit = s.commit := rfl
@[simp] theorem State.bufDataRead_time : (s.bufDataRead).time = s.time := rfl
@[simp] theorem State.bufDataRead_irq : (s.bufDataRead).irq = s.irq := rfl

@[simp] theorem State.bufDataWrite_pending (w : Word) : (s.bufDataWrite w).pending = s.pending := rfl
@[simp] theorem State.bufDataWrite_resetAsserted (w : Word) : (s.bufDataWrite w).resetAsserted = s.resetAsserted := rfl
@[simp] theorem State.bufDataWrite_port (w : Word) : (s.bufDataWrite w).port = s.port := rfl
@[simp] theorem State.bufDataWrite_sources (w : Word) : (s.bufDataWrite w).sources = s.sources := rfl
@[simp] theorem State.bufDataWrite_refill (w : Word) : (s.bufDataWrite w).refill = s.refill := rfl
@[simp] theorem State.bufDataWrite_downlink (w : Word) : (s.bufDataWrite w).downlink = s.downlink := rfl
@[simp] theorem State.bufDataWrite_composer (w : Word) : (s.bufDataWrite w).composer = s.composer := rfl
@[simp] theorem State.bufDataWrite_commit (w : Word) : (s.bufDataWrite w).commit = s.commit := rfl
@[simp] theorem State.bufDataWrite_time (w : Word) : (s.bufDataWrite w).time = s.time := rfl
@[simp] theorem State.bufDataWrite_irq (w : Word) : (s.bufDataWrite w).irq = s.irq := rfl

@[simp] theorem State.bitPeriodStart_pending : (s.bitPeriodStart).pending = s.pending := by unfold State.bitPeriodStart; split <;> (try split) <;> rfl
@[simp] theorem State.bitPeriodStart_resetAsserted : (s.bitPeriodStart).resetAsserted = s.resetAsserted := by unfold State.bitPeriodStart; split <;> (try split) <;> rfl
@[simp] theorem State.bitPeriodStart_buffer : (s.bitPeriodStart).buffer = s.buffer := by unfold State.bitPeriodStart; split <;> (try split) <;> rfl
@[simp] theorem State.bitPeriodStart_port : (s.bitPeriodStart).port = s.port := by unfold State.bitPeriodStart; split <;> (try split) <;> rfl
@[simp] theorem State.bitPeriodStart_sources : (s.bitPeriodStart).sources = s.sources := by unfold State.bitPeriodStart; split <;> (try split) <;> rfl
@[simp] theorem State.bitPeriodStart_refill : (s.bitPeriodStart).refill = s.refill := by unfold State.bitPeriodStart; split <;> (try split) <;> rfl
@[simp] theorem State.bitPeriodStart_composer : (s.bitPeriodStart).composer = s.composer := by unfold State.bitPeriodStart; split <;> (try split) <;> rfl
@[simp] theorem State.bitPeriodStart_commit : (s.bitPeriodStart).commit = s.commit := by unfold State.bitPeriodStart; split <;> (try split) <;> rfl
@[simp] theorem State.bitPeriodStart_time : (s.bitPeriodStart).time = s.time := by unfold State.bitPeriodStart; split <;> (try split) <;> rfl
@[simp] theorem State.bitPeriodStart_window : (s.bitPeriodStart).window = s.window := by unfold State.bitPeriodStart; split <;> (try split) <;> rfl
@[simp] theorem State.bitPeriodStart_irq : (s.bitPeriodStart).irq = s.irq := by unfold State.bitPeriodStart; split <;> (try split) <;> rfl

@[simp] theorem State.stoppingEnd_pending : (s.stoppingEnd).pending = s.pending := by unfold State.stoppingEnd; split <;> simp
@[simp] theorem State.stoppingEnd_resetAsserted : (s.stoppingEnd).resetAsserted = s.resetAsserted := by unfold State.stoppingEnd; split <;> simp
@[simp] theorem State.stoppingEnd_buffer : (s.stoppingEnd).buffer = s.buffer := by unfold State.stoppingEnd; split <;> simp
@[simp] theorem State.stoppingEnd_port : (s.stoppingEnd).port = s.port := by unfold State.stoppingEnd; split <;> simp
@[simp] theorem State.stoppingEnd_sources : (s.stoppingEnd).sources = s.sources := by unfold State.stoppingEnd; split <;> simp
@[simp] theorem State.stoppingEnd_refill : (s.stoppingEnd).refill = s.refill := by unfold State.stoppingEnd; split <;> simp
@[simp] theorem State.stoppingEnd_time : (s.stoppingEnd).time = s.time := by unfold State.stoppingEnd; split <;> simp
@[simp] theorem State.stoppingEnd_window : (s.stoppingEnd).window = s.window := by unfold State.stoppingEnd; split <;> simp

@[simp] theorem State.startEvent_pending (m : Nat) : (s.startEvent m).pending = s.pending := by unfold State.startEvent; dsimp only; split <;> rfl
@[simp] theorem State.startEvent_resetAsserted (m : Nat) : (s.startEvent m).resetAsserted = s.resetAsserted := by unfold State.startEvent; dsimp only; split <;> rfl
@[simp] theorem State.startEvent_buffer (m : Nat) : (s.startEvent m).buffer = s.buffer := by unfold State.startEvent; dsimp only; split <;> rfl
@[simp] theorem State.startEvent_port (m : Nat) : (s.startEvent m).port = s.port := by unfold State.startEvent; dsimp only; split <;> rfl
@[simp] theorem State.startEvent_sources (m : Nat) : (s.startEvent m).sources = s.sources := by unfold State.startEvent; dsimp only; split <;> rfl
@[simp] theorem State.startEvent_refill (m : Nat) : (s.startEvent m).refill = s.refill := by unfold State.startEvent; dsimp only; split <;> rfl
@[simp] theorem State.startEvent_composer (m : Nat) : (s.startEvent m).composer = s.composer := by unfold State.startEvent; dsimp only; split <;> rfl
@[simp] theorem State.startEvent_commit (m : Nat) : (s.startEvent m).commit = s.commit := by unfold State.startEvent; dsimp only; split <;> rfl
@[simp] theorem State.startEvent_window (m : Nat) : (s.startEvent m).window = s.window := by unfold State.startEvent; dsimp only; split <;> rfl

@[simp] theorem State.majorEndPoint_pending : (s.majorEndPoint).pending = s.pending := by simp [State.majorEndPoint]
@[simp] theorem State.majorEndPoint_resetAsserted : (s.majorEndPoint).resetAsserted = s.resetAsserted := by simp [State.majorEndPoint]
@[simp] theorem State.majorEndPoint_buffer : (s.majorEndPoint).buffer = s.buffer := by simp [State.majorEndPoint]
@[simp] theorem State.majorEndPoint_port : (s.majorEndPoint).port = s.port := by simp [State.majorEndPoint]
@[simp] theorem State.majorEndPoint_sources : (s.majorEndPoint).sources = s.sources := by simp [State.majorEndPoint]
@[simp] theorem State.majorEndPoint_refill : (s.majorEndPoint).refill = s.refill := by simp [State.majorEndPoint]
@[simp] theorem State.majorEndPoint_composer : (s.majorEndPoint).composer = s.composer := by simp [State.majorEndPoint]
@[simp] theorem State.majorEndPoint_time : (s.majorEndPoint).time = s.time := by simp [State.majorEndPoint]
@[simp] theorem State.majorEndPoint_window : (s.majorEndPoint).window = s.window := by simp [State.majorEndPoint]
@[simp] theorem State.majorEndPoint_irq : (s.majorEndPoint).irq = s.irq := by simp [State.majorEndPoint]

@[simp] theorem State.releaseRead_pending : (s.releaseRead).pending = s.pending := by unfold State.releaseRead; split <;> (try dsimp only; split) <;> simp
@[simp] theorem State.releaseRead_resetAsserted : (s.releaseRead).resetAsserted = s.resetAsserted := by unfold State.releaseRead; split <;> (try dsimp only; split) <;> simp
@[simp] theorem State.releaseRead_buffer : (s.releaseRead).buffer = s.buffer := by unfold State.releaseRead; split <;> (try dsimp only; split) <;> simp
@[simp] theorem State.releaseRead_port : (s.releaseRead).port = s.port := by unfold State.releaseRead; split <;> (try dsimp only; split) <;> simp
@[simp] theorem State.releaseRead_sources : (s.releaseRead).sources = s.sources := by unfold State.releaseRead; split <;> (try dsimp only; split) <;> simp
@[simp] theorem State.releaseRead_refill : (s.releaseRead).refill = s.refill := by unfold State.releaseRead; split <;> (try dsimp only; split) <;> simp
@[simp] theorem State.releaseRead_downlink : (s.releaseRead).downlink = s.downlink := by unfold State.releaseRead; split <;> (try dsimp only; split) <;> simp
@[simp] theorem State.releaseRead_composer : (s.releaseRead).composer = s.composer := by unfold State.releaseRead; split <;> (try dsimp only; split) <;> simp
@[simp] theorem State.releaseRead_commit : (s.releaseRead).commit = s.commit := by unfold State.releaseRead; split <;> (try dsimp only; split) <;> simp
@[simp] theorem State.releaseRead_time : (s.releaseRead).time = s.time := by unfold State.releaseRead; split <;> (try dsimp only; split) <;> simp
@[simp] theorem State.releaseRead_irq : (s.releaseRead).irq = s.irq := by unfold State.releaseRead; split <;> (try dsimp only; split) <;> simp

@[simp] theorem State.portAccess_pending (p : PortAccess) : (s.portAccess p).pending = s.pending := by cases p <;> simp [State.portAccess]
@[simp] theorem State.portAccess_resetAsserted (p : PortAccess) : (s.portAccess p).resetAsserted = s.resetAsserted := by cases p <;> simp [State.portAccess]
@[simp] theorem State.portAccess_port (p : PortAccess) : (s.portAccess p).port = s.port := by cases p <;> simp [State.portAccess]
@[simp] theorem State.portAccess_refill (p : PortAccess) : (s.portAccess p).refill = s.refill := by cases p <;> simp [State.portAccess]
@[simp] theorem State.portAccess_downlink (p : PortAccess) : (s.portAccess p).downlink = s.downlink := by cases p <;> simp [State.portAccess]
@[simp] theorem State.portAccess_composer (p : PortAccess) : (s.portAccess p).composer = s.composer := by cases p <;> simp [State.portAccess]
@[simp] theorem State.portAccess_commit (p : PortAccess) : (s.portAccess p).commit = s.commit := by cases p <;> simp [State.portAccess]
@[simp] theorem State.portAccess_time (p : PortAccess) : (s.portAccess p).time = s.time := by cases p <;> simp [State.portAccess]

@[simp] theorem State.performHeld_pending (p : PortAccess) (b : Bool) : (s.performHeld p b).pending = s.pending := by unfold State.performHeld; split <;> simp
@[simp] theorem State.performHeld_resetAsserted (p : PortAccess) (b : Bool) : (s.performHeld p b).resetAsserted = s.resetAsserted := by unfold State.performHeld; split <;> simp
@[simp] theorem State.performHeld_port (p : PortAccess) (b : Bool) : (s.performHeld p b).port = s.port := by unfold State.performHeld; split <;> simp
@[simp] theorem State.performHeld_refill (p : PortAccess) (b : Bool) : (s.performHeld p b).refill = s.refill := by unfold State.performHeld; split <;> simp
@[simp] theorem State.performHeld_downlink (p : PortAccess) (b : Bool) : (s.performHeld p b).downlink = s.downlink := by unfold State.performHeld; split <;> simp
@[simp] theorem State.performHeld_composer (p : PortAccess) (b : Bool) : (s.performHeld p b).composer = s.composer := by unfold State.performHeld; split <;> simp
@[simp] theorem State.performHeld_commit (p : PortAccess) (b : Bool) : (s.performHeld p b).commit = s.commit := by unfold State.performHeld; split <;> simp
@[simp] theorem State.performHeld_time (p : PortAccess) (b : Bool) : (s.performHeld p b).time = s.time := by unfold State.performHeld; split <;> simp

@[simp] theorem State.settle_pending : (s.settle).pending = s.pending := by unfold State.settle; (repeat' split) <;> simp
@[simp] theorem State.settle_resetAsserted : (s.settle).resetAsserted = s.resetAsserted := by unfold State.settle; (repeat' split) <;> simp
@[simp] theorem State.settle_refill : (s.settle).refill = s.refill := by unfold State.settle; (repeat' split) <;> simp
@[simp] theorem State.settle_downlink : (s.settle).downlink = s.downlink := by unfold State.settle; (repeat' split) <;> simp
@[simp] theorem State.settle_composer : (s.settle).composer = s.composer := by unfold State.settle; (repeat' split) <;> simp
@[simp] theorem State.settle_commit : (s.settle).commit = s.commit := by unfold State.settle; (repeat' split) <;> simp
@[simp] theorem State.settle_time : (s.settle).time = s.time := by unfold State.settle; (repeat' split) <;> simp

end Sys2Proof.Machine
end

