-- ==== Sys2Proof/Laws/Sources.lean ====
section
/-! SUPPORT. The operations on source records: what they leave as it is, and that each keeps every record lawful. -/

namespace Sys2Proof.Machine

/-! ### Reading a record after an update -/

theorem State.record_setRecord (s : State) (i j : SourceId) (r : SourceRec) :
    (s.setRecord i r).record j = if j = i then r else s.record j := by
  unfold State.record State.setRecord
  dsimp only
  by_cases h : j = i
  · subst h; simp
  · have : (i : Nat) ≠ (j : Nat) := fun e => h (Fin.ext e.symm)
    simp [h, this]

@[simp] theorem State.record_setRecord_same (s : State) (i : SourceId) (r : SourceRec) : (s.setRecord i r).record i = r := by
  simp [State.record_setRecord]

theorem State.record_congr {s t : State} (h : t.sources = s.sources) (i : SourceId) : t.record i = s.record i := by
  simp only [State.record, h]

theorem State.queued_congr {s t : State} (h : t.refill = s.refill) (i : SourceId) : t.queued i = s.queued i := by
  simp only [State.queued, h]

theorem State.SourcesLawful.congr {s t : State} (hs : s.SourcesLawful) (h : t.sources = s.sources) : t.SourcesLawful :=
  fun i => State.record_congr h i ▸ hs i

theorem State.SourcesLawful.congrRecords {s t : State} (hs : s.SourcesLawful) (h : t.sources.records = s.sources.records) :
    t.SourcesLawful := by
  intro i
  have := hs i
  unfold State.record at this ⊢
  rwa [h]

theorem State.SourcesLawful.setRecord {s : State} (hs : s.SourcesLawful) (i : SourceId) {r : SourceRec} (hr : r.Lawful) :
    (s.setRecord i r).SourcesLawful := by
  intro j
  rw [State.record_setRecord]
  split
  · exact hr
  · exact hs j

/-- A record that is replaced by one with the same ring, counters, geometry and state stays lawful. -/
theorem State.SourcesLawful.unarm {s : State} (hs : s.SourcesLawful) (i : SourceId) (b : Bool) :
    (s.setRecord i { s.record i with armed := b }).SourcesLawful :=
  hs.setRecord i ((hs i).congr rfl rfl rfl rfl rfl rfl rfl rfl rfl rfl rfl)

/-! ### Refill checks -/

/-- A watermark check either makes no change or inserts one LOW record and clears ARMED (R53). -/
theorem State.watermarkCheck_cases (s : State) (i : SourceId) :
    s.watermarkCheck i = s ∨
      ((s.record i).state.feeding = true ∧ (s.record i).armed = true ∧ s.queued i = false
        ∧ (s.record i).occupancy ≤ (s.record i).watermark
        ∧ s.watermarkCheck i = (s.insertRecord i .low).setRecord i { s.record i with armed := false }) := by
  unfold State.watermarkCheck
  dsimp only
  split
  · rename_i h; exact .inr ⟨h.1, h.2.1, h.2.2.1, h.2.2.2, rfl⟩
  · exact .inl rfl

theorem State.SourcesLawful.watermarkCheck {s : State} (hs : s.SourcesLawful) (i : SourceId) :
    (s.watermarkCheck i).SourcesLawful := by
  obtain h | ⟨-, -, -, -, h⟩ := s.watermarkCheck_cases i <;> rw [h]
  · exact hs
  · exact (hs.congr (t := s.insertRecord i .low) (by simp)).setRecord i
      ((hs i).congr rfl rfl rfl rfl rfl rfl rfl rfl rfl rfl rfl)

theorem State.SourcesLawful.takeCheck {s : State} (hs : s.SourcesLawful) (i : SourceId) : (s.takeCheck i).SourcesLawful := by
  unfold State.takeCheck
  split
  · have h : ({ s with refill := { s.refill with checks := s.refill.checks.erase i } } : State).SourcesLawful := hs.congr rfl
    exact h.watermarkCheck i
  · exact hs

/-! ### Appends -/

theorem State.SourcesLawful.appendTo {s : State} (hs : s.SourcesLawful) (i : SourceId) (w : Word) :
    (s.appendTo i w).SourcesLawful := by
  unfold State.appendTo
  dsimp only
  split
  · rename_i hf
    split
    · rename_i hr
      exact (hs.congr (t := s.bufferWrite _ w) (by simp)).setRecord i ((hs i).afterAppend hf hr)
    · exact (hs.setRecord i ((hs i).congr (q := { s.record i with overflows := satInc (s.record i).overflows })
        rfl rfl rfl rfl rfl rfl rfl rfl rfl rfl rfl)).congr (by simp)
  · exact hs.congr (by simp)

theorem State.SourcesLawful.append {s : State} (hs : s.SourcesLawful) (w : Word) : (s.append w).SourcesLawful := by
  unfold State.append
  split
  · exact hs.appendTo _ w
  · exact hs.congr (by simp)

/-! ### Consults -/

section Consult

variable (s : State) (i : SourceId)

@[simp] theorem State.consult_pending : (s.consult i).state.pending = s.pending := by
  unfold State.consult State.consultLive State.consultDraining; dsimp only; (repeat' split) <;> simp
@[simp] theorem State.consult_resetAsserted : (s.consult i).state.resetAsserted = s.resetAsserted := by
  unfold State.consult State.consultLive State.consultDraining; dsimp only; (repeat' split) <;> simp
@[simp] theorem State.consult_port : (s.consult i).state.port = s.port := by
  unfold State.consult State.consultLive State.consultDraining; dsimp only; (repeat' split) <;> simp
@[simp] theorem State.consult_buffer : (s.consult i).state.buffer = s.buffer := by
  unfold State.consult State.consultLive State.consultDraining; dsimp only; (repeat' split) <;> simp
@[simp] theorem State.consult_downlink : (s.consult i).state.downlink = s.downlink := by
  unfold State.consult State.consultLive State.consultDraining; dsimp only; (repeat' split) <;> simp
@[simp] theorem State.consult_commit : (s.consult i).state.commit = s.commit := by
  unfold State.consult State.consultLive State.consultDraining; dsimp only; (repeat' split) <;> simp
@[simp] theorem State.consult_time : (s.consult i).state.time = s.time := by
  unfold State.consult State.consultLive State.consultDraining; dsimp only; (repeat' split) <;> simp
@[simp] theorem State.consult_window : (s.consult i).state.window = s.window := by
  unfold State.consult State.consultLive State.consultDraining; dsimp only; (repeat' split) <;> simp
@[simp] theorem State.consult_refillRecords : (s.consult i).state.refill.records = s.refill.records := by
  unfold State.consult State.consultLive State.consultDraining; dsimp only; (repeat' split) <;> simp [State.handCheck]
/-- Of the composer, a consult can only raise the episode latch (R37). -/
theorem State.consult_composer : (s.consult i).state.composer = s.composer ∨ (s.consult i).state.composer = s.latchEpisode.composer := by
  unfold State.consult State.consultLive State.consultDraining; dsimp only; (repeat' split) <;> simp [State.latchEpisode]
@[simp] theorem State.consult_lookahead : (s.consult i).state.composer.lookahead = s.composer.lookahead := by
  obtain h | h := s.consult_composer i <;> rw [h] <;> rfl
@[simp] theorem State.consult_col : (s.consult i).state.composer.col = s.composer.col := by
  obtain h | h := s.consult_composer i <;> rw [h] <;> rfl
@[simp] theorem State.consult_row : (s.consult i).state.composer.row = s.composer.row := by
  obtain h | h := s.consult_composer i <;> rw [h] <;> rfl
@[simp] theorem State.consult_accumulator : (s.consult i).state.composer.accumulator = s.composer.accumulator := by
  obtain h | h := s.consult_composer i <;> rw [h] <;> rfl
/-- Of the interrupt unit, a consult can only raise flags (R37, R40). -/
theorem State.consult_irq : ∃ m : BitVec 11, (s.consult i).state.irq = { s.irq with flags := s.irq.flags ||| m } := by
  unfold State.consult State.consultLive State.consultDraining
  dsimp only
  (repeat' split) <;> first
    | exact ⟨Flag.underrun.mask, rfl⟩
    | exact ⟨Flag.drained.mask, rfl⟩
    | (refine ⟨0, ?_⟩; simp; done)

end Consult

theorem State.SourcesLawful.consultLive {s : State} (hs : s.SourcesLawful) (i : SourceId) (h1 : (s.record i).state ≠ .off) :
    (s.consultLive i).state.SourcesLawful := by
  have hl : SourceRec.Lawful { s.record i with state := .live } := (hs i).withState h1 (by simp) (by simp)
  unfold State.consultLive
  dsimp only
  split
  · have hr : SourceRec.Lawful (SourceRec.afterUnderrun { s.record i with state := .live }) :=
      ((hs i).withState h1 (st := .starved) (by simp) (by simp)).congr rfl rfl rfl rfl rfl rfl rfl rfl rfl rfl rfl
    exact (hs.setRecord i hr).congr (by simp)
  · rename_i ho
    have hr : SourceRec.Lawful (SourceRec.afterRemoval { s.record i with state := .live } (s.oldestWord i)) :=
      hl.afterRemoval (st := .live) (by simp) ho _ (by simp) (by simp)
    exact (hs.setRecord i hr).congr (by simp)

theorem State.SourcesLawful.consultDraining {s : State} (hs : s.SourcesLawful) (i : SourceId)
    (hd : (s.record i).state = .draining) : (s.consultDraining i).state.SourcesLawful := by
  have hoff : (s.record i).state ≠ .off := by rw [hd]; simp
  have ho := (hs i).draining hd
  unfold State.consultDraining
  dsimp only
  split
  · rename_i hz
    have hr := (hs i).afterRemoval hoff ho (s.oldestWord i) (st := .off) (fun _ => hz) (by simp)
    exact (hs.setRecord i hr).congr (by simp)
  · rename_i hz
    have hr := (hs i).afterRemoval hoff ho (s.oldestWord i) (st := (s.record i).state) (by rw [hd]; simp) (fun _ => hz)
    exact hs.setRecord i hr

theorem State.SourcesLawful.consult {s : State} (hs : s.SourcesLawful) (i : SourceId) : (s.consult i).state.SourcesLawful := by
  unfold State.consult
  dsimp only
  split <;> rename_i hst
  · exact hs
  · split
    · exact hs.consultLive i (by rw [hst]; simp)
    · exact hs
  · exact hs.consultLive i (by rw [hst]; simp)
  · split
    · exact hs.consultLive i (by rw [hst]; simp)
    · exact hs.setRecord i ((hs i).congr rfl rfl rfl rfl rfl rfl rfl rfl rfl rfl rfl)
  · exact hs.consultDraining i hst

/-! ### Source commands -/

/-- What a source command can do to the part: it is carried out or refused (R44). -/
theorem State.sourceCommand_cases (s : State) (c : SourceCommand) (n : BitVec 8) (body : SourceId → State → Except Reason State) :
    (∃ r, s.sourceCommand c n body = s.refuseCommand c.code n r) ∨
      (∃ (i : SourceId) (t : State), i.val = n.toNat ∧ body i s = .ok t ∧ s.sourceCommand c n body = t.commandResult c.code n .done) := by
  unfold State.sourceCommand
  split
  · rename_i h
    split
    · rename_i t ht; exact .inr ⟨⟨n.toNat, h⟩, t, rfl, ht, rfl⟩
    · exact .inl ⟨_, rfl⟩
  · exact .inl ⟨_, rfl⟩

/-- A source command leaves everything but the source unit, the refill queue and the interrupt unit as it is. -/
theorem State.body_frame {s t : State} {c : SourceCommand} {i : SourceId} (h : c.body i s = .ok t) :
    t.pending = s.pending ∧ t.resetAsserted = s.resetAsserted ∧ t.buffer = s.buffer ∧ t.downlink = s.downlink
      ∧ t.composer = s.composer ∧ t.commit = s.commit ∧ t.time = s.time ∧ t.window = s.window ∧ t.port = s.port := by
  cases c <;> simp only [SourceCommand.body, doOpen, doClose, doKill, doFlush] at h <;>
    (repeat' split at h) <;> cases h <;> simp

theorem State.srcCmd_frame (s : State) (cmd : BitVec 4) (n : BitVec 8) :
    (s.srcCmd cmd n).pending = s.pending ∧ (s.srcCmd cmd n).resetAsserted = s.resetAsserted
      ∧ (s.srcCmd cmd n).buffer = s.buffer ∧ (s.srcCmd cmd n).downlink = s.downlink
      ∧ (s.srcCmd cmd n).composer = s.composer ∧ (s.srcCmd cmd n).commit = s.commit ∧ (s.srcCmd cmd n).time = s.time
      ∧ (s.srcCmd cmd n).window = s.window ∧ (s.srcCmd cmd n).port = s.port := by
  unfold State.srcCmd
  split
  · rename_i c _
    obtain ⟨r, h⟩ | ⟨i, t, -, ht, h⟩ := s.sourceCommand_cases c n c.body <;> rw [h]
    · simp
    · simpa using State.body_frame ht
  · simp

section SrcCmd

variable (s : State) (w : Word)

@[simp] theorem State.srcCmdWrite_pending : (s.srcCmdWrite w).pending = s.pending := (s.srcCmd_frame _ _).1
@[simp] theorem State.srcCmdWrite_resetAsserted : (s.srcCmdWrite w).resetAsserted = s.resetAsserted := (s.srcCmd_frame _ _).2.1
@[simp] theorem State.srcCmdWrite_buffer : (s.srcCmdWrite w).buffer = s.buffer := (s.srcCmd_frame _ _).2.2.1
@[simp] theorem State.srcCmdWrite_downlink : (s.srcCmdWrite w).downlink = s.downlink := (s.srcCmd_frame _ _).2.2.2.1
@[simp] theorem State.srcCmdWrite_composer : (s.srcCmdWrite w).composer = s.composer := (s.srcCmd_frame _ _).2.2.2.2.1
@[simp] theorem State.srcCmdWrite_commit : (s.srcCmdWrite w).commit = s.commit := (s.srcCmd_frame _ _).2.2.2.2.2.1
@[simp] theorem State.srcCmdWrite_time : (s.srcCmdWrite w).time = s.time := (s.srcCmd_frame _ _).2.2.2.2.2.2.1
@[simp] theorem State.srcCmdWrite_window : (s.srcCmdWrite w).window = s.window := (s.srcCmd_frame _ _).2.2.2.2.2.2.2.1
@[simp] theorem State.srcCmdWrite_port : (s.srcCmdWrite w).port = s.port := (s.srcCmd_frame _ _).2.2.2.2.2.2.2.2

end SrcCmd

theorem State.SourcesLawful.body {s t : State} (hs : s.SourcesLawful) {c : SourceCommand} {i : SourceId} (h : c.body i s = .ok t) :
    t.SourcesLawful := by
  cases c
  · simp only [SourceCommand.body, doOpen] at h
    split at h
    · cases h
    · split at h
      · rename_i hg
        cases h
        exact (hs.setRecord i (.opened hg)).congr (by simp)
      · cases h
  · simp only [SourceCommand.body, doClose] at h
    split at h
    · rename_i hf
      cases h
      exact (hs.setRecord i ((hs i).closed (SourceState.feeding_ne_off hf))).congr (by simp)
    · cases h
  · simp only [SourceCommand.body, doKill] at h
    split at h
    · cases h; exact hs
    · rename_i ho
      cases h
      exact (hs.setRecord i ((hs i).emptied ho (st := .off) (by simp))).congr (by simp)
  · simp only [SourceCommand.body, doFlush] at h
    split at h
    · rename_i hf
      cases h
      have hk : (s.setRecord i ((s.record i).emptied .priming)).SourcesLawful :=
        hs.setRecord i ((hs i).emptied (SourceState.feeding_ne_off hf) (by simp))
      split
      · exact hk
      · exact hk.congr (by simp)
    · cases h

theorem State.SourcesLawful.sourceCommand {s : State} (hs : s.SourcesLawful) (c : SourceCommand) (n : BitVec 8) :
    (s.sourceCommand c n c.body).SourcesLawful := by
  obtain ⟨r, h⟩ | ⟨i, t, -, ht, h⟩ := s.sourceCommand_cases c n c.body <;> rw [h]
  · exact hs.congrRecords (by simp only [State.refuseCommand, State.report_sources]; rfl)
  · exact (hs.body ht).congrRecords rfl

theorem State.SourcesLawful.srcCmd {s : State} (hs : s.SourcesLawful) (cmd : BitVec 4) (n : BitVec 8) :
    (s.srcCmd cmd n).SourcesLawful := by
  unfold State.srcCmd
  split
  · exact hs.sourceCommand _ n
  · exact hs.congrRecords (by simp only [State.refuseCommand, State.report_sources]; rfl)

/-! ### Host writes to a record -/

/-- A word of a source record that is written leaves everything but the records and the checks handed over as it is. -/
theorem writeSourceWord_frame {s t : State} {i : SourceId} {k : Nat} {w : Word} (h : writeSourceWord i k w s = .ok t) :
    t.pending = s.pending ∧ t.resetAsserted = s.resetAsserted ∧ t.buffer = s.buffer ∧ t.refill.records = s.refill.records
      ∧ t.downlink = s.downlink ∧ t.composer = s.composer ∧ t.commit = s.commit ∧ t.time = s.time ∧ t.window = s.window
      ∧ t.irq = s.irq ∧ t.port = s.port := by
  unfold writeSourceWord at h
  dsimp only at h
  (repeat' split at h) <;> cases h
  case h_3.isFalse.refl =>
    unfold State.setWatermark
    dsimp only
    split <;> simp [State.handCheck]
  all_goals simp

theorem State.SourcesLawful.setWatermark {s : State} (hs : s.SourcesLawful) (i : SourceId) {w : Word}
    (h : (s.record i).state ≠ .off → w < (s.record i).length) : (s.setWatermark i w).SourcesLawful := by
  have hr : ∀ b : Bool, SourceRec.Lawful { s.record i with watermark := w, armed := b } := fun b =>
    ⟨(hs i).balance, (hs i).fits, (hs i).off, (hs i).draining, (hs i).lengthRange, (hs i).inBuffer, (hs i).startRange, h,
      (hs i).readRange, (hs i).tail⟩
  unfold State.setWatermark
  dsimp only
  split
  · exact (hs.setRecord i (hr ((s.record i).armed || decide (w < (s.record i).occupancy)))).congr (by simp)
  · exact hs.setRecord i (hr (s.record i).armed)

theorem State.SourcesLawful.writeSourceWord {s t : State} (hs : s.SourcesLawful) {i : SourceId} {k : Nat} {w : Word}
    (h : writeSourceWord i k w s = .ok t) : t.SourcesLawful := by
  have hl := hs i
  unfold Machine.writeSourceWord at h
  dsimp only at h
  (repeat' split at h) <;> cases h
  · rename_i h1 _
    exact hs.setRecord i (.ofOff hl.balance (hl.off (by simpa using h1)) (by simpa using h1))
  · rename_i h1 _
    exact hs.setRecord i (.ofOff hl.balance (hl.off (by simpa using h1)) (by simpa using h1))
  · rename_i h1
    refine hs.setWatermark i (fun ho => ?_)
    exact BitVec.not_le.mp (fun hc => h1 (.inr ⟨ho, hc⟩))
  · rename_i h1
    refine hs.setRecord i ⟨hl.balance, hl.fits, hl.off, hl.draining, hl.lengthRange, hl.inBuffer, fun ho => ?_, hl.markRange,
      hl.readRange, hl.tail⟩
    constructor
    · intro e; exact h1 (.inr ⟨ho, .inl e⟩)
    · exact BitVec.not_lt.mp (fun hc => h1 (.inr ⟨ho, .inr hc⟩))
  all_goals exact hs.setRecord i (hl.congr rfl rfl rfl rfl rfl rfl rfl rfl rfl rfl rfl)

end Sys2Proof.Machine
end

