-- ==== Sys2Proof/Laws/Step.lean ====
section
/-! SUPPORT. What a step can do, said once: each command is an access of the register window or an event; and a property that every
access and every event keeps is kept by every step. -/

namespace Sys2Proof.Machine

/-! ### The words of the rows -/

/-- A field of `k` bits at the low end of an appended word. -/
theorem extract_append_low {m k : Nat} (x : BitVec m) (y : BitVec k) : (x ++ y).extractLsb' 0 k = y := by
  ext i hi; simp [BitVec.getLsbD_append, hi]

/-- A field of `k` bits above the low `n` ones of an appended word. -/
theorem extract_append_mid {m k n : Nat} (x : BitVec m) (y : BitVec k) (z : BitVec n) : (x ++ y ++ z).extractLsb' n k = y := by
  ext i hi; simp [BitVec.getLsbD_append, hi]

theorem runRequestOf_runWord_start (rest : BitVec 12) : runRequestOf (rest ++ (1 : BitVec 4)) = some .start := by
  simp only [runRequestOf, extract_append_low]; rfl

theorem runRequestOf_runWord_clearHalt (rest : BitVec 12) : runRequestOf (rest ++ (3 : BitVec 4)) = some .clearHalt := by
  simp only [runRequestOf, extract_append_low]; rfl

theorem State.runCtrlWrite_start (s : State) (rest : BitVec 12) :
    s.runCtrlWrite (rest ++ (1 : BitVec 4)) = s.startRequest (rest ++ (1 : BitVec 4)) := by
  simp only [State.runCtrlWrite, runRequestOf_runWord_start]

theorem State.runCtrlWrite_clearHalt (s : State) (rest : BitVec 12) : s.runCtrlWrite (rest ++ (3 : BitVec 4)) = s.clearHalt := by
  simp only [State.runCtrlWrite, runRequestOf_runWord_clearHalt]

theorem stopWord_eq (rest : BitVec 10) (mode : BitVec 2) :
    stopWord rest mode = rest ++ (mode ++ (2 : BitVec 4) : BitVec 6) := by
  rw [stopWord, BitVec.append_assoc]; rfl

theorem runRequestOf_stopWord (rest : BitVec 10) (mode : BitVec 2) :
    runRequestOf (stopWord rest mode) =
      match mode.toNat with
      | 0 => some .stopEndMinor
      | 1 => some .stopEndMajor
      | 2 => some .abort
      | _ => none := by
  simp only [runRequestOf, stopWord, extract_append_mid, extract_append_low]
  rfl

theorem srcCmdWord_eq (cmd : BitVec 4) (src : BitVec 8) : srcCmdWord cmd src = (0 : BitVec 4) ++ cmd ++ src := by
  apply BitVec.eq_of_getLsbD_eq
  intro i hi
  simp only [srcCmdWord, field, BitVec.getLsbD_or, BitVec.getLsbD_append, BitVec.getLsbD_shiftLeft, BitVec.getLsbD_setWidth]
  by_cases h : i < 8
  · simp [h, hi]
  · by_cases h' : i - 8 < 4
    · simp [h, hi, h', show i - 8 < 16 by omega, BitVec.getLsbD_of_ge src i (by omega)]
    · simp [h, hi, h', BitVec.getLsbD_of_ge cmd _ (by omega : 4 ≤ i - 8), BitVec.getLsbD_of_ge src i (by omega)]

theorem srcCmdWrite_word (s : State) (cmd : BitVec 4) (src : BitVec 8) :
    s.srcCmdWrite ((0 : BitVec 4) ++ cmd ++ src) = s.srcCmd cmd src := by
  have h : ((0 : BitVec 4) ++ cmd ++ src).setWidth 8 = src := by
    apply BitVec.eq_of_getLsbD_eq; intro i hi
    rw [BitVec.getLsbD_setWidth, BitVec.getLsbD_append]; simp [hi]
  unfold State.srcCmdWrite
  rw [extract_append_mid]
  exact congrArg (s.srcCmd cmd) h

/-! ### Every row of the table that is an access -/

theorem State.takeAccess_congr {s : State} {h h' : HostAccess} {f g : State → State} (e : h = h') (eb : ∀ t, f t = g t) :
    s.takeAccess h f = s.takeAccess h' g := by
  rw [e, funext eb]

/-- A STOP row is the write its word spells. -/
theorem stop_access (s : State) (rest : BitVec 10) (mode : BitVec 2) {low : BitVec 6} (hl : low = mode ++ (2 : BitVec 4))
    {f : State → State} (hf : ∀ t : State, f t = t.runCtrlWrite (stopWord rest mode)) :
    s.takeAccess (.write (reg 0x00) (stopWord rest mode)) f = s.access (.write 0x00 (rest ++ low)) := by
  have e : stopWord rest mode = rest ++ low := by rw [stopWord_eq, hl]
  exact State.takeAccess_congr (by rw [e]; rfl) (fun t => by rw [hf, e]; rfl)

/-- A source command row is the write its word spells. -/
theorem command_access (s : State) (cmd : BitVec 4) (src : BitVec 8) {f : State → State}
    (hf : ∀ t : State, f t = t.srcCmd cmd src) :
    s.takeAccess (.write (reg 0x22) (srcCmdWord cmd src)) f = s.access (.write 0x11 ((0 : BitVec 4) ++ cmd ++ src)) :=
  State.takeAccess_congr (by rw [srcCmdWord_eq]; rfl) (fun t => by rw [hf, ← srcCmdWrite_word]; rfl)

theorem exec_of_access {c : Instr} {h : HostAccess} (hc : accessOf c = some h) (s : State) : exec c s = .next (s.access h) := by
  cases c <;> simp only [accessOf, Option.some.injEq, reduceCtorEq] at hc
  case clockRegisterWrite r w => cases r <;> (cases hc; rfl)
  all_goals subst hc
  all_goals try rfl
  case start rest =>
    exact congrArg Host.Outcome.next (State.takeAccess_congr rfl (fun t => (t.runCtrlWrite_start rest).symm))
  case clearHalt rest =>
    exact congrArg Host.Outcome.next (State.takeAccess_congr rfl (fun t => (t.runCtrlWrite_clearHalt rest).symm))
  case stopEndMinor rest =>
    exact congrArg Host.Outcome.next (stop_access s rest 0 rfl (fun t => by simp only [State.runCtrlWrite, runRequestOf_stopWord]; rfl))
  case stopEndMajor rest =>
    exact congrArg Host.Outcome.next (stop_access s rest 1 rfl (fun t => by simp only [State.runCtrlWrite, runRequestOf_stopWord]; rfl))
  case abort rest =>
    exact congrArg Host.Outcome.next (stop_access s rest 2 rfl (fun t => by simp only [State.runCtrlWrite, runRequestOf_stopWord]; rfl))
  case openSource src => exact congrArg Host.Outcome.next (command_access s 1 src (fun _ => rfl))
  case closeSource src => exact congrArg Host.Outcome.next (command_access s 2 src (fun _ => rfl))
  case kill src => exact congrArg Host.Outcome.next (command_access s 3 src (fun _ => rfl))
  case flush src => exact congrArg Host.Outcome.next (command_access s 4 src (fun _ => rfl))
  case srcCmdUndefinedCommand cmd src => exact congrArg Host.Outcome.next (command_access s cmd src (fun _ => rfl))

/-! ### What the shared operations can do -/

/-- START: refused, or a run starts, or the link is armed (R133). -/
theorem State.startRequest_cases (s : State) (w : Word) :
    (s.downlink.link ≠ .stopped ∧ s.startRequest w = s.refuseRun w) ∨
      (s.downlink.link = .stopped ∧ s.downlink.trigger = .immediate
        ∧ s.startRequest w = State.startRun { s with downlink := { s.downlink with lostWords := 0 } }) ∨
      (s.downlink.link = .stopped ∧ s.downlink.trigger = .external
        ∧ s.startRequest w = { s with downlink := { s.downlink with lostWords := 0, link := .armed } }) := by
  unfold State.startRequest
  cases hl : s.downlink.link <;> cases ht : s.downlink.trigger <;> simp

/-- An edge on START: nothing, or in ARMED a run starts (R134). -/
theorem State.startEdge_cases (s : State) :
    (s.downlink.link ≠ .armed ∧ s.startEdge = s) ∨ (s.downlink.link = .armed ∧ s.startEdge = s.startRun) := by
  unfold State.startEdge
  cases hl : s.downlink.link <;> simp

/-- A write to TBL_DATA: a plan word of the Staging bank in EDIT, a word of a source record, or a refusal; TBL_INDEX advances
(R162, R164). -/
theorem State.tableDataWrite_cases (s : State) (w : Word) :
    (∃ a b, s.tableDataWrite w = (s.report .tableWrite a b).advanceIndex) ∨
      (∃ pt, s.window.table = .plan pt ∧ s.window.bank = .staging ∧ s.commit.state = .edit ∧ s.tableDataWrite w =
        State.advanceIndex { s with commit := { s.commit with staging := s.commit.staging.setWord pt s.window.index w } }) ∨
      (∃ t, s.window.table = .source ∧ writeSourceWord s.indexedSource (s.window.index % 32) w s = .ok t
        ∧ s.tableDataWrite w = t.advanceIndex) := by
  unfold State.tableDataWrite
  split
  · rename_i t ht
    unfold writeTableWord at ht
    split at ht
    · rename_i pt hpt
      unfold writePlanWord at ht
      split at ht
      · cases ht
      · split at ht
        · rename_i hb hc; cases ht; exact .inr (.inl ⟨pt, hpt, hb, hc, rfl⟩)
        · cases ht
    · rename_i hsrc; exact .inr (.inr ⟨t, hsrc, ht, rfl⟩)
  · exact .inl ⟨_, _, rfl⟩

/-- A write to RUN_CTRL is one of the five requests or is refused (R132, R185). -/
theorem State.runCtrlWrite_cases (s : State) (w : Word) :
    s.runCtrlWrite w = s.startRequest w ∨ s.runCtrlWrite w = s.stopEndMinor ∨ s.runCtrlWrite w = s.stopEndMajor
      ∨ s.runCtrlWrite w = s.abort ∨ s.runCtrlWrite w = s.clearHalt ∨ s.runCtrlWrite w = s.refuseRun w := by
  unfold State.runCtrlWrite
  split <;> simp

/-- What carrying out an access can do: each write and read of the register map (12.1, R159). -/
theorem State.carryOut_keeps {P : State → Prop} (s : State) (h : HostAccess) (start : ∀ w, P (s.startRequest w))
    (refuseRun : ∀ w, P (s.refuseRun w)) (endMinor : P s.stopEndMinor) (endMajor : P s.stopEndMajor) (abort : P s.abort)
    (clearHalt : P s.clearHalt) (clock : ∀ r w, P (s.clockRegWrite r w)) (commit : ∀ w, P (s.commitCtrlWrite w))
    (sel : ∀ w, P (s.tblSelWrite w)) (index : ∀ w, P (s.tblIndexWrite w)) (dataWrite : ∀ w, P (s.tableDataWrite w))
    (dataRead : ∀ b, P (s.tableDataRead b)) (bufAddr : ∀ w, P (s.bufAddrWrite w)) (bufWrite : ∀ w, P (s.bufDataWrite w))
    (bufRead : P s.bufDataRead) (appendSrc : ∀ w, P (s.appendSrcWrite w)) (append : ∀ w, P (s.append w))
    (command : ∀ w, P (s.srcCmdWrite w)) (pop : P s.pop) (time : ∀ u, P { s with time := u }) (timeCtrl : ∀ w, P (s.timeCtrlWrite w))
    (flags : ∀ w, P (s.intFlagsWrite w)) (enables : ∀ w, P (s.intEnableWrite w)) (errKind : P s.errKindWrite)
    (softReset : P s.softReset) (answer : ∀ w, P (s.answer w)) (timeRead : P s.timeReadH) : P (s.carryOut h) := by
  cases h with
  | read a raised =>
    unfold State.carryOut State.readRegister
    dsimp only
    split <;> first
      | exact dataRead _
      | exact bufRead
      | exact timeRead
      | exact answer _
  | write a w =>
    unfold State.carryOut State.writeRegister
    dsimp only
    split
    case h_1 =>
      obtain h | h | h | h | h | h := s.runCtrlWrite_cases w <;> rw [h] <;> first
        | exact start w
        | exact endMinor
        | exact endMajor
        | exact abort
        | exact clearHalt
        | exact refuseRun w
    all_goals first
      | exact clock _ _
      | exact commit _
      | exact sel _
      | exact index _
      | exact dataWrite _
      | exact bufAddr _
      | exact bufWrite _
      | exact appendSrc _
      | exact append _
      | exact command _
      | exact pop
      | exact time _
      | exact timeCtrl _
      | exact flags _
      | exact enables _
      | exact errKind
      | exact softReset

/-! ### Held accesses and the port (R158, R165) -/

/-- With no buffer access in progress there is nothing to end. -/
theorem State.settle_of_free {s : State} (h : s.port = none) : s.settle = s := by unfold State.settle; rw [h]

/-- Once the buffer access in progress has ended the port is free. -/
theorem State.settle_port (s : State) : s.settle.port = none := by
  unfold State.settle
  split
  · assumption
  · dsimp only
    (repeat' split) <;> simp

/-- A port access that is performed, held or not, where its pieces keep `P`. -/
theorem State.performHeld_keeps {P : State → Prop} (hwin : ∀ t h w d, P t →
      P { t with window := { t.window with held := h, waiting := w, readData := d } })
    (happend : ∀ t w, P t → P (t.append w)) (hread : ∀ t, P t → P t.bufDataRead) (hwrite : ∀ t w, P t → P (t.bufDataWrite w))
    (s : State) (p : PortAccess) (b : Bool) (hs : P s) : P (s.performHeld p b) := by
  have h : P (s.portAccess p) := by
    cases p
    · exact happend s _ hs
    · exact hread s hs
    · exact hwrite s _ hs
  unfold State.performHeld
  split
  · exact hwin _ (s.portAccess p).window.held (s.portAccess p).window.waiting _ h
  · exact h

/-- The end of the buffer access in progress, where its pieces keep `P`. -/
theorem State.settle_keeps {P : State → Prop} (hport : ∀ t p, P t → P { t with port := p })
    (hwin : ∀ t h w d, P t → P { t with window := { t.window with held := h, waiting := w, readData := d } })
    (happend : ∀ t w, P t → P (t.append w)) (hread : ∀ t, P t → P t.bufDataRead) (hwrite : ∀ t w, P t → P (t.bufDataWrite w))
    (s : State) (hs : P s) : P s.settle := by
  unfold State.settle
  split
  · exact hs
  · dsimp only
    split
    · exact hport s _ hs
    · split
      · exact State.performHeld_keeps hwin happend hread hwrite _ _ _
          (hwin { s with port := none } none s.window.waiting s.window.readData (hport s _ hs))
      · exact hport s _ hs

/-- What the register window can do with an access: nothing while RESET# is asserted; hold it at the port; and else, the buffer access in
progress having ended, let it wait behind a held one or carry it out (R157, R158, R160, R165). -/
theorem State.access_keeps {P : State → Prop} (hsettle : ∀ s, P s → P s.settle)
    (hhold : ∀ s h, h.portUse.isSome = true → s.port.isSome = true → s.window.held = none → P s → P (s.hold h))
    (hwait : ∀ s x h, s.port = none → s.window.held = some x → P s → P (s.waitBehind x h))
    (hcarry : ∀ s h, s.port = none → s.window.held = none → P s → P (s.carryOut h)) (s : State) (h : HostAccess) (hs : P s) :
    P (s.access h) := by
  unfold State.access State.takeAccess
  split
  · exact hs
  · split
    · rename_i hp
      unfold State.heldAtPort at hp
      simp only [Bool.and_eq_true, Option.isNone_iff_eq_none] at hp
      exact hhold s h hp.1.1 hp.1.2 hp.2 hs
    · dsimp only
      split
      · rename_i x hx; exact hwait _ x h s.settle_port hx (hsettle s hs)
      · rename_i hn; exact hcarry _ h s.settle_port hn (hsettle s hs)

/-! ### The port stays free -/

theorem State.composeFirst_port (s : State) : s.composeFirst.port = s.port := by unfold State.composeFirst; simp

theorem State.startRun_port (s : State) : s.startRun.port = s.port := by
  unfold State.startRun; rw [State.composeFirst_port]

theorem State.carryOut_port {s : State} (h : HostAccess) (hs : s.port = none) : (s.carryOut h).port = none := by
  apply State.carryOut_keeps (P := fun t => t.port = none) s h
  case start =>
    intro w
    obtain ⟨-, e⟩ | ⟨-, -, e⟩ | ⟨-, -, e⟩ := s.startRequest_cases w <;> rw [e]
    · simpa using hs
    · rw [State.startRun_port]; exact hs
    · exact hs
  case dataWrite =>
    intro w
    obtain ⟨a, b, e⟩ | ⟨pt, -, -, -, e⟩ | ⟨t, -, ht, e⟩ := s.tableDataWrite_cases w <;> rw [e]
    · simpa using hs
    · exact hs
    · obtain ⟨-, -, -, -, -, -, -, -, -, -, hp⟩ := writeSourceWord_frame ht
      rw [State.advanceIndex_port, hp]; exact hs
  case softReset => rfl
  all_goals intros; first
    | exact hs
    | simpa using hs

/-- An access made while the port is free leaves it free. -/
theorem State.access_port {s : State} (h : HostAccess) (hs : s.port = none) : (s.access h).port = none := by
  apply State.access_keeps (P := fun t => t.port = none) (fun t _ => t.settle_port) _ _ (fun t a ht _ _ => State.carryOut_port a ht) s h hs
  · intro t a _ hp _ ht; rw [ht] at hp; cases hp
  · intro t x a _ _ ht; exact ht

theorem State.copyBackEnd_port {s : State} (hs : s.port = none) : s.copyBackEnd.port = none := by
  unfold State.copyBackEnd
  split
  · unfold State.releaseWaiting
    split
    · exact State.access_port _ (by simpa using hs)
    · simpa using hs
  all_goals exact hs

/-! ### A property that every step keeps -/

/-- `P` is kept by every access carried out at once and by every event; what a step does is made of these. -/
structure Kept (P : State → Prop) : Prop where
  pending : ∀ s l, P s → P { s with pending := l }
  settle : ∀ s, P s → P s.settle
  hold : ∀ s h, h.portUse.isSome = true → s.port.isSome = true → s.window.held = none → P s → P (s.hold h)
  wait : ∀ s x h, s.port = none → s.window.held = some x → P s → P (s.waitBehind x h)
  carryOut : ∀ s h, s.port = none → s.window.held = none → P s → P (s.carryOut h)
  hardwareReset : ∀ s b, P s → P (s.hardwareReset b)
  resetRelease : ∀ s, P s → P s.resetRelease
  takeCheck : ∀ s i, P s → P (s.takeCheck i)
  startEdge : ∀ s, P s → P s.startEdge
  stoppingEnd : ∀ s, P s → P s.stoppingEnd
  clockLossExpiry : ∀ s, P s → P s.clockLossExpiry
  bclkiRisingEdge : ∀ s, P s → P s.bclkiRisingEdge
  bitPeriodStart : ∀ s, P s → P s.bitPeriodStart
  firstBit : ∀ s gaps reading, s.port = none → P s → P (s.firstBit gaps reading)
  validationEnd : ∀ s, P s → P s.validationEnd
  copyBackEnd : ∀ s, s.port = none → s.commit.state = .syncing → P s → P s.copyBackEnd
  tick : ∀ s, P s → P s.tick
  tsyncEdge : ∀ s, P s → P s.tsyncEdge
  divider : ∀ s n, P s → P { s with time := { s.time with divider := n } }
  elapsed : ∀ s n, P s → P { s with commit := { s.commit with elapsed := n } }
  lossTimer : ∀ s n, P s → P { s with downlink := { s.downlink with lossTimer := n } }
  halfCount : ∀ s n, P s → P { s with downlink := { s.downlink with halfCount := n } }
  rise : ∀ s, P s → P { s with downlink := { s.downlink with bclko := true, halfCount := 0 } }

namespace Kept

variable {P : State → Prop} (k : Kept P)
include k

theorem access {s : State} (h : HostAccess) (hs : P s) : P (s.access h) :=
  State.access_keeps k.settle k.hold k.wait k.carryOut s h hs

theorem outOfReset {s : State} {body : State → State} (hb : s.settle.port = none → P s.settle → P (body s.settle)) (hs : P s) :
    P (s.outOfReset body) := by
  unfold State.outOfReset
  split
  · exact hs
  · exact hb s.settle_port (k.settle s hs)

theorem copyBackEnd' (s : State) (hp : s.port = none) (hs : P s) : P s.copyBackEnd := by
  cases h : s.commit.state
  case syncing => exact k.copyBackEnd s hp h hs
  all_goals unfold State.copyBackEnd; rw [h]; exact hs

theorem exec {c : Instr} {s t : State} (hs : P s) (h : exec c s = .next t) : P t := by
  cases hc : accessOf c with
  | some a =>
    rw [exec_of_access hc] at h
    cases h
    exact k.access a hs
  | none =>
    cases c <;> simp only [accessOf, reduceCtorEq] at hc
    case clockRegisterWrite r w => cases r <;> cases hc
    all_goals injection h with h; subst h
    case hardwareReset b => exact k.hardwareReset s b hs
    case resetRelease => exact k.resetRelease s hs
    case startEdge => exact k.outOfReset (fun _ => k.startEdge _) hs
    case stoppingEnd => exact k.outOfReset (fun _ => k.stoppingEnd _) hs
    case clockLossExpiry => exact k.outOfReset (fun _ => k.clockLossExpiry _) hs
    case bclkiRisingEdge => exact k.outOfReset (fun _ => k.bclkiRisingEdge _) hs
    case bitPeriodStart => exact k.outOfReset (fun _ => k.bitPeriodStart _) hs
    case cellCompose gaps reading => exact k.outOfReset (k.firstBit _ gaps reading) hs
    case watermarkCheck i => exact k.outOfReset (fun _ => k.takeCheck _ i) hs
    case validationEnd => exact k.outOfReset (fun _ => k.validationEnd _) hs
    case copyBackEnd => exact k.outOfReset (k.copyBackEnd' _) hs
    case tick => exact k.outOfReset (fun _ => k.tick _) hs
    case tsyncEdge => exact k.outOfReset (fun _ => k.tsyncEdge _) hs

theorem drainChecks (s : State) (hp : s.port = none) (hs : P s) : s.drainChecks.port = none ∧ P s.drainChecks := by
  unfold State.drainChecks
  generalize s.refill.checks = l
  induction l generalizing s with
  | nil => exact ⟨hp, hs⟩
  | cons i l ih => exact ih _ (by simpa using hp) (k.takeCheck s i hs)

theorem dividerPeriod (s : State) (hp : s.port = none) (hs : P s) : s.dividerPeriod.port = none ∧ P s.dividerPeriod := by
  unfold State.dividerPeriod
  split
  · exact ⟨by simpa using hp, k.tick s hs⟩
  · exact ⟨hp, k.divider s _ hs⟩

theorem operationPeriod (s : State) (hp : s.port = none) (hs : P s) : s.operationPeriod.port = none ∧ P s.operationPeriod := by
  unfold State.operationPeriod
  dsimp only
  (repeat' split) <;> first
    | exact ⟨by simpa using hp, k.validationEnd s hs⟩
    | exact ⟨State.copyBackEnd_port hp, k.copyBackEnd' s hp hs⟩
    | exact ⟨hp, k.elapsed s _ hs⟩

theorem lossPeriod (s : State) (hp : s.port = none) (hs : P s) : s.lossPeriod.port = none ∧ P s.lossPeriod := by
  unfold State.lossPeriod
  (repeat' split) <;> first
    | exact ⟨by simpa using hp, k.clockLossExpiry s hs⟩
    | exact ⟨hp, k.lossTimer s _ hs⟩

theorem fallingEdge (s : State) (hp : s.port = none) (hs : P s) : P s.fallingEdge := by
  unfold State.fallingEdge
  (repeat' split) <;> first
    | exact k.stoppingEnd s hs
    | exact k.bitPeriodStart s hs
    | exact k.firstBit s [] false hp hs

theorem generatorPeriod (s : State) (hp : s.port = none) (hs : P s) : P s.generatorPeriod := by
  unfold State.generatorPeriod
  (repeat' split) <;> first
    | exact k.fallingEdge s hp hs
    | exact k.rise s hs
    | exact k.halfCount s _ hs

theorem refclk (s : State) (hs : P s) : P s.refclk := by
  refine k.outOfReset (fun hp hs => ?_) hs
  obtain ⟨p1, h1⟩ := k.drainChecks _ hp hs
  obtain ⟨p2, h2⟩ := k.dividerPeriod _ p1 h1
  obtain ⟨p3, h3⟩ := k.operationPeriod _ p2 h2
  obtain ⟨p4, h4⟩ := k.lossPeriod _ p3 h3
  exact k.generatorPeriod _ p4 h4

/-- A property kept by every access and event is kept by every step. -/
theorem step {s t : State} (hs : P s) (h : step s = .next t) : P t := by
  unfold Machine.step at h
  split at h
  · exact k.exec (k.pending s _ hs) h
  · cases h; exact k.refclk s hs

end Kept

/-- The end of a copy-back, where its pieces keep `P`. -/
theorem copyBackEnd_keeps {P : State → Prop} {s : State} (hsync : s.commit.state = .syncing)
    (hread : P s.copyBack.releaseRead) (hwait : ∀ t, P t → P { t with window := { t.window with waiting := none } })
    (hacc : ∀ t h, P t → P (t.access h)) : P s.copyBackEnd := by
  unfold State.copyBackEnd
  rw [hsync]
  dsimp only
  unfold State.releaseWaiting
  split
  · exact hacc _ _ (hwait _ hread)
  · exact hread

/-- The release of the held read, where its pieces keep `P`. -/
theorem State.releaseRead_keeps {P : State → Prop}
    (hwin : ∀ t h w d, P t → P { t with window := { t.window with held := h, waiting := w, readData := d } })
    (hadv : ∀ t, P t → P t.advanceIndex) (s : State) (hs : P s) : P s.releaseRead := by
  unfold State.releaseRead
  split
  · exact hs
  · dsimp only
    have h : P (State.answerTableRead { s with window := { s.window with held := none } }) := by
      refine hadv _ ?_
      exact hwin s none s.window.waiting _ hs
    split
    · exact hwin _ none _ _ h
    · exact h

end Sys2Proof.Machine
end

