-- ==== Sys2Proof/Laws/CellFlow.lean ====
section
/-! SUPPORT. Compositions, piece by piece: a property that every event and every piece of a composition keeps is kept by the whole, the
arbiter's order included (R165, R166). -/

namespace Sys2Proof.Machine

/-! ### Events while a cell is composed -/

/-- `P` is kept by everything that can fall while a cell is composed. -/
structure KeptEvents (P : State → Prop) : Prop where
  access : ∀ s h, P s → P (s.access h)
  perform : ∀ s p b, s.window.held = none → P s → P (s.performHeld p b)
  takeCheck : ∀ s i, P s → P (s.takeCheck i)
  tick : ∀ s, P s → P s.tick
  tsyncEdge : ∀ s, P s → P s.tsyncEdge
  validationEnd : ∀ s, P s → P s.validationEnd
  release : ∀ s, s.commit.state = .syncing → P s →
    P { s.copyBack.releaseRead with window := { s.copyBack.releaseRead.window with waiting := none } }

namespace KeptEvents

variable {P : State → Prop} (k : KeptEvents P)
include k

theorem ask (f : CellFlow) (p : PortAccess) (c : Bool) (hn : f.state.window.held = none) (h : P f.state) : P (f.ask p c).state := by
  unfold CellFlow.ask
  split
  · exact k.perform _ _ _ hn h
  all_goals exact h

theorem host (f : CellFlow) (a : HostAccess) (h : P f.state) : P (f.host a).state := by
  unfold CellFlow.host
  split
  · exact h
  · split
    · rename_i hn; exact k.ask f _ _ hn h
    · exact k.access _ _ h

theorem tie (f : CellFlow) (b : Bool) (p : PortAccess) (h : P f.state) : P (f.tie b p).state := by
  unfold CellFlow.tie
  split
  · exact h
  · split
    · rename_i hn; exact k.ask f _ _ hn h
    · exact k.access _ _ h

theorem event (f : CellFlow) (e : CellEvent) (h : P f.state) : P (f.event e).state := by
  cases e
  case access a => exact k.host f a h
  case watermarkCheck i => exact k.takeCheck _ i h
  case tick => exact k.tick _ h
  case tsyncEdge => exact k.tsyncEdge _ h
  case validationEnd => exact k.validationEnd _ h
  case copyBackEnd =>
    unfold CellFlow.event
    dsimp only
    split
    · rename_i hs
      have hr := k.release _ hs h
      unfold CellFlow.release
      split
      · exact k.host _ _ hr
      · rename_i hw
        have e : { f.state.copyBack.releaseRead with
            window := { f.state.copyBack.releaseRead.window with waiting := none } } = f.state.copyBack.releaseRead := by
          rw [← hw]
        rw [e] at hr
        exact hr
    all_goals exact h

theorem events (f : CellFlow) (es : List CellEvent) (h : P f.state) : P (f.events es).state := by
  unfold CellFlow.events
  induction es generalizing f with
  | nil => exact h
  | cons e es ih => exact ih _ (k.event f e h)

theorem toConsult (f : CellFlow) (reads : State → Bool) (h : P f.state) : P (f.toConsult reads).state := by
  unfold CellFlow.toConsult
  dsimp only
  split
  · exact k.tie _ _ _ (k.events _ _ h)
  · exact k.events _ _ h

theorem finish (f : CellFlow) (h : P f.state) : P f.finish.state := k.events _ _ h

end KeptEvents

/-! ### Properties that an access carried out at once keeps -/

/-- `P` is kept by an access carried out at once in every state, and by what the register window and the arbiter do beside it. -/
structure KeptPieces (P : State → Prop) : Prop where
  carryOut : ∀ s h, P s → P (s.carryOut h)
  port : ∀ t p, P t → P { t with port := p }
  window : ∀ t h w d, P t → P { t with window := { t.window with held := h, waiting := w, readData := d } }
  advanceIndex : ∀ t, P t → P t.advanceIndex
  takeCheck : ∀ s i, P s → P (s.takeCheck i)
  tick : ∀ s, P s → P s.tick
  tsyncEdge : ∀ s, P s → P s.tsyncEdge
  validationEnd : ∀ s, P s → P s.validationEnd
  copyBack : ∀ s, s.commit.state = .syncing → P s → P s.copyBack

namespace KeptPieces

variable {P : State → Prop} (k : KeptPieces P)
include k

theorem performHeld (s : State) (p : PortAccess) (b : Bool) (h : P s) : P (s.performHeld p b) :=
  State.performHeld_keeps k.window (fun t w h => k.carryOut t (.write 0x10 w) h) (fun t h => k.carryOut t (.read 0x0E false) h)
    (fun t w h => k.carryOut t (.write 0x0E w) h) s p b h

theorem settle (s : State) (h : P s) : P s.settle :=
  State.settle_keeps k.port k.window (fun t w h => k.carryOut t (.write 0x10 w) h) (fun t h => k.carryOut t (.read 0x0E false) h)
    (fun t w h => k.carryOut t (.write 0x0E w) h) s h

theorem hold (s : State) (h : HostAccess) (hs : P s) : P (s.hold h) :=
  k.window s (some { access := h, abandoned := h.raised }) s.window.waiting s.window.readData hs

theorem waitBehind (s : State) (x : HeldAccess) (h : HostAccess) (hs : P s) : P (s.waitBehind x h) :=
  k.window s (some { x with abandoned := true }) (some h) s.window.readData hs

theorem access (s : State) (h : HostAccess) (hs : P s) : P (s.access h) :=
  State.access_keeps k.settle (fun s h _ _ _ hs => k.hold s h hs) (fun s x h _ _ hs => k.waitBehind s x h hs)
    (fun s h _ _ hs => k.carryOut s h hs) s h hs

theorem releaseRead (s : State) (hsync : s.commit.state = .syncing) (h : P s) : P s.copyBack.releaseRead :=
  State.releaseRead_keeps k.window k.advanceIndex _ (k.copyBack s hsync h)

theorem copyBackEnd (s : State) (hsync : s.commit.state = .syncing) (h : P s) : P s.copyBackEnd :=
  copyBackEnd_keeps hsync (k.releaseRead s hsync h) (fun t h => k.window t t.window.held none t.window.readData h) k.access

/-- Such a property is kept by everything that can fall while a cell is composed. -/
theorem events : KeptEvents P where
  access := k.access
  perform s p b _ h := k.performHeld s p b h
  takeCheck := k.takeCheck
  tick := k.tick
  tsyncEdge := k.tsyncEdge
  validationEnd := k.validationEnd
  release s hsync h :=
    k.window _ s.copyBack.releaseRead.window.held none s.copyBack.releaseRead.window.readData (k.releaseRead s hsync h)

end KeptPieces

/-! ### Cells -/

/-- The pieces a composition is made of keep `P`, and its end gives `Q`. -/
structure KeptCompose (P Q : State → Prop) : Prop where
  events : KeptEvents P
  openCell : ∀ s m c, P s → P (s.openCell m c)
  setLookahead : ∀ s v d f, P s → P (s.setLookahead v d f)
  consult : ∀ s i, P s → P (s.consult i).state
  close : ∀ s p, p ≠ some .window → P s → Q { s with port := p }

namespace KeptCompose

variable {P Q : State → Prop} (k : KeptCompose P Q)
include k

theorem closeFlow (f : CellFlow) (reading : Bool) (h : P f.state) : Q (f.close reading) := by
  unfold CellFlow.close
  refine k.close _ _ ?_ (k.events.finish f h)
  split <;> simp

theorem takeChecks (l : List SourceId) (s : State) (hs : P s) : P (s.takeChecks l) := by
  unfold State.takeChecks
  induction l generalizing s with
  | nil => exact hs
  | cons i l ih => exact ih _ (k.events.takeCheck s i hs)

theorem resolveBase (m c : Nat) (l : List SourceId) (f : CellFlow) (h : P f.state) : P (resolveBase m c l f).flow.state := by
  unfold Machine.resolveBase
  dsimp only
  have hg := fun r => k.events.toConsult f r h
  split
  · unfold CellFlow.base
    dsimp only
    split <;> first
      | exact k.consult _ _ (hg _)
      | exact k.takeChecks l _ (hg _)
      | exact hg _
  · exact hg _

theorem resolveLayers (m c : Nat) (ks : List Nat) (l : List SourceId) (f : CellFlow) (h : P f.state) :
    P (resolveLayers m c ks l f).flow.state := by
  induction ks generalizing l f with
  | nil => exact k.resolveBase m c l f h
  | cons w ks ih =>
    unfold Machine.resolveLayers
    dsimp only
    have hg := fun r => k.events.toConsult f r h
    (repeat' split) <;> first
      | exact k.consult _ _ (hg _)
      | exact ih _ _ (k.consult _ _ (hg _))
      | exact hg _

theorem composeCell (s : State) (gaps : List CellGap) (reading : Bool) (m c : Nat) (hs : P s) :
    Q (s.composeCell gaps reading m c) := by
  have ho := k.openCell s m c hs
  unfold State.composeCell
  dsimp only
  split
  · exact k.closeFlow _ _ (k.setLookahead _ _ _ _ ho)
  · have hr := k.resolveLayers m c ((s.openCell m c).commit.active.windowLayers m c) [] (CellFlow.start (s.openCell m c) gaps) ho
    split
    · exact k.closeFlow _ _ (k.setLookahead _ _ _ _ hr)
    · exact k.closeFlow _ _ hr

theorem composeFirst (s : State) (hs : P s) : P s.composeFirst := k.setLookahead _ _ _ _ (k.openCell s 0 0 hs)

/-- The first bit of a cell, where the port's and the time counter's part in it keeps `P` too. -/
theorem firstBit (hPQ : ∀ s, P s → Q s)
    (hshift : ∀ s w b mfs jfs, P s →
      P { s with downlink := s.downlink.beginBit w b mfs jfs, composer := { s.composer with lookahead := none } })
    (hstart : ∀ s m, P s → P (s.startEvent m)) (hmajor : ∀ s, P s → P s.majorEndPoint)
    (hreach : ∀ s, P s → P { s with downlink := { s.downlink with target := .reached } })
    (s : State) (gaps : List CellGap) (reading : Bool) (hs : P s) : Q (s.firstBit gaps reading) := by
  have hsucc : ∀ t m c, P t → Q (t.composeSuccessor gaps reading m c) := by
    intro t m c ht
    unfold State.composeSuccessor
    dsimp only
    split
    · exact k.composeCell _ _ _ _ _ ht
    · have h2 : ∀ b : Bool, P (if b = true then t.majorEndPoint else t) := by
        intro b; split
        · exact hmajor t ht
        · exact ht
      split
      · exact k.closeFlow _ _ (hreach _ (h2 _))
      · exact k.composeCell _ _ _ _ _ (h2 _)
  unfold State.firstBit
  split
  · split
    · dsimp only
      split
      · exact hsucc _ _ _ (hstart _ _ (hshift s _ _ _ _ hs))
      · exact hsucc _ _ _ (hshift s _ _ _ _ hs)
    · exact hPQ _ hs
  · exact hPQ _ hs

end KeptCompose

end Sys2Proof.Machine
end

