-- ==== Sys2Proof/Laws/Commit.lean ====
section
/-! SUPPORT. The operations of the commit controller, and the ends of a run, keep the controller's laws (R101, R104, R116). -/

namespace Sys2Proof.Machine

/-- The default plan passes validation (R8, R101). -/
theorem Bank.validate_default : Bank.default.validate = none := by decide +kernel

theorem State.CommitLawful.congr {s t : State} (hs : s.CommitLawful) (hc : t.commit = s.commit)
    (hl : t.downlink.link.inRun = s.downlink.link.inRun) : t.CommitLawful :=
  ⟨hc ▸ hs.activePasses, hc ▸ hs.pendingPasses, by rw [hc, hl]; exact hs.pendingInRun⟩

/-- The plans and the state stand, and the controller is not PENDING unless the link is in a run. -/
theorem State.CommitLawful.of {s t : State} (hs : s.CommitLawful) (ha : t.commit.active = s.commit.active)
    (h : t.commit.state = .pending → s.commit.state = .pending ∧ t.commit.staging = s.commit.staging ∧ t.downlink.link.inRun = true) :
    t.CommitLawful :=
  ⟨ha ▸ hs.activePasses, fun e => (h e).2.1 ▸ hs.pendingPasses (h e).1, fun e => (h e).2.2⟩

theorem State.swapIfPending_state (s : State) : s.swapIfPending.commit.state ≠ .pending := by
  unfold State.swapIfPending
  split
  · simp [State.swap]
  · assumption

theorem State.swapIfPending_active {s : State} :
    (s.commit.state = .pending ∧ s.swapIfPending.commit.active = s.commit.staging) ∨
      (s.commit.state ≠ .pending ∧ s.swapIfPending = s) := by
  unfold State.swapIfPending
  split
  · exact .inl ⟨‹_›, rfl⟩
  · exact .inr ⟨‹_›, rfl⟩

/-- Whatever became of the link, the law holds once a pending swap is taken (R117). -/
theorem State.CommitLawful.swapIfPending {s t : State} (hs : s.CommitLawful) (hc : t.commit = s.commit) :
    t.swapIfPending.CommitLawful := by
  refine ⟨?_, fun e => absurd e t.swapIfPending_state, fun e => absurd e t.swapIfPending_state⟩
  obtain ⟨h, e⟩ | ⟨-, e⟩ := t.swapIfPending_active
  · rw [e, hc]; exact hs.pendingPasses (hc ▸ h)
  · rw [e, hc]; exact hs.activePasses

theorem State.CommitLawful.leaveRun {s t : State} (hs : s.CommitLawful) (hc : t.commit = s.commit) (l : LinkState) :
    (t.leaveRun l).CommitLawful := by
  unfold State.leaveRun; refine hs.swapIfPending ?_; exact hc

theorem State.CommitLawful.cutRun {s : State} (hs : s.CommitLawful) (l : LinkState) : (s.cutRun l).CommitLawful := by
  unfold State.cutRun; refine hs.leaveRun ?_ l; rfl

theorem State.CommitLawful.majorEndPoint {s : State} (hs : s.CommitLawful) : s.majorEndPoint.CommitLawful := by
  unfold State.majorEndPoint; refine hs.swapIfPending ?_; rfl

theorem State.refuseCommit_commit (s : State) (w : Word) (q : CommitReq) :
    (s.refuseCommit w q).commit = { s.commit with req := q } := by
  simp [State.refuseCommit]

theorem State.CommitLawful.commitCtrlWrite {s : State} (hs : s.CommitLawful) (w : Word) : (s.commitCtrlWrite w).CommitLawful := by
  have refuse : ∀ w q, (s.refuseCommit w q).CommitLawful := fun w q =>
    hs.of (by rw [State.refuseCommit_commit]) (fun e => by
      rw [State.refuseCommit_commit] at e ⊢
      exact ⟨e, rfl, by rw [State.refuseCommit_downlink]; exact hs.pendingInRun e⟩)
  unfold State.commitCtrlWrite State.commitRequest State.cancelRequest
  (repeat' split) <;> first
    | exact refuse _ _
    | exact hs
    | exact hs.of rfl (fun e => by cases e)

theorem State.CommitLawful.validationEnd {s : State} (hs : s.CommitLawful) : s.validationEnd.CommitLawful := by
  unfold State.validationEnd
  split
  · split
    · exact hs.of rfl (fun e => by cases e)
    · rename_i hv
      split
      · rename_i hl; exact ⟨hs.activePasses, fun _ => hv, fun _ => hl⟩
      · exact ⟨hv, (fun e => by cases e), (fun e => by cases e)⟩
  all_goals exact hs

theorem State.CommitLawful.copyBack {s : State} (hs : s.CommitLawful) : s.copyBack.CommitLawful :=
  hs.of rfl (fun e => by cases e)

theorem State.openCell_commit (s : State) (m c : Nat) :
    (s.openCell m c).commit = { s.commit with newPlan := (s.openCell m c).commit.newPlan } := by
  unfold State.openCell; dsimp only; (repeat' split) <;> rfl

theorem State.CommitLawful.openCell {s : State} (hs : s.CommitLawful) (m c : Nat) : (s.openCell m c).CommitLawful :=
  hs.of (by rw [State.openCell_commit]) (fun e => by
    rw [State.openCell_commit] at e ⊢
    exact ⟨e, rfl, by rw [State.openCell_downlink]; exact hs.pendingInRun e⟩)

/-! ### RESULT and COMMIT_FAULT -/

theorem State.ResultLawful.of {s t : State} (hs : s.ResultLawful) (hr : t.commit.result = s.commit.result)
    (hf : t.commit.fault = s.commit.fault) (h : t.commit.state ≠ .edit → s.commit.state ≠ .edit) : t.ResultLawful :=
  ⟨by rw [hr, hf]; exact hs.faultZero, fun e => hr ▸ hs.noneInProgress (h e)⟩

theorem State.ResultLawful.congr {s t : State} (hs : s.ResultLawful) (hc : t.commit = s.commit) : t.ResultLawful :=
  hs.of (by rw [hc]) (by rw [hc]) (by rw [hc]; exact id)

theorem State.ResultLawful.swapIfPending {s : State} (hs : s.ResultLawful) : s.swapIfPending.ResultLawful := by
  unfold State.swapIfPending
  split
  · rename_i h; exact hs.of rfl rfl (fun _ => by rw [h]; simp)
  · exact hs

theorem State.ResultLawful.commitCtrlWrite {s : State} (hs : s.ResultLawful) (w : Word) : (s.commitCtrlWrite w).ResultLawful := by
  have refuse : ∀ w q, (s.refuseCommit w q).ResultLawful := fun w q =>
    hs.of (by rw [State.refuseCommit_commit]) (by rw [State.refuseCommit_commit]) (by rw [State.refuseCommit_commit]; exact id)
  unfold State.commitCtrlWrite State.commitRequest State.cancelRequest
  (repeat' split) <;> first
    | exact refuse _ _
    | exact hs
    | exact ⟨fun _ => rfl, fun _ => rfl⟩

theorem State.ResultLawful.validationEnd {s : State} (hs : s.ResultLawful) : s.validationEnd.ResultLawful := by
  unfold State.validationEnd
  split
  · rename_i h
    have hn : s.commit.state ≠ .edit := by rw [h]; simp
    split
    · exact ⟨fun e => absurd rfl (e _), fun e => absurd rfl e⟩
    · split
      · exact hs.of rfl rfl (fun _ => hn)
      · exact hs.of rfl rfl (fun _ => hn)
  all_goals exact hs

theorem State.ResultLawful.copyBack {s : State} (hs : s.ResultLawful) (h : s.commit.state = .syncing) : s.copyBack.ResultLawful := by
  have hn := hs.noneInProgress (by rw [h]; simp)
  exact ⟨fun _ => hs.faultZero (fun step => by rw [hn]; simp), fun e => absurd rfl e⟩

end Sys2Proof.Machine
end

