-- ==== Sys2Proof/Laws/Plan.lean ====
section
/-! SUPPORT. What each part of validation says of a plan (R109 … R114). -/

namespace Sys2Proof.Machine

/-- A word equals a numeral exactly when its number does. -/
theorem word_eq_iff (k : Word) {n : Nat} (hn : n < 65536) : k = BitVec.ofNat 16 n ↔ k.toNat = n := by
  rw [← BitVec.toNat_inj]
  simp [Nat.mod_eq_of_lt hn]

theorem entryOf_mapBad_iff (k a : Word) : (entryOf k a).mapBad = false ↔ mapEntryAllowed k a := by
  have e : ∀ n : Nat, n < 65536 → (k.toNat = n ↔ k = BitVec.ofNat 16 n) := fun n hn => (word_eq_iff k hn).symm
  have e0 := e 0
  have e1 := e 1
  have e2 := e 2
  have e3 := e 3
  have e4 := e 4
  have e5 := e 5
  unfold entryOf mapEntryAllowed
  split <;> simp_all [Entry.mapBad]

theorem entryOf_rowBad_iff (k a : Word) : (entryOf k a).rowBad = false ↔ poolEntryAllowed k a := by
  have e : ∀ n : Nat, n < 65536 → (k.toNat = n ↔ k = BitVec.ofNat 16 n) := fun n hn => (word_eq_iff k hn).symm
  have e0 := e 0
  have e1 := e 1
  have e2 := e 2
  have e3 := e 3
  have e4 := e 4
  have e5 := e 5
  unfold entryOf poolEntryAllowed
  split <;> simp_all [Entry.rowBad]

theorem entryOf_subcom_iff (k a g : Word) : entryOf k a = .subcom g ↔ k = 2 ∧ a = g := by
  rw [show (2 : Word) = BitVec.ofNat 16 2 from rfl, word_eq_iff k (by omega)]
  unfold entryOf
  split <;> simp_all

theorem firstFailing_none {bad : Nat → Bool} {lo len : Nat} :
    firstFailing bad lo len = none ↔ ∀ i, lo ≤ i → i < lo + len → bad i = false := by
  simp [firstFailing, List.find?_eq_none, List.mem_range'_1]

/-- The first failing member of a rising list is the least failing one. -/
theorem find_least {l : List Nat} (hp : l.Pairwise (· < ·)) {bad : Nat → Bool} {i : Nat} (h : l.find? bad = some i) :
    i ∈ l ∧ bad i = true ∧ ∀ j ∈ l, j < i → bad j = false := by
  induction l with
  | nil => simp at h
  | cons a l ih =>
    rw [List.find?_cons] at h
    rw [List.pairwise_cons] at hp
    cases hb : bad a with
    | true =>
      rw [hb] at h
      simp only [Option.some.injEq] at h
      subst h
      refine ⟨List.mem_cons_self, hb, fun j hj hlt => ?_⟩
      rcases List.mem_cons.mp hj with rfl | hj
      · omega
      · have := hp.1 j hj
        omega
    | false =>
      rw [hb] at h
      obtain ⟨h1, h2, h3⟩ := ih hp.2 h
      refine ⟨List.mem_cons_of_mem _ h1, h2, fun j hj hlt => ?_⟩
      rcases List.mem_cons.mp hj with rfl | hj
      · exact hb
      · exact h3 j hj hlt

theorem firstFailing_some {bad : Nat → Bool} {lo len i : Nat} (h : firstFailing bad lo len = some i) :
    lo ≤ i ∧ i < lo + len ∧ bad i = true ∧ ∀ j, lo ≤ j → j < i → bad j = false := by
  obtain ⟨h1, h2, h3⟩ := find_least List.pairwise_lt_range' h
  have h1 := List.mem_range'_1.mp h1
  exact ⟨h1.1, h1.2, h2, fun j hlo hj => h3 j (List.mem_range'_1.mpr ⟨hlo, by omega⟩) hj⟩

theorem Bank.formatFault_none (b : Bank) : b.formatFault = none ↔
    (b.w = 8 ∨ b.w = 10 ∨ b.w = 12 ∨ b.w = 14 ∨ b.w = 16) ∧ (8 ≤ b.n ∧ b.n ≤ 1024) ∧ (1 ≤ b.m ∧ b.m ≤ 256)
      ∧ (1 ≤ b.s ∧ b.s ≤ 3) ∧ b.n * b.w ≤ 16384 := by
  unfold Bank.formatFault
  split
  · rename_i h
    exact ⟨fun e => (Option.some_ne_none _ e).elim, fun e => absurd e.1 h⟩
  · rename_i h1
    split
    · rename_i h
      exact ⟨fun e => (Option.some_ne_none _ e).elim, fun e => absurd e.2.1 h⟩
    · rename_i h2
      split
      · rename_i h
        exact ⟨fun e => (Option.some_ne_none _ e).elim, fun e => absurd e.2.2.1 h⟩
      · rename_i h3
        split
        · rename_i h
          exact ⟨fun e => (Option.some_ne_none _ e).elim, fun e => absurd e.2.2.2.1 h⟩
        · rename_i h4
          split
          · rename_i h
            exact ⟨fun e => (Option.some_ne_none _ e).elim, fun e => absurd e.2.2.2.2 h⟩
          · rename_i h5
            exact ⟨fun _ => ⟨not_not.mp h1, not_not.mp h2, not_not.mp h3, not_not.mp h4, not_not.mp h5⟩, fun _ => rfl⟩

/-- The data columns of a format that passes FORMAT are the ones the later steps range over. -/
theorem Bank.isDataColumn_iff {b : Bank} (hn : 8 ≤ b.n) (hs : b.s ≤ 3) (c : Nat) :
    b.isDataColumn c ↔ b.firstData ≤ c ∧ c < b.firstData + (b.lastData + 1 - b.firstData) := by
  have : b.c ≤ 1 := by
    unfold Bank.c
    split <;> simp
  unfold Bank.isDataColumn Bank.firstData Bank.lastData
  omega

theorem Bank.mapFault_none {b : Bank} (hn : 8 ≤ b.n) (hs : b.s ≤ 3) :
    b.mapFault = none ↔ ∀ c, b.isDataColumn c → mapEntryAllowed (b.word .map (2 * c)) (b.word .map (2 * c + 1)) := by
  unfold Bank.mapFault
  rw [firstFailing_none]
  apply forall_congr'
  intro c
  rw [Bank.isDataColumn_iff hn hs, ← entryOf_mapBad_iff]
  exact ⟨fun h h' => h h'.1 h'.2, fun h h1 h2 => h ⟨h1, h2⟩⟩

/-- The groups that the MAP step gathers are the ones data columns name. -/
theorem Bank.mem_usedGroups {b : Bank} (hn : 8 ≤ b.n) (hs : b.s ≤ 3)
    (hm : ∀ c, b.isDataColumn c → mapEntryAllowed (b.word .map (2 * c)) (b.word .map (2 * c + 1))) {g : Nat} :
    g ∈ b.usedGroups ↔ b.namesGroup g := by
  have used : ∀ {g : Nat}, g < 8 → (b.groupUsed g = true ↔ b.namesGroup g) := by
    intro g hg
    unfold Bank.groupUsed Bank.namesGroup
    simp only [List.any_eq_true, List.mem_range'_1, beq_iff_eq, ← Bank.isDataColumn_iff hn hs, Bank.mapEntry, entryOf_subcom_iff]
    refine exists_congr fun c => and_congr_right fun _ => and_congr_right fun _ => ?_
    exact word_eq_iff _ (by omega)
  unfold Bank.usedGroups
  rw [List.mem_filter, List.mem_range]
  constructor
  · rintro ⟨h1, h2⟩
    exact (used h1).mp h2
  · intro h
    have hg : g < 8 := by
      obtain ⟨c, hc, hk, ha⟩ := h
      have := hm c hc
      rw [hk] at this
      simp [mapEntryAllowed] at this
      omega
    exact ⟨hg, (used hg).mpr h⟩

theorem Bank.groupBad_iff {b : Bank} {g : Nat} : b.groupBad g = false ↔
    2 ≤ b.groupDepth g ∧ b.groupDepth g ≤ 256 ∧ b.groupDepth g ∣ b.m ∧ b.groupFirst g + b.groupDepth g ≤ 1024 := by
  simp [Bank.groupBad, Nat.dvd_iff_mod_eq_zero]

theorem Bank.poolUsed_iff {b : Bank} {i : Nat} :
    b.poolUsed i = true ↔ ∃ g ∈ b.usedGroups, b.groupFirst g ≤ i ∧ i < b.groupFirst g + b.groupDepth g := by
  simp [Bank.poolUsed]

theorem Bank.winBad_iff {b : Bank} {k : Nat} : b.winBad k = false ↔ (b.winEnabled k = true →
    b.winTop k ≤ b.winBottom k ∧ b.winBottom k < b.m ∧ b.s + 1 ≤ b.winLeft k ∧ b.winLeft k ≤ b.winRight k
      ∧ b.winRight k ≤ b.n - 1 - b.c ∧ b.winSource k ≤ 23) := by
  simp [Bank.winBad, Bank.firstData, Bank.lastData]

/-- The outcome of validation names the first step that fails. -/
theorem Bank.validate_some {b : Bank} {t : PlanTable} {i : Nat} (h : b.validate = some (t, i)) :
    (t = .format ∧ b.formatFault = some i)
    ∨ (b.formatFault = none ∧ ((t = .map ∧ b.mapFault = some i)
      ∨ (b.mapFault = none ∧ ((t = .group ∧ b.groupFault = some i)
        ∨ (b.groupFault = none ∧ ((t = .row ∧ b.rowFault = some i)
          ∨ (b.rowFault = none ∧ t = .window ∧ b.windowFault = some i))))))) := by
  unfold Bank.validate at h
  cases h1 : b.formatFault <;> rw [h1] at h <;> simp at h
  · right
    refine ⟨rfl, ?_⟩
    cases h2 : b.mapFault <;> rw [h2] at h <;> simp at h
    · right
      refine ⟨rfl, ?_⟩
      cases h3 : b.groupFault <;> rw [h3] at h <;> simp at h
      · right
        refine ⟨rfl, ?_⟩
        cases h4 : b.rowFault <;> rw [h4] at h <;> simp at h
        · right
          refine ⟨rfl, ?_⟩
          cases h5 : b.windowFault <;> rw [h5] at h <;> simp at h
          simp [h.1, h.2]
        · simp [h.1, h.2]
      · simp [h.1, h.2]
    · simp [h.1, h.2]
  · simp [h.1, h.2]

/-- A plan passes exactly when its five steps do. -/
theorem Bank.validate_none {b : Bank} : b.validate = none ↔
    b.formatFault = none ∧ b.mapFault = none ∧ b.groupFault = none ∧ b.rowFault = none ∧ b.windowFault = none := by
  unfold Bank.validate
  cases b.formatFault <;> cases b.mapFault <;> cases b.groupFault <;> cases b.rowFault <;> cases b.windowFault <;> simp

/-- A plan that passes has a sync column. -/
theorem Bank.sync_pos {b : Bank} (h : b.validate = none) : 0 < b.s :=
  ((Bank.formatFault_none b).mp (Bank.validate_none.mp h).1).2.2.2.1.1

end Sys2Proof.Machine
end

