-- ==== Sys2Proof/Laws/Views.lean ====
section
/-! SUPPORT. What each shared operation and view comes to on the inputs a statement gives it: an access taken at once, an event out of
reset, a field at bit 0, a ring position, and some source in a state. -/

namespace Sys2Proof.Machine

/-- An access that is taken at once is its effect. -/
theorem State.takeAccess_ready {s : State} (h : s.ready) (a : HostAccess) (body : State → State) : s.takeAccess a body = body s := by
  obtain ⟨⟨hr, hp⟩, hh⟩ := h
  have hs : s.settle = s := by unfold State.settle; rw [hp]
  simp [State.takeAccess, State.heldAtPort, hr, hp, hh, hs]

/-- An event of the part out of reset, the buffer access in progress having ended, is its effect. -/
theorem State.outOfReset_released {s : State} (h : s.resetAsserted = false) (body : State → State) :
    s.outOfReset body = body s.settle := by
  simp [State.outOfReset, h]

/-- An event of the part with the port free is its effect. -/
theorem State.outOfReset_settled {s : State} (h : s.settled) (body : State → State) : s.outOfReset body = body s := by
  have hs : s.settle = s := by unfold State.settle; rw [h.2]
  rw [State.outOfReset_released h.1, hs]

/-- A field at bit 0 is the value, extended with zeros. -/
theorem field_zero {n : Nat} (v : BitVec n) : field 0 v = v.setWidth 16 := by simp [field]

/-- A run is in progress exactly in RUNNING and STOPPING (R123). -/
theorem LinkState.inRun_iff (l : LinkState) : l.inRun = true ↔ l = .running ∨ l = .stopping := by cases l <;> simp [LinkState.inRun]

/-- The advance of a ring position within its ring. -/
theorem SourceRec.nextIndex_of_lt {r : SourceRec} {x : Word} (hx : x < r.length) :
    r.nextIndex x = if x.toNat + 1 = r.length.toNat then 0 else x + 1 := by
  have hx' : x.toNat < r.length.toNat := hx
  have hl := r.length.isLt
  unfold SourceRec.nextIndex
  apply BitVec.eq_of_toNat_eq
  split
  · rename_i e
    rw [e]
    simp
  · rw [Nat.mod_eq_of_lt (by omega)]
    simp [BitVec.toNat_add]

/-- The address of a ring position of a ring that lies within the buffer. -/
theorem SourceRec.ringAddress_toNat {r : SourceRec} {x : Word} (h : r.base.toNat + r.length.toNat ≤ 0x8000) (hx : x < r.length) :
    (r.ringAddress x).toNat = r.base.toNat + x.toNat := by
  have hx' : x.toNat < r.length.toNat := hx
  unfold SourceRec.ringAddress
  simp
  omega

/-- A lawful record that is not OFF has its next append within its ring. -/
theorem SourceRec.Lawful.writeRange {r : SourceRec} (h : r.Lawful) (hs : r.state ≠ .off) : r.writeIndex < r.length := by
  have hl := h.lengthRange hs
  have ht := h.tail hs
  rw [BitVec.lt_def, ht]
  exact Nat.mod_lt _ (by omega)

/-- Some source is in a state. -/
theorem State.someSource_iff (s : State) (st : SourceState) : s.someSource st = decide (∃ i : SourceId, (s.record i).state = st) := by
  rw [Bool.eq_iff_iff, decide_eq_true_iff]
  simp only [State.someSource, State.record, List.any_eq_true, beq_iff_eq, Vector.mem_toList_iff]
  constructor
  · rintro ⟨r, hr, h⟩
    obtain ⟨i, hi, rfl⟩ := Vector.mem_iff_getElem.mp hr
    exact ⟨⟨i, hi⟩, h⟩
  · rintro ⟨i, h⟩
    exact ⟨_, Vector.getElem_mem i.isLt, h⟩

/-- OPEN's checks hold exactly when the four ranges of R45 do. -/
theorem SourceRec.geometryOk_iff (r : SourceRec) : r.geometryOk = true ↔ 2 ≤ r.length.toNat ∧ r.length.toNat ≤ 8192
    ∧ r.base.toNat + r.length.toNat ≤ 0x8000 ∧ 1 ≤ r.startLevel.toNat ∧ r.startLevel.toNat ≤ r.length.toNat
    ∧ r.watermark.toNat < r.length.toNat := by
  simp [SourceRec.geometryOk]

/-- The next falling edge begins the first bit of the lookahead cell exactly when `cellDue` says so (R9, R127). -/
theorem State.cellDue_iff (s : State) {w : Composed} (h : s.composer.lookahead = some w) : s.cellDue = true ↔ s.CellLeaves w := by
  constructor
  · intro hd
    simp only [State.cellDue, Bool.and_eq_true, bne_iff_ne, LinkState.inRun_iff, Downlink.wordDone] at hd
    refine ⟨hd.1.1.1, hd.1.1.2, fun sh hsh => ?_, h⟩
    have := hd.1.2
    rw [hsh] at this
    simpa using this
  · intro hd
    simp only [State.cellDue, Bool.and_eq_true, bne_iff_ne, LinkState.inRun_iff, Downlink.wordDone, h, Option.isSome_some, and_true]
    refine ⟨⟨hd.inRun, hd.target⟩, ?_⟩
    cases hsh : s.downlink.shifting with
    | none => rfl
    | some sh => simpa using hd.lastBit sh hsh

/-- A swap that is offered is what the commit controller makes of it. -/
theorem State.swapIfPending_eq (s : State) : s.swapIfPending = { s with commit := s.commit.swapped } := by
  unfold State.swapIfPending Commit.swapped
  split <;> rfl

end Sys2Proof.Machine
end

