-- ==== Sys2Proof/Laws/Compose.lean ====
section
/-! SUPPORT. What the first bit of a cell does before its successor is composed, and what resolution leaves when nothing falls among
its consults. -/

namespace Sys2Proof.Machine

/-- The first bit leaves, and then the successor is composed (R9, R10, R12). -/
theorem State.firstBit_eq {s : State} {x : Composed} (gaps : List CellGap) (reading : Bool)
    (h : s.CellLeaves x) : s.firstBit gaps reading = (s.cellOut x).composeSuccessor gaps reading s.composer.row s.composer.col := by
  have hd := (State.cellDue_iff s h.ahead).mpr h
  simp only [State.firstBit, h.ahead, hd, if_true]
  congr 1
  by_cases hc : s.composer.col = 0
  · by_cases hm : s.composer.row = 0
    · simp only [hc, hm, State.startEvent, State.cellOut, Downlink.beginBit, State.raise, Flag.mask, if_true, BitVec.or_assoc]
      cases s.downlink.clkSrc <;> rfl
    · simp [hc, hm, State.startEvent, State.cellOut, Downlink.beginBit, State.raise, Flag.mask]
      cases s.downlink.clkSrc <;> rfl
  · simp [hc, State.cellOut, Downlink.beginBit]
    cases s.downlink.clkSrc <;> rfl

/-- With no first bit due nothing happens (log entry 6). -/
theorem State.firstBit_idle {s : State} (gaps : List CellGap) (reading : Bool)
    (h : ∀ x, ¬ s.CellLeaves x) : s.firstBit gaps reading = s := by
  unfold State.firstBit
  cases hl : s.composer.lookahead with
  | none => rfl
  | some w =>
    have : s.cellDue ≠ true := fun e => h w ((State.cellDue_iff s hl).mp e)
    simp [this]

/-! ### A composition in which nothing falls among the consults -/

/-- With nothing waiting and nothing to fall, the next consult is at hand. -/
theorem CellFlow.toConsult_of_nil {f : CellFlow} (hg : f.gaps = []) (hd : f.deferred = []) (reads : State → Bool) : f.toConsult reads = f := by
  cases f
  subst hg hd
  rfl

/-- With nothing waiting and nothing to fall, the composition's end leaves the part as it is, but for the port. -/
theorem CellFlow.close_of_nil {f : CellFlow} (hg : f.gaps = []) (hd : f.deferred = []) (reading : Bool) :
    f.close reading = { f.state with port := if reading ∧ f.ended = some .composer then some .composer else none } := by
  cases f
  subst hg hd
  rfl

/-- Where nothing falls among the consults, nothing is left over and the cell gets its word. -/
theorem resolveLayers_of_nil (m c : Nat) (ks : List Nat) (handed : List SourceId) {f : CellFlow} (hg : f.gaps = []) (hd : f.deferred = [])
    (hc : f.composing = true) :
    (resolveLayers m c ks handed f).flow.gaps = [] ∧ (resolveLayers m c ks handed f).flow.deferred = []
      ∧ (resolveLayers m c ks handed f).placed.isSome = true := by
  induction ks generalizing handed f with
  | nil =>
    unfold resolveLayers resolveBase
    simp only [CellFlow.toConsult_of_nil hg hd, hc, if_true]
    unfold CellFlow.base
    dsimp only
    split <;> exact ⟨hg, hd, rfl⟩
  | cons k ks ih =>
    unfold resolveLayers
    simp only [CellFlow.toConsult_of_nil hg hd, hc, if_true]
    split
    · exact ⟨hg, hd, rfl⟩
    · split
      · exact ⟨hg, hd, rfl⟩
      · exact ih _ hg hd hc

/-- A base entry that is not nested is the map entry, or the pool entry its group selects (R66). -/
theorem Bank.baseEntry_eq (b : Bank) (m c : Nat) : b.baseEntry m c =
    if b.word .map (2 * c) = 2 then
      b.poolEntry (b.groupFirst (b.word .map (2 * c + 1)).toNat + m % b.groupDepth (b.word .map (2 * c + 1)).toNat)
    else entryOf (b.word .map (2 * c)) (b.word .map (2 * c + 1)) := by
  unfold Bank.baseEntry Bank.mapEntry
  split
  · rename_i g hg
    obtain ⟨h1, h2⟩ := (entryOf_subcom_iff _ _ _).mp hg
    rw [if_pos h1, h2]
  · rename_i hg
    rw [if_neg]
    intro e
    exact hg _ ((entryOf_subcom_iff _ _ _).mpr ⟨e, rfl⟩)

/-- A plan that passes has a sync cell in column 0. -/
theorem Bank.columnClass_zero {b : Bank} (h : b.validate = none) : b.columnClass 0 = .sync := by
  simp [Bank.columnClass, Bank.sync_pos h]

/-- Feeding the top `k` bits of the accumulator back into it shifts them out (R6). -/
theorem crcFeed_top {k : Nat} (hk : k ≤ 16) (v acc : Word) (h : ∀ j, j < k → acc.getLsbD (16 - k + j) = v.getLsbD j) :
    crcFeed k v acc = acc <<< k := by
  induction k generalizing acc with
  | zero => simp [crcFeed]
  | succ k ih =>
    have h0 := h k (by omega)
    rw [show 16 - (k + 1) + k = 15 by omega] at h0
    simp only [crcFeed, crcBit, h0, if_true]
    rw [ih (by omega)]
    · rw [← BitVec.shiftLeft_add]
      congr 1
      omega
    · intro j hj
      rw [← h j (by omega)]
      have h1 : 16 - k + j < 16 := by omega
      have h2 : ¬ 16 - k + j < 1 := by omega
      have h3 : 16 - k + j - 1 = 16 - (k + 1) + j := by omega
      rw [BitVec.getLsbD_shiftLeft, h3]
      simp only [h1, h2, decide_true, decide_false, Bool.not_false, Bool.true_and]

end Sys2Proof.Machine
end

