-- ==== Sys2Proof/Laws/Memory.lean ====
section
/-! SUPPORT. The lemmas of addressed words: what a read gives after a write, and that a write keeps the canonical form. -/

namespace Sys2Proof.Machine

theorem Memory.wfFrom_mono {d : Nat → Word} {size lo lo' : Nat} {m : Memory} (h : Memory.wfFrom d size lo m = true)
    (hl : lo' ≤ lo) : Memory.wfFrom d size lo' m = true := by
  cases m with
  | nil => rfl
  | cons p m =>
    obtain ⟨k, v⟩ := p
    simp only [Memory.wfFrom, Bool.and_eq_true, decide_eq_true_eq] at h ⊢
    exact ⟨⟨⟨by omega, h.1.1.2⟩, h.1.2⟩, h.2⟩

/-- An address below every listed one reads as its default. -/
theorem Memory.read_below {d : Nat → Word} {size lo a : Nat} {m : Memory} (h : Memory.wfFrom d size lo m = true) (ha : a < lo) :
    Memory.read d m a = d a := by
  induction m generalizing lo with
  | nil => rfl
  | cons p m ih =>
    obtain ⟨k, v⟩ := p
    simp only [Memory.wfFrom, Bool.and_eq_true, decide_eq_true_eq] at h
    rw [Memory.read, if_neg (by omega)]
    exact ih h.2 (by omega)

/-- A write leaves every other address as it reads. -/
theorem Memory.read_write_other (d : Nat → Word) (m : Memory) {a b : Nat} (w : Word) (hab : b ≠ a) :
    Memory.read d (Memory.write d m a w) b = Memory.read d m b := by
  induction m with
  | nil =>
    simp only [Memory.write]
    split
    · rfl
    · simp [Memory.read, hab.symm]
  | cons p m ih =>
    obtain ⟨k, v⟩ := p
    simp only [Memory.write]
    split
    · split
      · rfl
      · rw [Memory.read, if_neg hab.symm]
    · split
      · subst a
        split
        · rw [Memory.read, if_neg hab.symm]
        · rw [Memory.read, Memory.read, if_neg hab.symm, if_neg hab.symm]
      · rw [Memory.read, Memory.read, ih]

/-- In a canonical memory, the written address reads as the written word. -/
theorem Memory.read_write_same {d : Nat → Word} {size lo : Nat} {m : Memory} (h : Memory.wfFrom d size lo m = true) (a : Nat)
    (w : Word) : Memory.read d (Memory.write d m a w) a = w := by
  induction m generalizing lo with
  | nil =>
    simp only [Memory.write]
    split
    · simp_all [Memory.read]
    · simp [Memory.read]
  | cons p m ih =>
    obtain ⟨k, v⟩ := p
    simp only [Memory.wfFrom, Bool.and_eq_true, decide_eq_true_eq] at h
    simp only [Memory.write]
    split
    · rename_i hlt
      split
      · rename_i hw
        rw [Memory.read, if_neg (by omega), hw]
        exact Memory.read_below h.2 (by omega)
      · rw [Memory.read, if_pos rfl]
    · split
      · subst a
        split
        · rename_i hw
          rw [hw]
          exact Memory.read_below h.2 (by omega)
        · rw [Memory.read, if_pos rfl]
      · rw [Memory.read, if_neg (by omega)]
        exact ih h.2

/-- A write within the memory's size keeps the canonical form. -/
theorem Memory.wfFrom_write {d : Nat → Word} {size lo : Nat} {m : Memory} (h : Memory.wfFrom d size lo m = true) {a : Nat}
    (hlo : lo ≤ a) (ha : a < size) (w : Word) : Memory.wfFrom d size lo (Memory.write d m a w) = true := by
  induction m generalizing lo with
  | nil =>
    simp only [Memory.write]
    split
    · rfl
    · simp_all [Memory.wfFrom]
  | cons p m ih =>
    obtain ⟨k, v⟩ := p
    have h' := h
    simp only [Memory.wfFrom, Bool.and_eq_true, decide_eq_true_eq] at h'
    simp only [Memory.write]
    split
    · rename_i hlt
      split
      · exact h
      · rename_i hw
        simp only [Memory.wfFrom, Bool.and_eq_true, decide_eq_true_eq]
        exact ⟨⟨⟨hlo, ha⟩, hw⟩, ⟨⟨by omega, h'.1.1.2⟩, h'.1.2⟩, h'.2⟩
    · split
      · subst a
        split
        · exact Memory.wfFrom_mono h'.2 (by omega)
        · rename_i hw
          simp only [Memory.wfFrom, Bool.and_eq_true, decide_eq_true_eq]
          exact ⟨⟨⟨hlo, ha⟩, hw⟩, h'.2⟩
      · simp only [Memory.wfFrom, Bool.and_eq_true, decide_eq_true_eq]
        exact ⟨h'.1, ih h'.2 (by omega)⟩

theorem Memory.wf_write {d : Nat → Word} {size : Nat} {m : Memory} (h : Memory.wf d size m = true) {a : Nat} (ha : a < size)
    (w : Word) : Memory.wf d size (Memory.write d m a w) = true :=
  Memory.wfFrom_write h (Nat.zero_le a) ha w

@[simp] theorem Memory.read_nil (d : Nat → Word) (a : Nat) : Memory.read d [] a = d a := rfl

/-! ### The buffer -/

theorem State.bufferRead_bufferWrite (s : State) (h : Memory.wf bufferDefault Config.bufferWords s.buffer = true)
    (a b : BitVec 15) (w : Word) : (s.bufferWrite a w).bufferRead b = if b = a then w else s.bufferRead b := by
  unfold State.bufferRead State.bufferWrite
  split
  · subst b
    exact Memory.read_write_same h _ _
  · exact Memory.read_write_other _ _ _ (fun e => ‹¬ b = a› (BitVec.eq_of_toNat_eq e))

theorem State.bufferWrite_wf (s : State) (h : Memory.wf bufferDefault Config.bufferWords s.buffer = true) (a : BitVec 15)
    (w : Word) : Memory.wf bufferDefault Config.bufferWords (s.bufferWrite a w).buffer = true :=
  Memory.wf_write h (by have := a.isLt; simp only [Config.bufferWords]; omega) w

/-! ### The banks -/

@[simp] theorem Bank.table_setTable_same (b : Bank) (t : PlanTable) (m : Memory) : (b.setTable t m).table t = m := by
  cases t <;> rfl

theorem Bank.table_setTable_other (b : Bank) {t u : PlanTable} (m : Memory) (h : u ≠ t) : (b.setTable t m).table u = b.table u := by
  cases t <;> cases u <;> first | rfl | exact absurd rfl h

theorem Bank.wf_iff (b : Bank) : b.wf = true ↔ ∀ t : PlanTable, Memory.wf (planDefault t) (Table.plan t).size (b.table t) = true := by
  constructor
  · intro h t
    simp only [Bank.wf, Bool.and_eq_true] at h
    cases t
    · exact h.1.1.1.1
    · exact h.1.1.1.2
    · exact h.1.1.2
    · exact h.1.2
    · exact h.2
  · intro h
    simp only [Bank.wf, Bool.and_eq_true]
    exact ⟨⟨⟨⟨h .format, h .map⟩, h .group⟩, h .row⟩, h .window⟩

theorem Bank.setWord_wf (b : Bank) (h : b.wf = true) (t : PlanTable) {i : Nat} (hi : i < (Table.plan t).size) (w : Word) :
    (b.setWord t i w).wf = true := by
  rw [Bank.wf_iff] at h ⊢
  intro u
  unfold Bank.setWord
  by_cases e : u = t
  · subst e
    rw [Bank.table_setTable_same]
    exact Memory.wf_write (h u) hi w
  · rw [Bank.table_setTable_other _ _ e]
    exact h u

theorem Bank.word_setWord (b : Bank) (h : b.wf = true) (t u : PlanTable) (i j : Nat) (w : Word) :
    (b.setWord t i w).word u j = if u = t ∧ j = i then w else b.word u j := by
  unfold Bank.setWord Bank.word
  by_cases e : u = t
  · subst e
    rw [Bank.table_setTable_same]
    by_cases f : j = i
    · subst f
      rw [if_pos ⟨rfl, rfl⟩]
      exact Memory.read_write_same ((Bank.wf_iff b).1 h u) _ _
    · rw [if_neg (fun h => f h.2)]
      exact Memory.read_write_other _ _ _ f
  · rw [Bank.table_setTable_other _ _ e, if_neg (fun h => e h.1)]

end Sys2Proof.Machine
end

