-- ==== Sys2Proof/Laws/Window.lean ====
section
/-! SUPPORT. The register window, the table access unit and the buffer port keep the canonical form of the memories, TBL_INDEX within
its table, and held accesses only where a rule holds them (R103, R158, R162,
R165). -/

namespace Sys2Proof.Machine

/-! ### Memories and TBL_INDEX -/

theorem Table.size_pos (t : Table) : 0 < t.size := by
  cases t with
  | plan p => cases p <;> decide
  | source => decide

theorem State.MemoryLawful.congr {s t : State} (hs : s.MemoryLawful) (hb : t.buffer = s.buffer)
    (ha : t.commit.active = s.commit.active) (hst : t.commit.staging = s.commit.staging) (hw : t.window.index = s.window.index)
    (ht : t.window.table = s.window.table) : t.MemoryLawful :=
  ⟨hb ▸ hs.buffer, ha ▸ hs.active, hst ▸ hs.staging, by rw [hw, ht]; exact hs.index⟩

theorem State.MemoryLawful.same {s t : State} (hs : s.MemoryLawful) (hb : t.buffer = s.buffer) (hc : t.commit = s.commit)
    (hw : t.window = s.window) : t.MemoryLawful := hs.congr hb (by rw [hc]) (by rw [hc]) (by rw [hw]) (by rw [hw])

theorem State.MemoryLawful.swapIfPending {s : State} (hs : s.MemoryLawful) : s.swapIfPending.MemoryLawful := by
  unfold State.swapIfPending
  split
  · exact ⟨hs.buffer, hs.staging, hs.active, hs.index⟩
  · exact hs

theorem State.MemoryLawful.bufferWrite {s : State} (hs : s.MemoryLawful) (a : BitVec 15) (w : Word) : (s.bufferWrite a w).MemoryLawful :=
  ⟨s.bufferWrite_wf hs.buffer a w, hs.active, hs.staging, hs.index⟩

theorem State.MemoryLawful.appendTo {s : State} (hs : s.MemoryLawful) (i : SourceId) (w : Word) : (s.appendTo i w).MemoryLawful := by
  unfold State.appendTo
  dsimp only
  split
  · split
    · exact (hs.bufferWrite ((s.record i).ringAddress (s.record i).writeIndex) w).same (by simp) (by simp) (by simp)
    · exact hs.same (by simp) (by simp) (by simp)
  · exact hs.same (by simp) (by simp) (by simp)

theorem State.MemoryLawful.append {s : State} (hs : s.MemoryLawful) (w : Word) : (s.append w).MemoryLawful := by
  unfold State.append
  split
  · exact hs.appendTo _ w
  · exact hs.same (by simp) (by simp) (by simp)

theorem State.MemoryLawful.advanceIndex {s : State} (hs : s.MemoryLawful) : s.advanceIndex.MemoryLawful :=
  ⟨hs.buffer, hs.active, hs.staging, Nat.mod_lt _ (Table.size_pos _)⟩

theorem State.MemoryLawful.tblSelWrite {s : State} (hs : s.MemoryLawful) (w : Word) : (s.tblSelWrite w).MemoryLawful := by
  unfold State.tblSelWrite
  split
  · exact ⟨hs.buffer, hs.active, hs.staging, Table.size_pos _⟩
  · exact hs.same (by simp) (by simp) (by simp)

theorem State.MemoryLawful.tblIndexWrite {s : State} (hs : s.MemoryLawful) (w : Word) : (s.tblIndexWrite w).MemoryLawful :=
  ⟨hs.buffer, hs.active, hs.staging, Nat.mod_lt _ (Table.size_pos _)⟩

theorem State.MemoryLawful.tableDataWrite {s : State} (hs : s.MemoryLawful) (w : Word) : (s.tableDataWrite w).MemoryLawful := by
  obtain ⟨a, b, h⟩ | ⟨pt, hpt, -, -, h⟩ | ⟨t, -, ht, h⟩ := s.tableDataWrite_cases w <;> rw [h]
  · exact (hs.same (t := s.report .tableWrite a b) (by simp) (by simp) (by simp)).advanceIndex
  · have hi : s.window.index < (Table.plan pt).size := hpt ▸ hs.index
    refine State.MemoryLawful.advanceIndex ⟨hs.buffer, hs.active, ?_, hs.index⟩
    exact Bank.setWord_wf _ hs.staging pt hi w
  · obtain ⟨-, -, hb, -, -, -, hc, -, hw, -⟩ := writeSourceWord_frame ht
    exact (hs.same hb hc hw).advanceIndex

theorem State.MemoryLawful.tableDataRead {s : State} (hs : s.MemoryLawful) (b : Bool) : (s.tableDataRead b).MemoryLawful := by
  unfold State.tableDataRead
  split
  · exact hs.congr rfl rfl rfl rfl rfl
  · exact (hs.congr (t := s.answer s.tableWord) rfl rfl rfl rfl rfl).advanceIndex

theorem State.MemoryLawful.validationEnd {s : State} (hs : s.MemoryLawful) : s.validationEnd.MemoryLawful := by
  unfold State.validationEnd
  (repeat' split) <;> first
    | exact hs
    | exact ⟨hs.buffer, hs.staging, hs.active, hs.index⟩
    | exact hs.congr rfl rfl rfl rfl rfl

theorem State.MemoryLawful.commitCtrlWrite {s : State} (hs : s.MemoryLawful) (w : Word) : (s.commitCtrlWrite w).MemoryLawful := by
  unfold State.commitCtrlWrite State.commitRequest State.cancelRequest
  (repeat' split) <;> first
    | exact hs
    | exact hs.congr rfl rfl rfl rfl rfl
    | exact hs.congr (by simp) (by rw [State.refuseCommit_commit]) (by rw [State.refuseCommit_commit]) (by simp) (by simp)

theorem State.MemoryLawful.leaveRun {s : State} (hs : s.MemoryLawful) (l : LinkState) : (s.leaveRun l).MemoryLawful := by
  unfold State.leaveRun; exact State.MemoryLawful.swapIfPending (hs.same rfl rfl rfl)

theorem State.MemoryLawful.cutRun {s : State} (hs : s.MemoryLawful) (l : LinkState) : (s.cutRun l).MemoryLawful := by
  unfold State.cutRun; refine State.MemoryLawful.leaveRun ?_ l; exact hs.same rfl rfl rfl

theorem State.MemoryLawful.openCell {s : State} (hs : s.MemoryLawful) (m c : Nat) : (s.openCell m c).MemoryLawful :=
  hs.congr (by simp) (by rw [State.openCell_commit]) (by rw [State.openCell_commit]) (by simp) (by simp)

/-! ### Held accesses -/

/-- An access to the buffer is one of the three (12.1). -/
theorem HostAccess.portUse_cases {h : HostAccess} (hp : h.portUse.isSome = true) :
    (∃ raised, h = .read 0x0E raised) ∨ (∃ w, h = .write 0x0E w) ∨ ∃ w, h = .write 0x10 w := by
  cases h with
  | read a r =>
    unfold HostAccess.portUse at hp
    dsimp only at hp
    split at hp
    · rename_i ha; exact .inl ⟨r, by rw [ha]⟩
    · cases hp
  | write a w =>
    unfold HostAccess.portUse at hp
    dsimp only at hp
    split at hp
    · rename_i ha; exact .inr (.inl ⟨w, by rw [ha]⟩)
    · split at hp
      · rename_i ha; exact .inr (.inr ⟨w, by rw [ha]⟩)
      · cases hp

theorem State.WindowLawful.of {s t : State} (hs : s.WindowLawful) (hw : t.window.held = s.window.held)
    (hq : t.window.waiting = s.window.waiting) (hp : t.port = s.port)
    (hc : s.commit.state = .syncing → t.commit.state = .syncing) : t.WindowLawful := by
  refine ⟨fun x hx => ?_, by rw [hq, hw]; exact hs.waitingHeld, by rw [hp]; exact hs.port⟩
  rcases hs.heldFor x (hw ▸ hx) with ⟨hr, hsy⟩ | ⟨hr, hpt⟩
  · exact .inl ⟨hr, hc hsy⟩
  · exact .inr ⟨hr, by rw [hp]; exact hpt⟩

theorem State.WindowLawful.same {s t : State} (hs : s.WindowLawful) (hw : t.window = s.window) (hc : t.commit = s.commit)
    (hp : t.port = s.port) : t.WindowLawful := hs.of (by rw [hw]) (by rw [hw]) hp (by rw [hc]; exact id)

/-- With nothing held, nothing waits. -/
theorem State.WindowLawful.waiting_none {s : State} (hs : s.WindowLawful) (h : s.window.held = none) : s.window.waiting = none := by
  cases e : s.window.waiting with
  | none => rfl
  | some a =>
    obtain ⟨x, r, hx, -⟩ := hs.waitingHeld (by rw [e]; simp)
    rw [h] at hx; cases hx

/-- Nothing held and nothing waiting is lawful. -/
theorem State.WindowLawful.free {t : State} (h : t.window.held = none) (hq : t.window.waiting = none) (hp : t.port ≠ some .window) :
    t.WindowLawful :=
  ⟨fun x e => (by rw [h] at e; cases e), fun e => absurd hq e, hp⟩

/-- With the port free, what is held is a read of TBL_DATA in SYNCING. -/
theorem State.WindowLawful.tableRead {s : State} (hs : s.WindowLawful) (hp : s.port = none) {x : HeldAccess}
    (hx : s.window.held = some x) : (∃ raised, x.access = .read 0x0C raised) ∧ s.commit.state = .syncing := by
  rcases hs.heldFor x hx with h | ⟨-, h⟩
  · exact h
  · rw [hp] at h; cases h

/-- An access is held at the port (R165). -/
theorem State.WindowLawful.hold {s : State} (hs : s.WindowLawful) {h : HostAccess} (hu : h.portUse.isSome = true)
    (hp : s.port.isSome = true) (hn : s.window.held = none) : (s.hold h).WindowLawful := by
  have hc : s.port = some .composer := by
    cases e : s.port with
    | none => rw [e] at hp; cases hp
    | some r => cases r with
      | composer => rfl
      | window => exact absurd e hs.port
  refine ⟨fun x hx => ?_, fun hq => absurd (hs.waiting_none hn) hq, hs.port⟩
  cases hx
  exact .inr ⟨HostAccess.portUse_cases hu, hc⟩

/-- An access waits behind a held one (R158). -/
theorem State.WindowLawful.waitBehind {s : State} (hs : s.WindowLawful) (hp : s.port = none) {x : HeldAccess}
    (hx : s.window.held = some x) (h : HostAccess) : (s.waitBehind x h).WindowLawful := by
  obtain ⟨⟨r, hr⟩, hc⟩ := hs.tableRead hp hx
  refine ⟨fun y hy => ?_, fun _ => ⟨_, r, rfl, hr⟩, hs.port⟩
  cases hy
  exact .inl ⟨⟨r, hr⟩, hc⟩

/-- A port access that is performed with nothing held leaves nothing held. -/
theorem State.performHeld_held (s : State) (p : PortAccess) (b : Bool) :
    (s.performHeld p b).window.held = s.window.held ∧ (s.performHeld p b).window.waiting = s.window.waiting := by
  have h : (s.portAccess p).window.held = s.window.held ∧ (s.portAccess p).window.waiting = s.window.waiting := by
    cases p
    · simp [State.portAccess]
    · exact ⟨rfl, rfl⟩
    · exact ⟨rfl, rfl⟩
  unfold State.performHeld
  split
  · exact h
  · exact h

/-- The end of the buffer access in progress (R165). -/
theorem State.WindowLawful.settle {s : State} (hs : s.WindowLawful) : s.settle.WindowLawful := by
  unfold State.settle
  split
  · exact hs
  · rename_i r hr
    dsimp only
    split
    · rename_i hn; exact .free hn (hs.waiting_none hn) (by simp)
    · rename_i x hx
      split
      · rename_i p hp
        have hq : s.window.waiting = none := by
          cases e : s.window.waiting with
          | none => rfl
          | some a =>
            obtain ⟨y, b, hy, hb⟩ := hs.waitingHeld (by rw [e]; simp)
            rw [hx] at hy; cases hy
            rw [hb] at hp; cases hp
        refine .free ?_ ?_ (by simp)
        · rw [(State.performHeld_held _ _ _).1]
        · rw [(State.performHeld_held _ _ _).2]; exact hq
      · rename_i hu
        refine ⟨fun y hy => ?_, hs.waitingHeld, by simp⟩
        rcases hs.heldFor y hy with h | ⟨h, -⟩
        · exact .inl h
        · have : y = x := by
            have hy' : s.window.held = some y := hy
            rw [hx] at hy'; cases hy'; rfl
          subst this
          rcases h with ⟨b, hb⟩ | ⟨w, hw⟩ | ⟨w, hw⟩
          · rw [hb] at hu; cases hu
          · rw [hw] at hu; cases hu
          · rw [hw] at hu; cases hu

theorem State.swapIfPending_syncing (s : State) (h : s.commit.state = .syncing) : s.swapIfPending.commit.state = .syncing := by
  unfold State.swapIfPending
  rw [if_neg (by rw [h]; simp)]
  exact h

/-- A run's end leaves the controller's state but for a pending swap (R117). -/
theorem State.leaveRun_commitState (s : State) (l : LinkState) (h : s.commit.state ≠ .pending) : (s.leaveRun l).commit = s.commit := by
  unfold State.leaveRun State.swapIfPending
  rw [if_neg (by exact h)]

theorem State.cutRun_commitState (s : State) (l : LinkState) (h : s.commit.state ≠ .pending) : (s.cutRun l).commit = s.commit := by
  unfold State.cutRun; rw [State.leaveRun_commitState _ _ (by exact h)]

end Sys2Proof.Machine
end

