-- ==== Sys2Proof/Laws/Link.lean ====
section
/-! SUPPORT. The composer and the downlink port: what a composition leaves as it is, and that the events of the port keep the laws of
the link and its lines (R123, R129 … R132), and of error capture (R177, R178). -/

namespace Sys2Proof.Machine

/-! ### The link and its lines -/

/-- The law of the link and its lines, with what R9 says of the composed word that waits where `A` holds: while a cell is composed in a
run, no word waits. -/
structure State.LinkLaw (A : Prop) (s : State) : Prop where
  idle : s.downlink.link.inRun = false →
    s.downlink.shifting = none ∧ s.composer.lookahead = none ∧ s.downlink.dout = s.downlink.idleLevel
      ∧ s.downlink.bclko = true ∧ s.downlink.mfs = false ∧ s.downlink.jfs = false
  target : s.downlink.target ≠ .none ↔ s.downlink.link = .stopping
  line : s.downlink.dout =
    match s.downlink.shifting with
    | some sh => sh.word.value.getLsbD sh.bit
    | none => s.downlink.idleLevel
  strobes : (s.downlink.jfs = true → s.downlink.mfs = true) ∧ (s.downlink.mfs = true → s.downlink.shifting.isSome = true)
  external : s.downlink.clkSrc = .external → s.downlink.bclko = true
  ahead : A → s.downlink.link.inRun = true → s.downlink.target ≠ .reached → s.composer.lookahead.isSome = true

theorem State.LinkLawful.law {s : State} (hs : s.LinkLawful) (A : Prop) : s.LinkLaw A :=
  ⟨hs.idle, hs.target, hs.line, hs.strobes, hs.external, fun _ => hs.ahead⟩

theorem State.LinkLaw.lawful {A : Prop} {s : State} (hs : s.LinkLaw A) (hA : A) : s.LinkLawful :=
  ⟨hs.idle, hs.target, hs.line, hs.strobes, hs.external, hs.ahead hA⟩

/-- Out of a run no word need wait. -/
theorem State.LinkLaw.weaken {A B : Prop} {s : State} (hs : s.LinkLaw A) (h : B → A ∨ s.downlink.link.inRun = false) : s.LinkLaw B := by
  refine ⟨hs.idle, hs.target, hs.line, hs.strobes, hs.external, fun hB hr => ?_⟩
  rcases h hB with hA | hn
  · exact hs.ahead hA hr
  · rw [hr] at hn; cases hn

variable {A : Prop}

theorem State.LinkLaw.congr {s t : State} (hs : s.LinkLaw A) (hd : t.downlink = s.downlink)
    (hl : t.composer.lookahead = s.composer.lookahead) : t.LinkLaw A := by
  obtain ⟨h1, h2, h3, h4, h5, h6⟩ := hs
  constructor <;> simp only [hd, hl] <;> assumption

theorem State.LinkLaw.same {s t : State} (hs : s.LinkLaw A) (hd : t.downlink = s.downlink) (hl : t.composer = s.composer) :
    t.LinkLaw A := hs.congr hd (by rw [hl])

/-- Out of a run, with the lines at their idle levels. -/
theorem State.LinkLaw.ofIdle {s : State} (h : s.downlink.link.inRun = false) (ht : s.downlink.target = .none)
    (h1 : s.downlink.shifting = none) (h2 : s.composer.lookahead = none) (h3 : s.downlink.dout = s.downlink.idleLevel)
    (h4 : s.downlink.bclko = true) (h5 : s.downlink.mfs = false) (h6 : s.downlink.jfs = false) : s.LinkLaw A := by
  refine ⟨fun _ => ⟨h1, h2, h3, h4, h5, h6⟩, ⟨fun e => absurd ht e, fun e => ?_⟩, ?_, ?_, fun _ => h4, fun _ e => ?_⟩
  · rw [e] at h; cases h
  · rw [h1]; exact h3
  · rw [h5, h6]; exact ⟨id, fun e => by cases e⟩
  · rw [h] at e; cases e

theorem State.LinkLaw.leaveRun (s : State) {l : LinkState} (hl : l.inRun = false) : (s.leaveRun l).LinkLaw A := by
  have h1 : (s.leaveRun l).downlink = { s.downlink with
      link := l, target := .none, shifting := none, dout := s.downlink.idleLevel, bclko := true, mfs := false, jfs := false,
      halfCount := 0, lossTimer := 0 } := by unfold State.leaveRun; rw [State.swapIfPending_downlink]
  have h2 : (s.leaveRun l).composer.lookahead = none := by unfold State.leaveRun; rw [State.swapIfPending_composer]
  refine State.LinkLaw.ofIdle ?_ ?_ ?_ h2 ?_ ?_ ?_ ?_ <;> rw [h1]
  exact hl

theorem State.LinkLaw.cutRun (s : State) {l : LinkState} (hl : l.inRun = false) : (s.cutRun l).LinkLaw A := by
  unfold State.cutRun; exact State.LinkLaw.leaveRun _ hl

theorem State.startRun_downlink (s : State) :
    s.startRun.downlink = { s.downlink with
      link := .running, target := .none, rowCount := 0, majorCount := 0, shifting := none, bclko := true, halfCount := 0, lossTimer := 0 } :=
  by
  unfold State.startRun State.composeFirst; simp

theorem State.startRun_lookahead (s : State) : s.startRun.composer.lookahead.isSome = true :=
  rfl

theorem State.LinkLaw.startRun {s : State} (hd : s.downlink.dout = s.downlink.idleLevel) (hm : s.downlink.mfs = false)
    (hj : s.downlink.jfs = false) : s.startRun.LinkLaw A := by
  constructor <;> simp only [State.startRun_downlink]
  · intro e; cases e
  · simp
  · exact hd
  · rw [hm, hj]; exact ⟨id, fun e => by cases e⟩
  · intro _; trivial
  · intro _ _ _; exact s.startRun_lookahead

theorem State.LinkLaw.startRequest {s : State} (hs : s.LinkLaw A) (w : Word) : (s.startRequest w).LinkLaw A := by
  obtain ⟨-, h⟩ | ⟨hl, -, h⟩ | ⟨hl, -, h⟩ := s.startRequest_cases w <;> rw [h]
  · exact hs.same (by simp) (by simp)
  · obtain ⟨-, -, hd, -, hm, hj⟩ := hs.idle (by rw [hl]; rfl)
    exact State.LinkLaw.startRun hd hm hj
  · obtain ⟨h1, h2, h3, h4, h5, h6⟩ := hs.idle (by rw [hl]; rfl)
    have ht : s.downlink.target = .none := by
      cases e : s.downlink.target
      case none => rfl
      all_goals exact absurd (hs.target.1 (by rw [e]; simp)) (by rw [hl]; simp)
    exact State.LinkLaw.ofIdle rfl ht h1 h2 h3 h4 h5 h6

theorem State.LinkLaw.startEdge {s : State} (hs : s.LinkLaw A) : s.startEdge.LinkLaw A := by
  obtain ⟨-, h⟩ | ⟨hl, h⟩ := s.startEdge_cases <;> rw [h]
  · exact hs
  · obtain ⟨-, -, hd, -, hm, hj⟩ := hs.idle (by rw [hl]; rfl)
    exact State.LinkLaw.startRun hd hm hj

/-- Out of a run and of STOPPING the target is NONE. -/
theorem State.LinkLaw.target_none {s : State} (hs : s.LinkLaw A) (h : s.downlink.link ≠ .stopping) : s.downlink.target = .none := by
  cases e : s.downlink.target
  case none => rfl
  all_goals exact absurd (hs.target.1 (by rw [e]; simp)) h

theorem State.LinkLaw.disarm {s : State} (hs : s.LinkLaw A) (h : s.downlink.link = .armed) : s.disarm.LinkLaw A := by
  obtain ⟨h1, h2, h3, h4, h5, h6⟩ := hs.idle (by rw [h]; rfl)
  exact State.LinkLaw.ofIdle rfl (hs.target_none (by rw [h]; simp)) h1 h2 h3 h4 h5 h6

theorem State.LinkLaw.clearHalt {s : State} (hs : s.LinkLaw A) : s.clearHalt.LinkLaw A := by
  unfold State.clearHalt
  split
  · rename_i h
    obtain ⟨h1, h2, h3, h4, h5, h6⟩ := hs.idle (by rw [h]; rfl)
    exact State.LinkLaw.ofIdle rfl (hs.target_none (by rw [h]; simp)) h1 h2 h3 h4 h5 h6
  all_goals exact hs

/-- In a run, a stop target is taken: it is REACHED only when the successor waits. -/
theorem State.LinkLaw.stopAt {s : State} (hs : s.LinkLaw A) (h : s.downlink.link.inRun = true) {t : StopTarget} (ht : t ≠ .none)
    (hr : s.downlink.target ≠ .reached) : (s.stopAt t).LinkLaw A :=
  ⟨(fun e => by cases e), ⟨fun _ => rfl, fun _ => ht⟩, hs.line, hs.strobes, hs.external, fun hA _ _ => hs.ahead hA h hr⟩

theorem State.LinkLaw.stopEndMinor {s : State} (hs : s.LinkLaw A) : s.stopEndMinor.LinkLaw A := by
  unfold State.stopEndMinor
  dsimp only
  have ht : ∀ b : Bool, (if b = true then StopTarget.reached else .endMinor) ≠ .none := by intro b; cases b <;> simp
  split
  · rename_i h
    exact hs.stopAt (by rw [h]; rfl) (ht _) (by rw [hs.target_none (by rw [h]; simp)]; simp)
  · rename_i h
    split
    · rename_i h'; exact hs.stopAt (by rw [h]; rfl) (ht _) (by rw [h']; simp)
    all_goals exact hs
  · rename_i h; exact hs.disarm h
  all_goals exact hs

theorem State.LinkLaw.stopEndMajor {s : State} (hs : s.LinkLaw A) : s.stopEndMajor.LinkLaw A := by
  unfold State.stopEndMajor
  have ht : ∀ b : Bool, (if b = true then StopTarget.reached else .endMajor) ≠ .none := by intro b; cases b <;> simp
  split
  · rename_i h
    exact hs.stopAt (by rw [h]; rfl) (ht _) (by rw [hs.target_none (by rw [h]; simp)]; simp)
  · rename_i h; exact hs.disarm h
  all_goals exact hs

theorem State.LinkLaw.abort {s : State} (hs : s.LinkLaw A) : s.abort.LinkLaw A := by
  unfold State.abort
  split
  · exact State.LinkLaw.same (State.LinkLaw.cutRun s (l := .stopped) rfl) (by simp) (by simp)
  · exact State.LinkLaw.same (State.LinkLaw.cutRun s (l := .stopped) rfl) (by simp) (by simp)
  · rename_i h; exact hs.disarm h
  all_goals exact hs

theorem State.LinkLaw.clockLossExpiry {s : State} (hs : s.LinkLaw A) : s.clockLossExpiry.LinkLaw A := by
  unfold State.clockLossExpiry
  split
  · exact State.LinkLaw.same (State.LinkLaw.cutRun s (l := .halted) rfl) (by simp) (by simp)
  · exact hs

theorem State.LinkLaw.stoppingEnd {s : State} (hs : s.LinkLaw A) : s.stoppingEnd.LinkLaw A := by
  unfold State.stoppingEnd
  split
  · exact State.LinkLaw.same (State.LinkLaw.leaveRun s (l := .stopped) rfl) (by simp) (by simp)
  · exact hs

theorem State.LinkLaw.clockRegWrite {s : State} (hs : s.LinkLaw A) (r : ClockReg) (w : Word) : (s.clockRegWrite r w).LinkLaw A := by
  unfold State.clockRegWrite
  split
  · rename_i h
    obtain ⟨h1, h2, h3, h4, h5, h6⟩ := hs.idle (by rw [h]; rfl)
    have ht := hs.target_none (by rw [h]; simp)
    have hr : s.downlink.link.inRun = false := by rw [h]; rfl
    cases r
    · exact State.LinkLaw.ofIdle hr ht h1 h2 rfl h4 h5 h6
    · exact State.LinkLaw.ofIdle hr ht h1 h2 h3 h4 h5 h6
    · exact State.LinkLaw.ofIdle hr ht h1 h2 h3 h4 h5 h6
  · exact hs.same (by simp) (by simp)

/-- A count of REFCLK periods, the rise of BCLKO, and the frame counters are not the lines' law's concern. -/
theorem State.LinkLaw.counts {s t : State} (hs : s.LinkLaw A) (n k : Nat) (r m : Word)
    (hd : t.downlink = { s.downlink with lossTimer := n, halfCount := k, rowCount := r, majorCount := m })
    (hl : t.composer.lookahead = s.composer.lookahead) : t.LinkLaw A := by
  obtain ⟨h1, h2, h3, h4, h5, h6⟩ := hs
  constructor <;> simp only [hd, hl] <;> assumption

theorem State.LinkLaw.rise {s : State} (hs : s.LinkLaw A) :
    State.LinkLaw A { s with downlink := { s.downlink with bclko := true, halfCount := 0 } } := by
  obtain ⟨h1, h2, h3, h4, h5, h6⟩ := hs
  refine ⟨fun e => ?_, h2, h3, h4, fun _ => rfl, h6⟩
  obtain ⟨a, b, c, -, d, f⟩ := h1 e
  exact ⟨a, b, c, rfl, d, f⟩

/-- A bit period begins in a run: its bit is on DOUT (R130). -/
theorem State.LinkLaw.beginBit {s t : State} (hs : s.LinkLaw A) (h : s.downlink.link.inRun = true) (w : Composed) (b : Nat)
    {mfs jfs : Bool} (hj : jfs = true → mfs = true) (hd : t.downlink = s.downlink.beginBit w b mfs jfs)
    (ha : A → s.downlink.target ≠ .reached → t.composer.lookahead.isSome = true) : t.LinkLaw A := by
  have hrun : (s.downlink.beginBit w b mfs jfs).link.inRun = true := h
  refine ⟨?_, ?_, ?_, ?_, ?_, ?_⟩ <;> rw [hd]
  · intro e; rw [hrun] at e; cases e
  · exact hs.target
  · rfl
  · exact ⟨hj, fun _ => rfl⟩
  · intro e; simp only [Downlink.beginBit] at e ⊢; rw [e]; rfl
  · intro hA _; exact ha hA

theorem State.LinkLaw.bitPeriodStart {s : State} (hs : s.LinkLaw A) : s.bitPeriodStart.LinkLaw A := by
  unfold State.bitPeriodStart
  split
  · split
    · rename_i h
      have hr : s.downlink.link.inRun = true := by
        unfold State.bitDue at h; simp only [Bool.and_eq_true] at h; exact h.1
      exact hs.beginBit hr _ _ (by simp) rfl (fun hA => hs.ahead hA hr)
    · exact hs
  · exact hs

/-! ### Accesses and events -/

theorem State.LinkLaw.carryOut {s : State} (hs : s.LinkLaw A) (h : HostAccess) : (s.carryOut h).LinkLaw A := by
  apply State.carryOut_keeps (P := State.LinkLaw A) s h
  case start => intro w; exact hs.startRequest w
  case endMinor => exact hs.stopEndMinor
  case endMajor => exact hs.stopEndMajor
  case abort => exact hs.abort
  case clearHalt => exact hs.clearHalt
  case clock => intro r w; exact hs.clockRegWrite r w
  case softReset => exact .ofIdle rfl rfl rfl rfl rfl rfl rfl rfl
  case dataWrite =>
    intro w
    obtain ⟨a, b, e⟩ | ⟨pt, -, -, -, e⟩ | ⟨t, -, ht, e⟩ := s.tableDataWrite_cases w <;> rw [e]
    · exact hs.same (by simp) (by simp)
    · exact hs.same rfl rfl
    · obtain ⟨-, -, -, -, hd, hc, -⟩ := writeSourceWord_frame ht
      exact hs.same hd hc
  all_goals intros; exact hs.same (by simp) (by simp)

/-- Everything that can fall while a cell is composed keeps the law of the link. -/
theorem keptEvents_link (A : Prop) : KeptEvents (State.LinkLaw A) where
  access s h hs := State.access_keeps (P := State.LinkLaw A) (fun t ht => ht.same (by simp) (by simp))
    (fun t h _ _ _ ht => ht.same (by simp) (by simp)) (fun t x h _ _ ht => ht.same (by simp) (by simp))
    (fun t h _ _ ht => ht.carryOut h) s h hs
  perform s p b _ hs := hs.same (by simp) (by simp)
  takeCheck s i hs := hs.same (by simp) (by simp)
  tick s hs := hs.same (by simp) (by simp)
  tsyncEdge s hs := hs.same (by simp) (by simp)
  validationEnd s hs := hs.same (by simp) (by simp)
  release s _ hs := (hs.same (t := s.copyBack.releaseRead) (by simp) (by simp)).same rfl rfl

/-! ### A composition in a run -/

/-- What holds of the link while a cell is composed: the run goes on as long as the composition does, and once the composition has
stopped or is over the whole law holds. -/
def CellFlow.LinkInv (f : CellFlow) : Prop :=
  f.state.LinkLaw (f.composing = false) ∧ (f.composing = true → f.state.downlink.link.inRun = true)

namespace CellFlow.LinkInv

theorem after {f : CellFlow} {t : State} (ht : t.LinkLaw (f.composing = false)) : (f.after t).LinkInv := by
  unfold CellFlow.after CellFlow.LinkInv
  dsimp only
  refine ⟨ht.weaken (fun h => ?_), fun h => ?_⟩
  · cases hc : f.composing
    · exact .inl rfl
    · rw [hc] at h; exact .inr (by simpa using h)
  · simp only [Bool.and_eq_true] at h; exact h.2

/-- The part moves on with its link as it is, and so does the composition. -/
theorem keep {f g : CellFlow} (h : f.LinkInv) (hc : g.composing = f.composing) (hl : g.state.LinkLaw (f.composing = false))
    (hd : g.state.downlink = f.state.downlink) : g.LinkInv :=
  ⟨by rw [hc]; exact hl, by rw [hc, hd]; exact h.2⟩

theorem ask {f : CellFlow} (h : f.LinkInv) (p : PortAccess) (c : Bool) : (f.ask p c).LinkInv := by
  unfold CellFlow.ask
  split
  · exact h.keep rfl (h.1.same (by simp) (by simp)) (by simp)
  all_goals exact h

theorem host {f : CellFlow} (h : f.LinkInv) (a : HostAccess) : (f.host a).LinkInv := by
  unfold CellFlow.host
  split
  · exact h
  · split
    · exact h.ask _ _
    · exact after ((keptEvents_link _).access _ _ h.1)

theorem tie {f : CellFlow} (h : f.LinkInv) (b : Bool) (p : PortAccess) : (f.tie b p).LinkInv := by
  unfold CellFlow.tie
  split
  · exact h
  · split
    · exact h.ask _ _
    · exact after ((keptEvents_link _).access _ _ h.1)

theorem event {f : CellFlow} (h : f.LinkInv) (e : CellEvent) : (f.event e).LinkInv := by
  cases e
  case access a => exact h.host a
  case watermarkCheck i => exact after ((keptEvents_link _).takeCheck _ _ h.1)
  case tick => exact after ((keptEvents_link _).tick _ h.1)
  case tsyncEdge => exact after ((keptEvents_link _).tsyncEdge _ h.1)
  case validationEnd => exact after ((keptEvents_link _).validationEnd _ h.1)
  case copyBackEnd =>
    unfold CellFlow.event
    dsimp only
    split
    · have hr : f.state.copyBack.releaseRead.LinkLaw (f.composing = false) := h.1.same (by simp) (by simp)
      unfold CellFlow.release
      split
      · exact host (after (by exact hr.same rfl rfl)) _
      · exact after hr
    all_goals exact h

theorem events {f : CellFlow} (h : f.LinkInv) (es : List CellEvent) : (f.events es).LinkInv := by
  unfold CellFlow.events
  induction es generalizing f with
  | nil => exact h
  | cons e es ih => exact ih (h.event e)

theorem toConsult {f : CellFlow} (h : f.LinkInv) (reads : State → Bool) : (f.toConsult reads).LinkInv := by
  unfold CellFlow.toConsult
  dsimp only
  have he := events (f := { f with gaps := f.gaps.tail, deferred := [] }) h
    (f.deferred.map CellEvent.access ++ (f.gaps.headD { events := [], tied := none }).events)
  split
  · exact he.tie _ _
  · exact he

theorem consult {f : CellFlow} (h : f.LinkInv) (i : SourceId) : (f.consult i).LinkInv :=
  h.keep rfl (h.1.congr (by simp [CellFlow.consult]) (by simp [CellFlow.consult])) (by simp [CellFlow.consult])

end CellFlow.LinkInv

/-- The resolution of a cell leaves a word to place only in a run that goes on. -/
theorem resolveLayers_link (m c : Nat) (ks : List Nat) (l : List SourceId) {f : CellFlow} (h : f.LinkInv) :
    (resolveLayers m c ks l f).flow.LinkInv
      ∧ ((resolveLayers m c ks l f).placed.isSome = (resolveLayers m c ks l f).flow.composing) := by
  induction ks generalizing l f with
  | nil =>
    unfold resolveLayers resolveBase
    dsimp only
    have hg := h.toConsult (f.state.commit.active.baseEntry m c).reads
    split
    · rename_i hc
      unfold CellFlow.base
      dsimp only
      split
      · exact ⟨hg.consult _, hc.symm⟩
      · exact ⟨hg, hc.symm⟩
      · exact ⟨hg, hc.symm⟩
      · have hk : ∀ (u : State), u.LinkLaw ((f.toConsult (f.state.commit.active.baseEntry m c).reads).composing = false) →
            (u.takeChecks l).LinkLaw ((f.toConsult (f.state.commit.active.baseEntry m c).reads).composing = false)
              ∧ (u.takeChecks l).downlink = u.downlink := by
          unfold State.takeChecks
          induction l with
          | nil => intro u hu; exact ⟨hu, rfl⟩
          | cons i l ih =>
            intro u hu
            obtain ⟨h1, h2⟩ := ih (u.takeCheck i) (hu.same (by simp) (by simp))
            exact ⟨h1, h2.trans (by simp)⟩
        obtain ⟨h1, h2⟩ := hk _ hg.1
        exact ⟨hg.keep rfl h1 h2, hc.symm⟩
      all_goals exact ⟨hg, hc.symm⟩
    · rename_i hc; exact ⟨hg, by simpa using hc⟩
  | cons k ks ih =>
    unfold resolveLayers
    dsimp only
    have hg := h.toConsult (fun s => s.consultReads (sourceId (f.state.commit.active.winSource k)))
    split
    · rename_i hc
      split
      · exact ⟨hg.consult _, hc.symm⟩
      · split
        · exact ⟨hg.consult _, hc.symm⟩
        · exact ih _ (hg.consult _)
    · rename_i hc; exact ⟨hg, by simpa using hc⟩

/-- The end of a composition on a lawful part. -/
theorem CellFlow.close_link {f : CellFlow} (h : f.state.LinkLawful) (reading : Bool) : (f.close reading).LinkLawful := by
  unfold CellFlow.close
  have hf : (CellFlow.finish f).state.LinkLaw True := (keptEvents_link True).finish f (h.law True)
  exact State.LinkLaw.lawful (A := True) (hf.same rfl rfl) trivial

theorem State.LinkLaw.composeCell {s : State} (hs : s.LinkLaw False) (hr : s.downlink.link.inRun = true) (gaps : List CellGap)
    (reading : Bool) (m c : Nat) : (s.composeCell gaps reading m c).LinkLawful := by
  have place : ∀ (t : State) (v : Word) (d fed : Bool), t.LinkLaw False → t.downlink.link.inRun = true →
      (t.setLookahead v d fed).LinkLawful := by
    intro t v d fed ht hrun
    refine ⟨fun e => ?_, ht.target, ht.line, ht.strobes, ht.external, fun _ _ => rfl⟩
    rw [show t.downlink.link.inRun = false from e] at hrun; cases hrun
  have ho : (s.openCell m c).LinkLaw False := hs.congr (by simp) (by unfold State.openCell; dsimp only; (repeat' split) <;> rfl)
  have hor : (s.openCell m c).downlink.link.inRun = true := by simpa using hr
  unfold State.composeCell
  dsimp only
  split
  · exact CellFlow.close_link (place _ _ _ _ ho hor) _
  · have h0 : (CellFlow.start (s.openCell m c) gaps).LinkInv := ⟨ho.weaken (fun e => by cases e), fun _ => hor⟩
    obtain ⟨h1, h2⟩ := resolveLayers_link m c ((s.openCell m c).commit.active.windowLayers m c) [] h0
    split
    · rename_i w d hp
      rw [hp] at h2
      exact CellFlow.close_link (place _ _ _ _ (h1.1.weaken (fun e => e.elim)) (h1.2 h2.symm)) _
    · rename_i hp
      rw [hp] at h2
      exact CellFlow.close_link (h1.1.lawful h2.symm) _

theorem State.majorEndPoint_downlink (s : State) :
    s.majorEndPoint.downlink = { s.downlink with majorCount := s.downlink.majorCount + 1 } := by
  unfold State.majorEndPoint; rw [State.swapIfPending_downlink]

theorem State.startEvent_downlink (s : State) (m : Nat) :
    (s.startEvent m).downlink = { s.downlink with rowCount := BitVec.ofNat 16 m } := by
  unfold State.startEvent; dsimp only; split <;> rfl

theorem State.LinkLaw.composeSuccessor {s : State} (hs : s.LinkLaw False) (hr : s.downlink.link.inRun = true) (gaps : List CellGap)
    (reading : Bool) (m c : Nat) : (s.composeSuccessor gaps reading m c).LinkLawful := by
  unfold State.composeSuccessor
  dsimp only
  split
  · exact hs.composeCell hr _ _ _ _
  · have hm : ∀ b : Bool, (if b = true then s.majorEndPoint else s).LinkLaw False
        ∧ (if b = true then s.majorEndPoint else s).downlink.link = s.downlink.link := by
      intro b
      cases b
      · exact ⟨hs, rfl⟩
      · refine ⟨State.LinkLaw.counts hs s.downlink.lossTimer s.downlink.halfCount s.downlink.rowCount (s.downlink.majorCount + 1) ?_ ?_, ?_⟩
        · exact s.majorEndPoint_downlink
        · simp [State.majorEndPoint]
        · simp [State.majorEndPoint_downlink]
    obtain ⟨h1, h2⟩ := hm (decide (s.commit.active.m ≤ m + 1))
    split
    · rename_i ht
      refine CellFlow.close_link ?_ _
      unfold Downlink.targetMet at ht
      simp only [Bool.and_eq_true, beq_iff_eq] at ht
      exact ⟨h1.idle, ⟨fun _ => h2.trans ht.1, fun _ => by simp [CellFlow.start]⟩, h1.line, h1.strobes, h1.external,
        fun _ e => absurd rfl e⟩
    · exact h1.composeCell (by rw [h2]; exact hr) _ _ _ _

theorem State.LinkLawful.firstBit {s : State} (hs : s.LinkLawful) (gaps : List CellGap) (reading : Bool) :
    (s.firstBit gaps reading).LinkLawful := by
  unfold State.firstBit
  split
  · rename_i w hw
    split
    · rename_i hdue
      have hr : s.downlink.link.inRun = true := by
        unfold State.cellDue at hdue
        simp only [Bool.and_eq_true] at hdue
        exact hdue.1.1.1
      dsimp only
      have h1 : ∀ t : State, t.downlink = s.downlink.beginBit w (w.width - 1) (s.composer.col == 0)
          (s.composer.col == 0 && s.composer.row == 0) → t.LinkLaw False := fun t ht =>
        (hs.law False).beginBit hr w _ (by simp +contextual) ht (fun e => e.elim)
      split
      · refine State.LinkLaw.composeSuccessor ?_ ?_ _ _ _ _
        · refine State.LinkLaw.counts (h1 { s with
            downlink := s.downlink.beginBit w (w.width - 1) (s.composer.col == 0) (s.composer.col == 0 && s.composer.row == 0)
            composer := { s.composer with lookahead := none } } rfl) _ _ (BitVec.ofNat 16 s.composer.row) _
              (State.startEvent_downlink _ _) (by simp)
        · rw [State.startEvent_downlink]; exact hr
      · exact State.LinkLaw.composeSuccessor (h1 { s with
            downlink := s.downlink.beginBit w (w.width - 1) (s.composer.col == 0) (s.composer.col == 0 && s.composer.row == 0)
            composer := { s.composer with lookahead := none } } rfl) hr _ _ _ _
    · exact hs
  · exact hs

/-! ### Error capture -/

theorem State.ErrorLawful.congr {s t : State} (hs : s.ErrorLawful) (h : t.irq.errKind = s.irq.errKind)
    (ha : t.irq.detailA = s.irq.detailA) (hb : t.irq.detailB = s.irq.detailB) (hc : t.irq.afterCount = s.irq.afterCount) :
    t.ErrorLawful := by
  unfold State.ErrorLawful at hs ⊢
  rw [h, ha, hb, hc]; exact hs

theorem State.ErrorLawful.same {s t : State} (hs : s.ErrorLawful) (h : t.irq = s.irq) : t.ErrorLawful :=
  hs.congr (by rw [h]) (by rw [h]) (by rw [h]) (by rw [h])

theorem State.ErrorLawful.raise {s : State} (hs : s.ErrorLawful) (f : Flag) : (s.raise f).ErrorLawful := hs.congr rfl rfl rfl rfl

/-- A refusal leaves the record full (R178). -/
theorem State.ErrorLawful.report (s : State) {kind : ErrKind} (hk : kind ≠ .none) (a b : Word) : (s.report kind a b).ErrorLawful := by
  intro h
  unfold State.report at h
  split at h
  · exact absurd h hk
  · rename_i hn; exact absurd h (by intro e; exact hn e)

theorem State.ErrorLawful.errKindWrite (s : State) : s.errKindWrite.ErrorLawful := fun _ => ⟨rfl, rfl, rfl⟩

end Sys2Proof.Machine
end

