-- ==== Sys2Proof/Laws/Period.lean ====
section
/-! SUPPORT. Steps on an empty queue: a run of one step more, and what the parts of a REFCLK period leave as they are. -/

namespace Sys2Proof.Machine

/-- A run of `k` steps and one step more. -/
theorem run_succ {k : Nat} {s t u : State} (h1 : Sys2Proof.core.run k s = .next t) (h2 : step t = .next u) :
    Sys2Proof.core.run (k + 1) s = .next u := by
  have eq : ∀ (n : Nat) (x y : State), step x = .next y → Sys2Proof.core.run (n + 1) x = Sys2Proof.core.run n y := by
    intro n x y h
    have e : Sys2Proof.core.step x = .next y := h
    simp only [Host.Core.run, e]
  induction k generalizing s with
  | zero => cases h1; exact eq 0 t u h2
  | succ k ih =>
    cases hs : step s with
    | next s' => rw [eq k s s' hs] at h1; rw [eq (k + 1) s s' hs]; exact ih h1
    | fault r => cases r
    | refused r =>
      have e : Sys2Proof.core.step s = .refused r := hs
      simp only [Host.Core.run, e] at h1
      cases h1

/-- A step on an empty queue, with no check outstanding, is the four counts of a REFCLK period. -/
theorem step_idle {s : State} (h : s.settled) (hp : s.pending = []) (hc : s.refill.checks = []) :
    step s = .next s.dividerPeriod.operationPeriod.lossPeriod.generatorPeriod := by
  simp only [step, hp, State.refclk, State.outOfReset_settled h, State.drainChecks, hc, List.foldl_nil]

/-- The tick divider's count leaves everything but the time counter and the flags (R144). -/
theorem State.dividerPeriod_frame (s : State) :
    s.dividerPeriod.pending = s.pending ∧ s.dividerPeriod.resetAsserted = s.resetAsserted ∧ s.dividerPeriod.port = s.port
      ∧ s.dividerPeriod.refill = s.refill ∧ s.dividerPeriod.commit = s.commit ∧ s.dividerPeriod.downlink = s.downlink
      ∧ s.dividerPeriod.window = s.window := by
  unfold State.dividerPeriod; split <;> simp

/-- With no operation running, its count does nothing. -/
theorem State.operationPeriod_idle {s : State} (h : s.commit.state = .edit ∨ s.commit.state = .pending) : s.operationPeriod = s := by
  unfold State.operationPeriod; rcases h with h | h <;> rw [h]

/-- Out of a run neither clock counts (R128, R139). -/
theorem State.clocks_idle {s : State} (h : s.downlink.link.inRun = false) : s.lossPeriod.generatorPeriod = s := by
  have h1 : s.lossPeriod = s := by unfold State.lossPeriod State.lossTimerRuns; simp [h]
  rw [h1, State.generatorPeriod, if_neg (by rw [h]; simp)]

end Sys2Proof.Machine
end

