-- ==== Sys2Proof/Laws/Port.lean ====
section
/-! SUPPORT. Commands and the buffer's port: what a command finds when a buffer access is in progress, and the access of the host that
needs the port (R158, R165). -/

namespace Sys2Proof.Machine

/-- What has ended stays ended. -/
theorem State.settle_settle (s : State) : s.settle.settle = s.settle := State.settle_of_free s.settle_port

/-- An access to the buffer is one of the three (12.1). -/
theorem HostAccess.portUse_isSome_iff (h : HostAccess) : h.portUse.isSome = true ↔
    (∃ raised, h = .read 0x0E raised) ∨ (∃ w, h = .write 0x0E w) ∨ ∃ w, h = .write 0x10 w := by
  refine ⟨HostAccess.portUse_cases, ?_⟩
  rintro (⟨r, rfl⟩ | ⟨w, rfl⟩ | ⟨w, rfl⟩) <;> rfl

/-- A command that is not held at the port finds the buffer access in progress ended (R165, log entry 12). -/
theorem exec_settle {s : State} (hr : s.resetAsserted = false) {c : Instr} (h1 : ∀ b, c ≠ .hardwareReset b) (h2 : c ≠ .resetRelease)
    (h3 : ∀ h, accessOf c = some h → s.heldAtPort h = false) : exec c s = exec c s.settle := by
  have hr' : s.settle.resetAsserted = false := by simpa using hr
  cases ha : accessOf c with
  | some h =>
    have hn : s.settle.heldAtPort h = false := by simp [State.heldAtPort, State.settle_port]
    rw [exec_of_access ha, exec_of_access ha]
    simp [State.access, State.takeAccess, hr, h3 h ha, hn, State.settle_settle]
  | none =>
    cases c <;> simp only [accessOf, reduceCtorEq] at ha
    case clockRegisterWrite r w => cases r <;> cases ha
    case hardwareReset b => exact absurd rfl (h1 b)
    case resetRelease => exact absurd rfl h2
    all_goals
      simp only [exec, execStartEdge, execStoppingEnd, execClockLossExpiry, execCellCompose, execWatermarkCheck, execValidationEnd,
        execCopyBackEnd, execTick, execTsyncEdge, execBitPeriodStart, execBclkiRisingEdge, State.outOfReset, hr, hr',
        State.settle_settle, Bool.false_eq_true, if_false]

/-- A command that is an access to the buffer, taken at once, is its port access (R168, R169). -/
theorem exec_of_portUse {c : Instr} {h : HostAccess} (hc : accessOf c = some h) {p : PortAccess} (hp : h.portUse = some p) {s : State}
    (hs : s.ready) : exec c s = .next (s.portAccess p) := by
  rw [exec_of_access hc]
  simp only [State.access, State.takeAccess_ready hs]
  rcases (HostAccess.portUse_isSome_iff h).1 (by rw [hp]; rfl) with ⟨r, rfl⟩ | ⟨w, rfl⟩ | ⟨w, rfl⟩ <;>
    (simp only [HostAccess.portUse] at hp; cases hp; rfl)

end Sys2Proof.Machine
end

