-- ==== Sys2Proof/Laws/Refill.lean ====
section
/-! SUPPORT. The operations on the refill queue and the source states keep the queue's law (R49). -/

namespace Sys2Proof.Machine

/-- The queue stands as it was, and every source that was feeding still is. -/
theorem State.RefillLawful.ofFeeding {s t : State} (hs : s.RefillLawful) (hr : t.refill.records = s.refill.records)
    (hf : ∀ i, (s.record i).state.feeding = true → (t.record i).state.feeding = true) : t.RefillLawful :=
  ⟨hr ▸ hs.distinct, fun r h => hf _ (hs.feeding r (hr ▸ h))⟩

theorem State.RefillLawful.congr {s t : State} (hs : s.RefillLawful) (hr : t.refill.records = s.refill.records)
    (hf : t.sources.records = s.sources.records) : t.RefillLawful :=
  hs.ofFeeding hr (fun i h => by simpa only [State.record, hf] using h)

theorem State.RefillLawful.same {s t : State} (hs : s.RefillLawful) (hr : t.refill = s.refill) (hf : t.sources = s.sources) :
    t.RefillLawful := hs.congr (by rw [hr]) (by rw [hf])

/-- One record is replaced by one that is feeding when the old one was. -/
theorem State.RefillLawful.setRecord {s : State} (hs : s.RefillLawful) (i : SourceId) {r : SourceRec}
    (hf : (s.record i).state.feeding = true → r.state.feeding = true) : (s.setRecord i r).RefillLawful :=
  hs.ofFeeding (by simp) (fun j h => by
    rw [State.record_setRecord]; split
    · subst j; exact hf h
    · exact h)

theorem State.queued_eq_true_iff {s : State} {i : SourceId} : s.queued i = true ↔ ∃ r ∈ s.refill.records, r.source = i := by
  simp [State.queued]

theorem State.queued_eq_false_iff {s : State} {i : SourceId} : s.queued i = false ↔ ∀ r ∈ s.refill.records, r.source ≠ i := by
  simp [State.queued]

/-- A source that is OFF or DRAINING is not QUEUED (R49). -/
theorem State.RefillLawful.not_queued {s : State} (hs : s.RefillLawful) {i : SourceId}
    (hf : (s.record i).state.feeding = false) : s.queued i = false := by
  rw [State.queued_eq_false_iff]
  intro r hr e
  have := hs.feeding r hr
  rw [e, hf] at this
  cases this

theorem State.RefillLawful.insertRecord {s : State} (hs : s.RefillLawful) {i : SourceId} (hq : s.queued i = false)
    (hf : (s.record i).state.feeding = true) (why : RefillReason) : (s.insertRecord i why).RefillLawful := by
  rw [State.queued_eq_false_iff] at hq
  have hrec : ∀ j, (s.insertRecord i why).record j = s.record j := State.record_congr (by simp)
  refine ⟨?_, ?_⟩
  · show (((s.refill.records ++ [_]).map RefillRec.source)).Nodup
    rw [List.map_append, List.nodup_append]
    refine ⟨hs.distinct, by simp, ?_⟩
    intro a ha b hb
    obtain ⟨r, hr, rfl⟩ := List.mem_map.1 ha
    simp only [List.map_cons, List.map_nil, List.mem_singleton] at hb
    rw [hb]
    exact hq r hr
  · intro r hr
    rw [hrec]
    rcases List.mem_append.1 (show r ∈ s.refill.records ++ [_] from hr) with h | h
    · exact hs.feeding r h
    · rw [List.mem_singleton.1 h]; exact hf

/-- The record of `i` is removed, and only the state of `i` may stop feeding. -/
theorem State.RefillLawful.removeRecord {s t : State} (hs : s.RefillLawful) (i : SourceId) (hr : t.refill = s.refill)
    (hf : ∀ j, j ≠ i → t.record j = s.record j) : (t.removeRecord i).RefillLawful := by
  refine ⟨?_, ?_⟩
  · show ((t.refill.records.filter (fun r => r.source != i)).map RefillRec.source).Nodup
    rw [hr]
    exact hs.distinct.sublist (List.filter_sublist.map _)
  · intro r h
    have h' : r ∈ t.refill.records.filter (fun r => r.source != i) := h
    rw [List.mem_filter] at h'
    have hne : r.source ≠ i := by simpa using h'.2
    rw [State.record_congr (s := t) (by simp), hf _ hne]
    exact hs.feeding r (hr ▸ h'.1)

theorem State.RefillLawful.pop {s : State} (hs : s.RefillLawful) : s.pop.RefillLawful := by
  refine ⟨?_, ?_⟩
  · show (s.refill.records.tail.map RefillRec.source).Nodup
    exact hs.distinct.sublist ((List.tail_sublist _).map _)
  · intro r h
    rw [State.record_congr (s := s) (by simp)]
    exact hs.feeding r (List.mem_of_mem_tail h)

theorem State.RefillLawful.watermarkCheck {s : State} (hs : s.RefillLawful) (i : SourceId) : (s.watermarkCheck i).RefillLawful := by
  obtain h | ⟨hf, -, hq, -, h⟩ := s.watermarkCheck_cases i <;> rw [h]
  · exact hs
  · refine (hs.insertRecord hq hf .low).setRecord i (fun _ => hf)

theorem State.RefillLawful.takeCheck {s : State} (hs : s.RefillLawful) (i : SourceId) : (s.takeCheck i).RefillLawful := by
  unfold State.takeCheck
  split
  · have h : ({ s with refill := { s.refill with checks := s.refill.checks.erase i } } : State).RefillLawful := hs.congr rfl rfl
    exact h.watermarkCheck i
  · exact hs

theorem SourceRec.afterAppend_feeding {r : SourceRec} (hf : r.state.feeding = true) : r.afterAppend.state.feeding = true := by
  simp only [SourceRec.afterAppend]
  split
  · rfl
  · exact hf

theorem State.RefillLawful.appendTo {s : State} (hs : s.RefillLawful) (i : SourceId) (w : Word) : (s.appendTo i w).RefillLawful := by
  unfold State.appendTo
  dsimp only
  split
  · rename_i hf
    split
    · exact (hs.same (t := s.bufferWrite _ w) (by simp) (by simp)).setRecord i (fun _ => SourceRec.afterAppend_feeding hf)
    · exact (hs.setRecord i (r := { s.record i with overflows := satInc (s.record i).overflows }) (fun h => h)).same
        (by simp) (by simp)
  · exact hs.same (by simp) (by simp)

theorem State.RefillLawful.append {s : State} (hs : s.RefillLawful) (w : Word) : (s.append w).RefillLawful := by
  unfold State.append
  split
  · exact hs.appendTo _ w
  · exact hs.same (by simp) (by simp)

theorem State.RefillLawful.consult {s : State} (hs : s.RefillLawful) (i : SourceId) : (s.consult i).state.RefillLawful := by
  have live : (s.record i).state.feeding = true → (s.consultLive i).state.RefillLawful := by
    intro _
    unfold State.consultLive
    dsimp only
    split
    · exact (hs.setRecord i (r := SourceRec.afterUnderrun { s.record i with state := .live }) (fun _ => rfl)).same (by simp) (by simp)
    · exact (hs.setRecord i (r := SourceRec.afterRemoval { s.record i with state := .live } (s.oldestWord i)) (fun _ => rfl)).congr
        (by simp [State.handCheck]) (by simp)
  unfold State.consult
  dsimp only
  split <;> rename_i hst
  · exact hs
  · split
    · exact live (by rw [hst]; rfl)
    · exact hs
  · exact live (by rw [hst]; rfl)
  · split
    · exact live (by rw [hst]; rfl)
    · exact hs.setRecord i (fun h => h)
  · unfold State.consultDraining
    dsimp only
    split
    · have h := hs.setRecord i (r := { (s.record i).afterRemoval (s.oldestWord i) with state := .off })
        (fun h => by rw [hst] at h; cases h)
      exact h.same (by simp) (by simp)
    · exact hs.setRecord i (fun h => h)

theorem State.RefillLawful.body {s t : State} (hs : s.RefillLawful) {c : SourceCommand} {i : SourceId} (h : c.body i s = .ok t) :
    t.RefillLawful := by
  have other : ∀ (r : SourceRec) (j : SourceId), j ≠ i → (s.setRecord i r).record j = s.record j := fun r j hj => by
    rw [State.record_setRecord, if_neg hj]
  cases c
  · simp only [SourceCommand.body, doOpen] at h
    split at h
    · cases h
    · rename_i ho
      split at h
      · cases h
        have hoff : (s.record i).state.feeding = false := by rw [show (s.record i).state = .off by simpa using ho]; rfl
        refine (hs.setRecord i (r := (s.record i).opened) (fun _ => rfl)).insertRecord ?_ (by simp; rfl) .opened
        rw [State.queued_congr (s := s) (by simp)]
        exact hs.not_queued hoff
      · cases h
  · simp only [SourceCommand.body, doClose] at h
    split at h <;> cases h
    exact hs.removeRecord i (by simp) (other _)
  · simp only [SourceCommand.body, doKill] at h
    split at h <;> cases h
    · exact hs
    · exact hs.removeRecord i (by simp) (other _)
  · simp only [SourceCommand.body, doFlush] at h
    split at h <;> cases h
    have hk := hs.setRecord i (r := (s.record i).emptied .priming) (fun _ => rfl)
    split
    · exact hk
    · rename_i hq
      refine hk.insertRecord ?_ (by simp; rfl) .flushed
      rw [State.queued_congr (s := s) (by simp)]
      simpa using hq

theorem State.RefillLawful.sourceCommand {s : State} (hs : s.RefillLawful) (c : SourceCommand) (n : BitVec 8) :
    (s.sourceCommand c n c.body).RefillLawful := by
  obtain ⟨r, h⟩ | ⟨i, t, -, ht, h⟩ := s.sourceCommand_cases c n c.body <;> rw [h]
  · exact hs.congr (by simp) (by simp only [State.refuseCommand, State.report_sources]; rfl)
  · exact (hs.body ht).congr (by simp) rfl

theorem State.RefillLawful.srcCmd {s : State} (hs : s.RefillLawful) (cmd : BitVec 4) (n : BitVec 8) :
    (s.srcCmd cmd n).RefillLawful := by
  unfold State.srcCmd
  split
  · exact hs.sourceCommand _ n
  · exact hs.congr (by simp) (by simp only [State.refuseCommand, State.report_sources]; rfl)

theorem State.RefillLawful.writeSourceWord {s t : State} (hs : s.RefillLawful) {i : SourceId} {k : Nat} {w : Word}
    (h : writeSourceWord i k w s = .ok t) : t.RefillLawful := by
  unfold Machine.writeSourceWord at h
  dsimp only at h
  (repeat' split at h) <;> cases h
  case h_3.isFalse.refl =>
    unfold State.setWatermark
    dsimp only
    split
    · exact (hs.setRecord i (r := { s.record i with watermark := w, armed := (s.record i).armed || decide (w < (s.record i).occupancy) })
        (fun h => h)).congr (by simp [State.handCheck]) (by simp)
    · exact hs.setRecord i (fun h => h)
  all_goals exact hs.setRecord i (fun h => h)

end Sys2Proof.Machine
end

