-- ==== Sys2Proof/Tests/Slice0.lean ====
section
/-! SUPPORT. The model's own tests: the ill-formed commands, worked values of the data book, and for every statement a state and
operands that meet its hypotheses, each clause at a boundary of its range. -/

namespace Sys2Proof.Tests

open Sys2Proof Sys2Proof.Machine

/-! ### Well-formed and ill-formed commands -/

theorem test_registerWrite_ill_formed : (Instr.registerWrite 0x00 0).wellFormed = false ∧ (Instr.registerWrite 0x24 0).wellFormed = false := by
  decide

theorem test_registerWrite_well_formed : (Instr.registerWrite 0x0D 0).wellFormed = true ∧ (Instr.registerWrite 0x25 0).wellFormed = true := by
  decide

theorem test_runCtrlUndefined_ill_formed :
    (Instr.runCtrlUndefinedRequest 0x0001).wellFormed = false ∧ (Instr.runCtrlUndefinedRequest 0x0022).wellFormed = false
      ∧ (Instr.runCtrlUndefinedRequest 0x0033).wellFormed = false := by
  decide

theorem test_runCtrlUndefined_well_formed :
    (Instr.runCtrlUndefinedRequest 0x0000).wellFormed = true ∧ (Instr.runCtrlUndefinedRequest 0x0032).wellFormed = true
      ∧ (Instr.runCtrlUndefinedRequest 0x0004).wellFormed = true := by
  decide

theorem test_commitCtrlUndefined_ill_formed :
    (Instr.commitCtrlUndefinedRequest 0x0001).wellFormed = false ∧ (Instr.commitCtrlUndefinedRequest 0x0002).wellFormed = false := by
  decide

theorem test_srcCmdUndefined_ill_formed :
    (Instr.srcCmdUndefinedCommand 1 0).wellFormed = false ∧ (Instr.srcCmdUndefinedCommand 4 0).wellFormed = false := by
  decide

theorem test_srcCmdUndefined_well_formed :
    (Instr.srcCmdUndefinedCommand 0 0).wellFormed = true ∧ (Instr.srcCmdUndefinedCommand 5 0).wellFormed = true := by
  decide

theorem test_timeCtrlUndefined_ill_formed :
    (Instr.timeCtrlUndefinedRequest 1).wellFormed = false ∧ (Instr.timeCtrlUndefinedRequest 3).wellFormed = false := by
  decide

theorem test_timeCtrlUndefined_well_formed :
    (Instr.timeCtrlUndefinedRequest 0).wellFormed = true ∧ (Instr.timeCtrlUndefinedRequest 4).wellFormed = true := by
  decide

theorem test_cellCompose_ill_formed :
    (Instr.cellCompose (List.replicate 7 { events := [], tied := none })).wellFormed = false := by
  decide

theorem test_cellCompose_well_formed :
    (Instr.cellCompose (List.replicate 6 { events := [.tick], tied := some (.append 0) }) true).wellFormed = true := by
  decide

/-! ### Small states -/

/-- The part after reset with one source record replaced. -/
def withSource (r : SourceRec) : State := State.reset.setRecord 0 r

/-- A ring of two words that ends at the buffer's last word, in a state, with `occ` words. -/
def ring (st : SourceState) (occ : Word) : SourceRec :=
  { SourceRec.reset with
    base := 0x7FFE, length := 2, watermark := 1, startLevel := 2, state := st, occupancy := occ, appended := occ + 1, consumed := 1
    readIndex := 1, writeIndex := if occ = 1 then 0 else 1, armed := true }

/-- The part after reset with the downlink port changed. -/
def withLink (link : LinkState) (target : StopTarget) (clk : ClockSource) (sh : Option Shifting) : State :=
  { State.reset with downlink := { Downlink.reset with link := link, target := target, clkSrc := clk, shifting := sh } }

/-- A word of eight bits. -/
def byte (v : Word) (delivered : Bool) : Composed := { value := v, width := 8, delivered := delivered }

/-- The part in a run, cell (`row`,`col`) composed, the word before it at its last bit. -/
def inCell (link : LinkState) (target : StopTarget) (row col : Nat) : State :=
  { withLink link target .internal (some { word := byte 0xA5 true, bit := 0 }) with
    composer := { Composer.reset with row := row, col := col, lookahead := some (byte 0x5A true) } }

/-- The part with a table selected and an index set. -/
def atTable (t : Table) (bank : Role) (index : Nat) : State :=
  { State.reset with window := { RegWindow.reset with table := t, bank := bank, index := index } }

/-- The part with the commit controller in a state. -/
def inCommit (st : CommitState) : State := { State.reset with commit := { Commit.reset with state := st } }

/-- The part with a buffer access of the composer in progress, and an access of the host held or not. -/
def atPort (held : Option HeldAccess) : State :=
  { State.reset with port := some .composer, window := { RegWindow.reset with held := held } }

/-- The part in a run as cell (0,1) leaves: window 0 covers cell (0,2) for source 0, and its base layer is source 1. -/
def twoLayers (r0 r1 : SourceRec) : State :=
  { (withSource r0).setRecord 1 r1 with
    downlink := (inCell .running .none 0 1).downlink
    composer := (inCell .running .none 0 1).composer
    commit := { Commit.reset with active := { Bank.default with window := [(0, 1), (4, 2), (5, 2)], map := [(4, 1), (5, 1)] } } }

/-- Events that fall before a consult. -/
def before (es : List HostAccess) : CellGap := { events := es.map CellEvent.access, tied := none }

/-- A composition on the part after reset. -/
def flow (ended : Option Requester) (deferred : List HostAccess) (gaps : List CellGap) : CellFlow :=
  { state := State.reset, gaps := gaps, deferred := deferred, ended := ended, composing := true }

theorem ring_lawful {st : SourceState} {occ : Word} (h : st ≠ .off ∨ occ = 0) (h1 : st = .draining → occ ≠ 0)
    (h2 : occ = 0 ∨ occ = 1 ∨ occ = 2) : (ring st occ).Lawful := by
  rcases h2 with rfl | rfl | rfl <;> constructor <;> cases st <;> simp_all [ring, SourceRec.reset]

theorem reset_records : State.reset.SourcesLawful := by
  intro i
  have : State.reset.record i = SourceRec.reset := by simp [State.record, State.reset, SourceUnit.reset]
  rw [this]
  exact SourceRec.Lawful.reset

theorem withSource_lawful {r : SourceRec} (h : r.Lawful) : (withSource r).SourcesLawful := reset_records.setRecord 0 h

theorem memory_lawful {s : State} (hb : s.buffer = []) (ha : s.commit.active = Bank.default) (hs : s.commit.staging = Bank.default)
    (hi : s.window.index < s.window.table.size) : s.MemoryLawful :=
  ⟨by rw [hb]; rfl, by rw [ha]; rfl, by rw [hs]; rfl, hi⟩

theorem withSource_memory (r : SourceRec) : (withSource r).MemoryLawful := memory_lawful rfl rfl rfl (by show 0 < 8; omega)

theorem withSource_record (r : SourceRec) : (withSource r).record 0 = r := by
  simp [withSource]

theorem commit_lawful {s : State} (h : s.commit = Commit.reset) : s.CommitLawful := by
  constructor <;> rw [h]
  · exact Bank.validate_default
  · intro e
    cases e
  · intro e
    cases e

/-! ### Worked values -/

/-- The check word of 01 section 1.6, row 0: the ID word 00h and the data words 01h, 02h, 03h leave F1h in the low eight bits. -/
theorem test_check_word : (crcFeed 8 3 (crcFeed 8 2 (crcFeed 8 1 (crcFeed 8 0 0xFFFF)))).setWidth 8 = (0xF1 : BitVec 8) := by decide +kernel

/-- The refused table write of R184: KIND 2, ERR_DETAIL_A 0001h, ERR_DETAIL_B 5019h. -/
theorem test_locked_write : ∃ t, exec (.tableDataWrite 7)
      { atTable (.plan .map) .staging 25 with commit := { Commit.reset with state := .pending } } = .next t
    ∧ t.registerView 0x40 = 2 ∧ t.registerView 0x42 = 1 ∧ t.registerView 0x44 = 0x5019 ∧ t.registerView 0x16 = 26 :=
  ⟨_, rfl, by decide +kernel⟩

/-- The refused clock write of R184: KIND 6, ERR_DETAIL_A 000Ah, ERR_DETAIL_B 000Ch. -/
theorem test_clock_refusal : ∃ t, exec (.clockRegisterWrite .bitDiv 3) (withLink .running .none .internal none) = .next t
    ∧ t.registerView 0x40 = 6 ∧ t.registerView 0x42 = 0x000A ∧ t.registerView 0x44 = 0x000C ∧ t.registerView 0x3C = 0x400 :=
  ⟨_, rfl, by decide⟩

/-- A start straight after reset composes the sync word 7A1Dh (01, the note of R8). -/
theorem test_start_after_reset : ∃ t, exec (.start 0) State.reset = .next t
    ∧ t.composer.lookahead = some { value := 0x7A1D, width := 16, delivered := false } ∧ t.registerView 0x02 = 2 :=
  ⟨_, rfl, by decide⟩

/-- TBL_INDEX 2050 with MAP selected sets 2, and 800 with SOURCE selected sets 32 (R162). -/
theorem test_index_modulo :
    (∃ t, exec (.tblIndexWrite 2050) (atTable (.plan .map) .staging 0) = .next t ∧ t.window.index = 2)
    ∧ ∃ t, exec (.tblIndexWrite 800) (atTable .source .staging 0) = .next t ∧ t.window.index = 32 :=
  ⟨⟨_, rfl, by decide⟩, ⟨_, rfl, by decide⟩⟩

/-- The window's consult underruns and the base layer's drains its source. A write of 0180h to INT_FLAGS between the two leaves UNDERRUN
clear and DRAINED set; before both it leaves both set, and after both both clear (R42, R97, R174). -/
theorem test_intFlags_write_among_consults :
    let s := twoLayers { ring .live 0 with policy := .yield } (ring .draining 1)
    ∀ p ∈ [([before [.write 0x1E 0x180]], (0x180 : BitVec 11)), ([before [], before [.write 0x1E 0x180]], 0x100),
        ([before [], before [], before [.write 0x1E 0x180]], 0)],
      ((s.firstBit p.1 false).irq.flags &&& 0x180) = p.2 := by
  decide +kernel

/-- A ring that is full as cell (0,2) is composed. An append made before the window's consult finds it full; one made at the instant of the
consult is granted after the composer's read, and finds a place; of two made before it the first is granted at the free port, and the
second after that read (R165). -/
theorem test_port_between_consults :
    let s := twoLayers (ring .live 2) (ring .off 0)
    ∀ p ∈ [([before [.write 0x10 7]], (1, 1)), ([{ events := [], tied := some (.append 7) }], (0, 2)),
        ([before [.write 0x10 7, .write 0x10 8]], ((1 : Word), (2 : Word)))],
      let r := (s.firstBit p.1 false).record 0
      (r.overflows, r.occupancy) = p.2 := by
  decide +kernel

/-- An append made while the composer's read is in progress is held with WAIT# low, and the next command finds it carried out (R158). -/
theorem test_append_held_at_port :
    (∃ t, exec (.append 7) { withSource (ring .live 1) with port := some .composer } = .next t ∧ t.waitLow = true
      ∧ (t.record 0).occupancy = 1)
    ∧ ∃ t u, exec (.append 7) { withSource (ring .live 1) with port := some .composer } = .next t ∧ exec .tick t = .next u
      ∧ u.waitLow = false ∧ (u.record 0).occupancy = 2 :=
  ⟨⟨_, rfl, by decide +kernel⟩, ⟨_, _, rfl, rfl, by decide +kernel⟩⟩

/-- A held read whose strobes the host raises delivers no data, whether another access follows or not (R158). -/
theorem test_abandoned_reads_deliver_nothing :
    (∃ t u, exec (.bufDataRead true) (atPort none) = .next t ∧ exec .tick t = .next u ∧ u.window.readData = none ∧ u.window.bufAddr = 1)
    ∧ (∃ t u, exec (.bufDataRead false) (atPort none) = .next t ∧ exec .tick t = .next u ∧ u.window.readData = some 0)
    ∧ ∃ t u, exec (.tableDataRead true) (inCommit .syncing) = .next t ∧ exec .copyBackEnd t = .next u ∧ u.window.readData = none
      ∧ u.window.index = 1 :=
  ⟨⟨_, _, rfl, rfl, by decide +kernel⟩, ⟨_, _, rfl, rfl, by decide +kernel⟩, ⟨_, _, rfl, rfl, by decide +kernel⟩⟩

/-- The clock-loss timer at its last period and at the one before it; validation at its bound and before it. -/
theorem test_counted_periods :
    (∃ t, step (withLink .running .none .external none) = .next t ∧ t.downlink.link = .running ∧ t.downlink.lossTimer = 1)
    ∧ (∃ t, step { State.reset with downlink := { Downlink.reset with link := .running, clkSrc := .external, lossTimer := 255 } } = .next t
      ∧ t.downlink.link = .halted)
    ∧ (∃ t, step { State.reset with commit := { Commit.reset with state := .validating, elapsed := 2098 } } = .next t
      ∧ t.commit.state = .validating)
    ∧ ∃ t, step { State.reset with commit := { Commit.reset with state := .syncing, elapsed := 2099 } } = .next t ∧ t.commit.state = .edit :=
  ⟨⟨_, rfl, by decide⟩, ⟨_, rfl, by decide⟩, ⟨_, rfl, by decide⟩, ⟨_, rfl, by decide⟩⟩

/-! ### Witnesses: the machine, accesses and resets -/

theorem reset_ready : State.reset.ready := ⟨⟨rfl, rfl⟩, rfl⟩

theorem test_meets_IdleStepsTickOncePerDivision : ∃ s : State, s.settled ∧ s.pending = [] ∧ s.downlink.link = .stopped
    ∧ s.commit.state = .edit ∧ s.refill.checks = [] ∧ s.time.load = .none ∧ s.time.divider = 0 ∧ s.time.tickDiv = 0xFFFF :=
  ⟨{ State.reset with time := { TimeCounter.reset with tickDiv := 0xFFFF } }, ⟨rfl, rfl⟩, by decide⟩

theorem test_meets_ResetAssertedAndReleased :
    ((State.reset.hardwareReset true).resetAsserted = true ∧ (∀ b, Instr.tick ≠ .hardwareReset b) ∧ Instr.tick ≠ .resetRelease)
      ∧ State.reset.resetAsserted = false :=
  ⟨⟨rfl, fun _ => by simp, by simp⟩, rfl⟩

/-- Each of the three accesses to the buffer, made with the port busy and nothing held. -/
theorem test_meets_AccessesHeldAndWaiting_at_port : ∀ p ∈ [(Instr.append 7, HostAccess.write 0x10 7), (.bufDataWrite 7, .write 0x0E 7),
    (.bufDataRead true, .read 0x0E true)], accessOf p.1 = some p.2 ∧ (atPort none).resetAsserted = false
      ∧ (atPort none).port = some .composer ∧ (atPort none).window.held = none := by
  decide

/-- Another command there, an event and an access. -/
theorem test_meets_AccessesHeldAndWaiting_elsewhere : ∀ c ∈ [Instr.tick, .commit], (∀ b, c ≠ .hardwareReset b) ∧ c ≠ .resetRelease
    ∧ ∀ h, accessOf c = some h → h ≠ .read 0x0E true ∧ h ≠ .read 0x0E false ∧ ∀ w, h ≠ .write 0x0E w ∧ h ≠ .write 0x10 w := by
  intro c hc
  simp only [List.mem_cons, List.not_mem_nil, or_false] at hc
  rcases hc with rfl | rfl
  · exact ⟨by simp, by simp, by simp [accessOf]⟩
  · refine ⟨by simp, by simp, fun h hh => ?_⟩
    cases hh
    exact ⟨by decide, by decide, fun w => ⟨by simp, by simp⟩⟩

/-- An access held at the port, abandoned or not, and what it comes to. -/
theorem test_meets_AccessesHeldAndWaiting_ended : ∀ b : Bool, ∃ (s : State) (d : Instr) (done : State), s.resetAsserted = false
    ∧ s.port = some .composer ∧ s.window.held = some { access := .read 0x0E b, abandoned := b } ∧ accessOf d = some (.read 0x0E b)
    ∧ s.pending = [] ∧ exec d { s with port := none, window := { s.window with held := none } } = .next done :=
  fun b => ⟨atPort (some { access := .read 0x0E b, abandoned := b }), .bufDataRead b, _, rfl, rfl, rfl, rfl, rfl, rfl⟩

/-- An access begun behind a held read of TBL_DATA, with another that waits. -/
theorem test_meets_AccessesHeldAndWaiting_behind : ∃ (c : Instr) (h : HostAccess) (x : HeldAccess) (s : State),
    accessOf c = some h ∧ s.resetAsserted = false ∧ s.port = none ∧ s.window.held = some x ∧ s.window.waiting ≠ none :=
  ⟨.commit, _, { access := .read 0x0C false, abandoned := true },
    { inCommit .syncing with window := { RegWindow.reset with
      held := some { access := .read 0x0C false, abandoned := true }, waiting := some (.write 0x07 2) } }, rfl, rfl, rfl, rfl, by simp⟩

theorem test_meets_the_two_resets : ∃ c s, ((∃ b, c = Instr.hardwareReset b) ∨ (State.ready s ∧ ∃ w, c = .softReset w))
    ∧ ∃ c' s', (State.ready s' ∧ ∃ w, c' = Instr.softReset w) ∧ c ≠ c' :=
  ⟨.hardwareReset true, State.reset, .inl ⟨_, rfl⟩, .softReset 0xFFFF, State.reset, ⟨reset_ready, _, rfl⟩, by simp⟩

/-! ### Witnesses: time counter, interrupt unit, register window -/

theorem test_meets_TicksAndLoads : ∀ l : PendingLoad, ∃ s : State, s.settled ∧ s.time.load = l :=
  fun l => ⟨{ State.reset with time := { TimeCounter.reset with load := l } }, ⟨rfl, rfl⟩, rfl⟩

theorem test_meets_TimeRegisterAccesses : State.reset.ready ∧ ((0 : Word) ≠ 1 ∧ (0 : Word) ≠ 2 ∧ (0 : Word) ≠ 3)
    ∧ (4 : Word) ≠ 1 ∧ (4 : Word) ≠ 2 ∧ (4 : Word) ≠ 3 :=
  ⟨reset_ready, by decide⟩

theorem test_meets_RefusalIsCaptured : ∀ n : BitVec 8, ∃ s : State, s.irq.errKind ≠ .none ∧ s.irq.afterCount = n :=
  fun n => ⟨{ State.reset with irq := { Interrupts.reset with errKind := .append, afterCount := n } }, by simp, rfl⟩

theorem test_meets_RegisterWriteResults : State.reset.ready
    ∧ ∀ a ∈ [(0x17 : BitVec 6), 0x18, 0x19, 0x0D, 0x0F, 0x01, 0x23, 0x25, 0x3F], (Instr.registerWrite a 0xFFFF).wellFormed = true :=
  ⟨reset_ready, by decide⟩

theorem test_meets_ReadsAndResetValues : State.reset.ready
    ∧ ∀ a ∈ [(0x00 : BitVec 6), 0x13, 0x3F], 2 * a.toNat ≠ 0x18 ∧ 2 * a.toNat ≠ 0x1C ∧ 2 * a.toNat ≠ 0x36 :=
  ⟨reset_ready, by decide⟩

/-- A queue whose head has an OCC_AT_ENTRY at each side of the saturation, and an empty one. -/
theorem test_meets_RegisterLayouts : (∀ occ ∈ [(254 : Word), 255, 8192], ∃ (s : State) (q : RefillRec) (rest : List RefillRec),
    s.refill.records = q :: rest ∧ q.occAtEntry = occ) ∧ State.reset.refill.records = [] :=
  ⟨fun occ _ => ⟨{ State.reset with refill := { RefillQueue.reset with records := [⟨23, .low, 255, occ⟩] } }, _, _, rfl, rfl⟩, rfl⟩

/-! ### Witnesses: sources -/

/-- A ring with one place left, whose next append writes 7FFEh, after the ring's last position. -/
theorem test_meets_AppendAccepted : ∀ st ∈ [SourceState.priming, .live, .starved], ∃ s : State, s.ready ∧ s.SourcesLawful ∧ s.MemoryLawful
    ∧ s.sources.appendSrc.toNat = (0 : SourceId).val ∧ (s.record 0).state = st ∧ (s.record 0).occupancy < (s.record 0).length := by
  intro st hst
  refine ⟨withSource (ring st 1), ⟨⟨rfl, rfl⟩, rfl⟩, withSource_lawful (ring_lawful ?_ (by simp) (by simp)), withSource_memory _, rfl, ?_⟩
  · left
    rintro rfl
    simp at hst
  · rw [withSource_record]
    exact ⟨rfl, by simp [ring]⟩

theorem test_meets_AppendRefused :
    (∃ s : State, s.ready ∧ s.sources.appendSrc.toNat = 24)
    ∧ (∀ st ∈ [SourceState.off, .draining], ∃ s : State, s.ready ∧ s.sources.appendSrc.toNat = (0 : SourceId).val
      ∧ (s.record 0).state = st)
    ∧ ∃ s : State, s.ready ∧ s.sources.appendSrc.toNat = (0 : SourceId).val ∧ (s.record 0).state = .live
      ∧ (s.record 0).occupancy = (s.record 0).length := by
  refine ⟨⟨{ State.reset with sources := { SourceUnit.reset with appendSrc := 24 } }, ⟨⟨rfl, rfl⟩, rfl⟩, rfl⟩, fun st _ => ?_, ?_⟩
  · exact ⟨withSource (ring st 0), ⟨⟨rfl, rfl⟩, rfl⟩, rfl, by rw [withSource_record]; rfl⟩
  · exact ⟨withSource (ring .live 2), ⟨⟨rfl, rfl⟩, rfl⟩, rfl, by rw [withSource_record]; exact ⟨rfl, rfl⟩⟩

/-- The smallest ring at the buffer's end, and the largest at its beginning. -/
theorem test_meets_OpenResult : ∀ r ∈ [{ ring .off 0 with startLevel := 2 }, { ring .off 0 with base := 0, length := 8192, startLevel := 1 }],
    ∃ s : State, s.ready ∧ (0 : BitVec 8).toNat = (0 : SourceId).val ∧ s.record 0 = r ∧ r.state = .off
      ∧ (2 ≤ r.length.toNat ∧ r.length.toNat ≤ 8192) ∧ r.base.toNat + r.length.toNat ≤ 0x8000
      ∧ (1 ≤ r.startLevel.toNat ∧ r.startLevel ≤ r.length) ∧ r.watermark < r.length := by
  intro r hr
  refine ⟨withSource r, ⟨⟨rfl, rfl⟩, rfl⟩, rfl, withSource_record r, ?_⟩
  revert r
  decide

theorem test_meets_source_commands_by_state : ∀ st : SourceState, ∃ s : State, s.ready ∧ (0 : BitVec 8).toNat = (0 : SourceId).val
    ∧ (s.record 0).state = st := by
  intro st
  exact ⟨withSource (ring st 0), ⟨⟨rfl, rfl⟩, rfl⟩, rfl, by rw [withSource_record]; rfl⟩

theorem test_meets_FlushResult :
    (∃ s : State, s.ready ∧ (s.record 0).state = .starved ∧ ∃ q ∈ s.refill.records, q.source = 0)
    ∧ ∃ s : State, s.ready ∧ (s.record 0).state = .priming ∧ ∀ q ∈ s.refill.records, q.source ≠ 0 := by
  refine ⟨⟨{ withSource (ring .starved 0) with refill := { RefillQueue.reset with records := [⟨0, .low, 255, 1⟩] } },
    ⟨⟨rfl, rfl⟩, rfl⟩, rfl, _, List.mem_cons_self, rfl⟩, ⟨withSource (ring .priming 0), ⟨⟨rfl, rfl⟩, rfl⟩, by rw [withSource_record]; rfl, ?_⟩⟩
  intro q hq
  cases hq

theorem test_meets_CommandRefusals :
    (∀ cmd ∈ [(0 : BitVec 4), 5, 15], cmd = 0 ∨ 5 ≤ cmd.toNat) ∧ 23 < (24 : BitVec 8).toNat
    ∧ ∀ r ∈ [{ ring .off 0 with length := 1 }, { ring .off 0 with base := 0, length := 8193 }, { ring .off 0 with base := 0x7FFF },
        { ring .off 0 with startLevel := 0 }, { ring .off 0 with startLevel := 3 }, { ring .off 0 with watermark := 2 }],
      r.state = .off ∧ (r.length.toNat < 2 ∨ 8192 < r.length.toNat ∨ 0x8000 < r.base.toNat + r.length.toNat ∨ r.startLevel = 0
        ∨ r.length < r.startLevel ∨ r.length ≤ r.watermark) := by
  decide

theorem test_meets_ConsultWithoutRemoval :
    (ring .off 0).state = .off ∧ ((ring .priming 1).state = .priming ∧ (ring .priming 1).occupancy < (ring .priming 1).startLevel)
    ∧ ((ring .starved 1).state = .starved ∧ (ring .starved 1).occupancy < (ring .starved 1).startLevel)
    ∧ ((ring .live 0).state = .live ∧ (ring .live 0).occupancy = 0) := by
  decide

/-- LIVE with one word, STARVED at START_LEVEL, DRAINING with two words and with its last one. -/
theorem test_meets_ConsultRemovesOldestWord : ∀ p ∈ [(SourceState.live, (1 : Word)), (.starved, 2), (.draining, 2), (.draining, 1)],
    (withSource (ring p.1 p.2)).SourcesLawful ∧ (withSource (ring p.1 p.2)).record 0 = ring p.1 p.2
      ∧ (((ring p.1 p.2).state = .live ∧ (ring p.1 p.2).occupancy ≠ 0)
        ∨ ((ring p.1 p.2).state = .starved ∧ (ring p.1 p.2).startLevel ≤ (ring p.1 p.2).occupancy)
        ∨ ((ring p.1 p.2).state = .draining ∧ (ring p.1 p.2).occupancy = p.2)) := by
  intro p hp
  refine ⟨withSource_lawful ?_, withSource_record _, ?_⟩
  · simp only [List.mem_cons, List.not_mem_nil, or_false] at hp
    rcases hp with rfl | rfl | rfl | rfl <;> exact ring_lawful (by simp) (by simp) (by simp)
  · revert p
    decide

theorem test_meets_WatermarkCheckResult :
    ∃ s : State, s.settled ∧ (0 : SourceId) ∈ s.refill.checks ∧ (1 : SourceId) ∉ s.refill.checks
      ∧ (s.record 0).state = .live ∧ (s.record 0).armed = true ∧ (∀ q ∈ s.refill.records, q.source ≠ 0)
      ∧ (s.record 0).occupancy = (s.record 0).watermark := by
  refine ⟨{ withSource (ring .live 1) with refill := { RefillQueue.reset with checks := [0] } }, ⟨rfl, rfl⟩, by simp, by simp, rfl,
    rfl, ?_, rfl⟩
  intro q hq
  cases hq

theorem test_meets_PopRemovesHead : ∃ s : State, s.ready ∧ s.RefillLawful ∧ s.refill.records = [⟨0, .opened, 0, 0⟩] :=
  ⟨{ withSource (ring .priming 0) with refill := { RefillQueue.reset with records := [⟨0, .opened, 0, 0⟩] } }, ⟨⟨rfl, rfl⟩, rfl⟩,
    ⟨by decide, by decide⟩, rfl⟩

/-! ### Witnesses: tables, buffer and commit controller -/

theorem test_meets_TableSelectionWrites :
    ([Table.plan .format, .plan .map, .plan .group, .plan .row, .plan .window, .source][((0x0105 : Word).extractLsb' 0 3).toNat]? = some .source)
    ∧ 5 < ((0x0006 : Word).extractLsb' 0 3).toNat ∧ ∀ t : Table, (atTable t .active 0).ready ∧ (atTable t .active 0).window.table = t :=
  ⟨by decide, by decide, fun _ => ⟨⟨⟨rfl, rfl⟩, rfl⟩, rfl⟩⟩

theorem test_meets_PlanTableWrites : ∀ (bank : Role) (st : CommitState), ∃ s : State, s.ready ∧ s.MemoryLawful
    ∧ s.window.table = .plan .map ∧ s.window.index = 2047 ∧ s.window.bank = bank ∧ s.commit.state = st :=
  fun bank st => ⟨{ atTable (.plan .map) bank 2047 with commit := { Commit.reset with state := st } }, ⟨⟨rfl, rfl⟩, rfl⟩,
    memory_lawful rfl rfl rfl (by show 2047 < 2048; omega), rfl, rfl, rfl, rfl⟩

/-- Each boundary of the ranges of R20 and R21, for a source in OFF and for one with LENGTH 2. -/
theorem test_meets_SourceGeometryWrites :
    (atTable .source .active 767).ready ∧ (atTable .source .active 767).window.index = 32 * (23 : SourceId).val + 31
    ∧ (0x7FFF : Word).toNat ≤ 0x7FFF ∧ 0x7FFF < (0x8000 : Word).toNat ∧ (0x3FFF : Word).toNat ≤ 0x3FFF ∧ 0x3FFF < (0x4000 : Word).toNat
    ∧ (1 : Word) < (ring .live 1).length ∧ (ring .live 1).length ≤ (2 : Word)
    ∧ (2 : Word) ≤ (ring .draining 1).length ∧ (ring .draining 1).length < (3 : Word) := by
  refine ⟨⟨⟨rfl, rfl⟩, rfl⟩, rfl, by decide⟩

theorem test_meets_SourcePolicyWrites :
    2 < (3 : Word).toNat ∧ 1 < (2 : Word).toNat ∧ ∀ k ∈ [8, 31], 8 ≤ k ∧ k < 32
      ∧ (atTable .source .staging (32 * 0 + k)).window.index = k := by
  decide

theorem test_meets_TableReads : ∀ (t : Table) (bank : Role) (st : CommitState), ∃ s : State, s.ready ∧ s.window.table = t
    ∧ s.window.bank = bank ∧ s.commit.state = st ∧ s.window.index = 32 * (0 : SourceId).val + 7 :=
  fun t bank st => ⟨{ atTable t bank 7 with commit := { Commit.reset with state := st } }, ⟨⟨rfl, rfl⟩, rfl⟩, rfl, rfl, rfl, rfl⟩

theorem test_meets_BufferPortAccesses : ∃ s : State, s.ready ∧ s.MemoryLawful ∧ s.window.bufAddr = 0x7FFF :=
  ⟨{ State.reset with window := { RegWindow.reset with bufAddr := 0x7FFF } }, ⟨⟨rfl, rfl⟩, rfl⟩,
    memory_lawful rfl rfl rfl (by show 0 < 8; omega), rfl⟩

theorem test_meets_commit_requests_by_state : ∀ st : CommitState, (inCommit st).ready ∧ (inCommit st).commit.state = st
    ∧ (inCommit st).settled ∧ (3 : Word) ≠ 1 ∧ (3 : Word) ≠ 2 :=
  fun _ => ⟨⟨⟨rfl, rfl⟩, rfl⟩, rfl, ⟨rfl, rfl⟩, by decide, by decide⟩

/-- A Staging bank that fails at its format, and the default plan, which passes, with the link in every state. -/
theorem test_meets_ValidationEnds :
    (({ Bank.default with format := [(0, 9)] } : Bank).validate = some (.format, 0)) ∧ Bank.default.validate = none
    ∧ ∀ l : LinkState, ∃ s : State, s.settled ∧ s.commit.state = .validating ∧ s.downlink.link = l :=
  ⟨by decide, Bank.validate_default,
    fun l => ⟨{ inCommit .validating with downlink := { Downlink.reset with link := l } }, ⟨rfl, rfl⟩, rfl, rfl⟩⟩

/-- One bank for each step of validation that refuses it, at the largest index its step can name where that is small to write. -/
theorem test_meets_ValidationNamesFirstFault :
    ({ Bank.default with format := [(3, 0)] } : Bank).validate = some (.format, 3)
    ∧ ({ Bank.default with map := [(14, 6)] } : Bank).validate = some (.map, 7)
    ∧ ({ Bank.default with map := [(14, 2), (15, 7)] } : Bank).validate = some (.group, 7)
    ∧ ({ Bank.default with format := [(2, 2)], map := [(14, 2), (15, 7)], row := [(2, 2)] } : Bank).validate = some (.row, 1)
    ∧ ({ Bank.default with window := [(24, 1), (28, 1), (29, 1)] } : Bank).validate = some (.window, 3) := by
  decide +kernel

/-- A held read, abandoned or not, with an access waiting behind it and without one; and no access at all. -/
theorem test_meets_CopyBackEnds : ∀ (raised abandoned : Bool) (p : PlanTable), ∀ w ∈ [none, some (HostAccess.write 0x07 1)], ∃ s : State,
    s.settled ∧ s.commit.state = .syncing ∧ s.window.table = .plan p ∧ s.window.bank = .staging
      ∧ s.window.held = some { access := .read 0x0C raised, abandoned := abandoned } ∧ s.window.waiting = w :=
  fun raised abandoned p w _ => ⟨{ inCommit .syncing with window := { RegWindow.reset with
    table := .plan p, held := some { access := .read 0x0C raised, abandoned := abandoned }, waiting := w } }, ⟨rfl, rfl⟩, rfl, rfl, rfl, rfl,
    rfl⟩

theorem test_meets_CopyBackEnds_waiting_command : accessOf .commit = some (.write 0x07 1) ∧ (inCommit .syncing).settled
    ∧ (inCommit .syncing).window.held = none ∧ (inCommit .syncing).window.waiting = none :=
  ⟨rfl, ⟨rfl, rfl⟩, rfl, rfl⟩

/-! ### Witnesses: downlink port and composition -/

theorem test_meets_StartResults : ∀ (l : LinkState) (g : StartTrigger), ∃ s : State, s.ready ∧ s.CommitLawful ∧ s.downlink.link = l
    ∧ s.downlink.trigger = g :=
  fun l g => ⟨{ State.reset with downlink := { Downlink.reset with link := l, trigger := g } }, ⟨⟨rfl, rfl⟩, rfl⟩, commit_lawful rfl,
    rfl, rfl⟩

theorem test_meets_link_statements_by_state : ∀ (l : LinkState) (t : StopTarget) (c : ClockSource) (sh : Option Shifting), ∃ s : State,
    s.ready ∧ s.downlink.link = l ∧ s.downlink.target = t ∧ s.downlink.clkSrc = c ∧ s.downlink.shifting = sh :=
  fun l t c sh => ⟨withLink l t c sh, ⟨⟨rfl, rfl⟩, rfl⟩, rfl, rfl, rfl, rfl⟩

/-- The row's end point has passed, as its last row of the major frame and as another; and it has not. -/
theorem test_meets_StopsAndClearHalt : ∀ p ∈ [((0 : Nat), (0 : Nat)), (1, 0), (0, 1)], ∃ s : State, s.ready ∧ s.downlink.link = .running
    ∧ s.downlink.shifting ≠ none ∧ s.composer.lookahead ≠ none ∧ s.composer.row = p.1 ∧ s.composer.col = p.2 :=
  fun p _ => ⟨inCell .running .none p.1 p.2, ⟨⟨rfl, rfl⟩, rfl⟩, rfl, by simp [inCell, withLink], by simp [inCell], rfl, rfl⟩

/-- Both words marked. -/
theorem test_meets_CutsEndTheRun : (inCell .stopping .endMajor 0 3).ready ∧ (inCell .stopping .endMajor 0 3).downlink.link = .stopping
    ∧ (inCell .stopping .endMajor 0 3).markedWords = 2 :=
  ⟨⟨⟨rfl, rfl⟩, rfl⟩, rfl, rfl⟩

/-- A bit that is not the word's last, and the last bit of the last word of the target row. -/
theorem test_meets_BitClockEvents :
    (∃ (s : State) (sh : Shifting), s.settled ∧ s.downlink.link = .running ∧ s.downlink.shifting = some sh ∧ sh.bit = 1)
    ∧ ∃ (s : State) (sh : Shifting), s.settled ∧ s.downlink.link = .stopping ∧ s.downlink.target = .reached
      ∧ s.downlink.shifting = some sh ∧ sh.bit = 0 :=
  ⟨⟨withLink .running .none .internal (some { word := byte 0xA5 true, bit := 1 }), _, ⟨rfl, rfl⟩, rfl, rfl, rfl⟩,
    ⟨withLink .stopping .reached .external (some { word := byte 0xA5 true, bit := 0 }), _, ⟨rfl, rfl⟩, rfl, rfl, rfl, rfl⟩⟩

/-- A run on each clock, at the beginning of a count, within a word and at its last bit; an operation that begins, out of a run. -/
theorem test_meets_RefclkCounts :
    (∀ n ∈ [0, 1, 15], ∃ (s : State) (sh : Shifting), s.settled ∧ s.pending = [] ∧ s.refill.checks = [] ∧ s.downlink.link = .stopping
      ∧ s.commit.state = .edit ∧ s.downlink.clkSrc = .internal ∧ s.downlink.bclko = false ∧ s.downlink.halfCount = 0
      ∧ s.downlink.bitDiv = 0xFFFF ∧ s.downlink.shifting = some sh ∧ sh.bit = n)
    ∧ (∃ s : State, s.settled ∧ s.pending = [] ∧ s.refill.checks = [] ∧ s.downlink.link = .running ∧ s.commit.state = .edit
      ∧ s.downlink.clkSrc = .external ∧ s.downlink.lossTimer = 0 ∧ s.downlink.lossTimeout = 0xFF)
    ∧ ∀ st ∈ [CommitState.validating, .syncing], (inCommit st).settled ∧ (inCommit st).pending = [] ∧ (inCommit st).refill.checks = []
      ∧ (inCommit st).downlink.link = .stopped ∧ (inCommit st).commit.state = st ∧ (inCommit st).commit.elapsed = 0
      ∧ (inCommit st).window.held = none ∧ (inCommit st).window.waiting = none :=
  ⟨fun n _ => ⟨{ State.reset with downlink := { Downlink.reset with
      link := .stopping, bclko := false, bitDiv := 0xFFFF, shifting := some { word := byte 0xA5 true, bit := n } } },
      _, ⟨rfl, rfl⟩, rfl, rfl, rfl, rfl, rfl, rfl, rfl, rfl, rfl, rfl⟩,
    ⟨{ State.reset with downlink := { Downlink.reset with link := .running, clkSrc := .external, lossTimeout := 0xFF } }, ⟨rfl, rfl⟩,
      by decide⟩, fun _ _ => ⟨⟨rfl, rfl⟩, rfl, rfl, rfl, rfl, rfl, rfl, rfl⟩⟩

/-- Each end of each count: the divider, the operation, the timer, the half period with BCLKO low and high, before and at its end. -/
theorem test_meets_RefclkPeriod : ∀ n ∈ [0, 1], ∀ (st : CommitState) (c : ClockSource) (b : Bool) (sh : Option Shifting) (t : StopTarget),
    ∃ s : State, s.settled ∧ s.pending = [] ∧ s.time.tickDiv.toNat = 1 ∧ s.time.divider = n ∧ s.commit.state = st
      ∧ s.commit.elapsed + 1 = 2099 + n ∧ s.downlink.link = .stopping ∧ s.downlink.target = t ∧ s.downlink.clkSrc = c
      ∧ s.downlink.lossTimeout = 0 ∧ s.downlink.lossTimer + 1 = 255 + n ∧ s.downlink.bitDiv.toNat = 1 ∧ s.downlink.halfCount = n
      ∧ s.downlink.bclko = b ∧ s.downlink.shifting = sh := by
  intro n hn st c b sh t
  refine ⟨{ State.reset with
    time := { TimeCounter.reset with tickDiv := 1, divider := n }
    commit := { Commit.reset with state := st, elapsed := 2098 + n }
    downlink := { Downlink.reset with
      link := .stopping, target := t, clkSrc := c, lossTimer := 254 + n, bitDiv := 1, halfCount := n, bclko := b, shifting := sh } },
    ⟨rfl, rfl⟩, rfl, rfl, rfl, rfl, ?_, rfl, rfl, rfl, rfl, ?_, rfl, rfl, rfl, rfl⟩ <;> (show _ + _ + 1 = _; omega)

theorem inCell_leaves {l : LinkState} (h : l = .running ∨ l = .stopping) {t : StopTarget} (ht : t ≠ .reached) (row col : Nat) :
    (inCell l t row col).CellLeaves (byte 0x5A true) :=
  ⟨h, ht, fun sh hsh => by cases hsh; rfl, rfl⟩

/-- In the default plan (N 8, S 1, M 1): the ID cell and the last data cell next. -/
theorem test_meets_ComposedWithinRow : ∀ c ∈ [0, 6], ∃ s : State, s.settled ∧ s.CellLeaves (byte 0x5A true)
    ∧ s.composer.col = c ∧ c + 1 < s.commit.active.n ∧ (c + 1 = s.commit.active.s ∨ s.commit.active.isDataColumn (c + 1)) := by
  intro c hc
  refine ⟨inCell .running .none 0 c, ⟨rfl, rfl⟩, inCell_leaves (.inl rfl) (by simp) 0 c, rfl, ?_⟩
  simp only [List.mem_cons, List.not_mem_nil, or_false] at hc
  rcases hc with rfl | rfl
  · exact ⟨by decide, .inl (by decide)⟩
  · exact ⟨by decide, .inr ⟨by decide, by decide⟩⟩

/-- With S 3 and CHECK_EN set: a sync cell and the check cell next. -/
theorem test_meets_ComposedWithinRow_sync_and_check : ∀ c ∈ [0, 1, 6], ∃ s : State, s.settled ∧ s.CellLeaves (byte 0x5A true)
    ∧ s.composer.col = c ∧ c + 1 < s.commit.active.n ∧ (c + 1 < s.commit.active.s
      ∨ (s.commit.active.s < c + 1 ∧ s.commit.active.checkEn = true ∧ c + 2 = s.commit.active.n)) := by
  intro c hc
  refine ⟨{ inCell .running .none 0 c with commit := { Commit.reset with active := { Bank.default with format := [(3, 0x8003)] } } },
    ⟨rfl, rfl⟩, ⟨.inl rfl, by simp [inCell, withLink], fun sh hsh => by cases hsh; rfl, rfl⟩, rfl, ?_⟩
  revert c
  decide

/-- In a plan of M 1 every row end is a major frame end point; in one of M 2 row 0's is not. -/
theorem test_meets_ComposedAtRowEnd : ∀ p ∈ [(LinkState.running, StopTarget.none), (.stopping, .endMinor), (.stopping, .endMajor)],
    ∃ s : State, s.settled ∧ s.CellLeaves (byte 0x5A true) ∧ s.CommitLawful ∧ s.commit.active.n ≤ s.composer.col + 1
      ∧ s.commit.active.m ≤ s.composer.row + 1 ∧ s.downlink.link = p.1 ∧ s.downlink.target = p.2 := by
  intro p hp
  refine ⟨inCell p.1 p.2 0 7, ⟨rfl, rfl⟩, inCell_leaves ?_ ?_ 0 7, commit_lawful rfl, by show 8 ≤ 8; omega,
    by show 1 ≤ 1; omega, rfl, rfl⟩
  · revert p
    decide
  · revert p
    decide

theorem test_meets_ComposedAtRowEnd_inner_row : ∃ s : State, s.settled ∧ s.CellLeaves (byte 0x5A true) ∧ s.CommitLawful
    ∧ s.commit.active.n ≤ s.composer.col + 1 ∧ ¬ s.commit.active.m ≤ s.composer.row + 1 ∧ s.downlink.link = .stopping
    ∧ s.downlink.target = .endMinor := by
  refine ⟨{ inCell .stopping .endMinor 0 7 with commit := { Commit.reset with active := { Bank.default with format := [(2, 2)] } } },
    ⟨rfl, rfl⟩, ⟨.inr rfl, by simp [inCell, withLink], fun sh hsh => by cases hsh; rfl, rfl⟩, ⟨by decide +kernel, ?_, ?_⟩, by decide, by decide,
    rfl, rfl⟩
  · intro e
    cases e
  · intro e
    cases e

/-- A data cell whose resolution an ABORT among its consults stops, and one with nothing among them. -/
theorem test_meets_ComposedWithinRow_stopped :
    let s := twoLayers { ring .live 0 with policy := .yield } (ring .draining 1)
    (resolveLayers 0 2 [0] [] (CellFlow.start s [before [], before [.write 0x00 0x22]])).placed = none
    ∧ (resolveLayers 0 2 [0] [] (CellFlow.start s [])).placed ≠ none := by
  decide +kernel

/-- Quiet events beside a first bit that is due, and a part in which none is due. -/
theorem test_meets_FirstBitLeaves : (inCell .running .none 0 0).settled ∧ (inCell .running .none 0 0).CellLeaves (byte 0x5A true)
    ∧ (∀ e ∈ [CellEvent.access (.write 0x1E 0x180), .access (.read 0x0E false), .watermarkCheck 23], quietEvent e)
    ∧ ∀ x, ¬ State.reset.CellLeaves x := by
  refine ⟨⟨rfl, rfl⟩, inCell_leaves (.inl rfl) (by simp) 0 0, ?_, fun x h => by cases h.ahead⟩
  simp only [List.mem_cons, List.not_mem_nil, or_false]
  rintro e (rfl | rfl | rfl)
  · exact ⟨by decide, by decide⟩
  · exact True.intro
  · exact True.intro

/-- A composition at each of the arbiter's instants, and a read of BUF_DATA that is abandoned. -/
theorem test_meets_ArbiterGrantsPort : ∀ e ∈ [none, some Requester.composer, some .window], (flow e [] []).deferred = []
    ∧ (flow e [] []).state.window.held = none ∧ (flow e [] []).composing = true ∧ (flow e [] []).ended = e
    ∧ PortAccess.bufRead true = .bufRead true ∧ PortAccess.append 0 ≠ .bufRead true :=
  fun _ _ => ⟨rfl, rfl, rfl, rfl, rfl, by simp⟩

/-- A write of INT_FLAGS among the consults, an access to the buffer behind a held read, and an access that waits. -/
theorem test_meets_EventsAmongConsults : accessOf (.intFlagsWrite 0x180) = some (.write 0x1E 0x180)
    ∧ (HostAccess.write 0x1E 0x180).portUse = none ∧ (flow none [] []).state.settled ∧ (flow none [] []).deferred = []
    ∧ (∃ s : State, s.settled ∧ s.window.held ≠ none) ∧ (flow none [.write 0x10 0] []).deferred ≠ []
    ∧ (∃ t, exec (.intFlagsWrite 0x180) (flow none [] []).state = .next t)
    ∧ (∃ t, exec (.abort 0) (inCell .running .none 0 0) = .next t ∧ t.downlink.link = .stopped) :=
  ⟨rfl, by decide, ⟨rfl, rfl⟩, rfl, ⟨{ State.reset with window := { RegWindow.reset with
    held := some { access := .read 0x0C false, abandoned := false } } }, ⟨rfl, rfl⟩, by simp⟩, by simp [flow], ⟨_, rfl⟩,
    ⟨_, rfl, rfl⟩⟩

theorem test_meets_EventsAmongConsults_events : ∀ w ∈ [none, some (HostAccess.write 0x10 1)], ∃ s t : State, s.settled
    ∧ s.commit.state = .syncing ∧ s.window.waiting = w
    ∧ exec .copyBackEnd { s with window := { s.window with waiting := none } } = .next t ∧ (inCommit .edit).commit.state ≠ .syncing :=
  fun w _ => ⟨{ inCommit .syncing with window := { RegWindow.reset with
    held := some { access := .read 0x0C false, abandoned := true }, waiting := w } }, _, ⟨rfl, rfl⟩, rfl, rfl, rfl, by simp [inCommit]⟩

/-- A gap with a tied access and one without, and none. -/
theorem test_meets_WindowLayersResolve_gaps : (flow none [.write 0x10 0] []).gaps = []
    ∧ (flow none [] [before [], { events := [.tick], tied := some (.bufWrite 1) }]).gaps
      = before [] :: [{ events := [.tick], tied := some (.bufWrite 1) }] ∧ (before []).tied = none :=
  ⟨rfl, rfl, rfl⟩

/-- A composition that comes to window 0, of source 0. -/
def atWindow (r : SourceRec) (mode : Word) : CellFlow :=
  CellFlow.start { withSource r with commit := { Commit.reset with active := { Bank.default with window := [(1, mode)] } } } []

/-- The composition at that window's consult. -/
def come (f : CellFlow) : CellFlow := f.toConsult (fun s => s.consultReads 0)

/-- The source answers with a word: a starved one by its POLICY, and one that holds a word. -/
theorem test_meets_WindowLayersResolve_deliver : ∀ r ∈ [{ ring .starved 0 with policy := .fill }, ring .live 1],
    (atWindow r 1).state.commit.active.winSource 0 = 0 ∧ (come (atWindow r 1)).composing = true
      ∧ ((come (atWindow r 1)).state.consult 0).outcome = .deliver 0 := by
  decide +kernel

/-- The source answers with none, and no check is handed over; the window is OPAQUE, or TRANSPARENT. -/
theorem test_meets_WindowLayersResolve_none :
    ((come (atWindow (ring .off 0) 1)).composing = true ∧ (come (atWindow (ring .off 0) 1)).state.commit.active.winOpaque 0 = true
      ∧ ((come (atWindow (ring .off 0) 1)).state.consult 0).outcome = .nothing .off)
    ∧ ((come (atWindow (ring .off 0) 0)).composing = true ∧ (come (atWindow (ring .off 0) 0)).state.commit.active.winOpaque 0 = false
      ∧ ((come (atWindow (ring .off 0) 0)).state.consult 0).outcome = .nothing .off
      ∧ ((come (atWindow (ring .off 0) 0)).state.consult 0).state.refill.checks = []
      ∧ (come (atWindow (ring .off 0) 0)).state.refill.checks = []) := by
  decide +kernel

/-- The source answers with none, for a keyed word, and hands over a check. -/
theorem test_meets_WindowLayersResolve_keyed :
    let f := come (atWindow { ring .live 1 with keyEn := true } 0)
    f.composing = true ∧ (f.state.consult 0).outcome = .nothing .keyed ∧ (f.state.consult 0).state.refill.checks = [0]
      ∧ f.state.refill.checks = [] := by
  decide +kernel

/-- An ABORT before a layer stops the composition, and with nothing before it the composition goes on. -/
theorem test_meets_layers_stopped :
    let f := CellFlow.start (inCell .running .none 0 0)
    (come (f [before [.write 0x00 0x22]])).composing = false
      ∧ ((f [before [.write 0x00 0x22]]).toConsult (fun _ => false)).composing = false
      ∧ ((f []).toConsult (fun _ => false)).composing = true := by
  decide +kernel

/-- A map entry of each kind, and a pool entry that a SUBCOM column selects. -/
theorem test_meets_BaseLayerResolves :
    Bank.default.word .map 14 = 0 ∧ ({ Bank.default with map := [(14, 1), (15, 23)] } : Bank).word .map 14 = 1
    ∧ ({ Bank.default with map := [(14, 3)] } : Bank).word .map 14 = 3 ∧ ({ Bank.default with map := [(14, 4), (15, 2)] } : Bank).word .map 14 = 4
    ∧ ({ Bank.default with map := [(14, 5)] } : Bank).word .map 14 = 5
    ∧ ({ Bank.default with map := [(14, 2), (15, 7)], row := [(0, 1)] } : Bank).word .row 0 = 1 := by
  decide

/-- A part in a run that meets every law, and whose next step is a next state. -/
theorem test_meets_the_laws_in_a_run : ∃ s t : State, step s = .next t ∧ s.downlink.link = .running ∧ s.SourcesLawful ∧ s.RefillLawful
    ∧ s.CommitLawful ∧ s.ResultLawful ∧ s.MemoryLawful ∧ s.WindowLawful ∧ s.LinkLawful ∧ s.ErrorLawful := by
  refine ⟨{ withSource (ring .live 1) with
      refill := { records := [⟨0, .low, 0, 1⟩], checks := [0] }
      downlink := { Downlink.reset with
        link := .running, shifting := some { word := byte 0xA5 true, bit := 7 }, dout := true, bclko := false, mfs := true, jfs := true }
      composer := { Composer.reset with col := 1, lookahead := some (byte 0 false) } }, _, rfl, rfl, ?_, ⟨by decide, by decide⟩,
    commit_lawful rfl, ⟨fun _ => rfl, ?_⟩, memory_lawful rfl rfl rfl (by show 0 < 8; omega), ⟨?_, ?_, by simp [withSource, State.reset]⟩, ?_,
    fun _ => ⟨rfl, rfl, rfl⟩⟩
  · exact withSource_lawful (ring_lawful (by simp) (by simp) (by simp))
  · intro h
    exact (h rfl).elim
  · intro x h
    cases h
  · intro h
    exact (h rfl).elim
  · constructor
    · intro h
      cases h
    · simp [Downlink.reset]
    · rfl
    · simp
    · intro h
      cases h
    · intro _ _
      rfl

end Sys2Proof.Tests
end

section
/-! SUPPORT. CELL_COMPOSE taken apart: what it is where a first bit is due, which cell is composed next, and what each class of column
gives (R2 … R6, R9 … R14). -/

namespace Sys2Proof.Machine

/-! ### From the command to the successor -/

/-- CELL_COMPOSE where a first bit is due: the bit leaves, and its cell's successor is composed. -/
theorem exec_cellCompose_due {s : State} {x : Composed} (hs : s.settled) (hx : s.CellLeaves x) (gaps : List CellGap) (reading : Bool) :
    exec (.cellCompose gaps reading) s
      = .next ((s.cellOut x).composeSuccessor gaps reading s.composer.row s.composer.col) := by
  show Host.Outcome.next (s.outOfReset fun s => s.firstBit gaps reading) = _
  rw [State.outOfReset_settled hs, State.firstBit_eq gaps reading hx]

/-- CELL_COMPOSE where no first bit is due (log entry 6). -/
theorem exec_cellCompose_idle {s : State} (hs : s.settled) (hx : ∀ x, ¬ s.CellLeaves x) (gaps : List CellGap) (reading : Bool) :
    exec (.cellCompose gaps reading) s = .next s := by
  show Host.Outcome.next (s.outOfReset fun s => s.firstBit gaps reading) = _
  rw [State.outOfReset_settled hs, State.firstBit_idle gaps reading hx]

/-- The end point of the stop target: the target is REACHED and no cell is composed (R137). -/
def State.reachTarget (s : State) (gaps : List CellGap) (reading : Bool) : State :=
  (CellFlow.start { s with downlink := { s.downlink with target := .reached } } gaps).close reading

theorem Downlink.targetMet_iff (d : Downlink) (isLast : Bool) :
    d.targetMet isLast = true ↔ d.link = .stopping ∧ (d.target = .endMinor ∨ d.target = .endMajor ∧ isLast = true) := by
  simp [Downlink.targetMet]

theorem State.composeSuccessor_withinRow {s : State} {m c : Nat} (h : c + 1 < s.commit.active.n) (gaps : List CellGap) (reading : Bool) :
    s.composeSuccessor gaps reading m c = s.composeCell gaps reading m (c + 1) := by
  simp only [State.composeSuccessor, h, if_true]

theorem State.composeSuccessor_minorEnd {s : State} {m c : Nat} (hn : s.commit.active.n ≤ c + 1) (hm : ¬ s.commit.active.m ≤ m + 1)
    (gaps : List CellGap) (reading : Bool) :
    s.composeSuccessor gaps reading m c
      = if s.downlink.targetMet false then s.reachTarget gaps reading else s.composeCell gaps reading (m + 1) 0 := by
  simp [State.composeSuccessor, State.reachTarget, Nat.not_lt.mpr hn, hm]

theorem State.composeSuccessor_majorEnd {s : State} {m c : Nat} (hn : s.commit.active.n ≤ c + 1) (hm : s.commit.active.m ≤ m + 1)
    (gaps : List CellGap) (reading : Bool) :
    s.composeSuccessor gaps reading m c
      = if s.downlink.targetMet true then s.majorEndPoint.reachTarget gaps reading
        else s.majorEndPoint.composeCell gaps reading 0 0 := by
  simp [State.composeSuccessor, State.reachTarget, Nat.not_lt.mpr hn, hm]

/-- CELL_COMPOSE before the row's last cell composes the row's next one. -/
theorem exec_cellCompose_withinRow {s : State} {x : Composed} (hs : s.settled) (hx : s.CellLeaves x)
    (hn : s.composer.col + 1 < s.commit.active.n) (gaps : List CellGap) (reading : Bool) :
    exec (.cellCompose gaps reading) s
      = .next ((s.cellOut x).composeCell gaps reading s.composer.row (s.composer.col + 1)) :=
  (exec_cellCompose_due hs hx gaps reading).trans
    (congrArg Host.Outcome.next (State.composeSuccessor_withinRow (s := s.cellOut x) hn gaps reading))

/-- CELL_COMPOSE at the end point of a row that is not its major frame's last. -/
theorem exec_cellCompose_minorEnd {s : State} {x : Composed} (hs : s.settled) (hx : s.CellLeaves x)
    (hn : s.commit.active.n ≤ s.composer.col + 1) (hm : ¬ s.commit.active.m ≤ s.composer.row + 1) (gaps : List CellGap)
    (reading : Bool) :
    exec (.cellCompose gaps reading) s = .next (if s.downlink.targetMet false then (s.cellOut x).reachTarget gaps reading
      else (s.cellOut x).composeCell gaps reading (s.composer.row + 1) 0) :=
  (exec_cellCompose_due hs hx gaps reading).trans
    (congrArg Host.Outcome.next (State.composeSuccessor_minorEnd (s := s.cellOut x) hn hm gaps reading))

/-- CELL_COMPOSE at the major frame end point. -/
theorem exec_cellCompose_majorEnd {s : State} {x : Composed} (hs : s.settled) (hx : s.CellLeaves x)
    (hn : s.commit.active.n ≤ s.composer.col + 1) (hm : s.commit.active.m ≤ s.composer.row + 1) (gaps : List CellGap)
    (reading : Bool) :
    exec (.cellCompose gaps reading) s = .next (if s.downlink.targetMet true then (s.cellOut x).majorEndPoint.reachTarget gaps reading
      else (s.cellOut x).majorEndPoint.composeCell gaps reading 0 0) :=
  (exec_cellCompose_due hs hx gaps reading).trans
    (congrArg Host.Outcome.next (State.composeSuccessor_majorEnd (s := s.cellOut x) hn hm gaps reading))

theorem State.majorEndPoint_eq (s : State) : s.majorEndPoint =
    { s with downlink := { s.downlink with majorCount := s.downlink.majorCount + 1 }, commit := s.commit.swapped } :=
  State.swapIfPending_eq _

/-- The bank that a swap at the major frame end point makes Active passes validation too (R101, R116). -/
theorem State.CommitLawful.swapped_passes {s : State} (hs : s.CommitLawful) : s.commit.swapped.active.validate = none := by
  unfold Commit.swapped
  split
  · exact hs.pendingPasses ‹_›
  · exact hs.activePasses

/-! ### The cell that is composed -/

theorem State.openCell_succ (s : State) (m c : Nat) :
    s.openCell m (c + 1) = { s with composer := { s.composer with row := m, col := c + 1 } } := by
  simp [State.openCell]

/-- Column 0 opens a minor frame, and in row 0 a major frame (R6, R11, R156). -/
theorem State.openCell_zero (s : State) (m : Nat) :
    s.openCell m 0 = { s with
      composer := { s.composer with
        row := m, col := 0, accumulator := 0xFFFF, capturedU := s.composer.episodeLatch, episodeLatch := false
        newPlanFrame := if m = 0 then s.commit.newPlan else s.composer.newPlanFrame }
      commit := { s.commit with newPlan := if m = 0 then false else s.commit.newPlan } } := by
  by_cases h : m = 0 <;> simp [State.openCell, h]

/-- A cell that makes no consult gets its word before anything falls. -/
theorem State.composeCell_fixed {s : State} {m c : Nat} {w : Word} {fed : Bool} (h : (s.openCell m c).fixedWord m c = some (w, fed))
    (gaps : List CellGap) (reading : Bool) :
    s.composeCell gaps reading m c = (CellFlow.start ((s.openCell m c).setLookahead w false fed) gaps).close reading := by
  simp only [State.composeCell, h]

/-- A data cell gets the word its layers resolve to. -/
theorem State.composeCell_placed {s : State} {m c : Nat} (h : (s.openCell m c).fixedWord m c = none) (gaps : List CellGap)
    (reading : Bool) {r : Resolved} {w : Word} {delivered : Bool} (hw : r.placed = some (w, delivered))
    (hr : resolveLayers m c ((s.openCell m c).commit.active.windowLayers m c) [] (CellFlow.start (s.openCell m c) gaps) = r) :
    s.composeCell gaps reading m c
      = CellFlow.close { r.flow with state := r.flow.state.setLookahead w delivered true } reading := by
  simp only [State.composeCell, h, hr, hw]

/-- A data cell whose resolution was stopped gets no word. -/
theorem State.composeCell_stopped {s : State} {m c : Nat} (h : (s.openCell m c).fixedWord m c = none) (gaps : List CellGap)
    (reading : Bool) {r : Resolved} (hw : r.placed = none)
    (hr : resolveLayers m c ((s.openCell m c).commit.active.windowLayers m c) [] (CellFlow.start (s.openCell m c) gaps) = r) :
    s.composeCell gaps reading m c = r.flow.close reading := by
  simp only [State.composeCell, h, hr, hw]

/-! ### Column classes and their words (R2 … R6) -/

theorem State.fixedWord_sync {s : State} {c : Nat} (h : c < s.commit.active.s) (m : Nat) :
    s.fixedWord m c = some (s.commit.active.sync c, false) := by
  simp [State.fixedWord, Bank.columnClass, h]

theorem State.fixedWord_ident {s : State} {c : Nat} (h : c = s.commit.active.s) (m : Nat) :
    s.fixedWord m c = some (s.commit.active.idWord m s.downlink.majorCount, true) := by
  simp [State.fixedWord, Bank.columnClass, h]

theorem State.fixedWord_check {s : State} {c : Nat} (h : s.commit.active.s < c) (hc : s.commit.active.checkEn = true)
    (hn : c + 1 = s.commit.active.n) (m : Nat) : s.fixedWord m c = some (s.composer.accumulator, false) := by
  simp [State.fixedWord, Bank.columnClass, Nat.not_lt.mpr h.le, h.ne', hc, hn]

/-- A data column is neither a sync column, nor the ID column, nor the check column (R2). -/
theorem Bank.isDataColumn.columnClass {b : Bank} {c : Nat} (h : b.isDataColumn c) : b.columnClass c = .data := by
  obtain ⟨hs, hn⟩ := h
  have hcheck : ¬ (b.checkEn = true ∧ c + 1 = b.n) := by
    rintro ⟨he, hl⟩
    simp only [Bank.c, he, if_true] at hn
    omega
  rw [Bank.columnClass, if_neg (by omega), if_neg (by omega), if_neg hcheck]

theorem State.fixedWord_data {s : State} {c : Nat} (h : s.commit.active.isDataColumn c) (m : Nat) : s.fixedWord m c = none := by
  simp [State.fixedWord, h.columnClass]

/-- The identification word as one sum (R4). -/
theorem Bank.idWord_eq (b : Bank) (m : Nat) (majorCount : Word) : b.idWord m majorCount = BitVec.ofNat 16
    (m % 256 + if b.idMajor = true ∧ 8 < b.w then 256 * (majorCount.toNat % 2 ^ (b.w - 8)) else 0) := by
  unfold Bank.idWord
  split <;> simp

/-- The first cell of a row from a plan that passes is a sync cell (R3, R7). -/
theorem State.composeCell_rowStart {s : State} (h : s.commit.active.validate = none) (gaps : List CellGap) (reading : Bool) (m : Nat) :
    s.composeCell gaps reading m 0
      = (CellFlow.start ((s.openCell m 0).setLookahead (s.commit.active.sync 0) false false) gaps).close reading := by
  have ha : (s.openCell m 0).commit.active = s.commit.active := by rw [State.openCell_zero]
  rw [State.composeCell_fixed (State.fixedWord_sync (by rw [ha]; exact Bank.sync_pos h) m), ha]

/-! ### Resolution (R84 … R89) -/

/-- The base layer makes one consult, takes checks, or leaves the composition as it is. -/
theorem CellFlow.base_flow_cases (f : CellFlow) (e : Entry) (handed : List SourceId) :
    (∃ i, (f.base e handed).flow = f.consult i) ∨ (f.base e handed).flow = { f with state := f.state.takeChecks handed }
      ∨ (f.base e handed).flow = f := by
  cases e
  case direct src => exact .inl ⟨_, rfl⟩
  case status => exact .inr (.inl rfl)
  all_goals exact .inr (.inr rfl)

theorem CellFlow.base_placed (f : CellFlow) (e : Entry) (handed : List SourceId) : (f.base e handed).placed.isSome = true := by
  cases e <;> rfl

/-- What the pieces of a resolution keep, the whole keeps. -/
theorem resolveLayers_keeps {Q : CellFlow → Prop} (toConsult : ∀ f reads, Q f → Q (f.toConsult reads))
    (consult : ∀ f i, Q f → Q (f.consult i)) (takeChecks : ∀ f l, Q f → Q { f with state := f.state.takeChecks l })
    (m c : Nat) (ks : List Nat) (handed : List SourceId) {f : CellFlow} (h : Q f) : Q (resolveLayers m c ks handed f).flow := by
  induction ks generalizing handed f with
  | nil =>
    unfold resolveLayers resolveBase
    dsimp only
    have hg := toConsult f (f.state.commit.active.baseEntry m c).reads h
    split
    · obtain ⟨i, e⟩ | e | e := CellFlow.base_flow_cases (f.toConsult (f.state.commit.active.baseEntry m c).reads)
        (f.state.commit.active.baseEntry m c) handed <;> rw [e]
      · exact consult _ i hg
      · exact takeChecks _ _ hg
      · exact hg
    · exact hg
  | cons k ks ih =>
    unfold resolveLayers
    dsimp only
    have hg := toConsult f (fun s => s.consultReads (sourceId (f.state.commit.active.winSource k))) h
    split
    · split
      · exact consult _ _ hg
      · split
        · exact consult _ _ hg
        · exact ih _ (consult _ _ hg)
    · exact hg

/-- A resolution that still goes on at its end has a word to place. -/
theorem resolveLayers_placed (m c : Nat) (ks : List Nat) (handed : List SourceId) (f : CellFlow) :
    (resolveLayers m c ks handed f).flow.composing = true → (resolveLayers m c ks handed f).placed.isSome = true := by
  induction ks generalizing handed f with
  | nil =>
    unfold resolveLayers resolveBase
    dsimp only
    split
    · exact fun _ => CellFlow.base_placed _ _ _
    · exact fun h => absurd h ‹_›
  | cons k ks ih =>
    unfold resolveLayers
    dsimp only
    split
    · split
      · exact fun _ => rfl
      · split
        · exact fun _ => rfl
        · exact ih _ _
    · exact fun h => absurd h ‹_›

/-- What taking one check leaves as it is, taking several does. -/
theorem State.takeChecks_field {α : Type} {field : State → α} (one : ∀ s i, field (s.takeCheck i) = field s) (s : State)
    (handed : List SourceId) : field (s.takeChecks handed) = field s := by
  unfold State.takeChecks
  induction handed generalizing s with
  | nil => rfl
  | cons i l ih => exact (ih _).trans (one s i)

theorem State.takeChecks_downlink (s : State) (handed : List SourceId) : (s.takeChecks handed).downlink = s.downlink :=
  State.takeChecks_field (by simp) s handed

theorem State.takeChecks_composer (s : State) (handed : List SourceId) : (s.takeChecks handed).composer = s.composer :=
  State.takeChecks_field (by simp) s handed

theorem State.takeChecks_commit (s : State) (handed : List SourceId) : (s.takeChecks handed).commit = s.commit :=
  State.takeChecks_field (by simp) s handed

theorem State.takeChecks_time (s : State) (handed : List SourceId) : (s.takeChecks handed).time = s.time :=
  State.takeChecks_field (by simp) s handed

/-- Where nothing falls among the consults, resolution leaves the accumulator and the banks as they are. -/
theorem resolveLayers_frame_of_nil (m c : Nat) (ks : List Nat) (handed : List SourceId) {f : CellFlow} (hg : f.gaps = [])
    (hd : f.deferred = []) :
    (resolveLayers m c ks handed f).flow.state.composer.accumulator = f.state.composer.accumulator
      ∧ (resolveLayers m c ks handed f).flow.state.commit = f.state.commit := by
  have keep := resolveLayers_keeps (Q := fun g => g.gaps = [] ∧ g.deferred = []
      ∧ g.state.composer.accumulator = f.state.composer.accumulator ∧ g.state.commit = f.state.commit)
    (fun g reads hq => by rw [CellFlow.toConsult_of_nil hq.1 hq.2.1]; exact hq)
    (fun g i hq => by simpa [CellFlow.consult] using hq)
    (fun g l hq => by simpa only [State.takeChecks_composer, State.takeChecks_commit] using hq)
    m c ks handed (f := f) ⟨hg, hd, rfl, rfl⟩
  exact keep.2.2

end Sys2Proof.Machine
end

section
/-! SUPPORT. The frame's first statements: the two resets, the check accumulator, and the cells that are composed within a row and at its
end. -/

namespace Sys2Proof.Machine

/-! ### The resets and the check accumulator -/

/-- Settles O6: a hardware reset leaves the listed values in every block. -/
theorem hardwareResetResult : Obligations.HardwareResetResult := fun _ _ => rfl

/-- Settles O7: SOFT_RESET, taken at once, leaves the listed values in every block. -/
theorem softResetResult : Obligations.SoftResetResult := by
  intro w s hs
  exact congrArg Host.Outcome.next (State.takeAccess_ready hs (.write (reg 0x48) w) State.softReset)

theorem crcBit_eq (acc : Word) (bit : Bool) :
    crcBit acc bit = if bit ≠ acc.getLsbD 15 then (acc <<< 1) ^^^ 0x1021 else acc <<< 1 := by
  unfold crcBit
  by_cases h : acc.getLsbD 15 = bit
  · rw [if_pos h, if_neg (not_not.mpr h.symm)]
  · rw [if_neg h, if_pos (Ne.symm h)]

/-- Settles O52: the recursion of `crcFeed` is R6's, and all 16 bits fed into themselves are shifted out. -/
theorem checkAccumulator : Obligations.CheckAccumulator := by
  refine ⟨fun _ _ => rfl, fun k v acc => ?_, fun acc => ?_⟩
  · rw [← crcBit_eq]
    rfl
  · rw [crcFeed_top (Nat.le_refl 16) acc acc (fun j _ => by rw [Nat.sub_self, Nat.zero_add])]
    exact BitVec.shiftLeft_eq_zero (Nat.le_refl 16)

/-! ### Within a row -/

/-- Settles O45, by the class of the column that is composed. -/
theorem composedWithinRow : Obligations.ComposedWithinRow := by
  refine ⟨fun s x gaps reading hs hx => ?_, fun f reading hg hd => CellFlow.close_of_nil hg hd reading⟩
  intro b c u composed start acc idWord hn
  have hopen : (s.cellOut x).openCell s.composer.row (c + 1) = u := State.openCell_succ _ _ _
  have hexec : exec (.cellCompose gaps reading) s = .next ((s.cellOut x).composeCell gaps reading s.composer.row (c + 1)) :=
    exec_cellCompose_withinRow hs hx hn gaps reading
  have fixed : ∀ {w fed}, u.fixedWord s.composer.row (c + 1) = some (w, fed) →
      exec (.cellCompose gaps reading) s = .next ((CellFlow.start (u.setLookahead w false fed) gaps).close reading) := by
    intro w fed h
    rw [hexec, State.composeCell_fixed (hopen.symm ▸ h), hopen]
  refine ⟨fun h => ?sync, fun h => ?ident, fun h hc hl => ?check, fun h => ?data⟩
  case sync => exact fixed (State.fixedWord_sync h _)
  case ident =>
    rw [fixed (State.fixedWord_ident h _), Bank.idWord_eq]
    rfl
  case check => exact fixed (State.fixedWord_check h hc hl _)
  case data =>
    intro r t
    have hdata : ((s.cellOut x).openCell s.composer.row (c + 1)).fixedWord s.composer.row (c + 1) = none := by
      rw [hopen]
      exact State.fixedWord_data h _
    have hr : resolveLayers s.composer.row (c + 1)
        (((s.cellOut x).openCell s.composer.row (c + 1)).commit.active.windowLayers s.composer.row (c + 1)) []
        (CellFlow.start ((s.cellOut x).openCell s.composer.row (c + 1)) gaps) = r := by
      rw [hopen]
      rfl
    refine ⟨fun value delivered hw => ?_, fun hw => ?_, fun hg => ?_⟩
    · rw [hexec, State.composeCell_placed hdata gaps reading hw hr]
      rfl
    · rw [hexec, State.composeCell_stopped hdata gaps reading hw hr]
    · obtain ⟨hgaps, hdeferred, hplaced⟩ := resolveLayers_of_nil s.composer.row (c + 1)
        (b.windowLayers s.composer.row (c + 1)) [] (f := start u) hg rfl rfl
      obtain ⟨hacc, hcommit⟩ := resolveLayers_frame_of_nil s.composer.row (c + 1)
        (b.windowLayers s.composer.row (c + 1)) [] (f := start u) hg rfl
      exact ⟨hgaps, hdeferred, Option.isSome_iff_ne_none.mp hplaced, hacc, congrArg Commit.active hcommit⟩

/-! ### At a row's end -/

/-- Settles O46, by whether the row is the last of its major frame and whether its end point is the stop target's. -/
theorem composedAtRowEnd : Obligations.ComposedAtRowEnd := by
  intro s x gaps reading hs hx hlaw m last u v opened reached closed hn
  have hv : (s.cellOut x).majorEndPoint = v := State.majorEndPoint_eq _
  refine ⟨fun hl ht => ?_, fun hl hlink ht => ?_, fun hl ht => ?_, fun hl hlink ht => ?_⟩
  · have hmet : ¬ s.downlink.targetMet false = true := by
      rw [Downlink.targetMet_iff]
      rintro ⟨hlink, h | ⟨-, h⟩⟩
      · exact ht ⟨hlink, h⟩
      · cases h
    rw [exec_cellCompose_minorEnd hs hx hn hl, if_neg hmet, State.composeCell_rowStart (by exact hlaw.activePasses),
      State.openCell_zero]
    rfl
  · rw [exec_cellCompose_minorEnd hs hx hn hl, if_pos ((Downlink.targetMet_iff _ _).mpr ⟨hlink, .inl ht⟩)]
    rfl
  · have hmet : ¬ s.downlink.targetMet true = true := by
      rw [Downlink.targetMet_iff]
      rintro ⟨hlink, h⟩
      obtain ht | ht := ht
      · rw [ht] at hlink; cases hlink
      · simp [ht] at h
    rw [exec_cellCompose_majorEnd hs hx hn hl, if_neg hmet, hv, State.composeCell_rowStart (by exact hlaw.swapped_passes),
      State.openCell_zero]
    rfl
  · rw [exec_cellCompose_majorEnd hs hx hn hl, hv,
      if_pos ((Downlink.targetMet_iff _ _).mpr ⟨hlink, ht.imp_right (⟨·, rfl⟩)⟩)]
    rfl

end Sys2Proof.Machine
end

section
/-! SUPPORT. Quiet events among the consults of a cell: none of them moves the bit on the line, the composed word that waits, the frame
stamp or the time counter, so a cell's composition in a run always comes to its end (R130, R131, R153). -/

namespace Sys2Proof.Machine

/-! ### What quiet events leave as it is -/

/-- The link and its lines, the composed word that waits, the frame stamp and the time counter stand in `t` as in `s`. -/
structure State.SameLine (s t : State) : Prop where
  downlink : t.downlink = s.downlink
  lookahead : t.composer.lookahead = s.composer.lookahead
  stamp : t.time.stamp = s.time.stamp
  counter : t.time.counter = s.time.counter

namespace State.SameLine

theorem refl (s : State) : s.SameLine s := ⟨rfl, rfl, rfl, rfl⟩

theorem trans {s t u : State} (h : s.SameLine t) (h' : t.SameLine u) : s.SameLine u :=
  ⟨h'.downlink.trans h.downlink, h'.lookahead.trans h.lookahead, h'.stamp.trans h.stamp, h'.counter.trans h.counter⟩

/-- A change of other blocks than the downlink port, the composer and the time counter. -/
theorem of_blocks {s t : State} (hd : t.downlink = s.downlink) (hc : t.composer = s.composer) (ht : t.time = s.time) : s.SameLine t :=
  ⟨hd, by rw [hc], by rw [ht], by rw [ht]⟩

/-- A change of the time counter's other registers. -/
theorem of_time (s : State) {u : TimeCounter} (hs : u.stamp = s.time.stamp) (hc : u.counter = s.time.counter) :
    s.SameLine { s with time := u } :=
  ⟨rfl, rfl, hs, hc⟩

/-- In a run the clock registers are not writable (R125). -/
theorem clockRegWrite {s : State} (hr : s.downlink.link.inRun = true) (r : ClockReg) (w : Word) : s.SameLine (s.clockRegWrite r w) := by
  have hl : s.downlink.link ≠ .stopped := fun e => by rw [e] at hr; cases hr
  rw [State.clockRegWrite, if_neg hl]
  exact of_blocks (by simp) (by simp) (by simp)

theorem timeCtrlWrite (s : State) (w : Word) : s.SameLine (s.timeCtrlWrite w) := by
  unfold State.timeCtrlWrite
  (repeat' split)
  case isFalse.isFalse.isFalse => exact of_blocks (by simp) (by simp) (by simp)
  all_goals exact of_time s rfl rfl

theorem tableDataWrite (s : State) (w : Word) : s.SameLine (s.tableDataWrite w) := by
  obtain ⟨a, b, e⟩ | ⟨pt, -, -, -, e⟩ | ⟨t, -, ht, e⟩ := s.tableDataWrite_cases w <;> rw [e]
  · exact of_blocks (by simp) (by simp) (by simp)
  · exact of_blocks (by simp) (by simp) (by simp)
  · obtain ⟨-, -, -, -, hd, hc, -, ht, -⟩ := writeSourceWord_frame ht
    exact of_blocks (by simpa using hd) (by simpa using hc) (by simpa using ht)

theorem readRegister (s : State) (off : Nat) (raised : Bool) : s.SameLine (s.readRegister off raised) := by
  unfold State.readRegister
  split
  case h_3 => exact ⟨rfl, rfl, rfl, rfl⟩
  all_goals exact of_blocks (by simp) (by simp) (by simp)

/-- A write in a run to another register than RUN_CTRL and SOFT_RESET. -/
theorem writeRegister {s : State} (hr : s.downlink.link.inRun = true) {off : Nat} (h0 : off ≠ 0x00) (h48 : off ≠ 0x48) (w : Word) :
    s.SameLine (s.writeRegister off w) := by
  unfold State.writeRegister
  split
  case h_1 => exact absurd rfl h0
  case h_2 | h_3 | h_4 => exact clockRegWrite hr _ w
  case h_8 => exact tableDataWrite s w
  case h_15 | h_16 | h_17 | h_18 => exact of_time s rfl rfl
  case h_19 => exact timeCtrlWrite s w
  case h_23 => exact absurd rfl h48
  all_goals exact of_blocks (by simp) (by simp) (by simp)

/-- An access that a quiet event makes, carried out in a run. -/
theorem carryOut {s : State} (hr : s.downlink.link.inRun = true) {h : HostAccess} (hq : quietEvent (.access h)) :
    s.SameLine (s.carryOut h) := by
  cases h with
  | read a raised => exact readRegister s _ raised
  | write a w =>
    obtain ⟨h0, h24⟩ : a ≠ 0x00 ∧ a ≠ 0x24 := hq
    exact writeRegister hr (by bv_omega) (by bv_omega) w

/-- An access that a quiet event makes, as the register window takes it in a run. -/
theorem access {s : State} (hr : s.downlink.link.inRun = true) {h : HostAccess} (hq : quietEvent (.access h)) :
    s.SameLine (s.access h) := by
  unfold State.access State.takeAccess
  split
  · exact refl s
  · split
    · exact of_blocks rfl rfl rfl
    · have hsettle : s.SameLine s.settle := of_blocks (by simp) (by simp) (by simp)
      dsimp only
      split
      · exact hsettle.trans (of_blocks rfl rfl rfl)
      · exact hsettle.trans (carryOut (by rw [hsettle.downlink]; exact hr) hq)

end State.SameLine

/-! ### A composition among quiet events -/

/-- A composition that goes on or not as `going` says, on a part whose line stands as in `s`, with only quiet events to come. -/
structure CellFlow.Quiet (s : State) (going : Bool) (f : CellFlow) : Prop where
  line : s.SameLine f.state
  composing : f.composing = going
  gaps : ∀ gap ∈ f.gaps, ∀ e ∈ gap.events, quietEvent e
  deferred : ∀ h ∈ f.deferred, quietEvent (.access h)

/-- An access that is tied to a consult is quiet. -/
theorem quietEvent_bus (p : PortAccess) : quietEvent (.access p.bus) := by
  cases p <;> simp [quietEvent, PortAccess.bus]

namespace CellFlow.Quiet

variable {s : State} {going : Bool} {f : CellFlow}

/-- The part moves on with its line as it is. -/
theorem move (hf : f.Quiet s going) {t : State} (ht : f.state.SameLine t) (ended : Option Requester) :
    CellFlow.Quiet s going { f with state := t, ended := ended } :=
  ⟨hf.line.trans ht, hf.composing, hf.gaps, hf.deferred⟩

/-- More accesses wait. -/
theorem wait (hf : f.Quiet s going) {hs : List HostAccess} (hq : ∀ h ∈ hs, quietEvent (.access h)) :
    CellFlow.Quiet s going { f with deferred := hs } :=
  ⟨hf.line, hf.composing, hf.gaps, hq⟩

/-- In a run an event that leaves the line as it is does not stop the composition. -/
theorem after (hr : s.downlink.link.inRun = true) (hf : f.Quiet s going) {t : State} (ht : f.state.SameLine t) :
    (f.after t).Quiet s going := by
  have hrun : t.downlink.link.inRun = true := by rw [(hf.line.trans ht).downlink]; exact hr
  refine ⟨hf.line.trans ht, ?_, hf.gaps, hf.deferred⟩
  simp [CellFlow.after, hrun, hf.composing]

theorem ask (hf : f.Quiet s going) (p : PortAccess) (composer : Bool) : (f.ask p composer).Quiet s going := by
  unfold CellFlow.ask
  split
  · exact hf.move (.of_blocks (by simp) (by simp) (by simp)) _
  all_goals exact hf.wait (by simpa using quietEvent_bus p)

theorem access (hr : s.downlink.link.inRun = true) (hf : f.Quiet s going) {h : HostAccess} (hq : quietEvent (.access h)) :
    (f.after (f.state.access h)).Quiet s going :=
  hf.after hr (.access (by rw [hf.line.downlink]; exact hr) hq)

/-- An access behind those that wait waits too. -/
theorem queue (hf : f.Quiet s going) {h : HostAccess} (hq : quietEvent (.access h)) :
    CellFlow.Quiet s going { f with deferred := f.deferred ++ [h] } :=
  hf.wait fun x hx => by
    rcases List.mem_append.mp hx with hx | hx
    · exact hf.deferred x hx
    · rwa [List.mem_singleton.mp hx]

theorem host (hr : s.downlink.link.inRun = true) (hf : f.Quiet s going) {h : HostAccess} (hq : quietEvent (.access h)) :
    (f.host h).Quiet s going := by
  unfold CellFlow.host
  split
  · exact hf.queue hq
  · split
    · exact hf.ask _ _
    · exact hf.access hr hq

theorem tie (hr : s.downlink.link.inRun = true) (hf : f.Quiet s going) (reads : Bool) (p : PortAccess) :
    (f.tie reads p).Quiet s going := by
  unfold CellFlow.tie
  split
  · exact hf.queue (quietEvent_bus p)
  · split
    · exact hf.ask _ _
    · exact hf.access hr (quietEvent_bus p)

theorem event (hr : s.downlink.link.inRun = true) (hf : f.Quiet s going) {e : CellEvent} (hq : quietEvent e) :
    (f.event e).Quiet s going := by
  cases e
  case access h => exact hf.host hr hq
  case watermarkCheck i => exact hf.after hr (.of_blocks (by simp) (by simp) (by simp))
  all_goals exact hq.elim

theorem events (hr : s.downlink.link.inRun = true) (hf : f.Quiet s going) {es : List CellEvent} (hq : ∀ e ∈ es, quietEvent e) :
    (f.events es).Quiet s going := by
  unfold CellFlow.events
  induction es generalizing f with
  | nil => exact hf
  | cons e es ih => exact ih (hf.event hr (hq e (by simp))) (fun d hd => hq d (by simp [hd]))

theorem toConsult (hr : s.downlink.link.inRun = true) (hf : f.Quiet s going) (reads : State → Bool) :
    (f.toConsult reads).Quiet s going := by
  have hgap : ∀ e ∈ (f.gaps.headD { events := [], tied := none }).events, quietEvent e := by
    cases hg : f.gaps with
    | nil => simp
    | cons gap rest => exact hf.gaps gap (by simp [hg])
  have hevents := events (f := { f with gaps := f.gaps.tail, deferred := [] }) hr
    ⟨hf.line, hf.composing, fun gap h => hf.gaps gap (List.mem_of_mem_tail h), by simp⟩
    (es := f.deferred.map CellEvent.access ++ (f.gaps.headD { events := [], tied := none }).events)
    (fun e he => (List.mem_append.mp he).elim
      (fun h => by obtain ⟨a, ha, rfl⟩ := List.mem_map.mp h; exact hf.deferred a ha) (hgap e))
  unfold CellFlow.toConsult
  dsimp only
  split
  · exact hevents.tie hr _ _
  · exact hevents

theorem consult (hf : f.Quiet s going) (i : SourceId) : (f.consult i).Quiet s going :=
  hf.move ⟨by simp, by simp, by simp, by simp⟩ _

theorem takeChecks (hf : f.Quiet s going) (handed : List SourceId) :
    CellFlow.Quiet s going { f with state := f.state.takeChecks handed } :=
  hf.move (.of_blocks (f.state.takeChecks_downlink handed) (f.state.takeChecks_composer handed) (f.state.takeChecks_time handed))
    f.ended

/-- The end of a composition leaves the line as it is. -/
theorem close (hr : s.downlink.link.inRun = true) (hf : f.Quiet s going) (reading : Bool) : s.SameLine (f.close reading) := by
  have hleft : ∀ e ∈ f.deferred.map CellEvent.access
      ++ f.gaps.flatMap (fun gap => gap.events ++ (gap.tied.map PortAccess.bus).toList.map CellEvent.access), quietEvent e := by
    intro e he
    simp only [List.mem_append, List.mem_map, List.mem_flatMap, Option.mem_toList, Option.map_eq_some_iff] at he
    obtain ⟨a, ha, rfl⟩ | ⟨gap, hgap, he | ⟨a, ⟨p, -, rfl⟩, rfl⟩⟩ := he
    · exact hf.deferred a ha
    · exact hf.gaps gap hgap e he
    · exact quietEvent_bus p
  have hend := events (f := { f with gaps := [], deferred := [], composing := false }) hr ⟨hf.line, rfl, by simp, by simp⟩ hleft
  exact hend.line.trans (.of_blocks rfl rfl rfl)

/-- The composed cell gets its word, and then its composition ends. -/
theorem place (hr : s.downlink.link.inRun = true) (hf : f.Quiet s going) (value : Word) (delivered fed reading : Bool) :
    ∃ w, State.SameLine { s with composer := { s.composer with lookahead := some w } }
      (CellFlow.close { f with state := f.state.setLookahead value delivered fed } reading) := by
  have hword : CellFlow.Quiet
      { s with composer := { s.composer with lookahead := (f.state.setLookahead value delivered fed).composer.lookahead } } going
      { f with state := f.state.setLookahead value delivered fed } :=
    ⟨⟨hf.line.downlink, rfl, hf.line.stamp, hf.line.counter⟩, hf.composing, hf.gaps, hf.deferred⟩
  exact ⟨_, hword.close (by exact hr) reading⟩

end CellFlow.Quiet

/-! ### The successor of a cell -/

theorem State.openCell_sameLine (s : State) (m c : Nat) : s.SameLine (s.openCell m c) :=
  ⟨by simp, by unfold State.openCell; dsimp only; (repeat' split) <;> rfl, by simp, by simp⟩

/-- With only quiet events in its gaps, a cell of a run gets a word, and the line stands. -/
theorem State.composeCell_quiet {s : State} (hr : s.downlink.link.inRun = true) {gaps : List CellGap}
    (hq : ∀ gap ∈ gaps, ∀ e ∈ gap.events, quietEvent e) (reading : Bool) (m c : Nat) :
    ∃ w, State.SameLine { s with composer := { s.composer with lookahead := some w } } (s.composeCell gaps reading m c) := by
  have hstart : (CellFlow.start (s.openCell m c) gaps).Quiet s true := ⟨s.openCell_sameLine m c, rfl, hq, by simp [CellFlow.start]⟩
  cases hw : (s.openCell m c).fixedWord m c with
  | some p =>
    obtain ⟨w, fed⟩ := p
    rw [State.composeCell_fixed hw]
    exact hstart.place hr w false fed reading
  | none =>
    have hres := resolveLayers_keeps (Q := CellFlow.Quiet s true) (fun f reads hf => hf.toConsult hr reads)
      (fun f i hf => hf.consult i) (fun f l hf => hf.takeChecks l) m c ((s.openCell m c).commit.active.windowLayers m c) [] hstart
    obtain ⟨⟨w, delivered⟩, hp⟩ := Option.isSome_iff_exists.mp (resolveLayers_placed _ _ _ _ _ hres.composing)
    rw [State.composeCell_placed hw gaps reading hp rfl]
    exact hres.place hr w delivered true reading

/-- The cell whose first bit has left in `s` has got its successor in `t`, or is the target row's last: the line still carries that bit,
and a composed word waits unless the target is REACHED. -/
structure State.SuccessorStands (s t : State) : Prop where
  downlink : t.downlink = { s.downlink with target := t.downlink.target, majorCount := t.downlink.majorCount }
  stamp : t.time.stamp = s.time.stamp
  counter : t.time.counter = s.time.counter
  successor : t.composer.lookahead = none ↔ t.downlink.target = .reached

section Successor

variable {s u : State} {gaps : List CellGap} (hr : s.downlink.link.inRun = true) (hq : ∀ gap ∈ gaps, ∀ e ∈ gap.events, quietEvent e)
  (hd : u.downlink = { s.downlink with majorCount := u.downlink.majorCount }) (ht : u.time = s.time)
include hr hq hd ht

theorem State.SuccessorStands.composeCell (hn : s.downlink.target ≠ .reached) (reading : Bool) (m c : Nat) :
    s.SuccessorStands (u.composeCell gaps reading m c) := by
  obtain ⟨w, h⟩ := State.composeCell_quiet (s := u) (by rw [hd]; exact hr) hq reading m c
  have hdown : (u.composeCell gaps reading m c).downlink = u.downlink := h.downlink
  have htarget : u.downlink.target ≠ .reached := by rw [hd]; exact hn
  refine ⟨?_, by rw [h.stamp, ht], by rw [h.counter, ht], ?_⟩
  · rw [hdown, hd]
  · rw [h.lookahead, hdown]
    simp [htarget]

theorem State.SuccessorStands.reachTarget (hl : u.composer.lookahead = none) (reading : Bool) :
    s.SuccessorStands (u.reachTarget gaps reading) := by
  have hstart : (CellFlow.start { u with downlink := { u.downlink with target := .reached } } gaps).Quiet
      { u with downlink := { u.downlink with target := .reached } } true := ⟨.refl _, rfl, hq, by simp [CellFlow.start]⟩
  have h : State.SameLine _ (u.reachTarget gaps reading) := hstart.close (by rw [hd]; exact hr) reading
  refine ⟨?_, by rw [h.stamp, ht], by rw [h.counter, ht], ?_⟩
  · rw [h.downlink, hd]
  · simp [h.lookahead, h.downlink, hl]

end Successor

/-- The successor of a cell whose first bit has left in a run, with only quiet events among its consults. -/
theorem State.composeSuccessor_stands {s : State} (hr : s.downlink.link.inRun = true) (hn : s.downlink.target ≠ .reached)
    (hl : s.composer.lookahead = none) {gaps : List CellGap} (hq : ∀ gap ∈ gaps, ∀ e ∈ gap.events, quietEvent e) (reading : Bool)
    (m c : Nat) : s.SuccessorStands (s.composeSuccessor gaps reading m c) := by
  by_cases hrow : c + 1 < s.commit.active.n
  · rw [State.composeSuccessor_withinRow hrow]
    exact .composeCell hr hq rfl rfl hn reading m (c + 1)
  by_cases hmajor : s.commit.active.m ≤ m + 1
  · have hd : s.majorEndPoint.downlink = { s.downlink with majorCount := s.majorEndPoint.downlink.majorCount } := by
      rw [State.majorEndPoint_downlink]
    rw [State.composeSuccessor_majorEnd (Nat.not_lt.mp hrow) hmajor]
    split
    · exact .reachTarget hr hq hd (by simp) (by simpa using hl) reading
    · exact .composeCell hr hq hd (by simp) hn reading 0 0
  · rw [State.composeSuccessor_minorEnd (Nat.not_lt.mp hrow) hmajor]
    split
    · exact .reachTarget hr hq rfl rfl hl reading
    · exact .composeCell hr hq rfl rfl hn reading (m + 1) 0

/-- Settles O47: the first bit is on the line before its cell's successor is composed, and quiet events leave it there. -/
theorem firstBitLeaves : Obligations.FirstBitLeaves := by
  intro s gaps reading hs
  refine ⟨fun x hx hq => ?_, fun hx => exec_cellCompose_idle hs hx gaps reading⟩
  have hr : (s.cellOut x).downlink.link.inRun = true := (LinkState.inRun_iff _).mpr hx.inRun
  have h := State.composeSuccessor_stands hr hx.target rfl hq reading s.composer.row s.composer.col
  refine ⟨_, exec_cellCompose_due hs hx gaps reading, ?_, ?_, ?_, ?_, ?_, ?_, h.stamp, h.counter, h.successor⟩ <;> rw [h.downlink]
  case refine_3 | refine_4 => exact decide_eq_true_iff
  all_goals rfl

end Sys2Proof.Machine
end
section
/-! SUPPORT. Source records at every step and at reset: each access, event and piece of a composition keeps every record lawful, and the
state after reset has all the laws of Safety.lean (R21, R23, R24, R25, R26, R29). -/

namespace Sys2Proof.Machine

/-! ### The link's operations leave the source unit -/

theorem State.startRun_sources (s : State) : s.startRun.sources = s.sources := by
  unfold State.startRun State.composeFirst
  simp

theorem State.startRequest_sources (s : State) (w : Word) : (s.startRequest w).sources = s.sources := by
  obtain ⟨-, h⟩ | ⟨-, -, h⟩ | ⟨-, -, h⟩ := s.startRequest_cases w <;> rw [h]
  · exact s.refuseRun_sources w
  · exact State.startRun_sources _

theorem State.startEdge_sources (s : State) : s.startEdge.sources = s.sources := by
  obtain ⟨-, h⟩ | ⟨-, h⟩ := s.startEdge_cases <;> rw [h]
  exact s.startRun_sources

/-! ### Accesses and events keep the records lawful -/

theorem State.SourcesLawful.softReset (s : State) : s.softReset.SourcesLawful := by
  intro i
  have h : s.softReset.record i = SourceRec.reset := Vector.getElem_replicate i.isLt
  exact h ▸ SourceRec.Lawful.reset

theorem State.SourcesLawful.hardwareReset (s : State) (powerUp : Bool) : (s.hardwareReset powerUp).SourcesLawful :=
  (State.SourcesLawful.softReset s).congr rfl

theorem State.SourcesLawful.resetRelease {s : State} (hs : s.SourcesLawful) : s.resetRelease.SourcesLawful := by
  unfold State.resetRelease
  split
  · exact hs.congr rfl
  · exact hs

theorem State.SourcesLawful.tableDataWrite {s : State} (hs : s.SourcesLawful) (w : Word) : (s.tableDataWrite w).SourcesLawful := by
  obtain ⟨a, b, h⟩ | ⟨pt, -, -, -, h⟩ | ⟨t, -, ht, h⟩ := s.tableDataWrite_cases w <;> rw [h]
  · exact hs.congr (by simp)
  · exact hs.congr rfl
  · exact (hs.writeSourceWord ht).congr rfl

/-- Of the accesses only an append, a source command, a table write and a soft reset reach a record. -/
theorem State.SourcesLawful.carryOut {s : State} (hs : s.SourcesLawful) (h : HostAccess) : (s.carryOut h).SourcesLawful := by
  apply State.carryOut_keeps (P := State.SourcesLawful) s h
  case append => exact hs.append
  case command => exact fun w => hs.srcCmd _ _
  case dataWrite => exact hs.tableDataWrite
  case softReset => exact .softReset s
  case appendSrc => exact fun w => hs.congrRecords rfl
  case start => exact fun w => hs.congr (s.startRequest_sources w)
  all_goals intros; exact hs.congr (by simp)

theorem keptPieces_sources : KeptPieces State.SourcesLawful where
  carryOut _ h hs := hs.carryOut h
  port _ _ hs := hs.congr rfl
  window _ _ _ _ hs := hs.congr rfl
  advanceIndex _ hs := hs.congr rfl
  takeCheck _ i hs := hs.takeCheck i
  tick _ hs := hs.congr (by simp)
  tsyncEdge _ hs := hs.congr (by simp)
  validationEnd _ hs := hs.congr (by simp)
  copyBack _ _ hs := hs.congr rfl

theorem keptCompose_sources : KeptCompose State.SourcesLawful State.SourcesLawful where
  events := keptPieces_sources.events
  openCell _ _ _ hs := hs.congr (by simp)
  setLookahead _ _ _ _ hs := hs.congr rfl
  consult _ i hs := hs.consult i
  close _ _ _ hs := hs.congr rfl

theorem State.SourcesLawful.firstBit {s : State} (hs : s.SourcesLawful) (gaps : List CellGap) (reading : Bool) :
    (s.firstBit gaps reading).SourcesLawful :=
  keptCompose_sources.firstBit (fun _ h => h) (fun _ _ _ _ _ h => h.congr rfl) (fun _ _ h => h.congr (by simp))
    (fun _ h => h.congr (by simp)) (fun _ h => h.congr rfl) s gaps reading hs

theorem kept_sources : Kept State.SourcesLawful where
  pending _ _ hs := hs.congr rfl
  settle := keptPieces_sources.settle
  hold s h _ _ _ := keptPieces_sources.hold s h
  wait s x h _ _ := keptPieces_sources.waitBehind s x h
  carryOut s h _ _ := keptPieces_sources.carryOut s h
  hardwareReset s b _ := .hardwareReset s b
  resetRelease _ hs := hs.resetRelease
  takeCheck _ i hs := hs.takeCheck i
  startEdge s hs := hs.congr s.startEdge_sources
  stoppingEnd _ hs := hs.congr (by simp)
  clockLossExpiry _ hs := hs.congr (by simp)
  bclkiRisingEdge _ hs := hs.congr (by simp)
  bitPeriodStart _ hs := hs.congr (by simp)
  firstBit _ gaps reading _ hs := hs.firstBit gaps reading
  validationEnd _ hs := hs.congr (by simp)
  copyBackEnd s _ := keptPieces_sources.copyBackEnd s
  tick _ hs := hs.congr (by simp)
  tsyncEdge _ hs := hs.congr (by simp)
  divider _ _ hs := hs.congr rfl
  elapsed _ _ hs := hs.congr rfl
  lossTimer _ _ hs := hs.congr rfl
  halfCount _ _ hs := hs.congr rfl
  rise _ hs := hs.congr rfl

/-- Settles O54: what every access and every event keeps, every step keeps. -/
theorem stepKeepsSources : Obligations.StepKeepsSources := fun _ _ hs h => kept_sources.step hs h

/-! ### The state after reset -/

theorem State.reset_sourcesLawful : State.reset.SourcesLawful := (State.SourcesLawful.softReset State.reset).congr rfl

theorem State.reset_refillLawful : State.reset.RefillLawful :=
  ⟨List.nodup_nil, fun _ h => absurd h List.not_mem_nil⟩

theorem State.reset_commitLawful : State.reset.CommitLawful :=
  ⟨Bank.validate_default, fun h => CommitState.noConfusion h, fun h => CommitState.noConfusion h⟩

theorem State.reset_memoryLawful : State.reset.MemoryLawful :=
  ⟨rfl, rfl, rfl, Table.size_pos _⟩

theorem State.reset_linkLawful : State.reset.LinkLawful where
  idle _ := ⟨rfl, rfl, rfl, rfl, rfl, rfl⟩
  target := by simp [State.reset, Downlink.reset]
  line := rfl
  strobes := ⟨fun h => Bool.noConfusion h, fun h => Bool.noConfusion h⟩
  external _ := rfl
  ahead h := Bool.noConfusion h

/-- Settles O53, law by law. -/
theorem resetIsLawful : Obligations.ResetIsLawful :=
  ⟨State.reset_sourcesLawful, State.reset_refillLawful, State.reset_commitLawful, ⟨fun _ => rfl, fun _ => rfl⟩,
    State.reset_memoryLawful, .free rfl rfl (by simp [State.reset]), State.reset_linkLawful, fun _ => ⟨rfl, rfl, rfl⟩⟩

end Sys2Proof.Machine
end

section
/-! SUPPORT. Source commands, appends and consults on the inputs their statements give them: each is one replaced record, with what it does
to the refill queue and the flags (R31, R32, R36 … R40, R44 … R48). -/

namespace Sys2Proof.Machine

/-! ### Words and shared operations -/

theorem satInc_eq (w : Word) : satInc w = if w = 0xFFFF then 0xFFFF else w + 1 := by
  unfold satInc
  split
  · assumption
  · rfl

theorem SourceState.not_feeding_iff {st : SourceState} : ¬ st.feeding = true ↔ st = .off ∨ st = .draining := by
  cases st <;> simp [SourceState.feeding]

/-- A record with its insertion at the tail of the refill queue, as OPEN and FLUSH make it (R50 … R52). -/
theorem State.insertRecord_setRecord (s : State) (i : SourceId) (r : SourceRec) (reason : RefillReason) :
    (s.setRecord i r).insertRecord i reason =
      { s with
        sources := { s.sources with records := s.sources.records.set i r }
        refill := { s.refill with records := s.refill.records ++
          [{ source := i, reason := reason, occAtEntry := r.occupancy
             rowAtEntry := if s.downlink.link = .running ∨ s.downlink.link = .stopping then s.downlink.rowCount.setWidth 8 else 0 }] }
        irq := { s.irq with flags := s.irq.flags ||| 0x040 } } := by
  simp only [State.insertRecord, State.record_setRecord_same, State.setRecord_downlink, LinkState.inRun_iff]
  rfl

/-! ### Source commands -/

/-- The row of the table that is a defined source command. -/
def SourceCommand.instr : SourceCommand → BitVec 8 → Instr
  | .openSource => .openSource
  | .closeSource => .closeSource
  | .kill => .kill
  | .flush => .flush

theorem exec_sourceCommand {s : State} (hs : s.ready) (c : SourceCommand) (src : BitVec 8) :
    exec (c.instr src) s = .next (s.sourceCommand c src c.body) := by
  cases c <;> exact congrArg Host.Outcome.next (State.takeAccess_ready hs _ _)

/-- A command whose effect is carried out (R44). -/
theorem exec_sourceCommand_done {s t : State} (hs : s.ready) {c : SourceCommand} {src : BitVec 8} {i : SourceId}
    (hi : src.toNat = i.val) (h : c.body i s = .ok t) : exec (c.instr src) s = .next (t.commandResult c.code src .done) := by
  obtain ⟨_, hlt⟩ := i
  subst hi
  rw [exec_sourceCommand hs, State.sourceCommand, dif_pos hlt, h]

/-- A command whose source refuses it (R44). -/
theorem exec_sourceCommand_refused {s : State} (hs : s.ready) {c : SourceCommand} {src : BitVec 8} {i : SourceId} {r : Reason}
    (hi : src.toNat = i.val) (h : c.body i s = .error r) : exec (c.instr src) s = .next (s.refuseCommand c.code src r) := by
  obtain ⟨_, hlt⟩ := i
  subst hi
  rw [exec_sourceCommand hs, State.sourceCommand, dif_pos hlt, h]

/-- A command to a number that is no source's (R44). -/
theorem exec_sourceCommand_badSource {s : State} (hs : s.ready) (c : SourceCommand) {src : BitVec 8} (h : 23 < src.toNat) :
    exec (c.instr src) s = .next (s.refuseCommand c.code src .badSource) := by
  rw [exec_sourceCommand hs, State.sourceCommand, dif_neg (by omega)]

theorem sourceCommandOf_none {cmd : BitVec 4} (h : cmd = 0 ∨ 5 ≤ cmd.toNat) : sourceCommandOf cmd = none := by
  have hn : cmd.toNat ≠ 1 ∧ cmd.toNat ≠ 2 ∧ cmd.toNat ≠ 3 ∧ cmd.toNat ≠ 4 := by
    obtain rfl | h := h
    · decide
    · omega
  obtain ⟨h1, h2, h3, h4⟩ := hn
  simp [sourceCommandOf]

/-- A command with an undefined code (R44). -/
theorem exec_srcCmdUndefinedCommand {s : State} (hs : s.ready) {cmd : BitVec 4} (h : cmd = 0 ∨ 5 ≤ cmd.toNat) (src : BitVec 8) :
    exec (.srcCmdUndefinedCommand cmd src) s = .next (s.refuseCommand cmd src .badCommand) := by
  have e : exec (.srcCmdUndefinedCommand cmd src) s = .next (s.srcCmd cmd src) :=
    congrArg Host.Outcome.next (State.takeAccess_ready hs _ _)
  rw [e, State.srcCmd, sourceCommandOf_none h]

theorem doOpen_done {s : State} {i : SourceId} (ho : (s.record i).state = .off) (hg : (s.record i).geometryOk = true) :
    doOpen i s = .ok ((s.setRecord i (s.record i).opened).insertRecord i .opened) := by
  simp [doOpen, ho, hg]

theorem doOpen_badState {s : State} {i : SourceId} (ho : (s.record i).state ≠ .off) : doOpen i s = .error .badState := by
  simp [doOpen, ho]

theorem doOpen_geometry {s : State} {i : SourceId} (ho : (s.record i).state = .off) (hg : ¬ (s.record i).geometryOk = true) :
    doOpen i s = .error .geometry := by
  simp [doOpen, ho, hg]

theorem doClose_done {s : State} {i : SourceId} (hf : (s.record i).state.feeding = true) :
    doClose i s = .ok ((s.setRecord i { s.record i with
      armed := false, state := if (s.record i).occupancy = 0 then .off else .draining }).removeRecord i) := by
  simp [doClose, hf]

theorem doClose_badState {s : State} {i : SourceId} (hf : ¬ (s.record i).state.feeding = true) : doClose i s = .error .badState := by
  simp [doClose, hf]

theorem doKill_done {s : State} {i : SourceId} (ho : (s.record i).state ≠ .off) :
    doKill i s = .ok ((s.setRecord i ((s.record i).emptied .off)).removeRecord i) := by
  simp [doKill, ho]

theorem doKill_off {s : State} {i : SourceId} (ho : (s.record i).state = .off) : doKill i s = .ok s := by
  simp [doKill, ho]

theorem doFlush_queued {s : State} {i : SourceId} (hf : (s.record i).state.feeding = true) (hq : s.queued i = true) :
    doFlush i s = .ok (s.setRecord i ((s.record i).emptied .priming)) := by
  simp [doFlush, hf, hq]

theorem doFlush_unqueued {s : State} {i : SourceId} (hf : (s.record i).state.feeding = true) (hq : s.queued i = false) :
    doFlush i s = .ok ((s.setRecord i ((s.record i).emptied .priming)).insertRecord i .flushed) := by
  simp [doFlush, hf, hq]

theorem doFlush_badState {s : State} {i : SourceId} (hf : ¬ (s.record i).state.feeding = true) : doFlush i s = .error .badState := by
  simp [doFlush, hf]

/-- Settles O20, by the command and whether the source is OFF. -/
theorem closeAndKillResults : Obligations.CloseAndKillResults := by
  intro src i s hs hi r
  refine ⟨fun hf => ?close, fun ho => ?kill, fun ho => ?killOff⟩
  case close => exact exec_sourceCommand_done (c := .closeSource) hs hi (doClose_done (SourceState.feeding_iff.mpr hf))
  case kill => exact exec_sourceCommand_done (c := .kill) hs hi (doKill_done ho)
  case killOff => exact exec_sourceCommand_done (c := .kill) hs hi (doKill_off ho)

/-- Settles O21, by whether the source is QUEUED. -/
theorem flushResult : Obligations.FlushResult := by
  intro src i s hs hi r hf sources
  have hf := SourceState.feeding_iff.mpr hf
  refine ⟨fun hq => ?queued, fun hq => ?unqueued⟩
  case queued =>
    exact exec_sourceCommand_done (c := .flush) hs hi (doFlush_queued hf (State.queued_eq_true_iff.mpr hq))
  case unqueued =>
    refine (exec_sourceCommand_done (c := .flush) hs hi (doFlush_unqueued hf (State.queued_eq_false_iff.mpr hq))).trans ?_
    rw [State.insertRecord_setRecord]
    rfl

/-- Settles O19. -/
theorem openResult : Obligations.OpenResult := by
  intro src i s hs hi r ho hl hb hst hw
  have hg : r.geometryOk = true := r.geometryOk_iff.mpr ⟨hl.1, hl.2, hb, hst.1, hst.2, hw⟩
  refine (exec_sourceCommand_done (c := .openSource) hs hi (doOpen_done ho hg)).trans ?_
  rw [State.insertRecord_setRecord]
  rfl

/-- The error record of a refused command: the code and the reason are the two bytes of DETAIL_B (R184). -/
theorem State.refuseCommand_eq (s : State) (cmd : BitVec 4) (src : BitVec 8) (r : Reason) :
    s.refuseCommand cmd src r = State.report
      { s with sources := { s.sources with cmdSource := src, cmdCode := cmd, cmdResult := .refused r } }
      .sourceCmd (src.setWidth 16) ((0 : BitVec 4) ++ cmd ++ r.code.setWidth 8) := by
  have hcode : field 0 r.code = field 0 (r.code.setWidth 8) := by cases r <;> rfl
  rw [← srcCmdWord_eq, srcCmdWord, State.refuseCommand, field_zero src, hcode]
  rfl

/-- Settles O22, check by check in the order of R44 and R45. -/
theorem commandRefusals : Obligations.CommandRefusals := by
  intro cmd src s hs refused
  have badSource (h : 23 < src.toNat) (c : SourceCommand) : exec (c.instr src) s = refused c.code .badSource 1 := by
    rw [exec_sourceCommand_badSource hs c h, State.refuseCommand_eq]
    rfl
  have bySource {i : SourceId} (hi : src.toNat = i.val) {c : SourceCommand} {r : Reason} (h : c.body i s = .error r) :
      exec (c.instr src) s = refused c.code r (r.code.setWidth 8) := by
    rw [exec_sourceCommand_refused hs hi h, State.refuseCommand_eq]
  refine ⟨fun h => ?_, fun h => ?_, fun i hi => ⟨fun ho => ?_, fun hst => ?_, fun ho hg => ?_⟩⟩
  · rw [exec_srcCmdUndefinedCommand hs h, State.refuseCommand_eq]
    rfl
  · exact ⟨badSource h .openSource, badSource h .closeSource, badSource h .kill, badSource h .flush⟩
  · exact bySource hi (c := .openSource) (doOpen_badState ho)
  · have hf := SourceState.not_feeding_iff.mpr hst
    exact ⟨bySource hi (c := .closeSource) (doClose_badState hf), bySource hi (c := .flush) (doFlush_badState hf)⟩
  · refine bySource hi (c := .openSource) (doOpen_geometry ho ?_)
    rw [SourceRec.geometryOk_iff]
    bv_omega

/-! ### Appends -/

theorem exec_append {s : State} (hs : s.ready) (w : Word) : exec (.append w) s = .next (s.append w) :=
  congrArg Host.Outcome.next (State.takeAccess_ready hs _ _)

theorem State.append_toSource {s : State} {i : SourceId} (hi : s.sources.appendSrc.toNat = i.val) (w : Word) :
    s.append w = s.appendTo i w := by
  obtain ⟨_, hlt⟩ := i
  subst hi
  exact dif_pos hlt

/-- The record after an accepted append, as R31 states it. -/
theorem SourceRec.Lawful.afterAppend_eq {r : SourceRec} (h : r.Lawful) (hf : r.state.feeding = true) :
    r.afterAppend = { r with
      writeIndex := if r.writeIndex.toNat + 1 = r.length.toNat then 0 else r.writeIndex + 1
      occupancy := r.occupancy + 1
      appended := r.appended + 1
      armed := r.armed || decide (r.watermark < r.occupancy + 1)
      state := if r.state = .live ∨ r.startLevel ≤ r.occupancy + 1 then .live else r.state } := by
  have hstate : (if (r.state = .priming ∨ r.state = .starved) ∧ r.startLevel ≤ r.occupancy + 1 then .live else r.state)
      = if r.state = .live ∨ r.startLevel ≤ r.occupancy + 1 then .live else r.state := by
    obtain hst | hst | hst := SourceState.feeding_iff.mp hf <;> simp [hst]
  rw [SourceRec.afterAppend, SourceRec.nextIndex_of_lt (h.writeRange (SourceState.feeding_ne_off hf)), hstate]

/-- Settles O17: the record moves as R31 states, and the write is at BASE + WRITE_INDEX since the ring lies within the buffer (R25). -/
theorem appendAccepted : Obligations.AppendAccepted := by
  intro w i s hs hlaw hmem hi r hst hroom
  have hf : r.state.feeding = true := SourceState.feeding_iff.mpr hst
  have hoff := SourceState.feeding_ne_off hf
  have haddr : (r.ringAddress r.writeIndex).toNat = r.base.toNat + r.writeIndex.toNat :=
    SourceRec.ringAddress_toNat ((hlaw i).inBuffer hoff) ((hlaw i).writeRange hoff)
  refine ⟨Memory.write bufferDefault s.buffer (r.base.toNat + r.writeIndex.toNat) w, ?_, fun a => ?_⟩
  · have happend : s.appendTo i w = (s.bufferWrite (r.ringAddress r.writeIndex) w).setRecord i r.afterAppend := by
      unfold State.appendTo
      exact (if_pos hf).trans (if_pos hroom)
    rw [exec_append hs, State.append_toSource hi, happend, (hlaw i).afterAppend_eq hf, State.bufferWrite, haddr]
    rfl
  · split
    · subst a
      exact Memory.read_write_same hmem.buffer _ w
    · exact Memory.read_write_other _ _ w ‹_›

/-- Settles O18, by the check that fails. -/
theorem appendRefused : Obligations.AppendRefused := by
  intro w s hs src
  rw [exec_append hs]
  refine ⟨fun h => ?_, fun i hi => ?_⟩
  · rw [State.append, dif_neg (by omega), State.refuseAppend, field_zero]
    rfl
  intro r
  refine ⟨fun hst => ?srcOff, fun hst hfull => ?ringFull⟩
  case srcOff =>
    rw [State.append_toSource hi, State.appendTo, if_neg (SourceState.not_feeding_iff.mpr hst), State.refuseAppend, field_zero]
    rfl
  case ringFull =>
    have hroom : ¬ r.occupancy < r.length := by rw [hfull]; exact BitVec.lt_irrefl _
    have happend : s.appendTo i w = (s.setRecord i { r with overflows := satInc r.overflows }).refuseAppend .ringFull := by
      unfold State.appendTo
      exact (if_pos (SourceState.feeding_iff.mpr hst)).trans (if_neg hroom)
    rw [State.append_toSource hi, happend, State.refuseAppend, field_zero, satInc_eq]
    rfl

/-! ### Consults -/

/-! What a consult is, by the state of the source (R34, R35, R37, R38, R40). -/

theorem State.consult_off {s : State} {i : SourceId} (hst : (s.record i).state = .off) :
    s.consult i = { state := s, outcome := .nothing .off } := by
  simp only [State.consult, hst]

theorem State.consult_priming_below {s : State} {i : SourceId} (hst : (s.record i).state = .priming)
    (hl : (s.record i).occupancy < (s.record i).startLevel) : s.consult i = { state := s, outcome := .nothing .priming } := by
  simp only [State.consult, hst]
  exact if_neg (BitVec.not_le.mpr hl)

theorem State.consult_starved_below {s : State} {i : SourceId} (hst : (s.record i).state = .starved)
    (hl : (s.record i).occupancy < (s.record i).startLevel) : s.consult i =
      { state := s.setRecord i { s.record i with missed := satInc (s.record i).missed }, outcome := (s.record i).policyAnswer } := by
  rw [State.consult]
  simp only [hst]
  exact if_neg (BitVec.not_le.mpr hl)

/-- LIVE, and PRIMING and STARVED at START_LEVEL. -/
theorem State.consult_live {s : State} {i : SourceId} (h : (s.record i).state = .live
    ∨ ((s.record i).state = .priming ∨ (s.record i).state = .starved) ∧ (s.record i).startLevel ≤ (s.record i).occupancy) :
    s.consult i = s.consultLive i := by
  obtain hst | ⟨hst | hst, hl⟩ := h <;> simp only [State.consult, hst]
  all_goals exact if_pos hl

theorem State.consult_draining {s : State} {i : SourceId} (hst : (s.record i).state = .draining) :
    s.consult i = s.consultDraining i := by
  simp only [State.consult, hst]

/-- Settles O23, by the state of the source. -/
theorem consultWithoutRemoval : Obligations.ConsultWithoutRemoval := by
  intro i s r inc answer
  have hinc : satInc = inc := funext satInc_eq
  have hanswer : r.policyAnswer = answer := by
    simp only [SourceRec.policyAnswer, answer]
    cases r.policy
    case repeatLast => exact apply_ite ConsultOutcome.deliver _ _ _
    all_goals rfl
  rw [← hinc, ← hanswer]
  refine ⟨State.consult_off, State.consult_priming_below, State.consult_starved_below, fun hst hempty => ?_⟩
  rw [State.consult_live (.inl hst), State.consultLive]
  exact if_pos hempty

/-- A removed word is keyed when KEY_EN is set and it equals KEY (R36). -/
theorem SourceRec.isKeyed_iff (r : SourceRec) (w : Word) : r.isKeyed w = true ↔ r.keyEn = true ∧ w = r.key := by
  simp [SourceRec.isKeyed]

theorem SourceRec.removalOutcome_eq (r : SourceRec) (w : Word) :
    r.removalOutcome w = if r.keyEn = true ∧ w = r.key then .nothing .keyed else .deliver w := by
  simp only [SourceRec.removalOutcome, SourceRec.isKeyed_iff]

/-- The record after its oldest word is removed, as R36 states it. -/
theorem SourceRec.Lawful.afterRemoval_eq {r : SourceRec} (h : r.Lawful) (hs : r.state ≠ .off) (w : Word) :
    r.afterRemoval w = { r with
      readIndex := if r.readIndex.toNat + 1 = r.length.toNat then 0 else r.readIndex + 1
      occupancy := r.occupancy - 1
      consumed := r.consumed + 1
      last := if r.keyEn = true ∧ w = r.key then r.last else w
      lastValid := if r.keyEn = true ∧ w = r.key then r.lastValid else true } := by
  rw [SourceRec.afterRemoval, SourceRec.nextIndex_of_lt (h.readRange hs)]
  simp only [← SourceRec.isKeyed_iff]
  cases r.isKeyed w <;> simp

/-- The oldest word of an open ring stands at BASE + READ_INDEX (R25, R36). -/
theorem State.oldestWord_eq {s : State} {i : SourceId} (h : (s.record i).Lawful) (hs : (s.record i).state ≠ .off) :
    s.oldestWord i = Memory.read bufferDefault s.buffer ((s.record i).base.toNat + (s.record i).readIndex.toNat) := by
  rw [State.oldestWord, State.bufferRead, SourceRec.ringAddress_toNat (h.inBuffer hs) (h.readRange hs)]

/-- A consult in DRAINING: the source goes OFF with its last word (R40). -/
theorem State.consultDraining_eq (s : State) (i : SourceId) : s.consultDraining i =
    { state := if (s.record i).occupancy = 1
        then (s.setRecord i { (s.record i).afterRemoval (s.oldestWord i) with state := .off }).raise .drained
        else s.setRecord i ((s.record i).afterRemoval (s.oldestWord i))
      outcome := (s.record i).removalOutcome (s.oldestWord i) } := by
  have hlast : ((s.record i).afterRemoval (s.oldestWord i)).occupancy = 0 ↔ (s.record i).occupancy = 1 := by
    show (s.record i).occupancy - 1 = 0 ↔ _
    bv_omega
  simp only [State.consultDraining, hlast]

/-- Settles O24: by the state, and in DRAINING by whether the word is the last. -/
theorem consultRemovesOldestWord : Obligations.ConsultRemovesOldestWord := by
  intro i s hlaw r word next after outcome
  have hl : r.Lawful := hlaw i
  have hword (hoff : r.state ≠ .off) : s.oldestWord i = word := State.oldestWord_eq hl hoff
  have hnext (hoff : r.state ≠ .off) : r.afterRemoval word = next r.state := hl.afterRemoval_eq hoff word
  have houtcome : r.removalOutcome word = outcome := r.removalOutcome_eq word
  have live (hoff : r.state ≠ .off) (hocc : r.occupancy ≠ 0) : s.consultLive i =
      { state := (s.setRecord i (next .live)).handCheck i, outcome := outcome } := by
    have hnextLive : { r.afterRemoval word with state := .live } = next .live := by rw [hnext hoff]
    rw [← hnextLive, ← houtcome, ← hword hoff]
    exact if_neg hocc
  have draining (hst : r.state = .draining) : s.consult i =
      { state := if r.occupancy = 1 then (s.setRecord i (next .off)).raise .drained else s.setRecord i (next .draining)
        outcome := outcome } := by
    have hoff : r.state ≠ .off := by rw [hst]; decide
    rw [State.consult_draining hst, State.consultDraining_eq, hword hoff, show (s.record i).afterRemoval word = _ from hnext hoff,
      show (s.record i).removalOutcome word = _ from houtcome, hst]
  refine ⟨fun h => ?live, fun hst hmore => ?word, fun hst hlast => ?lastWord⟩
  case live =>
    rw [State.consult_live (h.imp_left And.left)]
    obtain ⟨hst, hocc⟩ | ⟨hst, hlevel⟩ := h
    · exact live (by rw [hst]; decide) hocc
    · have hoff : r.state ≠ .off := by obtain hst | hst := hst <;> rw [hst] <;> decide
      have hstart := (hl.startRange hoff).1
      exact live hoff (by bv_omega)
  case word =>
    rw [draining hst, if_neg hmore]
    rfl
  case lastWord =>
    rw [draining hst, if_pos hlast]
    rfl

end Sys2Proof.Machine
end

section
/-! SUPPORT. TABLE_DATA_WRITE to a word of a source record: which record is written, and what each word takes or refuses (R20 … R23, R162,
R164). -/

namespace Sys2Proof.Machine

/-! ### The command -/

/-- Two fields side by side are one appended word. -/
theorem field_or_field {m n : Nat} (hi : BitVec m) (lo : BitVec n) : field 0 lo ||| field n hi = (hi ++ lo).setWidth 16 := by
  apply BitVec.eq_of_getLsbD_eq
  intro i h
  simp only [field, BitVec.getLsbD_or, BitVec.getLsbD_append, BitVec.getLsbD_shiftLeft, BitVec.getLsbD_setWidth]
  by_cases hn : i < n
  · simp [hn, h]
  · simp [hn, h, BitVec.getLsbD_of_ge lo i (by omega), show i - n < 16 by omega]

/-- The record and the word of it that TBL_INDEX names (R163). -/
theorem State.writeTableWord_source {s : State} (ht : s.window.table = .source) {i : SourceId} {k : Nat} (hk : k < 32)
    (hx : s.window.index = 32 * i.val + k) (w : Word) : writeTableWord w s = writeSourceWord i k w s := by
  have hsource : s.indexedSource = i := by
    have := i.isLt
    apply Fin.ext
    show s.window.index / 32 % 24 = i.val
    omega
  have hword : s.window.index % 32 = k := by omega
  simp only [writeTableWord, ht, hsource, hword]

/-- A word of a source record that is written, and TBL_INDEX advances (R162, R164). -/
theorem exec_tableDataWrite_written {s t : State} (hs : s.ready) (ht : s.window.table = .source) {i : SourceId} {k : Nat} (hk : k < 32)
    (hx : s.window.index = 32 * i.val + k) {w : Word} (h : writeSourceWord i k w s = .ok t) :
    exec (.tableDataWrite w) s = .next { t with window := { s.window with index := (s.window.index + 1) % 768 } } := by
  have e : exec (.tableDataWrite w) s = .next (s.tableDataWrite w) := congrArg Host.Outcome.next (State.takeAccess_ready hs _ _)
  obtain ⟨-, -, -, -, -, -, -, -, hwindow, -⟩ := writeSourceWord_frame h
  rw [e, State.tableDataWrite, State.writeTableWord_source ht hk hx, h]
  simp only [State.advanceIndex, hwindow, ht, Table.size]

/-- A word of a source record that is refused: TABLE_WRITE with the table and bank, and the reason above TBL_INDEX, which advances (R162,
R164, R184). -/
theorem exec_tableDataWrite_refused {s : State} (hs : s.ready) (ht : s.window.table = .source) {i : SourceId} {k : Nat} (hk : k < 32)
    (hx : s.window.index = 32 * i.val + k) {w : Word} {r : Reason} (h : writeSourceWord i k w s = .error r) :
    exec (.tableDataWrite w) s = .next
      { s.report .tableWrite (if s.window.bank = .active then 0x105 else 0x005) (r.code ++ BitVec.ofNat 12 s.window.index) with
        window := { s.window with index := (s.window.index + 1) % 768 } } := by
  have e : exec (.tableDataWrite w) s = .next (s.tableDataWrite w) := congrArg Host.Outcome.next (State.takeAccess_ready hs _ _)
  have hsel : tblSelWord .source s.window.bank = if s.window.bank = .active then 0x105 else 0x005 := by
    cases s.window.bank <;> rfl
  rw [e, State.tableDataWrite, State.writeTableWord_source ht hk hx, h]
  simp only [State.advanceIndex, State.report_window, ht, Table.size, hsel, field_or_field, BitVec.setWidth_eq]

/-! ### What each word of a record takes or refuses (R20 … R23) -/

section Words

variable {s : State} {i : SourceId} {w : Word}

theorem writeSourceWord_base (ho : (s.record i).state = .off) (hw : w.toNat ≤ 0x7FFF) :
    writeSourceWord i 0 w s = .ok (s.setRecord i { s.record i with base := w }) := by
  simp [writeSourceWord, ho, Nat.not_lt.mpr hw]

theorem writeSourceWord_base_range (ho : (s.record i).state = .off) (hw : 0x7FFF < w.toNat) :
    writeSourceWord i 0 w s = .error .range := by
  simp [writeSourceWord, ho, hw]

theorem writeSourceWord_length (ho : (s.record i).state = .off) (hw : w.toNat ≤ 0x3FFF) :
    writeSourceWord i 1 w s = .ok (s.setRecord i { s.record i with length := w }) := by
  simp [writeSourceWord, ho, Nat.not_lt.mpr hw]

theorem writeSourceWord_length_range (ho : (s.record i).state = .off) (hw : 0x3FFF < w.toNat) :
    writeSourceWord i 1 w s = .error .range := by
  simp [writeSourceWord, ho, hw]

/-- BASE and LENGTH of a source that is not OFF are refused whatever the word is. -/
theorem writeSourceWord_notOff (ho : (s.record i).state ≠ .off) :
    writeSourceWord i 0 w s = .error .sourceNotOff ∧ writeSourceWord i 1 w s = .error .sourceNotOff := by
  simp [writeSourceWord, ho]

theorem writeSourceWord_watermark (hw : w.toNat ≤ 0x3FFF) (hl : (s.record i).state = .off ∨ w < (s.record i).length) :
    writeSourceWord i 2 w s = .ok (s.setWatermark i w) := by
  have h : ¬ (0x3FFF < w.toNat ∨ ((s.record i).state ≠ .off ∧ (s.record i).length ≤ w)) := by
    rintro (h | ⟨ho, h⟩)
    · omega
    · exact BitVec.not_lt.mpr h (hl.resolve_left ho)
  exact if_neg h

theorem writeSourceWord_watermark_range (h : 0x3FFF < w.toNat ∨ ((s.record i).state ≠ .off ∧ (s.record i).length ≤ w)) :
    writeSourceWord i 2 w s = .error .range :=
  if_pos h

theorem writeSourceWord_startLevel (hw : w.toNat ≤ 0x3FFF)
    (hl : (s.record i).state = .off ∨ (1 ≤ w.toNat ∧ w ≤ (s.record i).length)) :
    writeSourceWord i 3 w s = .ok (s.setRecord i { s.record i with startLevel := w }) := by
  have h : ¬ (0x3FFF < w.toNat ∨ ((s.record i).state ≠ .off ∧ (w = 0 ∨ (s.record i).length < w))) := by
    rintro (h | ⟨ho, h⟩)
    · omega
    · obtain ⟨h1, h2⟩ := hl.resolve_left ho
      obtain rfl | h := h
      · simp at h1
      · exact BitVec.not_le.mpr h h2
  exact if_neg h

theorem writeSourceWord_startLevel_range
    (h : 0x3FFF < w.toNat ∨ ((s.record i).state ≠ .off ∧ (w = 0 ∨ (s.record i).length < w))) :
    writeSourceWord i 3 w s = .error .range :=
  if_pos h

theorem writeSourceWord_policy {p : Policy} (h : policyOf w = some p) :
    writeSourceWord i 4 w s = .ok (s.setRecord i { s.record i with policy := p }) := by
  simp only [writeSourceWord, h]

theorem policyOf_none (h : 2 < w.toNat) : policyOf w = none := by
  unfold policyOf
  split
  case h_4 => rfl
  all_goals omega

theorem writeSourceWord_policy_range (h : policyOf w = none) : writeSourceWord i 4 w s = .error .range := by
  simp only [writeSourceWord, h]

theorem writeSourceWord_keyEn (h : w.toNat ≤ 1) :
    writeSourceWord i 6 w s = .ok (s.setRecord i { s.record i with keyEn := w.getLsbD 0 }) :=
  if_neg (Nat.not_lt.mpr h)

theorem writeSourceWord_keyEn_range (h : 1 < w.toNat) : writeSourceWord i 6 w s = .error .range :=
  if_pos h

/-- The words with status fields, and those with no field. -/
theorem writeSourceWord_readOnly {k : Nat} (h : 8 ≤ k) : writeSourceWord i k w s = .error .readOnly := by
  obtain ⟨k, rfl⟩ := Nat.exists_eq_add_of_le' h
  rfl

/-- An accepted WATERMARK of an open source that is not closed (R22). -/
theorem State.setWatermark_feeding (hf : (s.record i).state.feeding = true) : s.setWatermark i w =
    (s.setRecord i { s.record i with
      watermark := w, armed := (s.record i).armed || decide (w < (s.record i).occupancy) }).handCheck i :=
  if_pos hf

/-- A WATERMARK of a source in OFF or DRAINING changes only the field (R22). -/
theorem State.setWatermark_notFeeding (hf : (s.record i).state = .off ∨ (s.record i).state = .draining) :
    s.setWatermark i w = s.setRecord i { s.record i with watermark := w } :=
  if_neg (SourceState.not_feeding_iff.mpr hf)

end Words

/-- Settles O30, word by word of the record. -/
theorem sourcePolicyWrites : Obligations.SourcePolicyWrites := by
  intro i w s hs ht r write refused
  have writes {k : Nat} {r' : SourceRec} (hk : k < 32) (h : writeSourceWord i k w s = .ok (s.setRecord i r')) : write k r' :=
    fun hx => exec_tableDataWrite_written hs ht hk hx h
  have refuses {k : Nat} (reason : Reason) (hk : k < 32) (h : writeSourceWord i k w s = .error reason) : refused k reason.code :=
    fun hx => exec_tableDataWrite_refused hs ht hk hx h
  refine ⟨?_, ?_, ?_, fun h => ?_, ?_, ?_, ?_, fun h => ?_, ?_, fun k h8 hk => ?_⟩
  · rintro rfl; exact writes (by omega) (writeSourceWord_policy rfl)
  · rintro rfl; exact writes (by omega) (writeSourceWord_policy rfl)
  · rintro rfl; exact writes (by omega) (writeSourceWord_policy rfl)
  · exact refuses .range (by omega) (writeSourceWord_policy_range (policyOf_none h))
  · exact writes (by omega) rfl
  · rintro rfl; exact writes (by omega) (writeSourceWord_keyEn (by decide))
  · rintro rfl; exact writes (by omega) (writeSourceWord_keyEn (by decide))
  · exact refuses .range (by omega) (writeSourceWord_keyEn_range h)
  · exact writes (by omega) rfl
  · exact refuses .readOnly hk (writeSourceWord_readOnly h8)

/-- Settles O29, word by word of the record and check by check. -/
theorem sourceGeometryWrites : Obligations.SourceGeometryWrites := by
  intro i w s hs ht r write refused
  have writes {k : Nat} {r' : SourceRec} (hk : k < 32) (h : writeSourceWord i k w s = .ok (s.setRecord i r')) : write k r' [] := by
    intro hx
    rw [exec_tableDataWrite_written hs ht hk hx h, List.append_nil]
    rfl
  have refuses {k : Nat} (reason : Reason) (hk : k < 32) (h : writeSourceWord i k w s = .error reason) : refused k reason.code :=
    fun hx => exec_tableDataWrite_refused hs ht hk hx h
  refine ⟨fun ho => ?stateCheck, fun ho hw => ?base, fun ho hw => ?baseRange, fun ho hw => ?length, fun ho hw => ?lengthRange,
    fun hw hst => ?markField, fun hw hst hl => ?mark, fun h => ?markRange, fun hw hl => ?start, fun h => ?startRange⟩
  case stateCheck =>
    obtain ⟨h0, h1⟩ := writeSourceWord_notOff (w := w) ho
    exact ⟨refuses .sourceNotOff (by omega) h0, refuses .sourceNotOff (by omega) h1⟩
  case base => exact writes (by omega) (writeSourceWord_base ho hw)
  case baseRange => exact refuses .range (by omega) (writeSourceWord_base_range ho hw)
  case length => exact writes (by omega) (writeSourceWord_length ho hw)
  case lengthRange => exact refuses .range (by omega) (writeSourceWord_length_range ho hw)
  case markField =>
    refine writes (by omega) ((writeSourceWord_watermark hw (hst.imp_right And.right)).trans ?_)
    rw [State.setWatermark_notFeeding (hst.imp_right And.left)]
  case mark =>
    intro hx
    have hset := State.setWatermark_feeding (w := w) (SourceState.feeding_iff.mpr hst)
    rw [exec_tableDataWrite_written hs ht (by omega) hx (writeSourceWord_watermark hw (.inr hl)), hset]
    rfl
  case markRange => exact refuses .range (by omega) (writeSourceWord_watermark_range h)
  case start => exact writes (by omega) (writeSourceWord_startLevel hw hl)
  case startRange => exact refuses .range (by omega) (writeSourceWord_startLevel_range h)

end Sys2Proof.Machine
end

section
/-! SUPPORT. The refill queue: every step keeps its law, what a watermark check and a pop come to, and the queue, the interrupt unit and
the commit controller after either reset (R49, R53, R57, R59, R105, R180). -/

namespace Sys2Proof.Machine

/-! ### The size of the queue -/

/-- Records of distinct sources are at most as many as the sources (R49). -/
theorem State.RefillLawful.length_le {s : State} (hs : s.RefillLawful) : s.refill.records.length ≤ 24 := by
  have h := hs.distinct.length_le_card
  rwa [List.length_map, Fintype.card_fin] at h

/-! ### Accesses, events and compositions keep the law of the queue -/

theorem State.RefillLawful.ofEmpty {s : State} (h : s.refill.records = []) : s.RefillLawful :=
  ⟨by simp [h], by simp [h]⟩

theorem State.RefillLawful.resetRelease {s : State} (hs : s.RefillLawful) : s.resetRelease.RefillLawful := by
  unfold State.resetRelease
  split
  · exact hs.same rfl rfl
  · exact hs

theorem State.startRun_refill (s : State) : s.startRun.refill = s.refill := by
  unfold State.startRun State.composeFirst
  simp

theorem State.startRequest_refill (s : State) (w : Word) : (s.startRequest w).refill = s.refill := by
  obtain ⟨-, h⟩ | ⟨-, -, h⟩ | ⟨-, -, h⟩ := s.startRequest_cases w <;> rw [h]
  · exact s.refuseRun_refill w
  · exact State.startRun_refill _

theorem State.startEdge_refill (s : State) : s.startEdge.refill = s.refill := by
  obtain ⟨-, h⟩ | ⟨-, h⟩ := s.startEdge_cases <;> rw [h]
  exact s.startRun_refill

theorem State.RefillLawful.tableDataWrite {s : State} (hs : s.RefillLawful) (w : Word) : (s.tableDataWrite w).RefillLawful := by
  obtain ⟨a, b, h⟩ | ⟨pt, -, -, -, h⟩ | ⟨t, -, ht, h⟩ := s.tableDataWrite_cases w <;> rw [h]
  · exact hs.same (by simp) (by simp)
  · exact hs.same rfl rfl
  · exact (hs.writeSourceWord ht).same rfl rfl

/-- Of the accesses only a pop, an append, a source command, a table write and a soft reset reach the queue or a source's state. -/
theorem State.RefillLawful.carryOut {s : State} (hs : s.RefillLawful) (h : HostAccess) : (s.carryOut h).RefillLawful := by
  apply State.carryOut_keeps (P := State.RefillLawful) s h
  case pop => exact hs.pop
  case append => exact hs.append
  case command => exact fun w => hs.srcCmd _ _
  case dataWrite => exact hs.tableDataWrite
  case softReset => exact .ofEmpty rfl
  case appendSrc => exact fun w => hs.congr rfl rfl
  case start => exact fun w => hs.same (s.startRequest_refill w) (s.startRequest_sources w)
  all_goals intros; exact hs.same (by simp) (by simp)

theorem keptPieces_refill : KeptPieces State.RefillLawful where
  carryOut _ h hs := hs.carryOut h
  port _ _ hs := hs.same rfl rfl
  window _ _ _ _ hs := hs.same rfl rfl
  advanceIndex _ hs := hs.same rfl rfl
  takeCheck _ i hs := hs.takeCheck i
  tick _ hs := hs.same (by simp) (by simp)
  tsyncEdge _ hs := hs.same (by simp) (by simp)
  validationEnd _ hs := hs.same (by simp) (by simp)
  copyBack _ _ hs := hs.same rfl rfl

theorem keptCompose_refill : KeptCompose State.RefillLawful State.RefillLawful where
  events := keptPieces_refill.events
  openCell _ _ _ hs := hs.same (by simp) (by simp)
  setLookahead _ _ _ _ hs := hs.same rfl rfl
  consult _ i hs := hs.consult i
  close _ _ _ hs := hs.same rfl rfl

theorem State.RefillLawful.firstBit {s : State} (hs : s.RefillLawful) (gaps : List CellGap) (reading : Bool) :
    (s.firstBit gaps reading).RefillLawful :=
  keptCompose_refill.firstBit (fun _ h => h) (fun _ _ _ _ _ h => h.same rfl rfl) (fun _ _ h => h.same (by simp) (by simp))
    (fun _ h => h.same (by simp) (by simp)) (fun _ h => h.same rfl rfl) s gaps reading hs

theorem kept_refill : Kept State.RefillLawful where
  pending _ _ hs := hs.same rfl rfl
  settle := keptPieces_refill.settle
  hold s h _ _ _ := keptPieces_refill.hold s h
  wait s x h _ _ := keptPieces_refill.waitBehind s x h
  carryOut s h _ _ := keptPieces_refill.carryOut s h
  hardwareReset _ _ _ := .ofEmpty rfl
  resetRelease _ hs := hs.resetRelease
  takeCheck _ i hs := hs.takeCheck i
  startEdge s hs := hs.same s.startEdge_refill s.startEdge_sources
  stoppingEnd _ hs := hs.same (by simp) (by simp)
  clockLossExpiry _ hs := hs.same (by simp) (by simp)
  bclkiRisingEdge _ hs := hs.same (by simp) (by simp)
  bitPeriodStart _ hs := hs.same (by simp) (by simp)
  firstBit _ gaps reading _ hs := hs.firstBit gaps reading
  validationEnd _ hs := hs.same (by simp) (by simp)
  copyBackEnd s _ := keptPieces_refill.copyBackEnd s
  tick _ hs := hs.same (by simp) (by simp)
  tsyncEdge _ hs := hs.same (by simp) (by simp)
  divider _ _ hs := hs.same rfl rfl
  elapsed _ _ hs := hs.same rfl rfl
  lossTimer _ _ hs := hs.same rfl rfl
  halfCount _ _ hs := hs.same rfl rfl
  rise _ hs := hs.same rfl rfl

/-- Settles O55: what every access and every event keeps, every step keeps, and a lawful queue is short. -/
theorem stepKeepsRefillQueue : Obligations.StepKeepsRefillQueue := by
  intro s t hs h
  have ht : t.RefillLawful := kept_refill.step hs h
  exact ⟨ht, ht.length_le⟩

/-! ### A watermark check that is taken (R53) -/

/-- A check of source `i` inserts a LOW record. -/
def State.checkDue (s : State) (i : SourceId) : Prop :=
  (s.record i).state.feeding = true ∧ (s.record i).armed = true ∧ s.queued i = false
    ∧ (s.record i).occupancy ≤ (s.record i).watermark

theorem State.checkDue_iff {s : State} {i : SourceId} : s.checkDue i ↔
    ((s.record i).state = .priming ∨ (s.record i).state = .live ∨ (s.record i).state = .starved) ∧ (s.record i).armed = true
      ∧ (∀ q ∈ s.refill.records, q.source ≠ i) ∧ (s.record i).occupancy ≤ (s.record i).watermark := by
  rw [State.checkDue, SourceState.feeding_iff, State.queued_eq_false_iff]

theorem State.watermarkCheck_due {s : State} {i : SourceId} (h : s.checkDue i) :
    s.watermarkCheck i = (s.insertRecord i .low).setRecord i { s.record i with armed := false } := if_pos h

theorem State.watermarkCheck_notDue {s : State} {i : SourceId} (h : ¬ s.checkDue i) : s.watermarkCheck i = s := if_neg h

theorem State.takeCheck_outstanding {s : State} {i : SourceId} (h : i ∈ s.refill.checks) : s.takeCheck i =
    State.watermarkCheck { s with refill := { s.refill with checks := s.refill.checks.erase i } } i := if_pos (by simpa using h)

theorem State.takeCheck_notOutstanding {s : State} {i : SourceId} (h : i ∉ s.refill.checks) : s.takeCheck i = s :=
  if_neg (by simpa using h)

theorem exec_watermarkCheck {s : State} (hs : s.settled) (i : SourceId) : exec (.watermarkCheck i) s = .next (s.takeCheck i) :=
  congrArg Host.Outcome.next (State.outOfReset_settled hs _)

/-- Settles O25, by whether a check is outstanding and whether it is due. -/
theorem watermarkCheckResult : Obligations.WatermarkCheckResult := by
  intro i s hs r low
  have due_iff : State.checkDue { s with refill := { s.refill with checks := s.refill.checks.erase i } } i ↔ low := State.checkDue_iff
  rw [exec_watermarkCheck hs]
  refine ⟨fun hi hlow => ?due, fun hi hlow => ?notDue, fun hi => ?noCheck⟩
  case due =>
    rw [State.takeCheck_outstanding hi, State.watermarkCheck_due (due_iff.mpr hlow)]
    simp only [State.insertRecord, LinkState.inRun_iff]
    rfl
  case notDue => rw [State.takeCheck_outstanding hi, State.watermarkCheck_notDue (mt due_iff.mp hlow)]
  case noCheck => rw [State.takeCheck_notOutstanding hi]

/-! ### A pop (R57) -/

theorem exec_refillPop {s : State} (hs : s.ready) (w : Word) : exec (.refillPop w) s = .next s.pop :=
  congrArg Host.Outcome.next (State.takeAccess_ready hs _ _)

theorem State.pop_of_empty {s : State} (h : s.refill.records = []) : s.pop = s := by
  rw [State.pop, h, List.tail_nil, ← h]

theorem State.pop_of_cons {s : State} {q : RefillRec} {rest : List RefillRec} (h : s.refill.records = q :: rest) :
    s.pop = { s with refill := { s.refill with records := rest } } := by
  rw [State.pop, h, List.tail_cons]

/-- The popped source has no second record, so it is no longer QUEUED (R49, R57). -/
theorem State.RefillLawful.pop_not_queued {s : State} (hs : s.RefillLawful) {q : RefillRec} {rest : List RefillRec}
    (h : s.refill.records = q :: rest) : s.pop.queued q.source = false := by
  have hd := hs.distinct
  rw [h, List.map_cons, List.nodup_cons] at hd
  rw [State.pop_of_cons h, State.queued_eq_false_iff]
  exact fun r hr e => hd.1 (List.mem_map.mpr ⟨r, hr, e⟩)

/-- Settles O26, by whether the queue holds a record. -/
theorem popRemovesHead : Obligations.PopRemovesHead := by
  intro w s hs hl
  rw [exec_refillPop hs]
  refine ⟨rfl, fun h => ?empty, fun q rest h => ?cons⟩
  case empty => rw [State.pop_of_empty h]
  case cons => exact ⟨s.pop, rfl, State.pop_of_cons h, hl.pop_not_queued h⟩

/-! ### Three blocks after either reset (R59, R105, R180) -/

/-- The refill queue's registers read as empty, and no source is QUEUED or ARMED (R59). -/
theorem State.refill_of_reset {t : State} (hq : t.refill = RefillQueue.reset) (hs : t.sources = SourceUnit.reset) :
    t.registerView 0x2A = 0 ∧ t.registerView 0x26 = 0x00FF ∧ t.registerView 0x28 = 0
      ∧ ∀ i : SourceId, t.queued i = false ∧ (t.record i).armed = false := by
  have hrec (i : SourceId) : t.record i = SourceRec.reset := by
    rw [State.record, hs]
    exact Vector.getElem_replicate i.isLt
  simp only [State.registerView, State.queued, hq, hrec]
  exact ⟨rfl, rfl, rfl, fun _ => ⟨rfl, rfl⟩⟩

/-- Every word of the default plan is its table's default (R8, R76, R82). -/
theorem Bank.word_default (t : PlanTable) (e : Nat) : Bank.default.word t e = planDefault t e := by
  cases t <;> rfl

theorem Bank.groupFirst_default (g : Nat) : Bank.default.groupFirst g = 0 := by
  simp [Bank.groupFirst, Bank.word_default, planDefault]

theorem Bank.groupDepth_default (g : Nat) : Bank.default.groupDepth g = 2 := by
  simp [Bank.groupDepth, Bank.word_default, planDefault, Nat.add_mod]

/-- Either reset, taken, leaves the source unit, the refill queue, the commit controller and the interrupt unit at their reset values
(R24, R59, R105, R180). -/
theorem exec_reset {c : Instr} {s : State} (h : (∃ b, c = .hardwareReset b) ∨ (s.ready ∧ ∃ w, c = .softReset w)) :
    ∃ t, exec c s = .next t ∧ t.sources = SourceUnit.reset ∧ t.refill = RefillQueue.reset ∧ t.commit = Commit.reset
      ∧ t.irq = Interrupts.reset := by
  obtain ⟨b, rfl⟩ | ⟨hs, w, rfl⟩ := h
  · exact ⟨s.hardwareReset b, rfl, rfl, rfl, rfl, rfl⟩
  · exact ⟨s.softReset, congrArg Host.Outcome.next (State.takeAccess_ready hs _ _), rfl, rfl, rfl, rfl⟩

/-- Settles O8, block by block. -/
theorem blocksAfterEitherReset : Obligations.BlocksAfterEitherReset := by
  intro c s h
  obtain ⟨t, ht, hsources, hrefill, hcommit, hirq⟩ := exec_reset h
  refine ⟨t, ht, State.refill_of_reset hrefill hsources, ?irq, ?commit⟩
  case irq => rw [hirq]; exact ⟨rfl, rfl, rfl, rfl, rfl, rfl, rfl⟩
  case commit =>
    rw [hcommit]
    refine ⟨rfl, rfl, rfl, rfl, rfl, fun b hb => ?_⟩
    obtain rfl : b = Bank.default := by simpa [Commit.reset] using hb
    exact ⟨⟨rfl, rfl, rfl, rfl, rfl, rfl, rfl, rfl, rfl, rfl⟩,
      fun e => ⟨Bank.word_default .map e, Bank.word_default .row e, Bank.word_default .window e⟩,
      fun g => ⟨Bank.groupFirst_default g, Bank.groupDepth_default g⟩⟩

end Sys2Proof.Machine
end

section
/-! SUPPORT. The base layer of a cell: the entry that decides it, what falls before the layer, and what each kind of entry places (R66 … R70,
R155). -/

namespace Sys2Proof.Machine

/-! ### The base entry (R66, R190) -/

/-- The base entry is made of two words: the map entry's, or the pool entry's that a SUBCOM column selects for the row. -/
theorem Bank.baseEntry_eq_entryOf (b : Bank) (m c : Nat) :
    let pooled := b.groupFirst (b.word .map (2 * c + 1)).toNat + m % b.groupDepth (b.word .map (2 * c + 1)).toNat
    b.baseEntry m c = entryOf (if b.word .map (2 * c) = 2 then b.word .row (2 * pooled) else b.word .map (2 * c))
      (if b.word .map (2 * c) = 2 then b.word .row (2 * pooled + 1) else b.word .map (2 * c + 1)) := by
  rw [Bank.baseEntry_eq]
  split <;> rfl

theorem entryOf_direct_iff (k a src : Word) : entryOf k a = .direct src ↔ k = 1 ∧ a = src := by
  rw [show (1 : Word) = BitVec.ofNat 16 1 from rfl, word_eq_iff k (by omega)]
  unfold entryOf
  split <;> simp_all

/-- Only a DIRECT entry reads the buffer (R67 … R70). -/
theorem Entry.reads_of_not_direct {e : Entry} (h : ∀ src, e ≠ .direct src) : e.reads = fun _ => false := by
  cases e
  case direct src => exact absurd rfl (h src)
  all_goals rfl

/-- The number of a source names that source. -/
theorem sourceId_of_eq {n : Nat} {i : SourceId} (h : n = i.val) : sourceId n = i := by
  rw [h]
  exact Fin.ofNat_val_eq_self i

theorem Entry.reads_direct {src : Word} {i : SourceId} (h : src.toNat = i.val) :
    (Entry.direct src).reads = fun s => s.consultReads i :=
  funext fun s => congrArg s.consultReads (sourceId_of_eq h)

/-! ### The base layer is reached (R66) -/

section
variable {m c : Nat} {f : CellFlow} {e : Entry}

/-- The run is over before the base layer: nothing is placed. -/
theorem resolveLayers_base_stopped (he : f.state.commit.active.baseEntry m c = e) (h : (f.toConsult e.reads).composing = false)
    (handed : List SourceId) : resolveLayers m c [] handed f = { flow := f.toConsult e.reads, placed := none } := by
  subst he
  exact if_neg (Bool.eq_false_iff.mp h)

/-- Composition comes to the base layer: the base entry decides the cell. -/
theorem resolveLayers_base_reached (he : f.state.commit.active.baseEntry m c = e) (h : (f.toConsult e.reads).composing = true)
    (handed : List SourceId) : resolveLayers m c [] handed f = (f.toConsult e.reads).base e handed := by
  subst he
  exact if_pos h

end

/-! ### What a DIRECT entry places (R67, R71) -/

section
variable {f : CellFlow} {src : Word} {i : SourceId} (hi : src.toNat = i.val)
include hi

theorem CellFlow.base_direct_of_deliver {w : Word} (h : (f.state.consult i).outcome = .deliver w) (handed : List SourceId) :
    f.base (.direct src) handed = { flow := f.consult i, placed := some (w, true) } := by
  simp only [CellFlow.base, sourceId_of_eq hi, h]

theorem CellFlow.base_direct_of_nothing {reason : NoneReason} (h : (f.state.consult i).outcome = .nothing reason) (handed : List SourceId) :
    f.base (.direct src) handed = { flow := f.consult i, placed := some (f.state.commit.active.idle, false) } := by
  simp only [CellFlow.base, sourceId_of_eq hi, h]

end

/-- Settles O51: a DIRECT entry by its source's answer, every other kind by the word it forms. -/
theorem baseLayerResolves : Obligations.BaseLayerResolves := by
  intro m c handed f b at_ kind arg g resolved
  have entry : b.baseEntry m c = entryOf kind arg := b.baseEntry_eq_entryOf m c
  have entry_of {k a : Word} (hk : kind = k) (ha : arg = a) : b.baseEntry m c = entryOf k a := by rw [entry, hk, ha]
  refine ⟨fun i hk hi => ?direct, fun hk hstop => ?stopped, fun hgo => ⟨fun hk => ?spare, fun hk => ?const, fun hk ha => ?timeH,
    fun hk ha => ?timeM, fun hk ha => ?timeL, fun hk => ?status⟩⟩
  case direct =>
    have he : b.baseEntry m c = .direct arg := entry_of hk rfl
    have stopped := resolveLayers_base_stopped he (handed := handed)
    have reached := resolveLayers_base_reached he (handed := handed)
    rw [Entry.reads_direct hi] at stopped reached
    exact ⟨stopped, fun w hgo h => (reached hgo).trans (CellFlow.base_direct_of_deliver hi h handed),
      fun reason hgo h => (reached hgo).trans (CellFlow.base_direct_of_nothing hi h handed)⟩
  case stopped =>
    have hreads : (entryOf kind arg).reads = fun _ => false :=
      Entry.reads_of_not_direct fun src h => hk ((entryOf_direct_iff kind arg src).mp h).1
    have stopped := resolveLayers_base_stopped entry (handed := handed)
    rw [hreads] at stopped
    exact stopped hstop
  case spare => exact resolveLayers_base_reached (e := .spare) (entry_of hk rfl) hgo handed
  case const => exact resolveLayers_base_reached (e := .const arg) (entry_of hk rfl) hgo handed
  case timeH => exact resolveLayers_base_reached (e := .time 0) (entry_of hk ha) hgo handed
  case timeM => exact resolveLayers_base_reached (e := .time 1) (entry_of hk ha) hgo handed
  case timeL => exact resolveLayers_base_reached (e := .time 2) (entry_of hk ha) hgo handed
  case status => exact resolveLayers_base_reached (e := .status) (entry_of hk rfl) hgo handed

end Sys2Proof.Machine
end

section
/-! SUPPORT. What falls among the consults of a cell: each event leaves what its command leaves elsewhere, and the copy-back's end frees the
access that waits (R96, R97, R119, R155, R157, R166, R174). -/

namespace Sys2Proof.Machine

/-! ### An event of the part at once (R126, R154, R160) -/

theorem exec_tick {s : State} (hs : s.settled) : exec .tick s = .next s.tick :=
  congrArg Host.Outcome.next (State.outOfReset_settled hs _)

theorem exec_tsyncEdge {s : State} (hs : s.settled) : exec .tsyncEdge s = .next s.tsyncEdge :=
  congrArg Host.Outcome.next (State.outOfReset_settled hs _)

theorem exec_validationEnd {s : State} (hs : s.settled) : exec .validationEnd s = .next s.validationEnd :=
  congrArg Host.Outcome.next (State.outOfReset_settled hs _)

theorem exec_copyBackEnd {s : State} (hs : s.settled) : exec .copyBackEnd s = .next s.copyBackEnd :=
  congrArg Host.Outcome.next (State.outOfReset_settled hs _)

/-! ### The end of a copy-back (R119) -/

theorem State.copyBackEnd_syncing {s : State} (h : s.commit.state = .syncing) : s.copyBackEnd = s.copyBack.releaseRead.releaseWaiting := by
  simp only [State.copyBackEnd, h]

theorem State.releaseRead_of_none {s : State} (h : s.window.held = none) : s.releaseRead = s := by
  simp only [State.releaseRead, h]

theorem State.releaseRead_of_held {s : State} {x : HeldAccess} (h : s.window.held = some x) :
    let answered := State.answerTableRead { s with window := { s.window with held := none } }
    s.releaseRead = if x.abandoned then answered.undelivered s else answered := by
  simp only [State.releaseRead, h]

theorem State.releaseRead_waiting (s : State) : s.releaseRead.window.waiting = s.window.waiting := by
  cases h : s.window.held with
  | none => rw [State.releaseRead_of_none h]
  | some x => rw [State.releaseRead_of_held h]; cases x.abandoned <;> rfl

/-- The release of a held read does not look at the access that waits behind it. -/
theorem State.releaseRead_waiting_none (s : State) :
    State.releaseRead { s with window := { s.window with waiting := none } }
      = { s.releaseRead with window := { s.releaseRead.window with waiting := none } } := by
  cases h : s.window.held with
  | none => rw [State.releaseRead_of_none h, State.releaseRead_of_none (by exact h)]
  | some x => rw [State.releaseRead_of_held h, State.releaseRead_of_held (by exact h)]; cases x.abandoned <;> rfl

theorem State.releaseWaiting_of_none {s : State} (h : s.window.waiting = none) : s.releaseWaiting = s := by
  simp only [State.releaseWaiting, h]

/-- With no access waiting, the end of the copy-back frees the held read alone. -/
theorem exec_copyBackEnd_of_none {s : State} (hs : s.settled) (hsync : s.commit.state = .syncing) (hw : s.window.waiting = none) :
    exec .copyBackEnd s = .next s.copyBack.releaseRead := by
  rw [exec_copyBackEnd hs, State.copyBackEnd_syncing hsync, State.releaseWaiting_of_none (s.copyBack.releaseRead_waiting.trans hw)]

/-! ### The composition after an event (R138, R139, R142) -/

/-- Composition goes on, and the port stays with its requester, as long as the run does (R123). -/
theorem CellFlow.after_eq (f : CellFlow) (t : State) : f.after t =
    { f with
      state := t
      ended := if t.downlink.link = .running ∨ t.downlink.link = .stopping then f.ended else none
      composing := f.composing && decide (t.downlink.link = .running ∨ t.downlink.link = .stopping) } := by
  unfold CellFlow.after
  cases t.downlink.link <;> rfl

/-- With none waiting for the port, an access that needs no port, or comes behind a held read, is its command (R157, R158). -/
theorem CellFlow.event_access_of_command {f : CellFlow} {c : Instr} {h : HostAccess} {t : State} (hc : accessOf c = some h)
    (hd : f.deferred = []) (hport : h.portUse = none ∨ f.state.window.held ≠ none) (ht : exec c f.state = .next t) :
    f.event (.access h) = f.after t := by
  obtain rfl : f.state.access h = t := Host.Outcome.next.inj ((exec_of_access hc f.state).symm.trans ht)
  show f.host h = _
  unfold CellFlow.host
  rw [if_neg (not_not.mpr hd)]
  split
  · next hp hh => exact absurd hport (by simp [hp, hh])
  · rfl

/-- Behind an access that waits for the port, the next one waits too (R157). -/
theorem CellFlow.event_access_of_deferred {f : CellFlow} (hd : f.deferred ≠ []) (h : HostAccess) :
    f.event (.access h) = { f with deferred := f.deferred ++ [h] } := if_pos hd

/-- Out of SYNCING no copy-back ends (R119; log entry 6). -/
theorem CellFlow.event_copyBackEnd_idle {f : CellFlow} (h : f.state.commit.state ≠ .syncing) : f.event .copyBackEnd = f := by
  simp only [CellFlow.event]
  split
  · next hsync => exact absurd hsync h
  all_goals rfl

theorem CellFlow.event_copyBackEnd_syncing {f : CellFlow} (h : f.state.commit.state = .syncing) :
    f.event .copyBackEnd = f.release f.state.copyBack.releaseRead := by
  simp only [CellFlow.event, h]

theorem CellFlow.release_of_none {t : State} (h : t.window.waiting = none) (f : CellFlow) : f.release t = f.after t := by
  simp only [CellFlow.release, h]

/-- The access that waited falls next, by the arbiter's rules (R119, R158). -/
theorem CellFlow.release_of_waiting {t : State} {h : HostAccess} (hw : t.window.waiting = some h) (f : CellFlow) :
    f.release t = (f.after { t with window := { t.window with waiting := none } }).event (.access h) := by
  simp only [CellFlow.release, hw]
  rfl

/-- What is left at the composition's end: the accesses that wait, and then gap by gap the events and the access tied to the consult. -/
theorem CellFlow.finish_eq (f : CellFlow) : f.finish = CellFlow.events { f with gaps := [], deferred := [], composing := false }
    (f.deferred.map CellEvent.access
      ++ f.gaps.flatMap (fun gap => gap.events ++ (gap.tied.map (fun p => CellEvent.access p.bus)).toList)) := by
  have htied (gap : CellGap) : (gap.tied.map PortAccess.bus).toList.map CellEvent.access
      = (gap.tied.map (fun p => CellEvent.access p.bus)).toList := by
    cases gap.tied <;> rfl
  simp only [CellFlow.finish, htied]

/-- Settles O49, event by event. -/
theorem eventsAmongConsults : Obligations.EventsAmongConsults := by
  intro f hs after
  have hafter : after = f.after := funext fun t => (f.after_eq t).symm
  have fell {c : Instr} {t u : State} (hu : exec c f.state = .next u) (ht : exec c f.state = .next t) : f.after u = after t := by
    rw [hafter, Host.Outcome.next.inj (hu.symm.trans ht)]
  refine ⟨fun c h t hc hd hport ht => ?access, fun h hd => CellFlow.event_access_of_deferred hd h,
    fun i t => fell (exec_watermarkCheck hs i), fun t => fell (exec_tick hs), fun t => fell (exec_tsyncEdge hs),
    fun t => fell (exec_validationEnd hs), CellFlow.event_copyBackEnd_idle, fun t hsync hw ht => ?copied,
    fun h t hsync hw ht => ?released, fun e es => ⟨rfl, rfl⟩, fun reading => ?closed⟩
  case access => exact (CellFlow.event_access_of_command hc hd hport ht).trans (congrFun hafter t).symm
  case copied =>
    rw [CellFlow.event_copyBackEnd_syncing hsync,
      CellFlow.release_of_none ((State.releaseRead_waiting f.state.copyBack).trans hw)]
    exact fell (exec_copyBackEnd_of_none hs hsync hw) ht
  case released =>
    have hfree : State.releaseRead (State.copyBack { f.state with window := { f.state.window with waiting := none } }) = t := by
      rw [exec_copyBackEnd_of_none (by exact hs) (by exact hsync) rfl] at ht
      exact Host.Outcome.next.inj ht
    rw [CellFlow.event_copyBackEnd_syncing hsync,
      CellFlow.release_of_waiting ((State.releaseRead_waiting f.state.copyBack).trans hw), ← State.releaseRead_waiting_none,
      hafter, ← hfree]
    rfl
  case closed =>
    intro left g
    rw [CellFlow.close, CellFlow.finish_eq]

end Sys2Proof.Machine
end

section
/-! SUPPORT. The window layers of a cell: which windows they are, what falls before a layer's consult, and what the consult's outcome makes of
the cell (R84 … R87). -/

namespace Sys2Proof.Machine

/-! ### The layers (R84) -/

theorem Bank.windowLayers_descending (b : Bank) (m c : Nat) : (b.windowLayers m c).Pairwise (fun k j => j < k) :=
  List.Pairwise.filter _ (by decide)

theorem Bank.winCovers_iff (b : Bank) (k m c : Nat) : b.winCovers k m c = true ↔
    b.winTop k ≤ m ∧ m ≤ b.winBottom k ∧ b.winLeft k ≤ c ∧ c ≤ b.winRight k := decide_eq_true_iff

theorem Bank.mem_windowLayers_iff (b : Bank) (m c k : Nat) : k ∈ b.windowLayers m c ↔
    k < 4 ∧ b.winEnabled k = true ∧ b.winTop k ≤ m ∧ m ≤ b.winBottom k ∧ b.winLeft k ≤ c ∧ c ≤ b.winRight k := by
  have hnumber : k ∈ [3, 2, 1, 0] ↔ k < 4 := by
    simp only [List.mem_cons, List.not_mem_nil, or_false]
    omega
  rw [Bank.windowLayers, List.mem_filter, hnumber, Bool.and_eq_true, Bank.winCovers_iff]

/-! ### What falls before a consult (R96, R97, R165) -/

/-- With no gap left, only the accesses that wait fall before the consult. -/
theorem CellFlow.toConsult_of_no_gap {f : CellFlow} (hg : f.gaps = []) (reads : State → Bool) :
    f.toConsult reads = CellFlow.events { f with deferred := [] } (f.deferred.map CellEvent.access) := by
  simp only [CellFlow.toConsult, hg, List.headD_nil, List.tail_nil, List.append_nil]

section
variable {f : CellFlow} {gap : CellGap} {rest : List CellGap} (hg : f.gaps = gap :: rest)
include hg

/-- The next gap holds no access tied to the consult. -/
theorem CellFlow.toConsult_untied (htied : gap.tied = none) (reads : State → Bool) : f.toConsult reads =
    CellFlow.events { f with gaps := rest, deferred := [] } (f.deferred.map CellEvent.access ++ gap.events) := by
  simp only [CellFlow.toConsult, hg, List.headD_cons, List.tail_cons, htied]

/-- The access tied to the consult asks for the port as the consult does. -/
theorem CellFlow.toConsult_tied {p : PortAccess} (htied : gap.tied = some p) (reads : State → Bool) :
    let g := CellFlow.events { f with gaps := rest, deferred := [] } (f.deferred.map CellEvent.access ++ gap.events)
    f.toConsult reads = g.tie (reads g.state) p := by
  simp only [CellFlow.toConsult, hg, List.headD_cons, List.tail_cons, htied]

end

/-! ### Which consults read the buffer (R36, R40, R41) -/

/-- LIVE with a word; PRIMING or STARVED at START_LEVEL with a word; DRAINING. -/
theorem State.consultReads_iff (s : State) (i : SourceId) : s.consultReads i = true ↔
    ((s.record i).state = .live ∧ (s.record i).occupancy ≠ 0)
      ∨ (((s.record i).state = .priming ∨ (s.record i).state = .starved) ∧ (s.record i).startLevel ≤ (s.record i).occupancy
        ∧ (s.record i).occupancy ≠ 0)
      ∨ (s.record i).state = .draining := by
  cases h : (s.record i).state <;> simp [State.consultReads, h]

/-! ### A window layer (R85 … R87) -/

section
variable {m c k : Nat} {below : List Nat} {handed : List SourceId} {i : SourceId} {f g : CellFlow}
  (hi : f.state.commit.active.winSource k = i.val) (hg : f.toConsult (fun s => s.consultReads i) = g)
include hi hg

/-- The run is over before the layer's consult: nothing is placed. -/
theorem resolveLayers_window_stopped (h : g.composing = false) :
    resolveLayers m c (k :: below) handed f = { flow := g, placed := none } := by
  simp only [resolveLayers, sourceId_of_eq hi, hg, h, Bool.false_eq_true, if_false]

/-- A delivered word decides the cell (R85). -/
theorem resolveLayers_window_deliver (h : g.composing = true) {w : Word} (hw : (g.state.consult i).outcome = .deliver w) :
    resolveLayers m c (k :: below) handed f = { flow := g.consult i, placed := some (w, true) } := by
  simp only [resolveLayers, sourceId_of_eq hi, hg, h, hw, if_true]

/-- An OPAQUE window without a word places BLANK (R86). -/
theorem resolveLayers_window_opaque (h : g.composing = true) {reason : NoneReason} (hn : (g.state.consult i).outcome = .nothing reason)
    (ho : f.state.commit.active.winOpaque k = true) : resolveLayers m c (k :: below) handed f =
      { flow := g.consult i, placed := some (f.state.commit.active.winBlank k, false) } := by
  simp only [resolveLayers, sourceId_of_eq hi, hg, h, hn, ho, if_true]

/-- A TRANSPARENT window without a word passes resolution on (R87), and its source is listed when the consult handed over a check. -/
theorem resolveLayers_window_transparent (h : g.composing = true) {reason : NoneReason}
    (hn : (g.state.consult i).outcome = .nothing reason) (ho : f.state.commit.active.winOpaque k = false) :
    resolveLayers m c (k :: below) handed f = resolveLayers m c below
      (if (g.state.consult i).state.refill.checks = g.state.refill.checks then handed else handed ++ [i]) (g.consult i) := by
  rw [resolveLayers]
  simp only [sourceId_of_eq hi, hg, h, hn, ho, if_true, Bool.false_eq_true, if_false]

end

/-- Settles O50: the layers, what falls before a consult, which consults read, and each outcome of a layer's consult. -/
theorem windowLayersResolve : Obligations.WindowLayersResolve := by
  refine ⟨fun b m c => ⟨b.windowLayers_descending m c, b.mem_windowLayers_iff m c⟩, fun f reads => ?fallen, State.consultReads_iff,
    fun m c k below handed i f hi => ?layer⟩
  case fallen =>
    exact ⟨fun hg => CellFlow.toConsult_of_no_gap hg reads, fun hg hd => CellFlow.toConsult_of_nil hg hd reads,
      fun gap rest hg => ⟨fun h => CellFlow.toConsult_untied hg h reads, fun p h => CellFlow.toConsult_tied hg h reads⟩⟩
  case layer =>
    intro b g r h resolved
    refine ⟨resolveLayers_window_stopped hi rfl, fun w hgo hw => resolveLayers_window_deliver hi rfl hgo hw,
      fun reason hgo hn ho => resolveLayers_window_opaque hi rfl hgo hn ho, fun reason hgo hn ho => ?transparent⟩
    have passes : resolved = resolveLayers m c below (if r.state.refill.checks = g.state.refill.checks then handed else handed ++ [i]) h :=
      resolveLayers_window_transparent hi rfl hgo hn ho
    refine ⟨fun hnone => by rw [passes, if_pos hnone], fun hcheck => ?_⟩
    have hne : r.state.refill.checks ≠ g.state.refill.checks := by simp [hcheck]
    rw [passes, if_neg hne]

end Sys2Proof.Machine
end

section
/-! SUPPORT. The commit controller at every step: each access, event and piece of a composition keeps an Active bank that passes validation,
PENDING only in a run, and RESULT and COMMIT_FAULT as the rules tie them to the controller's state (R101, R104, R116). -/

namespace Sys2Proof.Machine

/-! ### What keeps a run going (R123) -/

theorem State.stopEndMinor_inRun {s : State} (h : s.downlink.link.inRun = true) : s.stopEndMinor.downlink.link.inRun = true := by
  unfold State.stopEndMinor
  dsimp only
  split
  case h_1 => rfl
  case h_2 =>
    split
    · rfl
    all_goals exact h
  case h_3 armed => rw [armed] at h; cases h
  all_goals exact h

theorem State.stopEndMajor_inRun {s : State} (h : s.downlink.link.inRun = true) : s.stopEndMajor.downlink.link.inRun = true := by
  unfold State.stopEndMajor
  split
  case h_1 => rfl
  case h_2 armed => rw [armed] at h; cases h
  all_goals exact h

theorem State.clearHalt_inRun {s : State} (h : s.downlink.link.inRun = true) : s.clearHalt.downlink.link.inRun = true := by
  unfold State.clearHalt
  split
  case h_1 halted => rw [halted] at h; cases h
  all_goals exact h

theorem State.clockRegWrite_link (s : State) (r : ClockReg) (w : Word) : (s.clockRegWrite r w).downlink.link = s.downlink.link := by
  unfold State.clockRegWrite
  split
  · cases r <;> rfl
  · rw [State.refuseRegWrite_downlink]

theorem State.bitPeriodStart_link (s : State) : s.bitPeriodStart.downlink.link = s.downlink.link := by
  unfold State.bitPeriodStart
  (repeat' split) <;> rfl

theorem State.bclkiRisingEdge_link (s : State) : s.bclkiRisingEdge.downlink.link = s.downlink.link := by
  unfold State.bclkiRisingEdge
  split <;> rfl

theorem State.startEvent_link (s : State) (m : Nat) : (s.startEvent m).downlink.link = s.downlink.link := by
  rw [State.startEvent_downlink]

/-! ### The laws of the commit controller -/

/-- The two laws of the commit controller (R101, R104, R116). -/
structure State.ControllerLawful (s : State) : Prop where
  plan : s.CommitLawful
  result : s.ResultLawful

namespace State.ControllerLawful

variable {s t : State}

/-- The controller stands, and a run that goes on before goes on after. -/
theorem congr (hs : s.ControllerLawful) (hc : t.commit = s.commit)
    (hl : s.downlink.link.inRun = true → t.downlink.link.inRun = true) : t.ControllerLawful where
  plan := hs.plan.of (by rw [hc]) (fun e => by
    rw [hc] at e ⊢
    exact ⟨e, rfl, hl (hs.plan.pendingInRun e)⟩)
  result := hs.result.congr hc

theorem same (hs : s.ControllerLawful) (hc : t.commit = s.commit) (hd : t.downlink = s.downlink) : t.ControllerLawful :=
  hs.congr hc (by rw [hd]; exact id)

theorem ofReset (hc : t.commit = Commit.reset) : t.ControllerLawful where
  plan := ⟨by rw [hc]; exact Bank.validate_default, fun e => (by rw [hc] at e; cases e), fun e => (by rw [hc] at e; cases e)⟩
  result := ⟨fun _ => by rw [hc]; rfl, fun _ => by rw [hc]; rfl⟩

/-- The plans, the state, RESULT and COMMIT_FAULT stand, and so does the link. -/
theorem ofState (hs : s.ControllerLawful) (ha : t.commit.active = s.commit.active) (hg : t.commit.staging = s.commit.staging)
    (he : t.commit.state = s.commit.state) (hr : t.commit.result = s.commit.result) (hf : t.commit.fault = s.commit.fault)
    (hd : t.downlink = s.downlink) : t.ControllerLawful where
  plan := hs.plan.of ha (fun e => ⟨he ▸ e, hg, hd ▸ hs.plan.pendingInRun (he ▸ e)⟩)
  result := hs.result.of hr hf (he ▸ id)

/-! ### The operations of the controller, and the ends of a run -/

/-- Whatever became of the link, the laws hold once a pending swap is taken (R117). -/
theorem swapIfPending (hs : s.ControllerLawful) (hc : t.commit = s.commit) : t.swapIfPending.ControllerLawful where
  plan := hs.plan.swapIfPending hc
  result := (hs.result.congr hc).swapIfPending

theorem leaveRun (hs : s.ControllerLawful) (l : LinkState) : (s.leaveRun l).ControllerLawful := by
  unfold State.leaveRun
  exact hs.swapIfPending rfl

theorem cutRun (hs : s.ControllerLawful) (l : LinkState) : (s.cutRun l).ControllerLawful := by
  unfold State.cutRun State.leaveRun
  exact hs.swapIfPending rfl

theorem majorEndPoint (hs : s.ControllerLawful) : s.majorEndPoint.ControllerLawful := by
  unfold State.majorEndPoint
  exact hs.swapIfPending rfl

theorem commitCtrlWrite (hs : s.ControllerLawful) (w : Word) : (s.commitCtrlWrite w).ControllerLawful :=
  ⟨hs.plan.commitCtrlWrite w, hs.result.commitCtrlWrite w⟩

theorem validationEnd (hs : s.ControllerLawful) : s.validationEnd.ControllerLawful :=
  ⟨hs.plan.validationEnd, hs.result.validationEnd⟩

theorem copyBack (hs : s.ControllerLawful) (h : s.commit.state = .syncing) : s.copyBack.ControllerLawful :=
  ⟨hs.plan.copyBack, hs.result.copyBack h⟩

theorem openCell (hs : s.ControllerLawful) (m c : Nat) : (s.openCell m c).ControllerLawful where
  plan := hs.plan.openCell m c
  result := hs.result.of (by rw [State.openCell_commit]) (by rw [State.openCell_commit]) (by rw [State.openCell_commit]; exact id)

theorem abort (hs : s.ControllerLawful) : s.abort.ControllerLawful := by
  unfold State.abort
  split
  case h_1 => exact (hs.cutRun .stopped).same (by simp) (by simp)
  case h_2 => exact (hs.cutRun .stopped).same (by simp) (by simp)
  case h_3 armed => exact hs.congr rfl (fun e => by rw [armed] at e; cases e)
  all_goals exact hs

theorem clockLossExpiry (hs : s.ControllerLawful) : s.clockLossExpiry.ControllerLawful := by
  unfold State.clockLossExpiry
  split
  · exact (hs.cutRun .halted).same (by simp) (by simp)
  · exact hs

theorem stoppingEnd (hs : s.ControllerLawful) : s.stoppingEnd.ControllerLawful := by
  unfold State.stoppingEnd
  split
  · exact (hs.leaveRun .stopped).same (by simp) (by simp)
  · exact hs

/-- The first cell of a run takes the new-plan marker alone (R118). -/
theorem composeFirst (hs : s.ControllerLawful) : s.composeFirst.ControllerLawful := (hs.openCell 0 0).same rfl rfl

/-- As a run starts the link is RUNNING (R133). -/
theorem startRun (hs : s.ControllerLawful) : s.startRun.ControllerLawful := by
  unfold State.startRun
  exact composeFirst (hs.congr rfl fun _ => rfl)

theorem startRequest (hs : s.ControllerLawful) (w : Word) : (s.startRequest w).ControllerLawful := by
  obtain ⟨-, h⟩ | ⟨-, -, h⟩ | ⟨hl, -, h⟩ := s.startRequest_cases w <;> rw [h]
  · exact hs.same (by simp) (by simp)
  · exact startRun (hs.congr rfl id)
  · exact hs.congr rfl (fun e => by rw [hl] at e; cases e)

theorem startEdge (hs : s.ControllerLawful) : s.startEdge.ControllerLawful := by
  obtain ⟨-, h⟩ | ⟨-, h⟩ := s.startEdge_cases <;> rw [h]
  · exact hs
  · exact hs.startRun

/-- A table write reaches the Staging bank in EDIT alone (R164). -/
theorem tableDataWrite (hs : s.ControllerLawful) (w : Word) : (s.tableDataWrite w).ControllerLawful := by
  obtain ⟨a, b, h⟩ | ⟨pt, -, -, hedit, h⟩ | ⟨t, -, ht, h⟩ := s.tableDataWrite_cases w <;> rw [h]
  · exact hs.same (by simp) (by simp)
  · exact ⟨hs.plan.of rfl (fun e => CommitState.noConfusion (hedit.symm.trans e)), hs.result.of rfl rfl id⟩
  · obtain ⟨-, -, -, -, hd, -, hc, -⟩ := writeSourceWord_frame ht
    exact hs.same hc hd

theorem resetRelease (hs : s.ControllerLawful) : s.resetRelease.ControllerLawful := by
  unfold State.resetRelease
  split
  · exact hs.same rfl rfl
  · exact hs

/-- Of the accesses only the run and commit requests, a clock register, a table write and a soft reset reach the controller or the link. -/
theorem carryOut (hs : s.ControllerLawful) (h : HostAccess) : (s.carryOut h).ControllerLawful := by
  apply State.carryOut_keeps (P := State.ControllerLawful) s h
  case start => exact hs.startRequest
  case endMinor => exact hs.congr (by simp) State.stopEndMinor_inRun
  case endMajor => exact hs.congr (by simp) State.stopEndMajor_inRun
  case abort => exact hs.abort
  case clearHalt => exact hs.congr (by simp) State.clearHalt_inRun
  case clock => exact fun r w => hs.congr (by simp) (by rw [State.clockRegWrite_link]; exact id)
  case commit => exact hs.commitCtrlWrite
  case dataWrite => exact hs.tableDataWrite
  case softReset => exact .ofReset rfl
  all_goals intros; exact hs.same (by simp) (by simp)

end State.ControllerLawful

/-! ### Every step -/

theorem keptPieces_controller : KeptPieces State.ControllerLawful where
  carryOut _ h hs := hs.carryOut h
  port _ _ hs := hs.same rfl rfl
  window _ _ _ _ hs := hs.same rfl rfl
  advanceIndex _ hs := hs.same rfl rfl
  takeCheck _ _ hs := hs.same (by simp) (by simp)
  tick _ hs := hs.same (by simp) (by simp)
  tsyncEdge _ hs := hs.same (by simp) (by simp)
  validationEnd _ hs := hs.validationEnd
  copyBack _ hsync hs := hs.copyBack hsync

theorem keptCompose_controller : KeptCompose State.ControllerLawful State.ControllerLawful where
  events := keptPieces_controller.events
  openCell _ m c hs := hs.openCell m c
  setLookahead _ _ _ _ hs := hs.same rfl rfl
  consult _ _ hs := hs.same (by simp) (by simp)
  close _ _ _ hs := hs.same rfl rfl

theorem State.ControllerLawful.firstBit {s : State} (hs : s.ControllerLawful) (gaps : List CellGap) (reading : Bool) :
    (s.firstBit gaps reading).ControllerLawful :=
  keptCompose_controller.firstBit (fun _ h => h) (fun _ _ _ _ _ h => h.congr rfl id)
    (fun t m h => h.congr (by simp) (by rw [t.startEvent_link m]; exact id)) (fun _ h => h.majorEndPoint) (fun _ h => h.congr rfl id)
    s gaps reading hs

theorem kept_controller : Kept State.ControllerLawful where
  pending _ _ hs := hs.same rfl rfl
  settle := keptPieces_controller.settle
  hold s h _ _ _ := keptPieces_controller.hold s h
  wait s x h _ _ := keptPieces_controller.waitBehind s x h
  carryOut s h _ _ := keptPieces_controller.carryOut s h
  hardwareReset _ _ _ := .ofReset rfl
  resetRelease _ hs := hs.resetRelease
  takeCheck := keptPieces_controller.takeCheck
  startEdge _ hs := hs.startEdge
  stoppingEnd _ hs := hs.stoppingEnd
  clockLossExpiry _ hs := hs.clockLossExpiry
  bclkiRisingEdge s hs := hs.congr (by simp) (by rw [s.bclkiRisingEdge_link]; exact id)
  bitPeriodStart s hs := hs.congr (by simp) (by rw [s.bitPeriodStart_link]; exact id)
  firstBit _ gaps reading _ hs := hs.firstBit gaps reading
  validationEnd := keptPieces_controller.validationEnd
  copyBackEnd s _ := keptPieces_controller.copyBackEnd s
  tick := keptPieces_controller.tick
  tsyncEdge := keptPieces_controller.tsyncEdge
  divider _ _ hs := hs.same rfl rfl
  elapsed _ _ hs := hs.ofState rfl rfl rfl rfl rfl rfl
  lossTimer _ _ hs := hs.congr rfl id
  halfCount _ _ hs := hs.congr rfl id
  rise _ hs := hs.congr rfl id

/-- Settles O56: what every access and every event keeps, every step keeps. -/
theorem stepKeepsCommitController : Obligations.StepKeepsCommitController := by
  rintro s t ⟨hplan, hresult⟩ h
  have ht : t.ControllerLawful := kept_controller.step ⟨hplan, hresult⟩ h
  exact ⟨ht.plan, ht.result⟩

end Sys2Proof.Machine
end

section
/-! SUPPORT. The register window at every step: a read of TBL_DATA is held in SYNCING alone, an access to the buffer while the composer's access
is in progress alone, and an access waits behind a held read of TBL_DATA alone (R103, R157, R158, R165). -/

namespace Sys2Proof.Machine

/-! ### A copy-back in progress (R118) -/

/-- Out of VALIDATING no validation ends (log entry 6). -/
theorem State.validationEnd_of_not_validating {s : State} (h : s.commit.state ≠ .validating) : s.validationEnd = s := by
  unfold State.validationEnd
  split
  · exact absurd ‹_› h
  all_goals rfl

theorem State.majorEndPoint_syncing {s : State} (h : s.commit.state = .syncing) : s.majorEndPoint.commit.state = .syncing := by
  unfold State.majorEndPoint
  exact State.swapIfPending_syncing _ h

theorem State.stoppingEnd_syncing {s : State} (h : s.commit.state = .syncing) : s.stoppingEnd.commit.state = .syncing := by
  unfold State.stoppingEnd
  split
  · rw [State.raise_commit, State.leaveRun_commitState _ _ (by simp [h]), h]
  · exact h

theorem State.clockLossExpiry_syncing {s : State} (h : s.commit.state = .syncing) : s.clockLossExpiry.commit.state = .syncing := by
  unfold State.clockLossExpiry
  split
  · rw [State.raise_commit, State.cutRun_commitState _ _ (by simp [h]), h]
  · exact h

theorem State.openCell_commitState (s : State) (m c : Nat) : (s.openCell m c).commit.state = s.commit.state := by
  rw [State.openCell_commit]

theorem State.startRun_commitState (s : State) : s.startRun.commit.state = s.commit.state := by
  unfold State.startRun State.composeFirst
  rw [State.setLookahead_commit, State.openCell_commitState]

theorem State.startRun_window (s : State) : s.startRun.window = s.window := by
  unfold State.startRun State.composeFirst
  simp

theorem State.startRequest_window (s : State) (w : Word) : (s.startRequest w).window = s.window := by
  obtain ⟨-, h⟩ | ⟨-, -, h⟩ | ⟨-, -, h⟩ := s.startRequest_cases w <;> rw [h]
  · exact s.refuseRun_window w
  · exact State.startRun_window _

theorem State.startRequest_port (s : State) (w : Word) : (s.startRequest w).port = s.port := by
  obtain ⟨-, h⟩ | ⟨-, -, h⟩ | ⟨-, -, h⟩ := s.startRequest_cases w <;> rw [h]
  · exact s.refuseRun_port w
  · exact State.startRun_port _

/-! ### The end of the copy-back -/

/-- Once the copy-back has ended no read of TBL_DATA is held (R103). -/
theorem State.releaseRead_held (s : State) : s.releaseRead.window.held = none := by
  cases h : s.window.held with
  | none => rw [State.releaseRead_of_none h, h]
  | some x => rw [State.releaseRead_of_held h]; cases x.abandoned <;> rfl

theorem State.releaseWaiting_of_some {s : State} {h : HostAccess} (hw : s.window.waiting = some h) :
    s.releaseWaiting = State.access { s with window := { s.window with waiting := none } } h := by
  simp only [State.releaseWaiting, hw]

/-! ### Accesses carried out at once -/

namespace State.WindowLawful

variable {s : State}

/-- A read of TBL_DATA is answered, or held in SYNCING (R103, R163). -/
theorem tableDataRead (hs : s.WindowLawful) (hn : s.window.held = none) (raised : Bool) : (s.tableDataRead raised).WindowLawful := by
  unfold State.tableDataRead
  split
  case isTrue held =>
    have hsync : s.commit.state = .syncing := by
      simp only [State.readHeld, Bool.and_eq_true, beq_iff_eq] at held
      exact held.2
    refine ⟨fun x hx => ?_, fun hq => absurd (hs.waiting_none hn) hq, hs.port⟩
    cases hx
    exact .inl ⟨⟨raised, rfl⟩, hsync⟩
  case isFalse => exact hs.of rfl rfl rfl id

theorem tblSelWrite (hs : s.WindowLawful) (w : Word) : (s.tblSelWrite w).WindowLawful := by
  unfold State.tblSelWrite
  split
  · exact hs.of rfl rfl rfl id
  · exact hs.same (by simp) (by simp) (by simp)

theorem tableDataWrite (hs : s.WindowLawful) (w : Word) : (s.tableDataWrite w).WindowLawful := by
  obtain ⟨a, b, h⟩ | ⟨pt, -, -, -, h⟩ | ⟨t, -, ht, h⟩ := s.tableDataWrite_cases w <;> rw [h]
  · exact (hs.same (t := s.report .tableWrite a b) (by simp) (by simp) (by simp)).of rfl rfl rfl id
  · exact hs.of rfl rfl rfl id
  · obtain ⟨-, -, -, -, -, -, hc, -, hw, -, hp⟩ := writeSourceWord_frame ht
    exact (hs.same hw hc hp).of rfl rfl rfl id

/-- What leaves the window and the port as they are keeps the law where no access is held. -/
theorem keepsWindow {t : State} (hs : s.WindowLawful) (hn : s.window.held = none) (hw : t.window = s.window) (hp : t.port = s.port) :
    t.WindowLawful :=
  .free (by rw [hw]; exact hn) (by rw [hw]; exact hs.waiting_none hn) (by rw [hp]; exact hs.port)

/-- Of the accesses carried out at once only a read of TBL_DATA can be held. -/
theorem carryOut (hs : s.WindowLawful) (hn : s.window.held = none) (h : HostAccess) : (s.carryOut h).WindowLawful := by
  apply State.carryOut_keeps (P := State.WindowLawful) s h
  case dataRead => exact hs.tableDataRead hn
  case dataWrite => exact hs.tableDataWrite
  case sel => exact hs.tblSelWrite
  case start => exact fun w => hs.keepsWindow hn (s.startRequest_window w) (s.startRequest_port w)
  case softReset => exact .free rfl rfl (by simp [State.softReset, State.reset])
  case index | bufAddr | bufWrite | bufRead | answer | timeRead => intros; exact hs.of rfl rfl rfl id
  all_goals intros; exact hs.keepsWindow hn (by simp) (by simp)

/-- The register window takes an access. -/
theorem access (hs : s.WindowLawful) (h : HostAccess) : (s.access h).WindowLawful :=
  State.access_keeps (fun _ ht => ht.settle) (fun _ _ hu hp hn ht => ht.hold hu hp hn) (fun _ _ h hp hx ht => ht.waitBehind hp hx h)
    (fun _ h _ hn ht => ht.carryOut hn h) s h hs

/-! ### Events -/

theorem resetRelease (hs : s.WindowLawful) : s.resetRelease.WindowLawful := by
  unfold State.resetRelease
  split
  · exact hs.same rfl rfl rfl
  · exact hs

theorem startEdge (hs : s.WindowLawful) : s.startEdge.WindowLawful := by
  obtain ⟨-, h⟩ | ⟨-, h⟩ := s.startEdge_cases <;> rw [h]
  · exact hs
  · exact hs.of (by rw [State.startRun_window]) (by rw [State.startRun_window]) s.startRun_port
      (fun hsync => s.startRun_commitState.trans hsync)

theorem validationEnd (hs : s.WindowLawful) : s.validationEnd.WindowLawful :=
  hs.of (by simp) (by simp) (by simp) fun hsync => by rw [State.validationEnd_of_not_validating (by simp [hsync]), hsync]

/-- With the held read released and the waiting access gone on, nothing is held and nothing waits. -/
theorem ofReleased (hs : s.WindowLawful) :
    State.WindowLawful { s.copyBack.releaseRead with window := { s.copyBack.releaseRead.window with waiting := none } } :=
  .free (State.releaseRead_held _) rfl (by simpa using hs.port)

theorem copyBackEnd (hs : s.WindowLawful) (hsync : s.commit.state = .syncing) : s.copyBackEnd.WindowLawful := by
  rw [State.copyBackEnd_syncing hsync]
  cases hw : s.copyBack.releaseRead.window.waiting with
  | none =>
    rw [State.releaseWaiting_of_none hw]
    exact .free (State.releaseRead_held _) hw (by simpa using hs.port)
  | some h =>
    rw [State.releaseWaiting_of_some hw]
    exact hs.ofReleased.access h

end State.WindowLawful

/-! ### A composition, which holds no access at the port (R165) -/

/-- The register window is lawful, and the arbiter is free. -/
structure State.WindowFree (s : State) : Prop where
  window : s.WindowLawful
  port : s.port = none

theorem State.WindowFree.same {s t : State} (hs : s.WindowFree) (hw : t.window = s.window) (hp : t.port = s.port)
    (hc : s.commit.state = .syncing → t.commit.state = .syncing) : t.WindowFree :=
  ⟨hs.window.of (by rw [hw]) (by rw [hw]) hp hc, hp.trans hs.port⟩

theorem State.WindowFree.performHeld {s : State} (hs : s.WindowFree) (hn : s.window.held = none) (p : PortAccess) (b : Bool) :
    (s.performHeld p b).WindowFree := by
  obtain ⟨hheld, hwaiting⟩ := s.performHeld_held p b
  have hport : (s.performHeld p b).port = none := by simpa using hs.port
  exact ⟨.free (hheld.trans hn) (hwaiting.trans (hs.window.waiting_none hn)) (by rw [hport]; simp), hport⟩

/-- At the end of a composition the composer's last access may be in progress: what is held is a read of TBL_DATA. -/
theorem State.WindowFree.close {s : State} (hs : s.WindowFree) {p : Option Requester} (hp : p ≠ some .window) :
    State.WindowLawful { s with port := p } :=
  ⟨fun _ hx => .inl (hs.window.tableRead hs.port hx), hs.window.waitingHeld, hp⟩

theorem keptEvents_window : KeptEvents State.WindowFree where
  access _ h hs := ⟨hs.window.access h, State.access_port h hs.port⟩
  perform _ p b hn hs := hs.performHeld hn p b
  takeCheck _ _ hs := hs.same (by simp) (by simp) (by simp)
  tick _ hs := hs.same (by simp) (by simp) (by simp)
  tsyncEdge _ hs := hs.same (by simp) (by simp) (by simp)
  validationEnd _ hs := ⟨hs.window.validationEnd, by simpa using hs.port⟩
  release _ _ hs := ⟨hs.window.ofReleased, by simpa using hs.port⟩

theorem keptCompose_window : KeptCompose State.WindowFree State.WindowLawful where
  events := keptEvents_window
  openCell s m c hs := hs.same (by simp) (by simp) (by rw [s.openCell_commitState]; exact id)
  setLookahead _ _ _ _ hs := hs.same rfl rfl id
  consult _ _ hs := hs.same (by simp) (by simp) (by simp)
  close _ _ hp hs := hs.close hp

theorem State.WindowLawful.firstBit {s : State} (hs : s.WindowLawful) (hp : s.port = none) (gaps : List CellGap) (reading : Bool) :
    (s.firstBit gaps reading).WindowLawful :=
  keptCompose_window.firstBit (fun _ h => h.window) (fun _ _ _ _ _ h => h.same rfl rfl id)
    (fun _ _ h => h.same (by simp) (by simp) (by simp)) (fun _ h => h.same (by simp) (by simp) State.majorEndPoint_syncing)
    (fun _ h => h.same rfl rfl id) s gaps reading ⟨hs, hp⟩

/-! ### Every step -/

theorem kept_window : Kept State.WindowLawful where
  pending _ _ hs := hs.same rfl rfl rfl
  settle _ hs := hs.settle
  hold _ _ hu hp hn hs := hs.hold hu hp hn
  wait _ _ h hp hx hs := hs.waitBehind hp hx h
  carryOut _ h _ hn hs := hs.carryOut hn h
  hardwareReset _ _ _ := .free rfl rfl (by simp [State.hardwareReset, State.reset])
  resetRelease _ hs := hs.resetRelease
  takeCheck _ _ hs := hs.same (by simp) (by simp) (by simp)
  startEdge _ hs := hs.startEdge
  stoppingEnd _ hs := hs.of (by simp) (by simp) (by simp) State.stoppingEnd_syncing
  clockLossExpiry _ hs := hs.of (by simp) (by simp) (by simp) State.clockLossExpiry_syncing
  bclkiRisingEdge _ hs := hs.same (by simp) (by simp) (by simp)
  bitPeriodStart _ hs := hs.same (by simp) (by simp) (by simp)
  firstBit _ gaps reading hp hs := hs.firstBit hp gaps reading
  validationEnd _ hs := hs.validationEnd
  copyBackEnd _ _ hsync hs := hs.copyBackEnd hsync
  tick _ hs := hs.same (by simp) (by simp) (by simp)
  tsyncEdge _ hs := hs.same (by simp) (by simp) (by simp)
  divider _ _ hs := hs.same rfl rfl rfl
  elapsed _ _ hs := hs.of rfl rfl rfl id
  lossTimer _ _ hs := hs.same rfl rfl rfl
  halfCount _ _ hs := hs.same rfl rfl rfl
  rise _ hs := hs.same rfl rfl rfl

/-- Settles O58: what every access and every event keeps, every step keeps. -/
theorem stepKeepsRegisterWindow : Obligations.StepKeepsRegisterWindow := fun _ _ hs h => kept_window.step hs h

end Sys2Proof.Machine
end

section
/-! SUPPORT. Validation judged as a whole: what a plan must hold in each of the five steps, that each step answers its first fault, and so
that a plan passes exactly when it is valid and is refused at its first fault (R109 … R115). -/

namespace Sys2Proof.Machine

/-! ### A step that answers its first fault -/

/-- `fault` is the answer of a step that asks `ok` of the indexes `used`, in ascending order: the first one that fails, or none. -/
def FirstFault (fault : Option Nat) (used ok : Nat → Prop) : Prop :=
  match fault with
  | none => ∀ j, used j → ok j
  | some i => used i ∧ ¬ ok i ∧ ∀ j, j < i → used j → ok j

theorem FirstFault.none_iff {fault : Option Nat} {used ok : Nat → Prop} (h : FirstFault fault used ok) :
    fault = none ↔ ∀ j, used j → ok j := by
  cases fault with
  | none => exact ⟨fun _ => h, fun _ => rfl⟩
  | some i => exact ⟨fun e => (by cases e), fun hall => absurd (hall i h.1) h.2.1⟩

theorem FirstFault.of_some {fault : Option Nat} {used ok : Nat → Prop} (h : FirstFault fault used ok) {i : Nat} (e : fault = some i) :
    used i ∧ ¬ ok i ∧ ∀ j, j < i → used j → ok j := by
  subst e
  exact h

/-- The search of a rising list that holds every used index, by a test that fails the used ones that are not `ok`. -/
theorem firstFault_find {l : List Nat} (hl : l.Pairwise (· < ·)) {bad : Nat → Bool} {used ok : Nat → Prop}
    (hused : ∀ j, used j → j ∈ l) (hbad : ∀ j ∈ l, bad j = false ↔ (used j → ok j)) : FirstFault (l.find? bad) used ok := by
  cases h : l.find? bad with
  | none =>
    rw [List.find?_eq_none] at h
    exact fun j hj => (hbad j (hused j hj)).mp (Bool.not_eq_true _ ▸ h j (hused j hj)) hj
  | some i =>
    obtain ⟨hmem, hi, hleast⟩ := find_least hl h
    have hfails : ¬ (used i → ok i) := fun hok => by rw [(hbad i hmem).mpr hok] at hi; cases hi
    obtain ⟨hu, hok⟩ := Classical.not_imp.mp hfails
    exact ⟨hu, hok, fun j hlt hj => (hbad j (hused j hj)).mp (hleast j (hused j hj) hlt) hj⟩

/-! ### What a plan must hold, step by step -/

/-- The FORMAT step asks this (R7, R110). -/
def Bank.FormatFits (b : Bank) : Prop :=
  (b.w = 8 ∨ b.w = 10 ∨ b.w = 12 ∨ b.w = 14 ∨ b.w = 16) ∧ (8 ≤ b.n ∧ b.n ≤ 1024) ∧ (1 ≤ b.m ∧ b.m ≤ 256) ∧ (1 ≤ b.s ∧ b.s ≤ 3)
    ∧ b.n * b.w ≤ 16384

/-- The MAP step asks this of a data column (R63, R111). -/
def Bank.EntryFits (b : Bank) (c : Nat) : Prop := mapEntryAllowed (b.word .map (2 * c)) (b.word .map (2 * c + 1))

/-- The GROUP step asks this of a used group (R64, R112). -/
def Bank.GroupFits (b : Bank) (g : Nat) : Prop :=
  2 ≤ b.groupDepth g ∧ b.groupDepth g ≤ 256 ∧ b.groupDepth g ∣ b.m ∧ b.groupFirst g + b.groupDepth g ≤ 1024

/-- Pool entry `j` lies within the rows of a group that a data column names (R62, R113). -/
def Bank.PoolNamed (b : Bank) (j : Nat) : Prop :=
  ∃ g, b.namesGroup g ∧ b.groupFirst g ≤ j ∧ j < b.groupFirst g + b.groupDepth g

/-- The ROW step asks this of a used pool entry (R65, R113). -/
def Bank.PoolFits (b : Bank) (j : Nat) : Prop := poolEntryAllowed (b.word .row (2 * j)) (b.word .row (2 * j + 1))

/-- The WINDOW step asks this of a window (R79, R114). -/
def Bank.WindowFits (b : Bank) (k : Nat) : Prop :=
  b.winEnabled k = true → b.winTop k ≤ b.winBottom k ∧ b.winBottom k < b.m ∧ b.s + 1 ≤ b.winLeft k ∧ b.winLeft k ≤ b.winRight k
    ∧ b.winRight k ≤ b.n - 1 - b.c ∧ b.winSource k ≤ 23

/-- A valid plan is one that holds what each of the five steps asks. -/
theorem Bank.valid_iff {b : Bank} : b.Valid ↔ b.FormatFits ∧ (∀ c, b.isDataColumn c → b.EntryFits c)
    ∧ (∀ g, b.namesGroup g → b.GroupFits g) ∧ (∀ j, b.PoolNamed j → b.PoolFits j) ∧ ∀ k, k < 4 → b.WindowFits k := by
  constructor
  · intro h
    exact ⟨⟨h.width, h.frame, h.depth, h.sync, h.bits⟩, h.map, h.groups, fun j ⟨g, hg, hlo, hhi⟩ => h.pool g j hg hlo hhi, h.windows⟩
  · rintro ⟨⟨hwidth, hframe, hdepth, hsync, hbits⟩, hmap, hgroups, hpool, hwindows⟩
    exact ⟨hwidth, hframe, hdepth, hsync, hbits, hmap, hgroups, fun g j hg hlo hhi => hpool j ⟨g, hg, hlo, hhi⟩, hwindows⟩

/-! ### The five steps -/

variable {b : Bank}

/-- The FORMAT step's fault, by its first failing check. The check of N × W never fails first: it holds wherever the checks before it do
(R110). -/
theorem Bank.formatFault_some {i : Nat} (h : b.formatFault = some i) :
    let widthOk := b.w = 8 ∨ b.w = 10 ∨ b.w = 12 ∨ b.w = 14 ∨ b.w = 16
    let frameOk := 8 ≤ b.n ∧ b.n ≤ 1024
    let depthOk := 1 ≤ b.m ∧ b.m ≤ 256
    (i = 0 ∧ ¬ widthOk) ∨ (i = 1 ∧ widthOk ∧ ¬ frameOk) ∨ (i = 2 ∧ widthOk ∧ frameOk ∧ ¬ depthOk)
      ∨ (i = 3 ∧ widthOk ∧ frameOk ∧ depthOk ∧ ¬ (1 ≤ b.s ∧ b.s ≤ 3)) := by
  intro widthOk frameOk depthOk
  unfold Bank.formatFault at h
  split at h
  case isTrue hw => exact .inl ⟨(Option.some.inj h).symm, hw⟩
  case isFalse hw =>
  have hw : widthOk := not_not.mp hw
  split at h
  case isTrue hn => exact .inr (.inl ⟨(Option.some.inj h).symm, hw, hn⟩)
  case isFalse hn =>
  have hn : frameOk := not_not.mp hn
  split at h
  case isTrue hm => exact .inr (.inr (.inl ⟨(Option.some.inj h).symm, hw, hn, hm⟩))
  case isFalse hm =>
  have hm : depthOk := not_not.mp hm
  split at h
  case isTrue hs => exact .inr (.inr (.inr ⟨(Option.some.inj h).symm, hw, hn, hm, hs⟩))
  case isFalse hs =>
  have hbits : b.n * b.w ≤ 1024 * 16 := Nat.mul_le_mul hn.2 (by omega)
  rw [if_neg (not_not.mpr hbits)] at h
  cases h

theorem Bank.mapFault_first (hf : b.FormatFits) : FirstFault b.mapFault b.isDataColumn b.EntryFits := by
  obtain ⟨-, ⟨hn, -⟩, -, ⟨-, hs⟩, -⟩ := hf
  have hmem (c : Nat) : c ∈ List.range' b.firstData (b.lastData + 1 - b.firstData) ↔ b.isDataColumn c := by
    rw [List.mem_range'_1, Bank.isDataColumn_iff hn hs]
  refine firstFault_find List.pairwise_lt_range' (fun c => (hmem c).mpr) fun c hc => ?_
  rw [Bank.mapEntry, entryOf_mapBad_iff]
  exact ⟨fun h _ => h, fun h => h ((hmem c).mp hc)⟩

theorem Bank.usedGroups_rising (b : Bank) : b.usedGroups.Pairwise (· < ·) := List.Pairwise.filter _ List.pairwise_lt_range

section
variable (hf : b.FormatFits) (hm : ∀ c, b.isDataColumn c → b.EntryFits c)
include hf hm

theorem Bank.mem_usedGroups_iff {g : Nat} : g ∈ b.usedGroups ↔ b.namesGroup g := by
  obtain ⟨-, ⟨hn, -⟩, -, ⟨-, hs⟩, -⟩ := hf
  exact Bank.mem_usedGroups hn hs hm

theorem Bank.groupFault_first : FirstFault b.groupFault b.namesGroup b.GroupFits := by
  have hmem {g : Nat} := Bank.mem_usedGroups_iff hf hm (g := g)
  refine firstFault_find b.usedGroups_rising (fun g => hmem.mpr) fun g hg => ?_
  rw [Bank.groupBad_iff]
  exact ⟨fun h _ => h, fun h => h (hmem.mp hg)⟩

/-- The rows of a used group lie within the pool, so the step meets every used entry (R64). -/
theorem Bank.rowFault_first (hg : ∀ g, b.namesGroup g → b.GroupFits g) : FirstFault b.rowFault b.PoolNamed b.PoolFits := by
  have hused (j : Nat) : b.poolUsed j = true ↔ b.PoolNamed j := by
    simp only [Bank.poolUsed_iff, Bank.mem_usedGroups_iff hf hm, Bank.PoolNamed]
  refine firstFault_find List.pairwise_lt_range' (fun j hj => ?inPool) fun j _ => ?_
  case inPool =>
    obtain ⟨g, hname, -, hlt⟩ := hj
    obtain ⟨-, -, -, hfit⟩ := hg g hname
    rw [List.mem_range'_1]
    omega
  rw [Bool.and_eq_false_imp, hused, Bank.poolEntry, entryOf_rowBad_iff]
  rfl

end

theorem Bank.windowFault_first (b : Bank) : FirstFault b.windowFault (· < 4) b.WindowFits := by
  have hmem (k : Nat) : k ∈ List.range' 0 4 ↔ k < 4 := by rw [List.mem_range'_1]; omega
  refine firstFault_find List.pairwise_lt_range' (fun k => (hmem k).mpr) fun k hk => ?_
  rw [Bank.winBad_iff]
  exact ⟨fun h _ => h, fun h => h ((hmem k).mp hk)⟩

/-- Settles O35, step by step, each step on a plan that has passed those before it. -/
theorem validationAcceptsExactlyLawfulPlans : Obligations.ValidationAcceptsExactlyLawfulPlans := by
  intro b
  rw [Bank.validate_none, Bank.valid_iff, Bank.formatFault_none]
  refine and_congr_right fun hf => ?_
  rw [(Bank.mapFault_first hf).none_iff]
  refine and_congr_right fun hm => ?_
  rw [(Bank.groupFault_first hf hm).none_iff]
  refine and_congr_right fun hg => ?_
  rw [(Bank.rowFault_first hf hm hg).none_iff, b.windowFault_first.none_iff]

/-- Settles O36, by the step that answers the fault. -/
theorem validationNamesFirstFault : Obligations.ValidationNamesFirstFault := by
  intro b i
  have format (h : b.formatFault = none) : b.FormatFits := (Bank.formatFault_none b).mp h
  have map (hf : b.FormatFits) (h : b.mapFault = none) := (Bank.mapFault_first hf).none_iff.mp h
  have group (hf : b.FormatFits) hm (h : b.groupFault = none) := (Bank.groupFault_first hf hm).none_iff.mp h
  have row (hf : b.FormatFits) hm hg (h : b.rowFault = none) := (Bank.rowFault_first hf hm hg).none_iff.mp h
  refine ⟨fun h => ?format, fun h => ?map, fun h => ?group, fun h => ?row, fun h => ?window⟩
  case format => exact Bank.formatFault_some (by simpa using Bank.validate_some h)
  case map =>
    obtain ⟨h1, h2⟩ : b.formatFault = none ∧ b.mapFault = some i := by simpa using Bank.validate_some h
    have hf := format h1
    exact ⟨hf, (Bank.mapFault_first hf).of_some h2⟩
  case group =>
    obtain ⟨h1, h2, h3⟩ : b.formatFault = none ∧ b.mapFault = none ∧ b.groupFault = some i := by
      simpa using Bank.validate_some h
    have hf := format h1
    have hm := map hf h2
    exact ⟨hf, hm, (Bank.groupFault_first hf hm).of_some h3⟩
  case row =>
    obtain ⟨h1, h2, h3, h4⟩ : b.formatFault = none ∧ b.mapFault = none ∧ b.groupFault = none ∧ b.rowFault = some i := by
      simpa using Bank.validate_some h
    have hf := format h1
    have hm := map hf h2
    have hg := group hf hm h3
    exact ⟨hf, hm, hg, (Bank.rowFault_first hf hm hg).of_some h4⟩
  case window =>
    obtain ⟨h1, h2, h3, h4, h5⟩ : b.formatFault = none ∧ b.mapFault = none ∧ b.groupFault = none ∧ b.rowFault = none
        ∧ b.windowFault = some i := by
      simpa using Bank.validate_some h
    have hf := format h1
    have hm := map hf h2
    have hg := group hf hm h3
    obtain ⟨hi, hbad, hbelow⟩ := b.windowFault_first.of_some h5
    exact ⟨hf, hm, hg, row hf hm hg h4, hi, hbad, fun k hk => hbelow k hk (hk.trans hi)⟩

end Sys2Proof.Machine
end

section
/-! SUPPORT. The commit controller's requests and the ends of its two operations on the inputs their statements give them (R103, R106 … R108,
R115, R116, R118, R119, R158). -/

namespace Sys2Proof.Machine

/-! ### Requests (R106 … R108) -/

theorem exec_commit {s : State} (hs : s.ready) : exec .commit s = .next s.commitRequest :=
  congrArg Host.Outcome.next (State.takeAccess_ready hs _ _)

theorem exec_commitCancel {s : State} (hs : s.ready) : exec .commitCancel s = .next s.cancelRequest :=
  congrArg Host.Outcome.next (State.takeAccess_ready hs _ _)

theorem exec_commitCtrlUndefinedRequest {s : State} (hs : s.ready) (w : Word) :
    exec (.commitCtrlUndefinedRequest w) s = .next (s.commitCtrlWrite w) :=
  congrArg Host.Outcome.next (State.takeAccess_ready hs _ _)

/-- A refused request leaves the controller but for REQ, and is reported with the word and the state. -/
theorem State.refuseCommit_eq (s : State) (w : Word) (q : CommitReq) : s.refuseCommit w q =
    State.report { s with commit := { s.commit with req := q } } .commitReq w (s.commit.state.code.setWidth 16) := by
  rw [State.refuseCommit, field_zero]

theorem State.commitRequest_busy {s : State} (h : s.commit.state ≠ .edit) : s.commitRequest = s.refuseCommit 0x0001 .busy := by
  unfold State.commitRequest
  split
  · exact absurd ‹_› h
  all_goals rfl

theorem State.commitCtrlWrite_badRequest (s : State) {w : Word} (h1 : w ≠ 0x0001) (h2 : w ≠ 0x0002) :
    s.commitCtrlWrite w = s.refuseCommit w .badRequest := by
  rw [State.commitCtrlWrite, if_neg h1, if_neg h2]

/-- Settles O33, request by request and state by state. -/
theorem commitRequestResults : Obligations.CommitRequestResults := by
  intro w s hs
  rw [exec_commit hs, exec_commitCancel hs, exec_commitCtrlUndefinedRequest hs]
  refine ⟨fun h => ?commit, fun h => ?busy, fun h => ?idle, fun h => ?cancel, fun h => ?tooLate, fun h1 h2 => ?badRequest⟩
  case commit => simp only [State.commitRequest, h]
  case busy => rw [State.commitRequest_busy h, State.refuseCommit_eq]
  case idle => simp only [State.cancelRequest, h]
  case cancel => obtain h | h := h <;> simp only [State.cancelRequest, h]
  case tooLate =>
    simp only [State.cancelRequest, h, State.refuseCommit_eq]
    rfl
  case badRequest => rw [s.commitCtrlWrite_badRequest h1 h2, State.refuseCommit_eq]

/-! ### The end of validation (R115, R116, R118) -/

section
variable {s : State} (h : s.commit.state = .validating)
include h

theorem State.validationEnd_refused {step : PlanTable} {i : Nat} (hv : s.commit.staging.validate = some (step, i)) :
    s.validationEnd = State.raise
      { s with commit := { s.commit with state := .edit, result := .refused step, fault := BitVec.ofNat 16 i } } .commitRefused := by
  simp only [State.validationEnd, h, hv]

theorem State.validationEnd_passed (hv : s.commit.staging.validate = none) : s.validationEnd =
    if s.downlink.link.inRun then { s with commit := { s.commit with state := .pending } } else s.swap := by
  simp only [State.validationEnd, h, hv]

end

/-- Settles O34, by the controller's state, the plan and the link. -/
theorem validationEnds : Obligations.ValidationEnds := by
  intro s hs
  rw [exec_validationEnd hs]
  refine ⟨fun h => ?idle, fun h => ⟨fun step i hv => ?refused, fun hv => ⟨fun hl => ?pending, fun hrunning hstopping => ?swapped⟩⟩⟩
  case idle => rw [State.validationEnd_of_not_validating h]
  case refused =>
    rw [State.validationEnd_refused h hv]
    rfl
  case pending => rw [State.validationEnd_passed h hv, if_pos ((LinkState.inRun_iff _).mpr hl)]
  case swapped =>
    have hidle : ¬ s.downlink.link.inRun = true := fun hr => ((LinkState.inRun_iff _).mp hr).elim hrunning hstopping
    rw [State.validationEnd_passed h hv, if_neg hidle]
    rfl

/-! ### The end of the copy-back (R103, R119, R158) -/

/-- Out of SYNCING no copy-back ends (log entry 6). -/
theorem State.copyBackEnd_of_not_syncing {s : State} (h : s.commit.state ≠ .syncing) : s.copyBackEnd = s := by
  unfold State.copyBackEnd
  split
  · exact absurd ‹_› h
  all_goals rfl

/-- A held read of a plan table of the Staging bank is answered with the copied word, unless its cycle was abandoned, and TBL_INDEX
advances (R103, R158, R162). -/
theorem State.releaseRead_copied {s : State} {p : PlanTable} {x : HeldAccess} (ht : s.window.table = .plan p)
    (hb : s.window.bank = .staging) (hx : s.window.held = some x) : s.releaseRead =
    { s with window := { s.window with
        held := none
        index := (s.window.index + 1) % s.window.table.size
        readData := if x.abandoned then s.window.readData else some (s.commit.staging.word p s.window.index) } } := by
  have hword : State.tableWord { s with window := { s.window with held := none } } = s.commit.staging.word p s.window.index := by
    simp only [State.tableWord, ht, hb, Commit.bank]
  rw [State.releaseRead_of_held hx, State.answerTableRead, hword]
  cases x.abandoned <;> rfl

/-- With an access waiting behind the held read, the end of the copy-back frees the read and then takes the access. -/
theorem exec_copyBackEnd_of_waiting {s : State} (hs : s.settled) (hsync : s.commit.state = .syncing) {h : HostAccess}
    (hw : s.window.waiting = some h) : exec .copyBackEnd s = .next
      (State.access { s.copyBack.releaseRead with window := { s.copyBack.releaseRead.window with waiting := none } } h) := by
  rw [exec_copyBackEnd hs, State.copyBackEnd_syncing hsync,
    State.releaseWaiting_of_some (s.copyBack.releaseRead_waiting.trans hw)]

/-- Settles O37, by the state and by what is held and waits. -/
theorem copyBackEnds : Obligations.CopyBackEnds := by
  intro s hs t next
  refine ⟨fun h => ?idle, fun hsync hh hw => ?free, fun raised abandoned p hsync ht hb hh => ?held⟩
  case idle => rw [exec_copyBackEnd hs, State.copyBackEnd_of_not_syncing h]
  case free =>
    rw [exec_copyBackEnd_of_none hs hsync hw, State.releaseRead_of_none (by exact hh)]
    rfl
  case held =>
    intro released
    have hread : { s.copyBack.releaseRead with window := { s.copyBack.releaseRead.window with waiting := none } } = released := by
      rw [State.releaseRead_copied (s := s.copyBack) ht hb hh]
      rfl
    have haccess (h : HostAccess) (hw : s.window.waiting = some h) : exec .copyBackEnd s = .next (released.access h) := by
      rw [exec_copyBackEnd_of_waiting hs hsync hw, hread]
    refine ⟨fun hw => ?alone, fun h hw => ⟨haccess h hw, fun c hc => ?command⟩⟩
    case alone =>
      have hnone : s.copyBack.releaseRead.window.waiting = none := s.copyBack.releaseRead_waiting.trans hw
      rw [exec_copyBackEnd_of_none hs hsync hw, ← hread, ← hnone]
    case command => rw [haccess h hw, exec_of_access hc]

end Sys2Proof.Machine
end

section
/-! SUPPORT. The downlink port at every step: each access, event and piece of a composition keeps the link, its target and its lines lawful
(R9, R123, R129 … R132). -/

namespace Sys2Proof.Machine

/-! ### Resets, edges and the end of the copy-back -/

theorem State.LinkLaw.hardwareReset {A : Prop} (s : State) (powerUp : Bool) : (s.hardwareReset powerUp).LinkLaw A :=
  .ofIdle rfl rfl rfl rfl rfl rfl rfl rfl

theorem State.LinkLaw.resetRelease {A : Prop} {s : State} (hs : s.LinkLaw A) : s.resetRelease.LinkLaw A := by
  unfold State.resetRelease
  split
  · exact hs.same rfl rfl
  · exact hs

/-- A rising edge of BCLKI moves no line (R129). -/
theorem State.LinkLaw.bclkiRisingEdge {A : Prop} {s : State} (hs : s.LinkLaw A) : s.bclkiRisingEdge.LinkLaw A := by
  unfold State.bclkiRisingEdge
  split
  · exact hs.counts 0 s.downlink.halfCount s.downlink.rowCount s.downlink.majorCount rfl rfl
  · exact hs

/-- The end of the copy-back reaches the link through the access it releases alone (R119). -/
theorem State.LinkLaw.copyBackEnd {A : Prop} {s : State} (hs : s.LinkLaw A) (hsync : s.commit.state = .syncing) :
    s.copyBackEnd.LinkLaw A :=
  copyBackEnd_keeps hsync (hs.same (by simp) (by simp)) (fun _ ht => ht.same rfl rfl) (keptEvents_link A).access

/-! ### Every step -/

theorem kept_link : Kept (State.LinkLaw True) where
  pending _ _ hs := hs.same rfl rfl
  settle _ hs := hs.same (by simp) (by simp)
  hold _ _ _ _ _ hs := hs.same rfl rfl
  wait _ _ _ _ _ hs := hs.same rfl rfl
  carryOut _ h _ _ hs := hs.carryOut h
  hardwareReset s b _ := .hardwareReset s b
  resetRelease _ hs := hs.resetRelease
  takeCheck := (keptEvents_link True).takeCheck
  startEdge _ hs := hs.startEdge
  stoppingEnd _ hs := hs.stoppingEnd
  clockLossExpiry _ hs := hs.clockLossExpiry
  bclkiRisingEdge _ hs := hs.bclkiRisingEdge
  bitPeriodStart _ hs := hs.bitPeriodStart
  firstBit _ gaps reading _ hs := ((hs.lawful trivial).firstBit gaps reading).law True
  validationEnd := (keptEvents_link True).validationEnd
  copyBackEnd _ _ hsync hs := hs.copyBackEnd hsync
  tick := (keptEvents_link True).tick
  tsyncEdge := (keptEvents_link True).tsyncEdge
  divider _ _ hs := hs.same rfl rfl
  elapsed _ _ hs := hs.same rfl rfl
  lossTimer _ n hs := hs.counts n _ _ _ rfl rfl
  halfCount _ n hs := hs.counts _ n _ _ rfl rfl
  rise _ hs := hs.rise

/-- Settles O59: what every access and every event keeps, every step keeps. -/
theorem stepKeepsLink : Obligations.StepKeepsLink := fun _ _ hs h => (kept_link.step (hs.law True) h).lawful trivial

end Sys2Proof.Machine
end

section
/-! SUPPORT. The downlink port's requests, ends and bit clock events on the inputs their statements give them (R125, R129 … R141). -/

namespace Sys2Proof.Machine

/-! ### The commands at once -/

section
variable {s : State} (hs : s.ready)
include hs

theorem exec_start (rest : BitVec 12) : exec (.start rest) s = .next (s.startRequest (rest ++ (1 : BitVec 4))) :=
  congrArg Host.Outcome.next (State.takeAccess_ready hs _ _)

theorem exec_stopEndMinor (rest : BitVec 10) : exec (.stopEndMinor rest) s = .next s.stopEndMinor :=
  congrArg Host.Outcome.next (State.takeAccess_ready hs _ _)

theorem exec_stopEndMajor (rest : BitVec 10) : exec (.stopEndMajor rest) s = .next s.stopEndMajor :=
  congrArg Host.Outcome.next (State.takeAccess_ready hs _ _)

theorem exec_abort (rest : BitVec 10) : exec (.abort rest) s = .next s.abort :=
  congrArg Host.Outcome.next (State.takeAccess_ready hs _ _)

theorem exec_clearHalt (rest : BitVec 12) : exec (.clearHalt rest) s = .next s.clearHalt :=
  congrArg Host.Outcome.next (State.takeAccess_ready hs _ _)

theorem exec_runCtrlUndefinedRequest (w : Word) : exec (.runCtrlUndefinedRequest w) s = .next (s.runCtrlWrite w) :=
  congrArg Host.Outcome.next (State.takeAccess_ready hs _ _)

theorem exec_clockRegisterWrite (r : ClockReg) (w : Word) : exec (.clockRegisterWrite r w) s = .next (s.clockRegWrite r w) :=
  congrArg Host.Outcome.next (State.takeAccess_ready hs _ _)

end

section
variable {s : State} (hs : s.settled)
include hs

theorem exec_startEdge : exec .startEdge s = .next s.startEdge :=
  congrArg Host.Outcome.next (State.outOfReset_settled hs _)

theorem exec_stoppingEnd : exec .stoppingEnd s = .next s.stoppingEnd :=
  congrArg Host.Outcome.next (State.outOfReset_settled hs _)

theorem exec_clockLossExpiry : exec .clockLossExpiry s = .next s.clockLossExpiry :=
  congrArg Host.Outcome.next (State.outOfReset_settled hs _)

theorem exec_bclkiRisingEdge : exec .bclkiRisingEdge s = .next s.bclkiRisingEdge :=
  congrArg Host.Outcome.next (State.outOfReset_settled hs _)

theorem exec_bitPeriodStart : exec .bitPeriodStart s = .next s.bitPeriodStart :=
  congrArg Host.Outcome.next (State.outOfReset_settled hs _)

end

/-! ### The clock registers (R124, R125) -/

theorem State.clockRegWrite_stopped {s : State} (h : s.downlink.link = .stopped) (r : ClockReg) (w : Word) :
    s.clockRegWrite r w = { s with downlink := s.downlink.setClockReg r w } := if_pos h

theorem State.clockRegWrite_refused {s : State} (h : s.downlink.link ≠ .stopped) (r : ClockReg) (w : Word) :
    s.clockRegWrite r w = s.report .regWrite (BitVec.ofNat 16 (clockRegOffset r)) 12 := if_neg h

/-- Settles O42, by the link state and the register. -/
theorem clockRegisterWrites : Obligations.ClockRegisterWrites := by
  intro w s hs
  simp only [exec_clockRegisterWrite hs]
  refine ⟨fun h => ?stopped, fun h => ?active⟩
  case stopped =>
    simp only [State.clockRegWrite_stopped h]
    exact ⟨rfl, rfl, rfl⟩
  case active =>
    simp only [State.clockRegWrite_refused h]
    exact ⟨rfl, rfl, rfl⟩

/-! ### The start of a run (R132 … R134) -/

/-- A run starts with the counters at 0 and the first sync word composed (R9, R133). -/
theorem State.startRun_eq (s : State) : s.startRun =
    { s with
      downlink := { s.downlink with
        link := .running, target := .none, rowCount := 0, majorCount := 0, shifting := none, bclko := true, halfCount := 0
        lossTimer := 0 }
      composer :=
        { row := 0, col := 0, accumulator := 0xFFFF, episodeLatch := false, capturedU := s.composer.episodeLatch
          newPlanFrame := s.commit.newPlan
          lookahead := some { value := s.commit.active.sync 0, width := s.commit.active.w, delivered := false } }
      commit := { s.commit with newPlan := false } } := by
  simp only [State.startRun, State.composeFirst, State.openCell_zero]
  rfl

theorem State.refuseRun_eq (s : State) (w : Word) : s.refuseRun w = s.report .runReq w (s.downlink.link.code.setWidth 16) := by
  rw [State.refuseRun, field_zero]

/-- A word that names no defined request is refused (R132). -/
theorem State.runCtrlWrite_undefined (s : State) {w : Word} (h : runCtrlUndefined w = true) : s.runCtrlWrite w = s.refuseRun w := by
  have hnone : runRequestOf w = none := by
    unfold runRequestOf
    unfold runCtrlUndefined at h
    generalize w.extractLsb' 0 4 = request at h ⊢
    generalize w.extractLsb' 4 2 = mode at h ⊢
    revert request mode
    decide
  simp only [State.runCtrlWrite, hnone]

/-- Settles O38, by the request, the link state and START_TRIGGER. -/
theorem startResults : Obligations.StartResults := by
  intro rest w s _ started
  refine ⟨fun hs hl ht => ?immediate, fun hs hl ht => ?external, fun hs hl => ?refused, fun hs hl => ?edge, fun hs hl => ?noEdge,
    fun hs hw => ?undefined⟩
  case immediate =>
    obtain ⟨h, -⟩ | ⟨-, -, h⟩ | ⟨-, h, -⟩ := s.startRequest_cases (rest ++ (1 : BitVec 4))
    · exact absurd hl h
    · rw [exec_start hs, h, State.startRun_eq]
    · cases ht.symm.trans h
  case external =>
    obtain ⟨h, -⟩ | ⟨-, h, -⟩ | ⟨-, -, h⟩ := s.startRequest_cases (rest ++ (1 : BitVec 4))
    · exact absurd hl h
    · cases ht.symm.trans h
    · rw [exec_start hs, h]
  case refused =>
    obtain ⟨-, h⟩ | ⟨h, -⟩ | ⟨h, -⟩ := s.startRequest_cases (rest ++ (1 : BitVec 4))
    · rw [exec_start hs, h, State.refuseRun_eq]
    all_goals exact absurd h hl
  case edge =>
    obtain ⟨h, -⟩ | ⟨-, h⟩ := s.startEdge_cases
    · exact absurd hl h
    · rw [exec_startEdge hs, h, State.startRun_eq]
  case noEdge =>
    obtain ⟨-, h⟩ | ⟨h, -⟩ := s.startEdge_cases
    · rw [exec_startEdge hs, h]
    · exact absurd h hl
  case undefined => rw [exec_runCtrlUndefinedRequest hs, s.runCtrlWrite_undefined hw, State.refuseRun_eq]

/-! ### Stops and CLEAR_HALT (R135, R136, R138, R140) -/

theorem State.endPassed_iff (s : State) : s.endPassed = true ↔
    s.downlink.shifting ≠ none ∧ s.composer.lookahead ≠ none ∧ s.composer.col = 0 := by
  simp only [State.endPassed, Bool.and_eq_true, Option.isSome_iff_ne_none, beq_iff_eq, and_assoc]

theorem State.majorEndPassed_iff (s : State) : s.majorEndPassed = true ↔
    (s.downlink.shifting ≠ none ∧ s.composer.lookahead ≠ none ∧ s.composer.col = 0) ∧ s.composer.row = 0 := by
  simp only [State.majorEndPassed, Bool.and_eq_true, State.endPassed_iff, beq_iff_eq]

/-- END_MINOR takes the row in progress, or finds its end point passed, in RUNNING and in a stop at the major frame's end (R135). -/
theorem State.stopEndMinor_takes {s : State}
    (h : s.downlink.link = .running ∨ s.downlink.link = .stopping ∧ s.downlink.target = .endMajor) :
    s.stopEndMinor = s.stopAt (if s.endPassed then .reached else .endMinor) := by
  obtain h | ⟨hl, ht⟩ := h
  · simp only [State.stopEndMinor, h]
  · simp only [State.stopEndMinor, hl, ht]

/-- A stop that is already as near stays as it is (R135). -/
theorem State.stopEndMinor_nearer {s : State} (hl : s.downlink.link = .stopping) (ht : s.downlink.target ≠ .endMajor) :
    s.stopEndMinor = s := by
  simp only [State.stopEndMinor, hl]
  split
  · exact absurd ‹_› ht
  all_goals rfl

theorem State.stopEndMajor_running {s : State} (h : s.downlink.link = .running) :
    s.stopEndMajor = s.stopAt (if s.majorEndPassed then .reached else .endMajor) := by
  simp only [State.stopEndMajor, h]

theorem State.clearHalt_of_not_halted {s : State} (h : s.downlink.link ≠ .halted) : s.clearHalt = s := by
  unfold State.clearHalt
  split
  · exact absurd ‹_› h
  all_goals rfl

/-- Settles O39, by the link state, the target and the end point that has passed. -/
theorem stopsAndClearHalt : Obligations.StopsAndClearHalt := by
  intro rest high s hs rowPassed majorPassed stopping disarmed
  have hrow : s.endPassed = true ↔ rowPassed := s.endPassed_iff
  have hmajor : s.majorEndPassed = true ↔ majorPassed := s.majorEndPassed_iff
  simp only [exec_stopEndMinor hs, exec_stopEndMajor hs, exec_abort hs, exec_clearHalt hs]
  refine ⟨fun hl => ?running, fun hl ht => ?sooner, fun hl ht => ?nearer, fun hl => ?later, fun hl => ?armed, fun hl => ?runOver,
    fun hl => ?halted, fun hl => ?notHalted⟩
  case running =>
    rw [State.stopEndMinor_takes (.inl hl), State.stopEndMajor_running hl]
    exact ⟨fun h => by rw [if_pos (hrow.mpr h)]; rfl, fun h => by rw [if_neg (mt hrow.mp h)]; rfl,
      fun h => by rw [if_pos (hmajor.mpr h)]; rfl, fun h => by rw [if_neg (mt hmajor.mp h)]; rfl⟩
  case sooner =>
    rw [State.stopEndMinor_takes (.inr ⟨hl, ht⟩)]
    exact ⟨fun h => by rw [if_pos (hrow.mpr h)]; rfl, fun h => by rw [if_neg (mt hrow.mp h)]; rfl⟩
  case nearer => rw [State.stopEndMinor_nearer hl ht]
  case later => simp only [State.stopEndMajor, hl]
  case armed =>
    simp only [State.stopEndMinor, State.stopEndMajor, State.abort, hl]
    exact ⟨rfl, rfl, rfl⟩
  case runOver =>
    obtain hl | hl := hl <;> simp only [State.stopEndMinor, State.stopEndMajor, State.abort, hl, and_self]
  case halted => simp only [State.clearHalt, hl]
  case notHalted => rw [State.clearHalt_of_not_halted hl]

/-! ### The ends of a run (R117, R137 … R139, R141) -/

/-- LOST_WORDS counts the marked words among the two that are discarded (R141). -/
theorem State.lostWords_eq (s : State) : s.lostWords = BitVec.ofNat 2 s.markedWords := by
  unfold State.lostWords State.markedWords
  cases s.downlink.shifting <;> rfl

theorem State.markedWords_le (s : State) : s.markedWords ≤ 2 := by
  unfold State.markedWords
  (repeat' split) <;> omega

/-- The end of a run leaves LOST_WORDS as it stands (R137). -/
theorem State.leaveRun_eq (s : State) (l : LinkState) : s.leaveRun l = s.runOver l s.downlink.lostWords :=
  State.swapIfPending_eq _

theorem State.cutRun_eq (s : State) (l : LinkState) : s.cutRun l = s.runOver l (BitVec.ofNat 2 s.markedWords) := by
  rw [State.cutRun, State.leaveRun_eq, ← State.lostWords_eq]
  rfl

theorem State.abort_inRun {s : State} (h : s.downlink.link = .running ∨ s.downlink.link = .stopping) :
    s.abort = (s.cutRun .stopped).raise .stopped := by
  obtain h | h := h <;> simp only [State.abort, h]

/-- The clock-loss timer runs on BCLKI in a run alone (R139). -/
theorem State.lossTimerRuns_iff (s : State) : s.lossTimerRuns = true ↔
    (s.downlink.link = .running ∨ s.downlink.link = .stopping) ∧ s.downlink.clkSrc = .external := by
  simp only [State.lossTimerRuns, Bool.and_eq_true, beq_iff_eq, LinkState.inRun_iff, and_comm]

/-- Out of a run, or on the internal generator, the timer stands. -/
theorem State.lossTimerRuns_false {s : State}
    (h : ¬ (s.downlink.link = .running ∨ s.downlink.link = .stopping) ∨ s.downlink.clkSrc = .internal) : s.lossTimerRuns = false := by
  rw [← Bool.not_eq_true, State.lossTimerRuns_iff]
  rintro ⟨hr, hc⟩
  obtain h | h := h
  · exact h hr
  · rw [hc] at h; cases h

/-- Settles O40, by what cuts the run. -/
theorem cutsEndTheRun : Obligations.CutsEndTheRun := by
  intro rest s lost inRun
  refine ⟨s.markedWords_le, fun hs hr => ?abort, fun hs hr hc => ?expiry, fun hs h => ?noTimer⟩
  case abort =>
    rw [exec_abort hs, State.abort_inRun hr, State.cutRun_eq]
    rfl
  case expiry =>
    rw [exec_clockLossExpiry hs, State.clockLossExpiry, if_pos (s.lossTimerRuns_iff.mpr ⟨hr, hc⟩), State.cutRun_eq]
    rfl
  case noTimer =>
    rw [exec_clockLossExpiry hs, State.clockLossExpiry, State.lossTimerRuns_false h]
    rfl

/-! ### The bit clock within a cell (R129 … R131, R137) -/

theorem Downlink.wordDone_iff (d : Downlink) : d.wordDone = true ↔ ∀ sh, d.shifting = some sh → sh.bit = 0 := by
  unfold Downlink.wordDone
  cases h : d.shifting <;> simp

theorem State.bitDue_iff (s : State) : s.bitDue = true ↔
    (s.downlink.link = .running ∨ s.downlink.link = .stopping) ∧ ¬ ∀ sh, s.downlink.shifting = some sh → sh.bit = 0 := by
  rw [State.bitDue, Bool.and_eq_true, LinkState.inRun_iff, Bool.not_eq_true', ← Bool.not_eq_true, Downlink.wordDone_iff]

theorem State.stopDue_iff (s : State) : s.stopDue = true ↔
    s.downlink.link = .stopping ∧ s.downlink.target = .reached ∧ ∀ sh, s.downlink.shifting = some sh → sh.bit = 0 := by
  simp only [State.stopDue, Bool.and_eq_true, beq_iff_eq, Downlink.wordDone_iff, and_assoc]

/-- Within a word the next lower bit is put on DOUT, with both strobes low (R1, R130, R131). -/
theorem State.bitPeriodStart_due {s : State} {sh : Shifting} (hr : s.downlink.link = .running ∨ s.downlink.link = .stopping)
    (hsh : s.downlink.shifting = some sh) (hb : sh.bit ≠ 0) :
    s.bitPeriodStart = { s with downlink := s.downlink.beginBit sh.word (sh.bit - 1) false false } := by
  have hdue : s.bitDue = true := s.bitDue_iff.mpr ⟨hr, fun h => hb (h sh hsh)⟩
  simp only [State.bitPeriodStart, hsh, hdue, if_true]

theorem State.bitPeriodStart_idle {s : State} (h : ¬ s.bitDue = true) : s.bitPeriodStart = s := by
  unfold State.bitPeriodStart
  split
  · exact if_neg h
  · rfl

/-- BCLKO stays high with CLK_SRC EXTERNAL alone (R128, R129). -/
theorem Downlink.beginBit_eq (d : Downlink) (word : Composed) (bit : Nat) (mfs jfs : Bool) : d.beginBit word bit mfs jfs =
    { d with
      shifting := some { word := word, bit := bit }, dout := word.value.getLsbD bit, mfs := mfs, jfs := jfs
      bclko := decide (d.clkSrc = .external), halfCount := 0, lossTimer := 0 } := by
  simp only [Downlink.beginBit, beq_eq_decide]

/-- Settles O41, by the event and whether it is due. -/
theorem bitClockEvents : Obligations.BitClockEvents := by
  intro s hs inRun rowSent
  rw [exec_bitPeriodStart hs, exec_stoppingEnd hs, exec_bclkiRisingEdge hs]
  refine ⟨fun sh hr hsh hb => ?bit, fun h => ?noBit, fun h => ?sent, fun h => ?notSent, fun hr hc => ?edge, fun h => ?noTimer⟩
  case bit => rw [State.bitPeriodStart_due hr hsh hb, Downlink.beginBit_eq]
  case noBit => rw [State.bitPeriodStart_idle (fun hdue => h.elim (· (s.bitDue_iff.mp hdue).1) (s.bitDue_iff.mp hdue).2)]
  case sent =>
    rw [State.stoppingEnd, if_pos (s.stopDue_iff.mpr h), State.leaveRun_eq]
    rfl
  case notSent => rw [State.stoppingEnd, if_neg (mt s.stopDue_iff.mp h)]
  case edge => rw [State.bclkiRisingEdge, if_pos (s.lossTimerRuns_iff.mpr ⟨hr, hc⟩)]
  case noTimer =>
    rw [State.bclkiRisingEdge, State.lossTimerRuns_false h]
    rfl

end Sys2Proof.Machine
end

section
/-! SUPPORT. One REFCLK period of an empty queue, part by part: what each count leaves below its bound and at it (R109, R119, R128, R139,
R144). -/

namespace Sys2Proof.Machine

/-! ### Each part leaves events to take place (R160, R165) -/

/-- RESET# stays released through whatever falls at the end of a copy-back. -/
theorem keptPieces_released : KeptPieces (fun s => s.resetAsserted = false) where
  carryOut s h hs := by
    apply State.carryOut_keeps (P := fun t => t.resetAsserted = false) s h
    case start =>
      intro w
      obtain ⟨-, e⟩ | ⟨-, -, e⟩ | ⟨-, -, e⟩ := s.startRequest_cases w <;> rw [e]
      · exact (s.refuseRun_resetAsserted w).trans hs
      · rw [State.startRun_eq]; exact hs
      · exact hs
    case dataWrite =>
      intro w
      obtain ⟨a, b, e⟩ | ⟨pt, -, -, -, e⟩ | ⟨t, -, ht, e⟩ := s.tableDataWrite_cases w <;> rw [e]
      · simpa using hs
      · exact hs
      · obtain ⟨-, hr, -⟩ := writeSourceWord_frame ht
        exact hr.trans hs
    case softReset => rfl
    case time => exact fun _ => hs
    all_goals intros; simpa using hs
  port _ _ hs := hs
  window _ _ _ _ hs := hs
  advanceIndex _ hs := hs
  takeCheck s i hs := (s.takeCheck_resetAsserted i).trans hs
  tick s hs := s.tick_resetAsserted.trans hs
  tsyncEdge s hs := s.tsyncEdge_resetAsserted.trans hs
  validationEnd s hs := s.validationEnd_resetAsserted.trans hs
  copyBack _ _ hs := hs

theorem State.copyBackEnd_settled {s : State} (hs : s.settled) : s.copyBackEnd.settled := by
  refine ⟨?_, State.copyBackEnd_port hs.2⟩
  by_cases hsync : s.commit.state = .syncing
  · exact keptPieces_released.copyBackEnd s hsync hs.1
  · rw [State.copyBackEnd_of_not_syncing hsync]
    exact hs.1

theorem State.settled.of_frame {s t : State} (hs : s.settled) (hr : t.resetAsserted = s.resetAsserted) (hp : t.port = s.port) :
    t.settled := ⟨hr.trans hs.1, hp.trans hs.2⟩

theorem State.drainChecks_settled {s : State} (hs : s.settled) : s.drainChecks.settled :=
  hs.of_frame (State.takeChecks_field (by simp) s _) (State.takeChecks_field (by simp) s _)

theorem State.dividerPeriod_settled {s : State} (hs : s.settled) : s.dividerPeriod.settled := by
  obtain ⟨-, hr, hp, -⟩ := s.dividerPeriod_frame
  exact hs.of_frame hr hp

/-! ### Validation and copy-back (R109, R119) -/

theorem State.operationPeriod_counts {s : State} (h : s.commit.state = .validating ∨ s.commit.state = .syncing)
    (hn : ¬ 2100 ≤ s.commit.elapsed + 1) :
    s.operationPeriod = { s with commit := { s.commit with elapsed := s.commit.elapsed + 1 } } := by
  unfold State.operationPeriod
  obtain h | h := h <;> rw [h] <;> exact if_neg hn

theorem State.operationPeriod_validated {s : State} (h : s.commit.state = .validating) (hn : 2100 ≤ s.commit.elapsed + 1) :
    s.operationPeriod = s.validationEnd := by
  unfold State.operationPeriod
  rw [h]
  exact if_pos hn

theorem State.operationPeriod_copied {s : State} (h : s.commit.state = .syncing) (hn : 2100 ≤ s.commit.elapsed + 1) :
    s.operationPeriod = s.copyBackEnd := by
  unfold State.operationPeriod
  rw [h]
  exact if_pos hn

theorem State.operationPeriod_settled {s : State} (hs : s.settled) : s.operationPeriod.settled := by
  cases h : s.commit.state
  case edit => rwa [State.operationPeriod_idle (.inl h)]
  case pending => rwa [State.operationPeriod_idle (.inr h)]
  case validating =>
    by_cases hn : 2100 ≤ s.commit.elapsed + 1
    · rw [State.operationPeriod_validated h hn]
      exact hs.of_frame (by simp) (by simp)
    · rw [State.operationPeriod_counts (.inl h) hn]
      exact hs
  case syncing =>
    by_cases hn : 2100 ≤ s.commit.elapsed + 1
    · rw [State.operationPeriod_copied h hn]
      exact State.copyBackEnd_settled hs
    · rw [State.operationPeriod_counts (.inr h) hn]
      exact hs

/-! ### The clock-loss timer (R139) -/

theorem State.lossPeriod_idle {s : State} (h : ¬ s.lossTimerRuns = true) : s.lossPeriod = s := if_neg h

theorem State.lossPeriod_counts {s : State} (h : s.lossTimerRuns = true)
    (hn : ¬ 256 * (s.downlink.lossTimeout.toNat + 1) ≤ s.downlink.lossTimer + 1) :
    s.lossPeriod = { s with downlink := { s.downlink with lossTimer := s.downlink.lossTimer + 1 } } :=
  (if_pos h).trans (if_neg hn)

theorem State.lossPeriod_expires {s : State} (h : s.lossTimerRuns = true)
    (hn : 256 * (s.downlink.lossTimeout.toNat + 1) ≤ s.downlink.lossTimer + 1) : s.lossPeriod = s.clockLossExpiry :=
  (if_pos h).trans (if_pos hn)

theorem State.lossPeriod_settled {s : State} (hs : s.settled) : s.lossPeriod.settled := by
  unfold State.lossPeriod
  split
  · split
    · exact hs.of_frame (by simp) (by simp)
    · exact hs
  · exact hs

/-! ### The bit clock generator (R128) -/

section
variable {s : State}

/-- The generator counts in a run on CLK_SRC INTERNAL alone. -/
theorem State.generatorPeriod_idle
    (h : ¬ (s.downlink.link = .running ∨ s.downlink.link = .stopping) ∨ s.downlink.clkSrc = .external) : s.generatorPeriod = s := by
  refine if_neg fun ⟨hc, hr⟩ => ?_
  obtain h | h := h
  · exact h ((LinkState.inRun_iff _).mp hr)
  · cases hc.symm.trans h

section
variable (hr : s.downlink.link = .running ∨ s.downlink.link = .stopping)
include hr

/-- The next falling edge within a word. -/
theorem State.fallingEdge_within (h : ¬ ∀ sh, s.downlink.shifting = some sh → sh.bit = 0) : s.fallingEdge = s.bitPeriodStart := by
  have hstop : ¬ s.stopDue = true := fun e => h (s.stopDue_iff.mp e).2.2
  rw [State.fallingEdge, if_neg hstop, if_pos (s.bitDue_iff.mpr ⟨hr, h⟩)]

variable (hc : s.downlink.clkSrc = .internal)
include hc

theorem State.generatorPeriod_counts (h : s.downlink.halfCount < s.downlink.bitDiv.toNat) :
    s.generatorPeriod = { s with downlink := { s.downlink with halfCount := s.downlink.halfCount + 1 } } :=
  (if_pos ⟨hc, (LinkState.inRun_iff _).mpr hr⟩).trans (if_neg (Nat.not_le.mpr h))

variable (h : s.downlink.bitDiv.toNat ≤ s.downlink.halfCount)
include h

theorem State.generatorPeriod_rises (hb : s.downlink.bclko = false) :
    s.generatorPeriod = { s with downlink := { s.downlink with bclko := true, halfCount := 0 } } := by
  rw [State.generatorPeriod, if_pos ⟨hc, (LinkState.inRun_iff _).mpr hr⟩, if_pos h, hb]
  rfl

theorem State.generatorPeriod_falls (hb : s.downlink.bclko = true) : s.generatorPeriod = s.fallingEdge := by
  rw [State.generatorPeriod, if_pos ⟨hc, (LinkState.inRun_iff _).mpr hr⟩, if_pos h, if_pos hb]

end

/-- The falling edge that ends the target row (R137). -/
theorem State.fallingEdge_rowSent (h : ∀ sh, s.downlink.shifting = some sh → sh.bit = 0) (hl : s.downlink.link = .stopping)
    (ht : s.downlink.target = .reached) : s.fallingEdge = s.stoppingEnd :=
  if_pos (s.stopDue_iff.mpr ⟨hl, ht, h⟩)

/-- The falling edge with which the next cell's first bit leaves (R9). -/
theorem State.fallingEdge_cell (h : ∀ sh, s.downlink.shifting = some sh → sh.bit = 0)
    (hl : s.downlink.link = .running ∨ s.downlink.target ≠ .reached) : s.fallingEdge = s.firstBit [] false := by
  have hstop : ¬ s.stopDue = true := fun e => by
    obtain ⟨hstopping, hreached, -⟩ := s.stopDue_iff.mp e
    obtain hl | ht := hl
    · cases hl.symm.trans hstopping
    · exact ht hreached
  have hbit : ¬ s.bitDue = true := fun e => (s.bitDue_iff.mp e).2 h
  rw [State.fallingEdge, if_neg hstop, if_neg hbit]

end

theorem exec_cellCompose {s : State} (hs : s.settled) (gaps : List CellGap) (reading : Bool) :
    exec (.cellCompose gaps reading) s = .next (s.firstBit gaps reading) :=
  congrArg Host.Outcome.next (State.outOfReset_settled hs _)

/-- Settles O43, part by part. -/
theorem refclkPeriod : Obligations.RefclkPeriod := by
  intro s hs hp
  have hs1 := State.drainChecks_settled hs
  have hs2 := State.dividerPeriod_settled hs1
  have hs3 := State.operationPeriod_settled hs2
  have hs4 := State.lossPeriod_settled hs3
  refine ⟨s.drainChecks, s.drainChecks.dividerPeriod, s.drainChecks.dividerPeriod.operationPeriod,
    s.drainChecks.dividerPeriod.operationPeriod.lossPeriod,
    s.drainChecks.dividerPeriod.operationPeriod.lossPeriod.generatorPeriod, ?step, rfl, ?divider,
    ⟨fun h => ?validation, fun h => ?copyBack, State.operationPeriod_idle⟩, ⟨fun hr hc => ?timer, fun h => ?noTimer⟩,
    ⟨fun hr hc => ⟨State.generatorPeriod_counts hr hc, State.generatorPeriod_rises hr hc, fun hn hb => ⟨fun h => ?bit,
      fun h hl ht => ?rowSent, fun h hl => ?cell⟩⟩, State.generatorPeriod_idle⟩⟩
  case step => rw [step, hp, State.refclk, State.outOfReset_settled hs]
  case divider =>
    rw [exec_tick hs1, State.dividerPeriod]
    split <;> rfl
  case validation =>
    rw [exec_validationEnd hs2]
    split
    · rw [State.operationPeriod_validated h ‹_›]
    · exact State.operationPeriod_counts (.inl h) ‹_›
  case copyBack =>
    rw [exec_copyBackEnd hs2]
    split
    · rw [State.operationPeriod_copied h ‹_›]
    · exact State.operationPeriod_counts (.inr h) ‹_›
  case timer =>
    have hruns := (State.lossTimerRuns_iff _).mpr ⟨hr, hc⟩
    rw [exec_clockLossExpiry hs3]
    split
    · rw [State.lossPeriod_expires hruns ‹_›]
    · exact State.lossPeriod_counts hruns ‹_›
  case noTimer => exact State.lossPeriod_idle (by rw [State.lossTimerRuns_false h]; simp)
  case bit => rw [exec_bitPeriodStart hs4, State.generatorPeriod_falls hr hc hn hb, State.fallingEdge_within hr h]
  case rowSent => rw [exec_stoppingEnd hs4, State.generatorPeriod_falls hr hc hn hb, State.fallingEdge_rowSent h hl ht]
  case cell => rw [exec_cellCompose hs4, State.generatorPeriod_falls hr hc hn hb, State.fallingEdge_cell h hl]

end Sys2Proof.Machine
end

section
/-! SUPPORT. How long the counted times last on an empty queue: the half periods of BCLKO, the clock-loss time, and the bound of validation
and copy-back (R109, R119, R128, R130, R131, R139). -/

namespace Sys2Proof.Machine

/-! ### Steps on an empty queue -/

/-- Where each of `n` steps takes `P k` to `P (k + 1)`, a run of up to `n` steps has `P` of its length. -/
theorem run_counts {P : Nat → State → Prop} {n : Nat} {s : State} (h0 : P 0 s)
    (hstep : ∀ k u, k < n → P k u → ∃ v, step u = .next v ∧ P (k + 1) v) {k : Nat} (hk : k ≤ n) :
    ∃ t, Sys2Proof.core.run k s = .next t ∧ P k t := by
  induction k with
  | zero => exact ⟨s, rfl, h0⟩
  | succ k ih =>
    obtain ⟨u, hu, hP⟩ := ih (by omega)
    obtain ⟨v, hv, hP'⟩ := hstep k u (by omega) hP
    exact ⟨v, run_succ hu hv, hP'⟩

theorem State.dividerPeriod_commit (s : State) : s.dividerPeriod.commit = s.commit := by
  obtain ⟨-, -, -, -, h, -⟩ := s.dividerPeriod_frame
  exact h

theorem State.dividerPeriod_downlink (s : State) : s.dividerPeriod.downlink = s.downlink := by
  obtain ⟨-, -, -, -, -, h, -⟩ := s.dividerPeriod_frame
  exact h

theorem State.dividerPeriod_window (s : State) : s.dividerPeriod.window = s.window := by
  obtain ⟨-, -, -, -, -, -, h⟩ := s.dividerPeriod_frame
  exact h

/-- Nothing is asked of the part: events take place, no command waits, and no watermark check is outstanding. -/
structure State.Idle (s : State) : Prop where
  settled : s.settled
  pending : s.pending = []
  checks : s.refill.checks = []

namespace State.Idle

variable {s : State} (h : s.Idle)
include h

theorem dividerPeriod : s.dividerPeriod.Idle := by
  obtain ⟨hp, -, -, hc, -⟩ := s.dividerPeriod_frame
  exact ⟨State.dividerPeriod_settled h.settled, hp.trans h.pending, by rw [hc]; exact h.checks⟩

theorem withDownlink (d : Downlink) : State.Idle { s with downlink := d } := ⟨h.settled, h.pending, h.checks⟩

theorem withCommit (c : Commit) : State.Idle { s with commit := c } := ⟨h.settled, h.pending, h.checks⟩

theorem step_eq : step s = .next s.dividerPeriod.operationPeriod.lossPeriod.generatorPeriod :=
  step_idle h.settled h.pending h.checks

end State.Idle

/-! ### The two clocks of the downlink port (R128, R139) -/

/-- The part on an empty queue with no commit in progress and the downlink port as `d`: the port's clocks alone count beside the tick
divider. -/
structure State.Clocked (d : Downlink) (s : State) : Prop where
  idle : s.Idle
  edit : s.commit.state = .edit
  downlink : s.downlink = d

namespace State.Clocked

variable {s : State} {d : Downlink}

theorem dividerPeriod (h : s.Clocked d) : s.dividerPeriod.Clocked d :=
  ⟨h.idle.dividerPeriod, by rw [s.dividerPeriod_commit]; exact h.edit, s.dividerPeriod_downlink.trans h.downlink⟩

theorem withDownlink (h : s.Clocked d) (d' : Downlink) : State.Clocked d' { s with downlink := d' } :=
  ⟨h.idle.withDownlink d', h.edit, rfl⟩

theorem step_eq (h : s.Clocked d) : step s = .next s.dividerPeriod.lossPeriod.generatorPeriod := by
  rw [h.idle.step_eq, State.operationPeriod_idle (.inl h.dividerPeriod.edit)]

/-- With CLK_SRC INTERNAL the generator alone counts. -/
theorem step_internal (h : s.Clocked d) (hc : d.clkSrc = .internal) : step s = .next s.dividerPeriod.generatorPeriod := by
  have hloss : s.dividerPeriod.lossTimerRuns = false :=
    State.lossTimerRuns_false (.inr (by rw [h.dividerPeriod.downlink]; exact hc))
  rw [h.step_eq, State.lossPeriod_idle (by rw [hloss]; simp)]

section
variable (h : s.Clocked d) (hr : d.link = .running ∨ d.link = .stopping)
include h hr

section
variable (hc : d.clkSrc = .internal)
include hc

/-- A period within a half period of BCLKO. -/
theorem step_half (hn : d.halfCount < d.bitDiv.toNat) :
    ∃ t, step s = .next t ∧ t.Clocked { d with halfCount := d.halfCount + 1 } := by
  obtain rfl := h.dividerPeriod.downlink
  refine ⟨_, h.step_internal hc, ?_⟩
  rw [State.generatorPeriod_counts hr hc hn]
  exact h.dividerPeriod.withDownlink _

/-- The period that ends BCLKO's low half. -/
theorem step_rise (hn : d.bitDiv.toNat ≤ d.halfCount) (hb : d.bclko = false) :
    ∃ t, step s = .next t ∧ t.Clocked { d with bclko := true, halfCount := 0 } := by
  obtain rfl := h.dividerPeriod.downlink
  refine ⟨_, h.step_internal hc, ?_⟩
  rw [State.generatorPeriod_rises hr hc hn hb]
  exact h.dividerPeriod.withDownlink _

/-- The period that ends BCLKO's high half within a word: the next bit begins (R130, R131). -/
theorem step_fall (hn : d.bitDiv.toNat ≤ d.halfCount) (hb : d.bclko = true) {sh : Shifting} (hsh : d.shifting = some sh)
    (hbit : sh.bit ≠ 0) :
    ∃ t, step s = .next t ∧ t.Clocked { d with
      shifting := some { word := sh.word, bit := sh.bit - 1 }, dout := sh.word.value.getLsbD (sh.bit - 1), mfs := false, jfs := false
      bclko := false, halfCount := 0, lossTimer := 0 } := by
  obtain rfl := h.dividerPeriod.downlink
  have hlow : decide (s.dividerPeriod.downlink.clkSrc = .external) = false := by rw [hc]; rfl
  refine ⟨_, h.step_internal hc, ?_⟩
  rw [State.generatorPeriod_falls hr hc hn hb, State.fallingEdge_within hr (fun e => hbit (e sh hsh)),
    State.bitPeriodStart_due hr hsh hbit, Downlink.beginBit_eq, hlow]
  exact h.dividerPeriod.withDownlink _

end

section
variable (hc : d.clkSrc = .external)
include hc

/-- With CLK_SRC EXTERNAL the clock-loss timer runs. -/
theorem lossTimerRuns : s.dividerPeriod.lossTimerRuns = true :=
  (State.lossTimerRuns_iff _).mpr (by rw [h.dividerPeriod.downlink]; exact ⟨hr, hc⟩)

/-- A period within the clock-loss time. -/
theorem step_loss (hn : ¬ 256 * (d.lossTimeout.toNat + 1) ≤ d.lossTimer + 1) :
    ∃ t, step s = .next t ∧ t.Clocked { d with lossTimer := d.lossTimer + 1 } := by
  have hruns := h.lossTimerRuns hr hc
  obtain rfl := h.dividerPeriod.downlink
  refine ⟨_, h.step_eq, ?_⟩
  rw [State.lossPeriod_counts hruns hn, State.generatorPeriod_idle (.inr (by exact hc))]
  exact h.dividerPeriod.withDownlink _

/-- The last period of the clock-loss time: the run is cut, and HALT is raised. -/
theorem step_expiry (hn : 256 * (d.lossTimeout.toNat + 1) ≤ d.lossTimer + 1) :
    ∃ t, step s = .next t ∧ t.downlink.link = .halted ∧ t.irq.flags.getLsbD 3 = true := by
  have hruns := h.lossTimerRuns hr hc
  obtain rfl := h.dividerPeriod.downlink
  have hcut : s.dividerPeriod.lossPeriod = (s.dividerPeriod.cutRun .halted).raise .halt := by
    rw [State.lossPeriod_expires hruns hn, State.clockLossExpiry, if_pos hruns]
  have hhalt : s.dividerPeriod.lossPeriod.downlink.link = .halted := by
    rw [hcut, State.cutRun_eq]
    rfl
  refine ⟨_, h.step_eq, ?_⟩
  rw [State.generatorPeriod_idle (.inl (by rw [hhalt]; simp))]
  exact ⟨hhalt, by simp [hcut, State.raise, Flag.mask]⟩

end
end

end State.Clocked

/-- The port `k` periods after a bit period of the internal generator began, within it: BCLKO is low for a half period and then high
(R128). -/
def Downlink.atPeriod (d : Downlink) (k : Nat) : Downlink :=
  { d with
    bclko := decide (d.bitDiv.toNat + 1 ≤ k)
    halfCount := if d.bitDiv.toNat + 1 ≤ k then k - (d.bitDiv.toNat + 1) else k }

theorem Downlink.atPeriod_low (d : Downlink) {k : Nat} (h : k < d.bitDiv.toNat + 1) :
    d.atPeriod k = { d with bclko := false, halfCount := k } := by
  simp only [Downlink.atPeriod, Nat.not_le.mpr h, decide_false, if_false]

theorem Downlink.atPeriod_high (d : Downlink) {k : Nat} (h : d.bitDiv.toNat + 1 ≤ k) :
    d.atPeriod k = { d with bclko := true, halfCount := k - (d.bitDiv.toNat + 1) } := by
  simp only [Downlink.atPeriod, h, decide_true, if_true]

/-- Within a bit period each period of REFCLK counts in its half, and one raises BCLKO. -/
theorem State.Clocked.step_atPeriod {s : State} {d : Downlink} {k : Nat} (h : s.Clocked (d.atPeriod k))
    (hr : d.link = .running ∨ d.link = .stopping) (hc : d.clkSrc = .internal) (hk : k < 2 * (d.bitDiv.toNat + 1) - 1) :
    ∃ t, step s = .next t ∧ t.Clocked (d.atPeriod (k + 1)) := by
  obtain hlow | hrise | hhigh : k + 1 < d.bitDiv.toNat + 1 ∨ k = d.bitDiv.toNat ∨ d.bitDiv.toNat + 1 ≤ k := by omega
  · rw [d.atPeriod_low (by omega)] at h
    rw [d.atPeriod_low hlow]
    exact h.step_half hr hc (show k < d.bitDiv.toNat by omega)
  · rw [d.atPeriod_low (by omega)] at h
    rw [d.atPeriod_high (by omega), hrise, Nat.sub_self]
    exact h.step_rise hr hc hrise.ge rfl
  · rw [d.atPeriod_high hhigh] at h
    rw [d.atPeriod_high (by omega), Nat.sub_add_comm hhigh]
    exact h.step_half hr hc (show k - (d.bitDiv.toNat + 1) < d.bitDiv.toNat by omega)

/-- A run through a bit period of the internal generator, up to its last period (R128). -/
theorem run_atPeriod {s : State} {d : Downlink} (h : s.Clocked (d.atPeriod 0)) (hr : d.link = .running ∨ d.link = .stopping)
    (hc : d.clkSrc = .internal) {k : Nat} (hk : k < 2 * (d.bitDiv.toNat + 1)) :
    ∃ t, Sys2Proof.core.run k s = .next t ∧ t.Clocked (d.atPeriod k) :=
  run_counts (n := 2 * (d.bitDiv.toNat + 1) - 1) (P := fun k t => t.Clocked (d.atPeriod k)) h
    (fun _ _ hk h => h.step_atPeriod hr hc hk) (by omega)

/-- A run on a BCLKI that brings no edge, up to the last period of the clock-loss time (R139). -/
theorem run_lossTimer {s : State} {d : Downlink} (h : s.Clocked { d with lossTimer := 0 })
    (hr : d.link = .running ∨ d.link = .stopping) (hc : d.clkSrc = .external) {k : Nat}
    (hk : k < 256 * (d.lossTimeout.toNat + 1)) :
    ∃ t, Sys2Proof.core.run k s = .next t ∧ t.Clocked { d with lossTimer := k } :=
  run_counts (n := 256 * (d.lossTimeout.toNat + 1) - 1) (P := fun k t => t.Clocked { d with lossTimer := k }) h
    (fun k _ hk h => h.step_loss hr hc (show ¬ 256 * (d.lossTimeout.toNat + 1) ≤ k + 1 by omega)) (by omega)

/-! ### Validation and copy-back out of a run (R109, R119) -/

/-- The part on an empty queue, out of a run, with the commit controller as `c` and no access held or waiting: the controller's operation
alone counts beside the tick divider. -/
structure State.Operating (c : Commit) (s : State) : Prop where
  idle : s.Idle
  outOfRun : s.downlink.link.inRun = false
  commit : s.commit = c
  held : s.window.held = none
  waiting : s.window.waiting = none

namespace State.Operating

variable {s : State} {c : Commit} (h : s.Operating c)
include h

theorem dividerPeriod : s.dividerPeriod.Operating c where
  idle := h.idle.dividerPeriod
  outOfRun := by rw [s.dividerPeriod_downlink]; exact h.outOfRun
  commit := s.dividerPeriod_commit.trans h.commit
  held := by rw [s.dividerPeriod_window]; exact h.held
  waiting := by rw [s.dividerPeriod_window]; exact h.waiting

/-- With the link out of a run neither clock counts. -/
theorem step_eq {t : State} (ht : s.dividerPeriod.operationPeriod = t) (hd : t.downlink = s.downlink) : step s = .next t := by
  rw [h.idle.step_eq, ht, State.clocks_idle (by rw [hd]; exact h.outOfRun)]

/-- A period within the bound. -/
theorem step_count (hst : c.state = .validating ∨ c.state = .syncing) (hn : ¬ 2100 ≤ c.elapsed + 1) :
    ∃ t, step s = .next t ∧ t.Operating { c with elapsed := c.elapsed + 1 } := by
  have hd := h.dividerPeriod
  have hcount := State.operationPeriod_counts (s := s.dividerPeriod) (by rw [hd.commit]; exact hst) (by rw [hd.commit]; exact hn)
  rw [hd.commit] at hcount
  exact ⟨_, h.step_eq hcount s.dividerPeriod_downlink, hd.idle.withCommit _, hd.outOfRun, rfl, hd.held, hd.waiting⟩

/-- The period that reaches the bound ends the operation. -/
theorem step_end (hst : c.state = .validating ∨ c.state = .syncing) (hn : 2100 ≤ c.elapsed + 1) :
    ∃ t, step s = .next t ∧ t.commit.state ≠ c.state := by
  have hd := h.dividerPeriod
  have hn' : 2100 ≤ s.dividerPeriod.commit.elapsed + 1 := by rw [hd.commit]; exact hn
  obtain hv | hc := hst
  · have hv' : s.dividerPeriod.commit.state = .validating := by rw [hd.commit]; exact hv
    refine ⟨_, h.step_eq (State.operationPeriod_validated hv' hn') (by simp [State.dividerPeriod_downlink]), ?_⟩
    cases hplan : s.dividerPeriod.commit.staging.validate with
    | none => simp [State.validationEnd_passed hv' hplan, hd.outOfRun, State.swap, hv]
    | some fault => simp [State.validationEnd_refused hv' (step := fault.1) (i := fault.2) hplan, hv]
  · have hc' : s.dividerPeriod.commit.state = .syncing := by rw [hd.commit]; exact hc
    have hend : s.dividerPeriod.operationPeriod = s.dividerPeriod.copyBack := by
      rw [State.operationPeriod_copied hc' hn', State.copyBackEnd_syncing hc', State.releaseRead_of_none (by exact hd.held),
        State.releaseWaiting_of_none (by exact hd.waiting)]
    refine ⟨_, h.step_eq hend s.dividerPeriod_downlink, ?_⟩
    rw [hc]
    exact fun e => CommitState.noConfusion e

end State.Operating

/-- A run through validation or copy-back, up to its last period. -/
theorem run_operating {s : State} {c : Commit} (h : s.Operating { c with elapsed := 0 })
    (hst : c.state = .validating ∨ c.state = .syncing) {k : Nat} (hk : k < 2100) :
    ∃ t, Sys2Proof.core.run k s = .next t ∧ t.Operating { c with elapsed := k } :=
  run_counts (n := 2099) (P := fun k t => t.Operating { c with elapsed := k }) h
    (fun k _ hk h => h.step_count hst (show ¬ 2100 ≤ k + 1 by omega)) (by omega)

/-! ### The counted times -/

/-- Settles O44: each time is a run of counts and the step that ends it. -/
theorem refclkCounts : Obligations.RefclkCounts := by
  intro s hs hp hch inRun half lossTime
  have hidle : s.Idle := ⟨hs, hp, hch⟩
  refine ⟨fun hr he hc hb hn => ?generator, fun hr he hc hn => ?loss, fun hr hst hn hh hw => ?operation⟩
  case generator =>
    have h0 : s.Clocked (s.downlink.atPeriod 0) := by
      refine ⟨hidle, he, ?_⟩
      rw [s.downlink.atPeriod_low (Nat.succ_pos _), ← hb, ← hn]
    have hrun {k : Nat} (hk : k < 2 * half) := run_atPeriod h0 hr hc hk
    refine ⟨fun k hk => ?within, fun sh hsh hbit => ?next⟩
    case within =>
      obtain ⟨t, ht, h⟩ := hrun hk
      exact ⟨t, ht, h.downlink⟩
    case next =>
      obtain ⟨u, hu, h⟩ := hrun (k := half + s.downlink.bitDiv.toNat) (by omega)
      rw [s.downlink.atPeriod_high (by omega)] at h
      obtain ⟨t, ht, h⟩ := h.step_fall hr hc (show s.downlink.bitDiv.toNat ≤ half + s.downlink.bitDiv.toNat - half by omega) rfl
        hsh (Nat.ne_of_gt hbit)
      refine ⟨t, ?_, h.downlink⟩
      rw [show 2 * half = half + s.downlink.bitDiv.toNat + 1 by omega]
      exact run_succ hu ht
  case loss =>
    have h0 : s.Clocked { s.downlink with lossTimer := 0 } := ⟨hidle, he, by rw [← hn]⟩
    have hrun {k : Nat} (hk : k < lossTime) := run_lossTimer h0 hr hc hk
    refine ⟨fun k hk => ?within, ?expiry⟩
    case within =>
      obtain ⟨t, ht, h⟩ := hrun hk
      exact ⟨t, ht, h.downlink⟩
    case expiry =>
      obtain ⟨u, hu, h⟩ := hrun (k := lossTime - 1) (by omega)
      obtain ⟨t, ht, hl, hf⟩ := h.step_expiry hr hc (show lossTime ≤ lossTime - 1 + 1 by omega)
      refine ⟨t, ?_, hl, hf⟩
      rw [show lossTime = lossTime - 1 + 1 by omega]
      exact run_succ hu ht
  case operation =>
    have hout : s.downlink.link.inRun = false := by rw [← Bool.not_eq_true, LinkState.inRun_iff]; exact hr
    have h0 : s.Operating { s.commit with elapsed := 0 } := ⟨hidle, hout, by rw [← hn], hh, hw⟩
    have hrun {k : Nat} (hk : k < 2100) := run_operating h0 hst hk
    refine ⟨fun k hk => ?within, ?bound⟩
    case within =>
      obtain ⟨t, ht, h⟩ := hrun hk
      exact ⟨t, ht, h.commit⟩
    case bound =>
      obtain ⟨u, hu, h⟩ := hrun (k := 2099) (by omega)
      obtain ⟨t, ht, he⟩ := h.step_end hst (Nat.le_refl 2100)
      exact ⟨t, run_succ hu ht, he⟩

end Sys2Proof.Machine
end

section
/-! SUPPORT. The time counter: what a tick and a rising edge of TSYNC do under each pending load, the accesses to its registers, and the
tick divider on an empty queue (R144, R145, R147 … R149, R152). -/

namespace Sys2Proof.Machine

/-! ### Ticks and loads (R144, R148, R149) -/

/-- A load takes the preset and raises TIME_LOADED. -/
theorem State.loadTime_eq (s : State) : s.loadTime =
    { s with
      time := { s.time with
        counter := s.time.presetH ++ s.time.presetM ++ s.time.presetL, load := .none, timeSet := true }
      irq := { s.irq with flags := s.irq.flags ||| 0x200 } } := rfl

/-- A tick with no TICK load pending advances the counter. -/
theorem State.tick_advances {s : State} (h : s.time.load ≠ .tick) :
    s.tick = { s with time := { s.time with counter := s.time.counter + 1, divider := 0 } } := by
  unfold State.tick
  cases hl : s.time.load with
  | tick => exact absurd hl h
  | none => rfl
  | tsync => rfl

/-- A TICK load takes the tick. -/
theorem State.tick_loads {s : State} (h : s.time.load = .tick) : s.tick = s.restartDivider.loadTime := by
  simp only [State.tick, h]

/-- A TSYNC load takes the rising edge, which restarts the divider. -/
theorem State.tsyncEdge_loads {s : State} (h : s.time.load = .tsync) : s.tsyncEdge = s.loadTime.restartDivider := by
  simp only [State.tsyncEdge, h]

/-- A rising edge with no TSYNC load pending is ignored. -/
theorem State.tsyncEdge_ignored {s : State} (h : s.time.load ≠ .tsync) : s.tsyncEdge = s := by
  unfold State.tsyncEdge
  cases hl : s.time.load with
  | tsync => exact absurd hl h
  | none => rfl
  | tick => rfl

/-- Settles O9, by the event and the pending load. -/
theorem ticksAndLoads : Obligations.TicksAndLoads := by
  intro s hs
  rw [exec_tick hs, exec_tsyncEdge hs]
  refine ⟨fun h => ?advance, fun h => ?tickLoad, fun h => ?edgeLoad, fun h => ?ignored⟩
  case advance => rw [State.tick_advances h]
  case tickLoad =>
    rw [State.tick_loads h, State.loadTime_eq]
    rfl
  case edgeLoad =>
    rw [State.tsyncEdge_loads h, State.loadTime_eq]
    rfl
  case ignored => rw [State.tsyncEdge_ignored h]

/-! ### Accesses to the time counter (R145, R147, R152) -/

section
variable {s : State} (hs : s.ready)
include hs

theorem exec_tickDivWrite (w : Word) : exec (.tickDivWrite w) s = .next (s.tickDivWrite w) :=
  congrArg Host.Outcome.next (State.takeAccess_ready hs _ _)

theorem exec_loadAtTick : exec .loadAtTick s = .next (s.setLoad .tick) :=
  congrArg Host.Outcome.next (State.takeAccess_ready hs _ _)

theorem exec_loadAtTsync : exec .loadAtTsync s = .next (s.setLoad .tsync) :=
  congrArg Host.Outcome.next (State.takeAccess_ready hs _ _)

theorem exec_timeCancel : exec .timeCancel s = .next (s.setLoad .none) :=
  congrArg Host.Outcome.next (State.takeAccess_ready hs _ _)

theorem exec_timeCtrlUndefinedRequest (w : Word) : exec (.timeCtrlUndefinedRequest w) s = .next (s.timeCtrlWrite w) :=
  congrArg Host.Outcome.next (State.takeAccess_ready hs _ _)

theorem exec_timeReadH : exec .timeReadH s = .next s.timeReadH :=
  congrArg Host.Outcome.next (State.takeAccess_ready hs _ _)

theorem State.access_ready (h : HostAccess) : s.access h = s.carryOut h := State.takeAccess_ready hs _ _

end

/-- A word that names none of the three requests is refused (R147). -/
theorem State.timeCtrlWrite_undefined (s : State) {w : Word} (h1 : w ≠ 1) (h2 : w ≠ 2) (h3 : w ≠ 3) :
    s.timeCtrlWrite w = s.report .regWrite 0x34 13 := by
  unfold State.timeCtrlWrite
  rw [if_neg h1, if_neg h2, if_neg h3]
  rfl

/-- Settles O10, register by register. -/
theorem timeRegisterAccesses : Obligations.TimeRegisterAccesses := by
  intro w raised s hs
  rw [exec_tickDivWrite hs, exec_loadAtTick hs, exec_loadAtTsync hs, exec_timeCancel hs, exec_timeCtrlUndefinedRequest hs,
    exec_timeReadH hs, State.access_ready hs, State.access_ready hs]
  exact ⟨rfl, rfl, rfl, rfl, fun h1 h2 h3 => by rw [s.timeCtrlWrite_undefined h1 h2 h3], rfl, rfl, rfl⟩

/-! ### The tick divider on an empty queue (R144) -/

theorem State.dividerPeriod_counts {s : State} (h : s.time.divider < s.time.tickDiv.toNat) :
    s.dividerPeriod = { s with time := { s.time with divider := s.time.divider + 1 } } := if_neg (Nat.not_le.mpr h)

theorem State.dividerPeriod_ticks {s : State} (h : s.time.tickDiv.toNat ≤ s.time.divider) : s.dividerPeriod = s.tick := if_pos h

/-- Nothing but the tick divider counts: nothing is asked of the part, the link is STOPPED and no commit is in progress. -/
structure State.OnlyDivider (s : State) : Prop where
  idle : s.Idle
  stopped : s.downlink.link = .stopped
  edit : s.commit.state = .edit

namespace State.OnlyDivider

variable {s : State} (h : s.OnlyDivider)
include h

theorem withTime (c : TimeCounter) : State.OnlyDivider { s with time := c } :=
  ⟨⟨h.idle.settled, h.idle.pending, h.idle.checks⟩, h.stopped, h.edit⟩

theorem step_eq : step s = .next s.dividerPeriod := by
  have hedit : s.dividerPeriod.commit.state = .edit := by rw [s.dividerPeriod_commit]; exact h.edit
  have hout : s.dividerPeriod.downlink.link.inRun = false := by rw [s.dividerPeriod_downlink, h.stopped]; rfl
  rw [h.idle.step_eq, State.operationPeriod_idle (.inl hedit), State.clocks_idle hout]

theorem step_counts (hd : s.time.divider < s.time.tickDiv.toNat) :
    step s = .next { s with time := { s.time with divider := s.time.divider + 1 } } := by
  rw [h.step_eq, State.dividerPeriod_counts hd]

theorem step_ticks (hd : s.time.tickDiv.toNat ≤ s.time.divider) (hl : s.time.load ≠ .tick) :
    step s = .next { s with time := { s.time with counter := s.time.counter + 1, divider := 0 } } := by
  rw [h.step_eq, State.dividerPeriod_ticks hd, State.tick_advances hl]

/-- From a divider at zero, each of the first TICK_DIV steps counts. -/
theorem run_divider (h0 : s.time.divider = 0) {k : Nat} (hk : k ≤ s.time.tickDiv.toNat) :
    Sys2Proof.core.run k s = .next { s with time := { s.time with divider := k } } := by
  have hstep (k : Nat) (u : State) (hk : k < s.time.tickDiv.toNat) (hu : u = { s with time := { s.time with divider := k } }) :
      ∃ v, step u = .next v ∧ v = { s with time := { s.time with divider := k + 1 } } := by
    subst hu
    exact ⟨_, (h.withTime { s.time with divider := k }).step_counts hk, rfl⟩
  obtain ⟨t, ht, rfl⟩ := run_counts (P := fun k t => t = { s with time := { s.time with divider := k } }) (by rw [← h0]) hstep hk
  exact ht

end State.OnlyDivider

/-- Settles O3: TICK_DIV steps count, and the next one ticks. -/
theorem idleStepsTickOncePerDivision : Obligations.IdleStepsTickOncePerDivision := by
  intro s hs hp hl hc hch hload h0
  have h : s.OnlyDivider := ⟨⟨hs, hp, hch⟩, hl, hc⟩
  have hnone : s.time.load ≠ .tick := by rw [hload]; simp
  have htick := (h.withTime { s.time with divider := s.time.tickDiv.toNat }).step_ticks (Nat.le_refl _) hnone
  refine ⟨fun k hk => h.run_divider h0 hk, run_succ (h.run_divider h0 (Nat.le_refl _)) ?tick⟩
  case tick => rw [htick, ← h0]

end Sys2Proof.Machine
end

section
/-! SUPPORT. Every step keeps the canonical form of the buffer and of both banks, and TBL_INDEX within its table: what the run's events and a
reset do to them, and then each access, event and piece of a composition (R118, R162, R170, R171). -/

namespace Sys2Proof.Machine

/-! ### The operations that reach a memory -/

namespace State.MemoryLawful

variable {s t : State}

theorem bufDataWrite (hs : s.MemoryLawful) (w : Word) : (s.bufDataWrite w).MemoryLawful :=
  (hs.bufferWrite s.window.bufAddr w).congr rfl rfl rfl rfl rfl

theorem startRun (hs : s.MemoryLawful) : s.startRun.MemoryLawful := by
  unfold State.startRun State.composeFirst
  refine (State.MemoryLawful.openCell ?_ 0 0).same rfl rfl rfl
  exact hs.same rfl rfl rfl

theorem startRequest (hs : s.MemoryLawful) (w : Word) : (s.startRequest w).MemoryLawful := by
  obtain ⟨-, h⟩ | ⟨-, -, h⟩ | ⟨-, -, h⟩ := s.startRequest_cases w <;> rw [h]
  · exact hs.same (by simp) (by simp) (by simp)
  · refine State.MemoryLawful.startRun ?_
    exact hs.same rfl rfl rfl
  · exact hs.same rfl rfl rfl

theorem startEdge (hs : s.MemoryLawful) : s.startEdge.MemoryLawful := by
  obtain ⟨-, h⟩ | ⟨-, h⟩ := s.startEdge_cases <;> rw [h]
  · exact hs
  · exact hs.startRun

theorem abort (hs : s.MemoryLawful) : s.abort.MemoryLawful := by
  unfold State.abort
  split
  case h_1 | h_2 => exact (hs.cutRun .stopped).same rfl rfl rfl
  case h_3 => exact hs.same rfl rfl rfl
  case h_4 | h_5 => exact hs

theorem stoppingEnd (hs : s.MemoryLawful) : s.stoppingEnd.MemoryLawful := by
  unfold State.stoppingEnd
  split
  · exact (hs.leaveRun .stopped).same rfl rfl rfl
  · exact hs

theorem clockLossExpiry (hs : s.MemoryLawful) : s.clockLossExpiry.MemoryLawful := by
  unfold State.clockLossExpiry
  split
  · exact (hs.cutRun .halted).same rfl rfl rfl
  · exact hs

theorem majorEndPoint (hs : s.MemoryLawful) : s.majorEndPoint.MemoryLawful := by
  unfold State.majorEndPoint
  refine State.MemoryLawful.swapIfPending ?_
  exact hs.same rfl rfl rfl

/-- The copy-back makes the Staging bank the Active one's copy (R119). -/
theorem copyBack (hs : s.MemoryLawful) : s.copyBack.MemoryLawful := ⟨hs.buffer, hs.active, hs.active, hs.index⟩

/-- A reset leaves the default plan in both banks and TBL_INDEX at 0 of FORMAT, whatever becomes of the buffer (R105, R171). -/
theorem ofReset (hb : Memory.wf bufferDefault Config.bufferWords t.buffer = true) (hc : t.commit = Commit.reset)
    (hi : t.window.index = 0) : t.MemoryLawful :=
  ⟨hb, by rw [hc]; rfl, by rw [hc]; rfl, by rw [hi]; exact Table.size_pos _⟩

theorem hardwareReset (hs : s.MemoryLawful) (powerUp : Bool) : (s.hardwareReset powerUp).MemoryLawful := by
  refine ofReset ?_ rfl rfl
  cases powerUp with
  | true => rfl
  | false => exact hs.buffer

theorem resetRelease (hs : s.MemoryLawful) : s.resetRelease.MemoryLawful := by
  unfold State.resetRelease
  split
  · exact hs.same rfl rfl rfl
  · exact hs

/-! ### Accesses carried out at once -/

/-- Of the accesses only an append and the buffer port reach the buffer, a table write, the commit and run requests and a soft reset the
banks, and the table access unit TBL_INDEX. -/
theorem carryOut (hs : s.MemoryLawful) (h : HostAccess) : (s.carryOut h).MemoryLawful := by
  apply State.carryOut_keeps (P := State.MemoryLawful) s h
  case start => exact hs.startRequest
  case abort => exact hs.abort
  case commit => exact hs.commitCtrlWrite
  case sel => exact hs.tblSelWrite
  case index => exact hs.tblIndexWrite
  case dataWrite => exact hs.tableDataWrite
  case dataRead => exact hs.tableDataRead
  case bufWrite => exact hs.bufDataWrite
  case append => exact hs.append
  case softReset => exact .ofReset hs.buffer rfl rfl
  case bufAddr | bufRead | answer | timeRead => intros; exact hs.congr rfl rfl rfl rfl rfl
  all_goals intros; exact hs.same (by simp) (by simp) (by simp)

end State.MemoryLawful

/-! ### Every step -/

theorem keptPieces_memory : KeptPieces State.MemoryLawful where
  carryOut _ h hs := hs.carryOut h
  port _ _ hs := hs.same rfl rfl rfl
  window _ _ _ _ hs := hs.congr rfl rfl rfl rfl rfl
  advanceIndex _ hs := hs.advanceIndex
  takeCheck _ _ hs := hs.same (by simp) (by simp) (by simp)
  tick _ hs := hs.same (by simp) (by simp) (by simp)
  tsyncEdge _ hs := hs.same (by simp) (by simp) (by simp)
  validationEnd _ hs := hs.validationEnd
  copyBack _ _ hs := hs.copyBack

theorem keptCompose_memory : KeptCompose State.MemoryLawful State.MemoryLawful where
  events := keptPieces_memory.events
  openCell _ m c hs := hs.openCell m c
  setLookahead _ _ _ _ hs := hs.same rfl rfl rfl
  consult _ _ hs := hs.same (by simp) (by simp) (by simp)
  close _ _ _ hs := hs.same rfl rfl rfl

theorem State.MemoryLawful.firstBit {s : State} (hs : s.MemoryLawful) (gaps : List CellGap) (reading : Bool) :
    (s.firstBit gaps reading).MemoryLawful :=
  keptCompose_memory.firstBit (fun _ h => h) (fun _ _ _ _ _ h => h.same rfl rfl rfl)
    (fun _ _ h => h.same (by simp) (by simp) (by simp)) (fun _ h => h.majorEndPoint) (fun _ h => h.same rfl rfl rfl) s gaps reading hs

theorem kept_memory : Kept State.MemoryLawful where
  pending _ _ hs := hs.same rfl rfl rfl
  settle := keptPieces_memory.settle
  hold s h _ _ _ := keptPieces_memory.hold s h
  wait s x h _ _ := keptPieces_memory.waitBehind s x h
  carryOut s h _ _ := keptPieces_memory.carryOut s h
  hardwareReset _ b hs := hs.hardwareReset b
  resetRelease _ hs := hs.resetRelease
  takeCheck := keptPieces_memory.takeCheck
  startEdge _ hs := hs.startEdge
  stoppingEnd _ hs := hs.stoppingEnd
  clockLossExpiry _ hs := hs.clockLossExpiry
  bclkiRisingEdge _ hs := hs.same (by simp) (by simp) (by simp)
  bitPeriodStart _ hs := hs.same (by simp) (by simp) (by simp)
  firstBit _ gaps reading _ hs := hs.firstBit gaps reading
  validationEnd := keptPieces_memory.validationEnd
  copyBackEnd s _ := keptPieces_memory.copyBackEnd s
  tick := keptPieces_memory.tick
  tsyncEdge := keptPieces_memory.tsyncEdge
  divider _ _ hs := hs.same rfl rfl rfl
  elapsed _ _ hs := hs.congr rfl rfl rfl rfl rfl
  lossTimer _ _ hs := hs.same rfl rfl rfl
  halfCount _ _ hs := hs.same rfl rfl rfl
  rise _ hs := hs.same rfl rfl rfl

/-- Settles O57: what every access and every event keeps, every step keeps. -/
theorem stepKeepsMemory : Obligations.StepKeepsMemory := fun _ _ hs h => kept_memory.step hs h

end Sys2Proof.Machine
end

section
/-! SUPPORT. Accesses that are not taken at once: RESET# asserted, and the buffer's port busy or an access held (R154, R157, R158, R160,
R165). -/

namespace Sys2Proof.Machine

/-! ### RESET# asserted (R160) -/

theorem State.takeAccess_inReset {s : State} (h : s.resetAsserted = true) (a : HostAccess) (body : State → State) :
    s.takeAccess a body = s := if_pos h

theorem State.outOfReset_inReset {s : State} (h : s.resetAsserted = true) (body : State → State) : s.outOfReset body = s := if_pos h

/-- Settles O4: a command is an access, which is not taken, or an event, which has no effect, but for the two that concern RESET#. -/
theorem resetAssertedAndReleased : Obligations.ResetAssertedAndReleased := by
  intro c s
  refine ⟨fun hr hreset hrelease => ?asserted, fun hr => ?released, fun hr => ?noRelease⟩
  case asserted =>
    cases hc : accessOf c with
    | some h => rw [exec_of_access hc, State.access, State.takeAccess_inReset hr]
    | none =>
      cases c <;> simp only [accessOf, reduceCtorEq] at hc
      case clockRegisterWrite r w => cases r <;> cases hc
      case hardwareReset b => exact absurd rfl (hreset b)
      case resetRelease => exact absurd rfl hrelease
      all_goals exact congrArg Host.Outcome.next (State.outOfReset_inReset hr _)
  case released => exact congrArg Host.Outcome.next (if_pos hr)
  case noRelease => exact congrArg Host.Outcome.next (if_neg (by simp [hr]))

/-! ### The port busy, or an access held (R158, R165) -/

/-- An access to the buffer, with the port busy and none held yet, is held. -/
theorem State.access_held {s : State} (hr : s.resetAsserted = false) {h : HostAccess} (hu : h.portUse.isSome = true)
    (hp : s.port.isSome = true) (hn : s.window.held = none) : s.access h = s.hold h := by
  simp [State.access, State.takeAccess, State.heldAtPort, hr, hu, hp, hn]

/-- Behind a held access, with the port free, the next one waits. -/
theorem State.access_waits {s : State} (hr : s.resetAsserted = false) (hp : s.port = none) {x : HeldAccess}
    (hx : s.window.held = some x) (h : HostAccess) : s.access h = s.waitBehind x h := by
  simp [State.access, State.takeAccess, State.heldAtPort, hr, hp, hx, State.settle_of_free hp]

/-- With nothing held, the end of the access in progress frees the port. -/
theorem State.settle_of_none {s : State} (hn : s.window.held = none) : s.settle = { s with port := none } := by
  cases hp : s.port with
  | none => rw [State.settle_of_free hp, ← hp]
  | some r => simp only [State.settle, hp, hn]

/-- At the end of the access in progress the held one is performed. -/
theorem State.settle_of_held {s : State} {r : Requester} (hp : s.port = some r) {x : HeldAccess} (hx : s.window.held = some x)
    {p : PortAccess} (hu : x.access.portUse = some p) :
    s.settle = State.performHeld { s with port := none, window := { s.window with held := none } } p x.abandoned := by
  simp only [State.settle, hp, hx, hu]

/-- A port access that was held is performed, and delivers no data when its cycle was abandoned. -/
theorem State.performHeld_eq (s : State) (p : PortAccess) (abandoned : Bool) : s.performHeld p abandoned =
    { s.portAccess p with window := { (s.portAccess p).window with
        readData := if abandoned then s.window.readData else (s.portAccess p).window.readData } } := by
  cases abandoned <;> rfl

/-- A REFCLK period of an empty queue finds the buffer access in progress ended (log entry 12). -/
theorem step_settle {s : State} (hr : s.resetAsserted = false) (hq : s.pending = []) : step s = step s.settle := by
  simp only [step, hq, State.settle_pending, State.refclk, State.outOfReset_released hr,
    State.outOfReset_released (s := s.settle) (by simpa using hr), State.settle_settle]

/-- Settles O5, by the port and what is held. -/
theorem accessesHeldAndWaiting : Obligations.AccessesHeldAndWaiting := by
  intro c s hr toBuffer raised freed elsewhere
  refine ⟨fun r h hp hn hc hb => ?held, fun r hp hn he hc => ?free, fun r x d done hp hx hb hd hdone => ?performed,
    fun x h hp hx hc => ?waits, ?waitLow⟩
  case held =>
    have hraised : raised h = h.raised := by cases h <;> rfl
    rw [exec_of_access hc, State.access_held hr ((HostAccess.portUse_isSome_iff h).mpr hb) (by simp [hp]) hn, State.hold, hraised]
  case free =>
    have hport (h : HostAccess) (ha : accessOf c = some h) : s.heldAtPort h = false := by
      have hu : h.portUse.isSome = false := by
        rw [← Bool.not_eq_true, HostAccess.portUse_isSome_iff]
        exact hc h ha
      simp [State.heldAtPort, hu]
    rw [exec_settle hr he.1 he.2 hport, State.settle_of_none hn]
  case performed =>
    intro ended
    obtain ⟨p, hu⟩ := Option.isSome_iff_exists.mp ((HostAccess.portUse_isSome_iff x.access).mpr hb)
    have hended : s.settle = ended := by
      have hready : State.ready { freed with window := { s.window with held := none } } := ⟨⟨hr, rfl⟩, rfl⟩
      have hperformed := Host.Outcome.next.inj ((exec_of_portUse hd hu hready).symm.trans hdone)
      rw [State.settle_of_held hp hx hu, State.performHeld_eq, hperformed]
    have hport (h : HostAccess) (_ : accessOf c = some h) : s.heldAtPort h = false := by simp [State.heldAtPort, hx]
    exact ⟨fun he => hended ▸ exec_settle hr he.1 he.2 hport, fun hq => hended ▸ step_settle hr hq⟩
  case waits => rw [exec_of_access hc, State.access_waits hr hp hx, State.waitBehind]
  case waitLow => exact Option.isSome_iff_ne_none

end Sys2Proof.Machine
end

section
/-! SUPPORT. The registers of the window that a write only stores into or leaves, and the reads without an effect, by byte offset (R146, R157,
R159, R167). -/

namespace Sys2Proof.Machine

/-! ### Writes (R159) -/

theorem exec_registerWrite {s : State} (hs : s.ready) (a : BitVec 6) (w : Word) :
    exec (.registerWrite a w) s = .next (s.writeRegister (2 * a.toNat) w) :=
  congrArg Host.Outcome.next (State.takeAccess_ready hs _ _)

/-- Above the last register's offset there is no register to write. -/
theorem State.writeRegister_above (s : State) (w : Word) {off : Nat} (h : 0x4A ≤ off) : s.writeRegister off w = s := by
  unfold State.writeRegister
  split
  case h_24 => rfl
  all_goals omega

/-- A write to a plain register is stored when the register is a preset, BUF_ADDR or APPEND_SRC, and has no effect else. -/
theorem State.writeRegister_plain (s : State) (w : Word) {off : Nat} (h : off ∈ plainOffsets) : s.writeRegister off w =
    if off = 0x2E then { s with time := { s.time with presetH := w } }
    else if off = 0x30 then { s with time := { s.time with presetM := w } }
    else if off = 0x32 then { s with time := { s.time with presetL := w } }
    else if off = 0x1A then { s with window := { s.window with bufAddr := w.setWidth 15 } }
    else if off = 0x1E then { s with sources := { s.sources with appendSrc := w.setWidth 8 } }
    else s := by
  revert off
  simp only [plainOffsets, List.forall_mem_cons]
  exact ⟨rfl, rfl, rfl, rfl, rfl, rfl, rfl, rfl, rfl, rfl, rfl, rfl, rfl, rfl, rfl, rfl, rfl, rfl, rfl, fun _ h => nomatch h⟩

/-- Settles O13: the plain registers, and the offsets above them. -/
theorem registerWriteResults : Obligations.RegisterWriteResults := by
  intro a w s hs hwf
  rw [exec_registerWrite hs]
  simp only [Instr.wellFormed, isPlainRegister, Bool.or_eq_true, List.contains_iff_mem, decide_eq_true_eq] at hwf
  obtain h | h := hwf
  · rw [s.writeRegister_plain w h]
  · rw [s.writeRegister_above w h, if_neg (by omega), if_neg (by omega), if_neg (by omega), if_neg (by omega), if_neg (by omega)]

/-! ### Reads (R157, R159) -/

/-- A read of any register but the three ports is answered with its word. -/
theorem State.readRegister_view (s : State) (raised : Bool) {off : Nat} (h1 : off ≠ 0x18) (h2 : off ≠ 0x1C) (h3 : off ≠ 0x36) :
    s.readRegister off raised = s.answer (s.registerView off) := by
  unfold State.readRegister
  split
  case h_4 => rfl
  all_goals contradiction

/-- Above the last register's offset there is no register to read. -/
theorem State.registerView_above (s : State) {off : Nat} (h : 0x4A ≤ off) : s.registerView off = 0 := by
  unfold State.registerView
  split
  case h_30 => rfl
  all_goals omega

/-- After reset REFILL_HEAD shows the empty queue, and every other register zeros. -/
theorem State.reset_registerView (off : Nat) : State.reset.registerView off = if off = 0x26 then 0x00FF else 0 := by
  split
  case isTrue h => rw [h]; rfl
  case isFalse h =>
    unfold State.registerView
    split
    case h_14 => exact absurd rfl h
    all_goals rfl

/-- Settles O14: the view that a read without an effect answers with, and its values after reset. -/
theorem readsAndResetValues : Obligations.ReadsAndResetValues := by
  refine ⟨fun a raised s hs h1 h2 h3 => ?answered, fun s => ?writeOnly, fun s off h => s.registerView_above h,
    fun a _ _ _ => ?afterReset, rfl⟩
  case answered =>
    rw [State.access_ready hs, State.carryOut, State.readRegister_view s raised h1 h2 h3]
    rfl
  case writeOnly =>
    simp only [List.forall_mem_cons]
    exact ⟨rfl, rfl, rfl, rfl, rfl, fun _ h => nomatch h⟩
  case afterReset =>
    have head : 2 * a.toNat = 0x26 ↔ a = 0x13 := by bv_omega
    simp only [State.reset_registerView, head]

end Sys2Proof.Machine
end

section
/-! SUPPORT. The table access unit: TBL_SEL and TBL_INDEX, writes to plan tables, and reads of TBL_DATA (R102, R103, R158, R161 … R164,
R189). -/

namespace Sys2Proof.Machine

section
variable {s : State} (hs : s.ready)
include hs

theorem exec_tblSelWrite (w : Word) : exec (.tblSelWrite w) s = .next (s.tblSelWrite w) :=
  congrArg Host.Outcome.next (State.takeAccess_ready hs _ _)

theorem exec_tblIndexWrite (w : Word) : exec (.tblIndexWrite w) s = .next (s.tblIndexWrite w) :=
  congrArg Host.Outcome.next (State.takeAccess_ready hs _ _)

theorem exec_tableDataWrite (w : Word) : exec (.tableDataWrite w) s = .next (s.tableDataWrite w) :=
  congrArg Host.Outcome.next (State.takeAccess_ready hs _ _)

theorem exec_tableDataRead (raised : Bool) : exec (.tableDataRead raised) s = .next (s.tableDataRead raised) :=
  congrArg Host.Outcome.next (State.takeAccess_ready hs _ _)

end

/-! ### TBL_SEL and TBL_INDEX (R161, R162) -/

/-- The TABLE codes 0 … 5 name the tables in their order. -/
theorem tableOf_eq (code : BitVec 3) :
    tableOf code = [Table.plan .format, .plan .map, .plan .group, .plan .row, .plan .window, .source][code.toNat]? := by
  revert code
  decide

theorem State.tblSelWrite_of_some {w : Word} {t : Table} (h : tableOf (w.extractLsb' 0 3) = some t) (s : State) : s.tblSelWrite w =
    { s with window := { s.window with table := t, bank := roleOf (w.getLsbD 8), index := 0 } } := by
  simp only [State.tblSelWrite, h]

theorem State.tblSelWrite_of_none {w : Word} (h : tableOf (w.extractLsb' 0 3) = none) (s : State) :
    s.tblSelWrite w = s.refuseRegWrite 0x14 .range := by
  simp only [State.tblSelWrite, h]

/-- Settles O27, by the TABLE code, and for each table's size. -/
theorem tableSelectionWrites : Obligations.TableSelectionWrites := by
  intro w s hs
  rw [exec_tblSelWrite hs, exec_tblIndexWrite hs]
  refine ⟨fun t ht => ?selected, fun h => ?refused, fun p hp ht => ?index⟩
  case selected =>
    rw [State.tblSelWrite_of_some ((tableOf_eq _).trans ht)]
    rfl
  case refused =>
    rw [State.tblSelWrite_of_none ((tableOf_eq _).trans (List.getElem?_eq_none h))]
    rfl
  case index =>
    have hsize : p.1.size = p.2 := by
      clear ht
      revert p
      decide
    rw [State.tblIndexWrite, ht, hsize]

/-! ### Writes to plan tables (R102, R164) -/

section
variable {s : State} {t : PlanTable} (ht : s.window.table = .plan t)
include ht

/-- A written word of a plan table goes into the Staging bank. -/
theorem State.tableDataWrite_staged (hb : s.window.bank = .staging) (hc : s.commit.state = .edit) (w : Word) : s.tableDataWrite w =
    { s with
      commit := { s.commit with staging := s.commit.staging.setWord t s.window.index w }
      window := { s.window with index := (s.window.index + 1) % (Table.plan t).size } } := by
  simp only [State.tableDataWrite, writeTableWord, writePlanWord, State.advanceIndex, ht, hb, hc, if_true]

/-- A refused write is reported with the table, the bank, the reason and TBL_INDEX, which advances. -/
theorem State.tableDataWrite_refused {r : Reason} {w : Word} (h : writePlanWord t w s = .error r) : s.tableDataWrite w =
    { s.report .tableWrite (t.code.setWidth 16 ||| field 8 s.window.bank.code) (r.code ++ BitVec.ofNat 12 s.window.index) with
      window := { s.window with index := (s.window.index + 1) % (Table.plan t).size } } := by
  have hwrite : writeTableWord w s = .error r := by simp only [writeTableWord, ht, h]
  have hsel : tblSelWord (.plan t) s.window.bank = t.code.setWidth 16 ||| field 8 s.window.bank.code := by
    rw [tblSelWord, field_zero]
    rfl
  simp only [State.tableDataWrite, hwrite, State.advanceIndex, State.report_window, ht, hsel, field_or_field, BitVec.setWidth_eq]

end

theorem writePlanWord_active {s : State} (hb : s.window.bank = .active) (t : PlanTable) (w : Word) :
    writePlanWord t w s = .error .activeBank := by
  simp only [writePlanWord, hb]

theorem writePlanWord_locked {s : State} (hb : s.window.bank = .staging) (hc : s.commit.state ≠ .edit) (t : PlanTable) (w : Word) :
    writePlanWord t w s = .error .locked := by
  simp only [writePlanWord, hb, hc, if_false]

/-- Settles O28, by the bank and the controller's state. -/
theorem planTableWrites : Obligations.PlanTableWrites := by
  intro t w s hs hm ht next refused
  rw [exec_tableDataWrite hs]
  refine ⟨fun hb hc => ⟨s.commit.staging.setWord t s.window.index w, ?accepted, fun u j => ?words⟩, fun hb => ?active,
    fun hb hc => ?locked⟩
  case accepted => rw [State.tableDataWrite_staged ht hb hc]
  case words => exact Bank.word_setWord _ hm.staging t u s.window.index j w
  case active =>
    rw [State.tableDataWrite_refused ht (writePlanWord_active hb t w), hb]
    rfl
  case locked =>
    rw [State.tableDataWrite_refused ht (writePlanWord_locked hb hc t w), hb]
    rfl

/-! ### Reads of TBL_DATA (R103, R158, R163) -/

/-- A read of a Staging word of a plan table is held in SYNCING, and no other is. -/
theorem State.readHeld_iff (s : State) :
    s.readHeld = true ↔ s.window.table ≠ .source ∧ s.window.bank = .staging ∧ s.commit.state = .syncing := by
  simp [State.readHeld, and_assoc]

theorem State.tableDataRead_held {s : State} (h : s.readHeld = true) (raised : Bool) :
    s.tableDataRead raised = s.hold (.read 0x0C raised) := if_pos h

theorem State.tableDataRead_answered {s : State} (h : ¬ s.readHeld = true) (raised : Bool) : s.tableDataRead raised =
    { s with window := { s.window with
        readData := some s.tableWord, index := (s.window.index + 1) % s.window.table.size } } := if_neg h

/-- The word at TBL_INDEX of a plan table of the bank that TBL_SEL names. -/
theorem State.tableWord_plan {s : State} {t : PlanTable} (ht : s.window.table = .plan t) :
    s.tableWord = (s.commit.bank s.window.bank).word t s.window.index := by
  simp only [State.tableWord, ht]

/-- The record and the word of it that TBL_INDEX names. -/
theorem State.tableWord_source {s : State} (ht : s.window.table = .source) {i : SourceId} {k : Nat} (hk : k < 32)
    (hx : s.window.index = 32 * i.val + k) : s.tableWord = (s.record i).word (s.queued i) k := by
  have hsource : s.indexedSource = i := by
    have := i.isLt
    apply Fin.ext
    show s.window.index / 32 % 24 = i.val
    omega
  have hword : s.window.index % 32 = k := by omega
  simp only [State.tableWord, ht, hsource, hword]

/-- The fields of a record's status word lie side by side (R189). -/
theorem recordStatus_eq (st : SourceState) (lastValid armed queued : Bool) :
    field 0 st.code ||| bitField 8 lastValid ||| bitField 9 armed ||| bitField 10 queued =
      (match st with
        | .off => 0
        | .priming => 1
        | .live => 2
        | .starved => 3
        | .draining => 4)
      + (if lastValid then 0x100 else 0) + (if armed then 0x200 else 0) + (if queued then 0x400 else 0) := by
  revert lastValid armed queued
  cases st <;> decide

/-- The words of a source record, in their order; those past the last field read 0000h (R189). -/
theorem SourceRec.word_eq (r : SourceRec) (queued : Bool) (k : Nat) : r.word queued k =
    ([r.base, r.length, r.watermark, r.startLevel, r.policy.code, r.fillWord, bitField 0 r.keyEn, r.key,
      field 0 r.state.code ||| bitField 8 r.lastValid ||| bitField 9 r.armed ||| bitField 10 queued, r.occupancy, r.readIndex,
      r.writeIndex, r.last, r.episodes, r.missed, r.overflows, r.appended, r.consumed, r.discarded] : List Word).getD k 0 := by
  by_cases hk : k < 19
  · interval_cases k <;> rfl
  · obtain ⟨j, rfl⟩ := Nat.exists_eq_add_of_le' (Nat.le_of_not_lt hk)
    rfl

/-- Settles O31, by the table, the bank and the controller's state. -/
theorem tableReads : Obligations.TableReads := by
  intro raised s hs answered
  rw [exec_tableDataRead hs]
  refine ⟨fun t ht => ⟨fun hb => ?active, fun hb hc => ?staging, fun hb hc => ?held⟩, fun ht i k hk hx => ?source⟩
  case active =>
    rw [State.tableDataRead_answered (by simp [State.readHeld_iff, hb]), State.tableWord_plan ht, hb]
    rfl
  case staging =>
    rw [State.tableDataRead_answered (by simp [State.readHeld_iff, hc]), State.tableWord_plan ht, hb]
    rfl
  case held =>
    rw [State.tableDataRead_held (s.readHeld_iff.mpr ⟨by simp [ht], hb, hc⟩)]
    rfl
  case source =>
    intro r
    rw [State.tableDataRead_answered (by simp [State.readHeld_iff, ht]), State.tableWord_source ht hk hx, SourceRec.word_eq,
      recordStatus_eq]
    simp only [State.queued_eq_true_iff]
    rfl

end Sys2Proof.Machine
end

section
/-! SUPPORT. The buffer's port: the accesses of the host that need it as commands, and whom the arbiter grants while a cell is composed (R165,
R166, R168, R169). -/

namespace Sys2Proof.Machine

/-! ### The buffer port (R168) -/

theorem exec_bufDataRead {s : State} (hs : s.ready) (raised : Bool) : exec (.bufDataRead raised) s = .next s.bufDataRead :=
  congrArg Host.Outcome.next (State.takeAccess_ready hs _ _)

theorem exec_bufDataWrite {s : State} (hs : s.ready) (w : Word) : exec (.bufDataWrite w) s = .next (s.bufDataWrite w) :=
  congrArg Host.Outcome.next (State.takeAccess_ready hs _ _)

/-- BUF_ADDR advances to 0 from 7FFFh. -/
theorem bufAddr_succ (a : BitVec 15) : a + 1 = if a = 0x7FFF then 0 else a + 1 := by
  split
  case isTrue h => rw [h]; rfl
  case isFalse => rfl

/-- Settles O32: the read, the write, and every word the write leaves. -/
theorem bufferPortAccesses : Obligations.BufferPortAccesses := by
  intro w raised s hs hm next
  have hnext : s.window.bufAddr + 1 = next := bufAddr_succ _
  rw [exec_bufDataRead hs, exec_bufDataWrite hs]
  refine ⟨?read, Memory.write bufferDefault s.buffer s.window.bufAddr.toNat w, ?write, fun a => ?words⟩
  case read =>
    rw [← hnext]
    rfl
  case write =>
    rw [← hnext]
    rfl
  case words =>
    split
    · subst a
      exact Memory.read_write_same hm.buffer _ w
    · exact Memory.read_write_other _ _ w ‹_›

/-! ### An access of the host that asks for the port (R165) -/

theorem PortAccess.bus_portUse (p : PortAccess) : p.bus.portUse = some p := by cases p <;> rfl

theorem PortAccess.bus_raised (p : PortAccess) : p.bus.raised = decide (p = .bufRead true) := by
  cases p with
  | append w => rfl
  | bufWrite w => rfl
  | bufRead raised => cases raised <;> rfl

section
variable {f : CellFlow} (hd : f.deferred = []) (hn : f.state.window.held = none)
include hd hn

/-- With none waiting and none held, an access to the buffer asks; the composer asks too after an access in this composition. -/
theorem CellFlow.event_portAccess (p : PortAccess) :
    f.event (.access p.bus) = f.ask p (f.composing && f.ended.isSome) := by
  show f.host p.bus = _
  simp only [CellFlow.host, hd, hn, PortAccess.bus_portUse, ne_eq, not_true_eq_false, if_false]

/-- At the instant of a consult the composer asks too when the consult reads. -/
theorem CellFlow.tie_portAccess (reads : Bool) (p : PortAccess) : f.tie reads p = f.ask p (f.composing && (reads || f.ended.isSome)) := by
  simp only [CellFlow.tie, hd, hn, ne_eq, not_true_eq_false, if_false]

end

/-- The access is granted and performed: at a free port nothing held it. -/
theorem CellFlow.ask_free {f : CellFlow} (he : f.ended = none) (p : PortAccess) :
    f.ask p false = { f with state := f.state.portAccess p, ended := some .window } := by
  simp only [CellFlow.ask, he]
  rfl

/-- The access is granted at the end of the composer's read, for which it was held. -/
theorem CellFlow.ask_afterComposer {f : CellFlow} (he : f.ended = some .composer) (p : PortAccess) (composer : Bool) :
    f.ask p composer =
      { f with state := f.state.performHeld p (decide (p = .bufRead true)), ended := some .window } := by
  simp only [CellFlow.ask, he, PortAccess.bus_raised]
  cases composer <;> rfl

/-- The composer, which asks too, is granted at a free port and at the end of an access of the host. -/
theorem CellFlow.ask_behindComposer {f : CellFlow} (he : f.ended ≠ some .composer) (p : PortAccess) :
    f.ask p true = { f with deferred := [p.bus] } := by
  unfold CellFlow.ask
  cases h : f.ended with
  | none => rfl
  | some r => cases r with
    | composer => exact absurd h he
    | window => rfl

/-! ### Several accesses in the host's order (R157, R165) -/

/-- Behind an access that waits for the port, all further ones wait too. -/
theorem CellFlow.events_deferred {f : CellFlow} (hd : f.deferred ≠ []) (hs : List HostAccess) :
    f.events (hs.map CellEvent.access) = { f with deferred := f.deferred ++ hs } := by
  induction hs generalizing f with
  | nil => rw [List.append_nil]; rfl
  | cons h hs ih =>
    show (f.event (.access h)).events (hs.map CellEvent.access) = _
    rw [CellFlow.event_access_of_deferred hd, ih (by simp), List.append_assoc]
    rfl

/-- Behind an access of the host the composer has asked: all further ones wait for its read. -/
theorem CellFlow.events_behindHost {f : CellFlow} (hd : f.deferred = []) (hn : f.state.window.held = none) (hc : f.composing = true)
    (he : f.ended = some .window) (ps : List PortAccess) :
    f.events (ps.map fun q => .access q.bus) = { f with deferred := ps.map PortAccess.bus } := by
  cases ps with
  | nil => rw [List.map_nil, List.map_nil, ← hd]; rfl
  | cons p ps =>
    have hfirst : f.event (.access p.bus) = { f with deferred := [p.bus] } := by
      have hasks : (f.composing && f.ended.isSome) = true := by rw [hc, he]; rfl
      rw [CellFlow.event_portAccess hd hn, hasks, CellFlow.ask_behindComposer (by simp [he])]
    show (f.event (.access p.bus)).events (ps.map (CellEvent.access ∘ PortAccess.bus)) = _
    rw [hfirst, ← List.map_map, CellFlow.events_deferred (by simp)]
    rfl

theorem State.portAccess_held (s : State) (p : PortAccess) : (s.portAccess p).window.held = s.window.held :=
  (s.performHeld_held p false).1

/-- Settles O48: the grant, the commands, and the accesses of a composition by the requester whose access ended last. -/
theorem arbiterGrantsPort : Obligations.ArbiterGrantsPort := by
  refine ⟨fun ended => ⟨rfl, rfl, rfl⟩, rfl, rfl, rfl, fun w raised s hs => ?commands, fun f p ps hd hn hc => ?composition⟩
  case commands => exact ⟨exec_append hs w, exec_bufDataWrite hs w, exec_bufDataRead hs raised⟩
  case composition =>
    intro accesses done undelivered performed waiting
    have rest {t : State} (ht : t.window.held = none) :
        (performed t).events (ps.map fun q => .access q.bus) = { performed t with deferred := waiting } :=
      CellFlow.events_behindHost (f := performed t) hd ht hc rfl ps
    have events_eq {t : State} (ht : t.window.held = none) (h : f.event (.access p.bus) = performed t) :
        f.events accesses = { performed t with deferred := waiting } := (congrArg (CellFlow.events · _) h).trans (rest ht)
    have hdone : done.window.held = none := (f.state.portAccess_held p).trans hn
    refine ⟨fun he => ?free, fun he t ht => ?afterComposer, fun he => ?afterHost⟩
    case free =>
      have ask : f.ask p false = performed done := CellFlow.ask_free he p
      have htie (reads : Bool) : f.tie reads p = f.ask p reads := by
        rw [CellFlow.tie_portAccess hd hn, hc, he, Option.isSome_none, Bool.or_false, Bool.true_and]
      refine ⟨events_eq hdone ?_, ?_, (htie false).trans ask⟩
      · rw [CellFlow.event_portAccess hd hn, he, Option.isSome_none, Bool.and_false, ask]
      · rw [htie, CellFlow.ask_behindComposer (by simp [he])]
    case afterComposer =>
      have ask (composer : Bool) : f.ask p composer = performed t := by
        rw [CellFlow.ask_afterComposer he, ht, State.performHeld]
        simp only [decide_eq_true_eq]
        rfl
      have hheld : t.window.held = none := by
        rw [ht]; split <;> exact hdone
      rw [CellFlow.tie_portAccess hd hn, CellFlow.tie_portAccess hd hn]
      exact ⟨events_eq hheld ((CellFlow.event_portAccess hd hn p).trans (ask _)), ask _, ask _⟩
    case afterHost =>
      have hasks (reads : Bool) : (f.composing && (reads || f.ended.isSome)) = true := by simp [hc, he]
      refine ⟨CellFlow.events_behindHost hd hn hc he (p :: ps), fun reads => ?_⟩
      rw [CellFlow.tie_portAccess hd hn, hasks, CellFlow.ask_behindComposer (by simp [he])]

end Sys2Proof.Machine
end

section
/-! SUPPORT. The interrupt unit: the writes to its registers and when INT is asserted, what a refusal leaves in the error record, and then
the law of error capture through each access, event and piece of a composition (R172, R173, R175 … R180). -/

namespace Sys2Proof.Machine

/-! ### Writes to the interrupt unit, and INT (R173, R175, R176, R179) -/

section
variable {s : State} (hs : s.ready) (w : Word)
include hs

theorem exec_intFlagsWrite : exec (.intFlagsWrite w) s = .next (s.intFlagsWrite w) :=
  congrArg Host.Outcome.next (State.takeAccess_ready hs _ _)

theorem exec_intEnableWrite : exec (.intEnableWrite w) s = .next (s.intEnableWrite w) :=
  congrArg Host.Outcome.next (State.takeAccess_ready hs _ _)

theorem exec_errKindWrite : exec (.errKindWrite w) s = .next s.errKindWrite :=
  congrArg Host.Outcome.next (State.takeAccess_ready hs _ _)

end

/-- Each flag's bit after a write to INT_FLAGS: a 1 in the written word clears it, a 0 leaves it. -/
theorem State.intFlagsWrite_getLsbD (s : State) (w : Word) {k : Nat} (hk : k < 11) :
    (s.intFlagsWrite w).irq.flags.getLsbD k = (s.irq.flags.getLsbD k && !w.getLsbD k) := by
  simp [State.intFlagsWrite, hk]

theorem State.intEnableWrite_getLsbD (s : State) (w : Word) {k : Nat} (hk : k < 11) :
    (s.intEnableWrite w).irq.enables.getLsbD k = w.getLsbD k := by
  simp [State.intEnableWrite, hk]

/-- INT is asserted exactly when some flag is set with its enable set (R176). -/
theorem Interrupts.int_iff (q : Interrupts) :
    q.int = true ↔ ∃ k, k < 11 ∧ q.flags.getLsbD k = true ∧ q.enables.getLsbD k = true := by
  have common_bit : q.flags &&& q.enables ≠ 0#11 ↔ ∃ k, q.flags.getLsbD k = true ∧ q.enables.getLsbD k = true := by
    rw [Ne, BitVec.zero_iff_eq_false]
    simp
  rw [Interrupts.int, bne_iff_ne]
  exact common_bit.trans (exists_congr fun k => ⟨fun ⟨hf, he⟩ => ⟨BitVec.lt_of_getLsbD hf, hf, he⟩, And.right⟩)

/-- Settles O11, register by register. -/
theorem interruptUnitWritesAndInt : Obligations.InterruptUnitWritesAndInt := by
  intro w s
  exact ⟨fun hs => ⟨_, exec_intFlagsWrite hs w, fun _ => s.intFlagsWrite_getLsbD w⟩,
    fun hs => ⟨_, exec_intEnableWrite hs w, fun _ => s.intEnableWrite_getLsbD w⟩,
    fun hs => exec_errKindWrite hs w, s.irq.int_iff⟩

/-! ### A refusal (R178) -/

/-- A refusal fills an empty record and raises ERROR. -/
theorem State.report_of_empty {s : State} (h : s.irq.errKind = .none) (kind : ErrKind) (a b : Word) :
    s.report kind a b =
      { s with irq := { s.irq with errKind := kind, detailA := a, detailB := b, flags := s.irq.flags ||| Flag.error.mask } } := by
  unfold State.report
  rw [h]
  rfl

/-- A refusal on a full record counts in AFTER_COUNT, which stops at FFh. -/
theorem State.report_of_full {s : State} (h : s.irq.errKind ≠ .none) (kind : ErrKind) (a b : Word) :
    s.report kind a b = { s with irq := { s.irq with
      afterCount := if s.irq.afterCount = 0xFF then s.irq.afterCount else s.irq.afterCount + 1 } } := by
  unfold State.report
  split
  · contradiction
  · rfl

/-- Settles O12, by whether the record is full and AFTER_COUNT at its end. -/
theorem refusalIsCaptured : Obligations.RefusalIsCaptured := by
  intro kind a b s
  refine ⟨fun hempty => s.report_of_empty hempty kind a b, fun hfull hcount => ?counts, fun hfull hcount => ?stays⟩
  case counts => rw [s.report_of_full hfull, if_neg hcount]
  case stays => rw [s.report_of_full hfull, if_pos hcount]

/-! ### What reaches flags and enables only -/

theorem State.startRun_irq (s : State) : s.startRun.irq = s.irq := by
  unfold State.startRun State.composeFirst
  simp

theorem State.startEdge_irq (s : State) : s.startEdge.irq = s.irq := by
  obtain ⟨-, h⟩ | ⟨-, h⟩ := s.startEdge_cases <;> rw [h]
  exact s.startRun_irq

/-- A source command that is carried out can only raise REFILL (R45 … R48, R51). -/
theorem SourceCommand.body_irq {c : SourceCommand} {i : SourceId} {s t : State} (h : c.body i s = .ok t) :
    ∃ f : BitVec 11, t.irq = { s.irq with flags := f } := by
  cases c <;> simp only [SourceCommand.body, doOpen, doClose, doKill, doFlush] at h <;> (repeat' split at h) <;> cases h
  all_goals exact ⟨_, rfl⟩

namespace State.ErrorLawful

variable {s t : State}

/-- The flags and the enables are not the error record's concern. -/
theorem ofFlags (hs : s.ErrorLawful) {f e : BitVec 11} (h : t.irq = { s.irq with flags := f, enables := e }) : t.ErrorLawful :=
  hs.congr (by rw [h]) (by rw [h]) (by rw [h]) (by rw [h])

theorem ofReset (h : t.irq = Interrupts.reset) : t.ErrorLawful := by
  rw [State.ErrorLawful, h]
  exact fun _ => ⟨rfl, rfl, rfl⟩

theorem takeCheck (hs : s.ErrorLawful) (i : SourceId) : (s.takeCheck i).ErrorLawful := by
  unfold State.takeCheck State.watermarkCheck
  dsimp only
  split
  · split
    · exact hs.ofFlags rfl
    · exact hs.same rfl
  · exact hs

theorem tick (hs : s.ErrorLawful) : s.tick.ErrorLawful := by
  unfold State.tick
  dsimp only
  split
  · exact hs.ofFlags rfl
  · exact hs.same rfl
  · exact hs.same rfl

theorem tsyncEdge (hs : s.ErrorLawful) : s.tsyncEdge.ErrorLawful := by
  unfold State.tsyncEdge
  split
  · exact hs.ofFlags rfl
  · exact hs
  · exact hs

theorem validationEnd (hs : s.ErrorLawful) : s.validationEnd.ErrorLawful := by
  unfold State.validationEnd
  split
  case h_1 =>
    split
    case h_1 => exact hs.ofFlags rfl
    case h_2 => split <;> exact hs.same rfl
  all_goals exact hs

theorem startEvent (hs : s.ErrorLawful) (m : Nat) : (s.startEvent m).ErrorLawful := by
  unfold State.startEvent
  dsimp only
  split <;> exact hs.ofFlags rfl

theorem consult (hs : s.ErrorLawful) (i : SourceId) : (s.consult i).state.ErrorLawful := by
  obtain ⟨m, h⟩ := s.consult_irq i
  exact hs.ofFlags h

/-! ### Run requests and the ends of a run -/

theorem startRequest (hs : s.ErrorLawful) (w : Word) : (s.startRequest w).ErrorLawful := by
  obtain ⟨-, h⟩ | ⟨-, -, h⟩ | ⟨-, -, h⟩ := s.startRequest_cases w <;> rw [h]
  · exact .report s (by decide) _ _
  · exact hs.same (State.startRun_irq _)
  · exact hs.same rfl

theorem disarm (hs : s.ErrorLawful) : s.disarm.ErrorLawful := hs.ofFlags rfl

theorem stopEndMinor (hs : s.ErrorLawful) : s.stopEndMinor.ErrorLawful := by
  unfold State.stopEndMinor
  dsimp only
  split
  case h_1 => exact hs.same rfl
  case h_2 => split <;> exact hs.same rfl
  case h_3 => exact hs.disarm
  case h_4 | h_5 => exact hs

theorem stopEndMajor (hs : s.ErrorLawful) : s.stopEndMajor.ErrorLawful := by
  unfold State.stopEndMajor
  split
  case h_1 => exact hs.same rfl
  case h_2 => exact hs.disarm
  all_goals exact hs

theorem abort (hs : s.ErrorLawful) : s.abort.ErrorLawful := by
  unfold State.abort
  split
  case h_1 | h_2 => exact (hs.same (s.cutRun_irq .stopped)).raise .stopped
  case h_3 => exact hs.disarm
  case h_4 | h_5 => exact hs

theorem stoppingEnd (hs : s.ErrorLawful) : s.stoppingEnd.ErrorLawful := by
  unfold State.stoppingEnd
  split
  · exact (hs.same (s.leaveRun_irq .stopped)).raise .stopped
  · exact hs

theorem clockLossExpiry (hs : s.ErrorLawful) : s.clockLossExpiry.ErrorLawful := by
  unfold State.clockLossExpiry
  split
  · exact (hs.same (s.cutRun_irq .halted)).raise .halt
  · exact hs

theorem resetRelease (hs : s.ErrorLawful) : s.resetRelease.ErrorLawful := by
  unfold State.resetRelease
  split
  · exact hs.same rfl
  · exact hs

/-! ### Accesses that can be refused (R184) -/

theorem clockRegWrite (hs : s.ErrorLawful) (r : ClockReg) (w : Word) : (s.clockRegWrite r w).ErrorLawful := by
  unfold State.clockRegWrite
  split
  · exact hs.same rfl
  · exact .report s (by decide) _ _

theorem refuseCommit (s : State) (w : Word) (req : CommitReq) : (s.refuseCommit w req).ErrorLawful := .report _ (by decide) _ _

theorem commitRequest (hs : s.ErrorLawful) : s.commitRequest.ErrorLawful := by
  unfold State.commitRequest
  split
  case h_1 => exact hs.same rfl
  all_goals exact .refuseCommit s _ _

theorem cancelRequest (hs : s.ErrorLawful) : s.cancelRequest.ErrorLawful := by
  unfold State.cancelRequest
  split
  case h_1 => exact hs
  case h_2 | h_3 => exact hs.same rfl
  case h_4 => exact .refuseCommit s _ _

theorem commitCtrlWrite (hs : s.ErrorLawful) (w : Word) : (s.commitCtrlWrite w).ErrorLawful := by
  unfold State.commitCtrlWrite
  split
  · exact hs.commitRequest
  · split
    · exact hs.cancelRequest
    · exact .refuseCommit s _ _

theorem tblSelWrite (hs : s.ErrorLawful) (w : Word) : (s.tblSelWrite w).ErrorLawful := by
  unfold State.tblSelWrite
  split
  · exact hs.same rfl
  · exact .report s (by decide) _ _

theorem tableDataWrite (hs : s.ErrorLawful) (w : Word) : (s.tableDataWrite w).ErrorLawful := by
  obtain ⟨a, b, h⟩ | ⟨pt, -, -, -, h⟩ | ⟨t, -, ht, h⟩ := s.tableDataWrite_cases w <;> rw [h]
  · exact (State.ErrorLawful.report s (kind := .tableWrite) (by decide) a b).same (by simp)
  · exact hs.same rfl
  · obtain ⟨-, -, -, -, -, -, -, -, -, hirq, -⟩ := writeSourceWord_frame ht
    exact hs.same (t := t.advanceIndex) hirq

theorem append (hs : s.ErrorLawful) (w : Word) : (s.append w).ErrorLawful := by
  unfold State.append State.appendTo
  dsimp only
  split
  · split
    · split
      · exact hs.same rfl
      · exact .report _ (by decide) _ _
    · exact .report s (by decide) _ _
  · exact .report s (by decide) _ _

theorem srcCmd (hs : s.ErrorLawful) (cmd : BitVec 4) (src : BitVec 8) : (s.srcCmd cmd src).ErrorLawful := by
  unfold State.srcCmd
  split
  · rename_i c _
    obtain ⟨r, h⟩ | ⟨i, t, -, ht, h⟩ := s.sourceCommand_cases c src c.body <;> rw [h]
    · exact .report _ (by decide) _ _
    · obtain ⟨f, hf⟩ := SourceCommand.body_irq ht
      exact hs.ofFlags hf
  · exact .report _ (by decide) _ _

theorem timeCtrlWrite (hs : s.ErrorLawful) (w : Word) : (s.timeCtrlWrite w).ErrorLawful := by
  unfold State.timeCtrlWrite
  (repeat' split)
  case isFalse.isFalse.isFalse => exact .report s (by decide) _ _
  all_goals exact hs.same rfl

/-! ### Accesses carried out at once -/

/-- A refused access leaves the record full, a write to ERR_KIND and a soft reset leave it empty, and every other access leaves it as it
is. -/
theorem carryOut (hs : s.ErrorLawful) (h : HostAccess) : (s.carryOut h).ErrorLawful := by
  apply State.carryOut_keeps (P := State.ErrorLawful) s h
  case start => exact hs.startRequest
  case refuseRun => exact fun w => .report s (by decide) _ _
  case endMinor => exact hs.stopEndMinor
  case endMajor => exact hs.stopEndMajor
  case abort => exact hs.abort
  case clock => exact hs.clockRegWrite
  case commit => exact hs.commitCtrlWrite
  case sel => exact hs.tblSelWrite
  case dataWrite => exact hs.tableDataWrite
  case append => exact hs.append
  case command => exact fun w => hs.srcCmd _ _
  case timeCtrl => exact hs.timeCtrlWrite
  case flags | enables => intro w; exact hs.ofFlags rfl
  case errKind => exact .errKindWrite s
  case softReset => exact .ofReset rfl
  all_goals intros; exact hs.same (by simp)

end State.ErrorLawful

/-! ### Every step -/

theorem keptPieces_errorRecord : KeptPieces State.ErrorLawful where
  carryOut _ h hs := hs.carryOut h
  port _ _ hs := hs.same rfl
  window _ _ _ _ hs := hs.same rfl
  advanceIndex _ hs := hs.same rfl
  takeCheck _ i hs := hs.takeCheck i
  tick _ hs := hs.tick
  tsyncEdge _ hs := hs.tsyncEdge
  validationEnd _ hs := hs.validationEnd
  copyBack _ _ hs := hs.ofFlags rfl

theorem keptCompose_errorRecord : KeptCompose State.ErrorLawful State.ErrorLawful where
  events := keptPieces_errorRecord.events
  openCell _ _ _ hs := hs.same (by simp)
  setLookahead _ _ _ _ hs := hs.same rfl
  consult _ i hs := hs.consult i
  close _ _ _ hs := hs.same rfl

theorem State.ErrorLawful.firstBit {s : State} (hs : s.ErrorLawful) (gaps : List CellGap) (reading : Bool) :
    (s.firstBit gaps reading).ErrorLawful :=
  keptCompose_errorRecord.firstBit (fun _ h => h) (fun _ _ _ _ _ h => h.same rfl) (fun _ m h => h.startEvent m)
    (fun _ h => h.same (by simp)) (fun _ h => h.same rfl) s gaps reading hs

theorem kept_errorRecord : Kept State.ErrorLawful where
  pending _ _ hs := hs.same rfl
  settle := keptPieces_errorRecord.settle
  hold s h _ _ _ := keptPieces_errorRecord.hold s h
  wait s x h _ _ := keptPieces_errorRecord.waitBehind s x h
  carryOut s h _ _ := keptPieces_errorRecord.carryOut s h
  hardwareReset _ _ _ := .ofReset rfl
  resetRelease _ hs := hs.resetRelease
  takeCheck _ i hs := hs.takeCheck i
  startEdge s hs := hs.same s.startEdge_irq
  stoppingEnd _ hs := hs.stoppingEnd
  clockLossExpiry _ hs := hs.clockLossExpiry
  bclkiRisingEdge _ hs := hs.same (by simp)
  bitPeriodStart _ hs := hs.same (by simp)
  firstBit _ gaps reading _ hs := hs.firstBit gaps reading
  validationEnd _ hs := hs.validationEnd
  copyBackEnd s _ := keptPieces_errorRecord.copyBackEnd s
  tick _ hs := hs.tick
  tsyncEdge _ hs := hs.tsyncEdge
  divider _ _ hs := hs.same rfl
  elapsed _ _ hs := hs.same rfl
  lossTimer _ _ hs := hs.same rfl
  halfCount _ _ hs := hs.same rfl
  rise _ hs := hs.same rfl

/-- Settles O60: what every access and every event keeps, every step keeps. -/
theorem stepKeepsErrorRecord : Obligations.StepKeepsErrorRecord := fun _ _ hs h => kept_errorRecord.step hs h

end Sys2Proof.Machine
end

section
/-! SUPPORT. The registers with several fields and the status word, as fields laid side by side, and the codes of those fields (R155, R183,
R184, R185, R190). -/

namespace Sys2Proof.Machine

/-! ### Fields placed in a word

`field_append` is the one idea of the layouts: a row of fields is placed by placing its lowest field, and the rest above it. -/

theorem getLsbD_field {n : Nat} (at_ : Nat) (v : BitVec n) (k : Nat) :
    (field at_ v).getLsbD k = (decide (at_ ≤ k ∧ k < 16) && v.getLsbD (k - at_)) := by
  by_cases below : k < at_
  · simp [field, below, show ¬ at_ ≤ k by omega]
  · by_cases hk : k < 16
    · simp [field, below, hk, show at_ ≤ k by omega]
    · simp [field, hk]

theorem field_append {m n : Nat} (at_ : Nat) (hi : BitVec m) (lo : BitVec n) :
    field at_ (hi ++ lo) = field at_ lo ||| field (at_ + n) hi := by
  apply BitVec.eq_of_getLsbD_eq
  intro k hk
  simp only [BitVec.getLsbD_or, getLsbD_field, BitVec.getLsbD_append]
  by_cases low : k < at_ + n
  · by_cases above : at_ ≤ k
    · simp [above, hk, show k - at_ < n by omega, show ¬ at_ + n ≤ k by omega]
    · simp [above, show ¬ at_ + n ≤ k by omega]
  · simp [hk, show at_ ≤ k by omega, show ¬ k - at_ < n by omega, show at_ + n ≤ k by omega,
      BitVec.getLsbD_of_ge lo (k - at_) (by omega), Nat.sub_add_eq]

theorem field_zeros (at_ n : Nat) : field at_ (0 : BitVec n) = 0#16 := by simp [field]

/-- A marker is a field of one bit. -/
theorem field_ofBool (at_ : Nat) (b : Bool) : field at_ (BitVec.ofBool b) = bitField at_ b := by
  cases b
  · exact field_zeros at_ 1
  · exact BitVec.eq_of_toNat_eq (by simp [field, bitField, BitVec.toNat_shiftLeft])

theorem field_word (w : Word) : field 0 w = w := by rw [field_zero, BitVec.setWidth_eq]

/-! ### Registers with several fields (R183, R190) -/

theorem Downlink.runStatus_layout (d : Downlink) : d.runStatus =
    field 0 ((0 : BitVec 6) ++ d.lostWords ++ (0 : BitVec 2) ++ d.target.code ++ (0 : BitVec 1) ++ d.link.code) := by
  rw [Downlink.runStatus, field_append, field_append, field_append, field_append, field_append]
  simp only [field_zeros, BitVec.or_zero, BitVec.zero_or, BitVec.or_assoc, Nat.reduceAdd]

theorem Downlink.clkMode_layout (d : Downlink) :
    d.clkMode = field 0 ((0 : BitVec 13) ++ d.trigger.code ++ BitVec.ofBool d.idleLevel ++ d.clkSrc.code) := by
  rw [Downlink.clkMode, field_append, field_append, field_append]
  simp only [field_zeros, field_ofBool, BitVec.or_zero, BitVec.or_assoc, Nat.reduceAdd]

theorem Commit.status_layout (c : Commit) : c.status =
    field 0 ((0 : BitVec 5) ++ c.req.code ++ (0 : BitVec 1) ++ c.result.code ++ (0 : BitVec 2) ++ c.state.code) := by
  rw [Commit.status, field_append, field_append, field_append, field_append, field_append]
  simp only [field_zeros, BitVec.or_zero, BitVec.zero_or, BitVec.or_assoc, Nat.reduceAdd]

theorem tblSelWord_layout (t : Table) (b : Role) :
    tblSelWord t b = field 0 ((0 : BitVec 7) ++ b.code ++ (0 : BitVec 5) ++ t.code) := by
  rw [tblSelWord, field_append, field_append, field_append]
  simp only [field_zeros, BitVec.or_zero, BitVec.zero_or, Nat.reduceAdd]

theorem SourceUnit.cmdStatus_layout (u : SourceUnit) : u.cmdStatus = field 0 (u.cmdResult.code ++ u.cmdCode ++ u.cmdSource) := by
  rw [SourceUnit.cmdStatus, field_append, field_append]
  simp only [BitVec.or_assoc, Nat.reduceAdd]

theorem TimeCounter.ctrl_layout (t : TimeCounter) :
    t.ctrl = field 0 ((0 : BitVec 7) ++ BitVec.ofBool t.timeSet ++ (0 : BitVec 6) ++ t.load.code) := by
  rw [TimeCounter.ctrl, field_append, field_append, field_append]
  simp only [field_zeros, field_ofBool, BitVec.or_zero, BitVec.zero_or, Nat.reduceAdd]

/-- A register of one field, zeros above it. -/
theorem field_layout (m : Nat) {n : Nat} (v : BitVec n) : field 0 v = field 0 ((0 : BitVec m) ++ v) := by
  rw [field_append, field_zeros, BitVec.or_zero]

/-! ### The head of the refill queue (R56, R190) -/

/-- A source's number fits in the eight bits of REFILL_HEAD. -/
theorem field_sourceId (i : SourceId) : field 0 (BitVec.ofNat 8 i.val) = BitVec.ofNat 16 i.val := by
  revert i
  decide

section
variable {q : RefillQueue} {r : RefillRec} {rest : List RefillRec} (h : q.records = r :: rest)
include h

theorem RefillQueue.head_layout : q.head = field 0 ((0 : BitVec 6) ++ r.reason.code ++ BitVec.ofNat 8 r.source.val) := by
  rw [field_append, field_append]
  simp only [RefillQueue.head, h, field_zeros, field_sourceId, BitVec.or_zero, Nat.reduceAdd]

theorem RefillQueue.headAux_layout : q.headAux = field 0 (presentedOcc r.occAtEntry ++ r.rowAtEntry) := by
  rw [field_append]
  simp only [RefillQueue.headAux, h, Nat.reduceAdd]

end

theorem presentedOcc_eq (occ : Word) : presentedOcc occ = if occ.toNat ≤ 254 then occ.setWidth 8 else 0xFF := by
  simp only [presentedOcc, Nat.lt_succ_iff]

theorem RefillQueue.heads_of_empty {q : RefillQueue} (h : q.records = []) : q.head = 0x00FF ∧ q.headAux = 0 := by
  simp only [RefillQueue.head, RefillQueue.headAux, h, and_self]

/-! ### The status word (R155) -/

theorem getLsbD_bitField (at_ : Nat) (b : Bool) (k : Nat) :
    (bitField at_ b).getLsbD k = (decide (at_ ≤ k ∧ k < 16) && (decide (k = at_) && b)) := by
  rw [← field_ofBool, getLsbD_field, BitVec.getLsbD_ofBool]
  by_cases h : at_ ≤ k
  · simp [show k - at_ = 0 ↔ k = at_ by omega]
  · simp [h]

/-- A bit of the status word: six markers, each at a place of its own, and the low byte of MAJOR_COUNT. -/
theorem State.statusWord_getLsbD (s : State) (k : Nat) : s.statusWord.getLsbD k =
    if k = 0 then s.composer.capturedU
    else if k = 1 then decide (∃ i : SourceId, (s.record i).state = .starved)
    else if k = 2 then s.composer.newPlanFrame
    else if k = 3 then s.time.timeSet
    else if k = 4 then decide (s.refill.records ≠ [])
    else if k = 5 then decide (∃ i : SourceId, (s.record i).state = .draining)
    else decide (8 ≤ k ∧ k < 16) && s.downlink.majorCount.getLsbD (k - 8) := by
  have waiting : (!s.refill.records.isEmpty) = decide (s.refill.records ≠ []) := by cases s.refill.records <;> rfl
  simp only [State.statusWord, State.someSource_iff, waiting, BitVec.getLsbD_or, getLsbD_bitField, getLsbD_field, BitVec.getLsbD_setWidth]
  by_cases marker : k < 6
  · interval_cases k <;> simp
  · by_cases count : 8 ≤ k ∧ k < 16
    · simp [count, show k - 8 < 8 by omega, show ∀ j < 6, k ≠ j by omega]
    · simp [count, show ∀ j < 6, k ≠ j by omega]

/-! ### The statements -/

/-- Settles O15, register by register: each is its fields placed at bit 0, a whole word. -/
theorem registerLayouts : Obligations.RegisterLayouts := by
  intro s
  refine ⟨s.downlink.runStatus_layout.trans (field_word _), s.downlink.clkMode_layout.trans (field_word _),
    s.commit.status_layout.trans (field_word _), (tblSelWord_layout _ _).trans (field_word _),
    s.sources.cmdStatus_layout.trans (field_word _), fun q rest h => ⟨?head, ?aux⟩, RefillQueue.heads_of_empty,
    s.time.ctrl_layout.trans (field_word _), (field_layout _ _).trans (field_word _), (field_layout _ _).trans (field_word _),
    (field_layout _ _).trans (field_word _), rfl, rfl, (field_layout _ _).trans (field_word _), s.statusWord_getLsbD⟩
  case head => exact (RefillQueue.head_layout h).trans (field_word _)
  case aux =>
    rw [← presentedOcc_eq]
    exact (RefillQueue.headAux_layout h).trans (field_word _)

/-- Settles O16, field by field: every code is a value of the field's own `code`. -/
theorem fieldCodes : Obligations.FieldCodes :=
  ⟨rfl, rfl, rfl, rfl, rfl, rfl, rfl, rfl, rfl, rfl, rfl, fun _ => rfl, rfl, rfl, rfl, rfl, rfl, rfl⟩

end Sys2Proof.Machine
end

section
/-! SUPPORT. The queue of the commands that wait: a step takes its front command, and no command has a part in the rest of it (00_scope.md
section 5.3). -/

namespace Sys2Proof.Machine

/-! ### The operations that have no record law of their own leave the queue -/

@[simp] theorem State.composeFirst_pending (s : State) : s.composeFirst.pending = s.pending := by simp [State.composeFirst]

@[simp] theorem State.startRun_pending (s : State) : s.startRun.pending = s.pending := by simp [State.startRun]

@[simp] theorem State.startRequest_pending (s : State) (w : Word) : (s.startRequest w).pending = s.pending := by
  obtain ⟨-, h⟩ | ⟨-, -, h⟩ | ⟨-, -, h⟩ := s.startRequest_cases w <;> simp [h]

@[simp] theorem State.startEdge_pending (s : State) : s.startEdge.pending = s.pending := by
  obtain ⟨-, h⟩ | ⟨-, h⟩ := s.startEdge_cases <;> simp [h]

@[simp] theorem State.tableDataWrite_pending (s : State) (w : Word) : (s.tableDataWrite w).pending = s.pending := by
  obtain ⟨a, b, h⟩ | ⟨pt, -, -, -, h⟩ | ⟨t, -, ht, h⟩ := s.tableDataWrite_cases w
  · simp [h]
  · simp [h]
  · obtain ⟨hp, -⟩ := writeSourceWord_frame ht
    simp [h, hp]

@[simp] theorem State.resetRelease_pending (s : State) : s.resetRelease.pending = s.pending := by
  unfold State.resetRelease
  split <;> rfl

/-! ### Accesses and compositions leave the queue

`Kept` asks that a property survive a replaced queue, which this one does not; `KeptPieces` and `KeptCompose` do not ask it. -/

/-- The queue is `q`. -/
def State.QueueIs (q : List Instr) (s : State) : Prop := s.pending = q

section Queue

variable {q : List Instr}

theorem State.QueueIs.same {s t : State} (hs : s.QueueIs q) (h : t.pending = s.pending) : t.QueueIs q := h.trans hs

theorem State.QueueIs.carryOut {s : State} (hs : s.QueueIs q) (h : HostAccess) : (s.carryOut h).QueueIs q := by
  apply State.carryOut_keeps (P := State.QueueIs q) s h
  case softReset => exact hs.same rfl
  all_goals intros; exact hs.same (by simp)

theorem keptPieces_queue : KeptPieces (State.QueueIs q) where
  carryOut _ h hs := hs.carryOut h
  port _ _ hs := hs.same rfl
  window _ _ _ _ hs := hs.same rfl
  advanceIndex _ hs := hs.same rfl
  takeCheck _ _ hs := hs.same (by simp)
  tick _ hs := hs.same (by simp)
  tsyncEdge _ hs := hs.same (by simp)
  validationEnd _ hs := hs.same (by simp)
  copyBack _ _ hs := hs.same rfl

theorem keptCompose_queue : KeptCompose (State.QueueIs q) (State.QueueIs q) where
  events := keptPieces_queue.events
  openCell _ _ _ hs := hs.same (by simp)
  setLookahead _ _ _ _ hs := hs.same rfl
  consult _ _ hs := hs.same (by simp)
  close _ _ _ hs := hs.same rfl

end Queue

@[simp] theorem State.access_pending (s : State) (h : HostAccess) : (s.access h).pending = s.pending := keptPieces_queue.access s h rfl

/-- Whatever falls among the consults of the cell, its composition leaves the queue. -/
@[simp] theorem State.firstBit_pending (s : State) (gaps : List CellGap) (reading : Bool) :
    (s.firstBit gaps reading).pending = s.pending :=
  keptCompose_queue.firstBit (fun _ h => h) (fun _ _ _ _ _ h => h.same rfl) (fun _ _ h => h.same (by simp))
    (fun _ h => h.same (by simp)) (fun _ h => h.same rfl) s gaps reading rfl

@[simp] theorem State.copyBackEnd_pending (s : State) : s.copyBackEnd.pending = s.pending := by
  cases h : s.commit.state with
  | syncing => exact keptPieces_queue.copyBackEnd s h rfl
  | edit | validating | pending => rw [State.copyBackEnd, h]

/-! ### Commands leave the queue -/

/-- An event that leaves the queue leaves it at whatever stands before it: RESET# asserted, or a buffer access that ends first. -/
theorem State.outOfReset_pending (s : State) {body : State → State} (hb : ∀ t, (body t).pending = t.pending) :
    (s.outOfReset body).pending = s.pending := by
  unfold State.outOfReset
  split
  · rfl
  · exact (hb s.settle).trans s.settle_pending

/-- Settles O2: a command is an access, which the register window takes, holds or lets wait, or an event, event by event. -/
theorem everyCommandCompletesAndKeepsQueue : Obligations.EveryCommandCompletesAndKeepsQueue := by
  intro c s
  cases hc : accessOf c with
  | some h => exact ⟨s.access h, exec_of_access hc s, s.access_pending h⟩
  | none =>
    cases c <;> simp only [accessOf, reduceCtorEq] at hc
    case clockRegisterWrite r w => cases r <;> cases hc
    case hardwareReset b => exact ⟨s.hardwareReset b, rfl, rfl⟩
    case resetRelease => exact ⟨s.resetRelease, rfl, s.resetRelease_pending⟩
    all_goals exact ⟨_, rfl, s.outOfReset_pending (by simp)⟩

/-- Settles O1: on a queue with a front command `step` is its first branch. -/
theorem stepTakesFrontCommand : Obligations.StepTakesFrontCommand := fun _ _ _ => rfl

end Sys2Proof.Machine
end
